-- ==== Sys2Proof/Word.lean ====
section
/-! DEFINITION. The words of the SD host block: bytes and the unsigned widths of rule R110. -/

namespace Sys2Proof

/-- One byte, the unit of every bus exchange (R110). -/
abbrev Byte := BitVec 8

/-- `u16` of R110: the poll counter. -/
abbrev U16 := BitVec 16

/-- `u32` of R110: a block index, a command argument. -/
abbrev U32 := BitVec 32

/-- `u64` of R110. The number of blocks of an `EraseBlocks` request is held in it: DESIGN CHOICE, R213 says "unsigned" and
gives no width (assumption log 37). -/
abbrev U64 := BitVec 64

end Sys2Proof
end

