-- ==== Sys2Proof/Config.lean ====
section
/-! DEFINITION. The implementation parameters (`Params`), and what the environment of the block decides: FREE VALUES,
constants with no body, so that no proof can know them. Each is applied to a plain counter of State (`draws`), and each stands behind an
input list of State (`miso`, `ticks`, `grants`), so that a statement about every state is a statement about
every card, every time base and every bus lock.

The values of R107, and the defaults of R108 and R109, are definitions of Sys2Proof/Machine/Params.lean, one for each
`P_` name, so that a single value can be mended. -/

namespace Sys2Proof

/-! ### The configuration -/

/-- The parameters of R108 and R109 that "a model should still take as arguments" (92_eei_decisions.md, end). State holds
one such record, no step changes it, and every operation takes it as its argument; `Params.spec` has the defaults
(assumption log 35). The parameters of R107 are no fields: the document fixes their values. Durations are in
microseconds. -/
structure Params where
  /-- P_CMD_GO_IDLE -/
  cmdGoIdle : BitVec 6
  /-- P_CMD_IF_COND -/
  cmdIfCond : BitVec 6
  /-- P_CMD_SEND_CSD -/
  cmdSendCsd : BitVec 6
  /-- P_CMD_SEND_CID -/
  cmdSendCid : BitVec 6
  /-- P_CMD_STOP -/
  cmdStop : BitVec 6
  /-- P_CMD_SET_BLOCKLEN -/
  cmdSetBlockLen : BitVec 6
  /-- P_CMD_READ_SINGLE -/
  cmdReadSingle : BitVec 6
  /-- P_CMD_WRITE_SINGLE -/
  cmdWriteSingle : BitVec 6
  /-- P_CMD_WRITE_MULTI -/
  cmdWriteMulti : BitVec 6
  /-- P_CMD_APP -/
  cmdApp : BitVec 6
  /-- P_CMD_READ_OCR -/
  cmdReadOcr : BitVec 6
  /-- P_CRC_GO_IDLE -/
  crcGoIdle : Byte
  /-- P_CRC_IF_COND -/
  crcIfCond : Byte
  /-- P_IF_COND_ARG -/
  ifCondArg : U32
  /-- P_CHECK_PATTERN -/
  checkPattern : Byte
  /-- P_HCS: the high-capacity-support bit of the argument of ACMD41 -/
  hcs : U32
  /-- P_R1_IDLE: the response of an idle card -/
  r1Idle : Byte
  /-- P_R1_ILLEGAL: the illegal-command bit of a response, as a mask -/
  r1Illegal : Byte
  /-- P_FILL (D3): byte sent while the block only reads -/
  fill : Byte
  /-- P_CRC_DUMMY (D9): CRC byte of every command but the two fixed ones, and of written data -/
  crcDummy : Byte
  /-- P_N_PRIME (D6): bytes clocked in init step 1 -/
  nPrime : Nat
  /-- P_T_CMD_BUSY (D7): budget of the not-busy wait inside `command` -/
  tCmdBusy : Nat
  /-- P_T_STOP_BUSY (D8): budget of the not-busy wait after the stop token -/
  tStopBusy : Nat
  /-- P_TICK (D4): the unit of `now()`, in microseconds -/
  tick : Nat
  /-- P_OFFSET_W (D24): bits of a host byte offset -/
  offsetW : Nat
  /-- P_LEN_W (D24): bits of a host buffer length and of a returned count -/
  lenW : Nat
  /-- P_SIZE_W (D24): bits of the value `Size()` returns -/
  sizeW : Nat
  /-- P_CS_RELEASE_ON_INIT_FAIL (D15): chip-select driven high on every failing exit of `Configure` -/
  csReleaseOnInitFail : Bool
  deriving DecidableEq, Repr

/-! ### The environment -/

/-- The two named clock rates of R132. -/
inductive Rate
  | slow
  | fast
  deriving DecidableEq, Repr, Inhabited

/-- The byte the card returns in an exchange no input list fixes: any value (R106, R142, U16). -/
opaque Config.cardByte : Nat → Byte

/-- By how much a time reading that no input list fixes exceeds the one before, less one tick (R143, R441 item 2). -/
opaque Config.freeTick : Nat → Nat

/-- Whether the bus transport grants a `lock()` that no input list decides (R140, U14, U19). -/
opaque Config.lockGrant : Nat → Bool

/-- The clock-rate setting the other users of the shared transport have left when the lock is granted (R132, R444). -/
opaque Config.otherRate : Nat → Rate

/-- What `Size()` presents for a capacity that P_SIZE_W bits do not hold, by the width and the capacity: the spec states no
value there (D24 chose a width that holds every capacity; assumption log 36). -/
opaque Config.sizeBeyond : Nat → Nat → Nat

/-- P_F_SLOW of R109, in Hz: OPEN (D10, U15). No rule depends on it. -/
opaque Config.fSlow : Nat

/-- P_F_FAST of R109, in Hz: OPEN (D10, U15). No rule depends on it. -/
opaque Config.fFast : Nat

/-- The argument of `setClockRate` (R141) for each named rate. -/
def Config.rateHz : Rate → Nat
  | .slow => Config.fSlow
  | .fast => Config.fFast

end Sys2Proof
end

