-- ==== Sys2Proof/Machine/Params.lean ====
section
/-! DEFINITION. The implementation parameters of 00_scope.md, one definition for each `P_` name.
R107: the document fixes the value, and every configuration uses it. R108: the default is general knowledge, not in the
document (assumption log 15). R109: the default is the spec's own (assumption log 16). Another value than a default is
tried by another `Params` in State (assumption log 35). Durations are in microseconds; P_F_SLOW and P_F_FAST, which are
OPEN, stand in Sys2Proof/Config.lean. -/

namespace Sys2Proof.P

/-! ### R107: fixed by the document -/

/-- P_BLOCK_SIZE: bytes in a logical block. -/
def blockSize : Nat := 512
/-- P_REG_SIZE: bytes in a CID or CSD register image. -/
def regSize : Nat := 16
/-- P_FRAME_LEN: bytes in a command frame. -/
def frameLen : Nat := 6
/-- P_FRAME_START: OR-ed into the command index to form byte 0 of a frame. -/
def frameStart : Byte := 0x40
/-- P_N_RESP_POLL: greatest number of polls for a command response. -/
def nRespPoll : Nat := 65535
/-- P_NO_RESPONSE: the sentinel "no response". -/
def noResponse : Byte := 0xFF
/-- P_IDLE_BYTE: the byte a not-busy card returns. -/
def idleByte : Byte := 0xFF
/-- P_T_IDLE: 2 s, deadline of init step 2. -/
def tIdle : Nat := 2000000
/-- P_T_OPCOND: 2 s, deadline of init step 4. -/
def tOpCond : Nat := 2000000
/-- P_T_START: 300 ms, deadline of the start-token wait. -/
def tStart : Nat := 300000
/-- P_T_WRITE_BUSY: 600 ms, busy-wait budget after a written data packet. -/
def tWriteBusy : Nat := 600000
/-- P_TOKEN_START: data-start token, read and single-block write. -/
def tokenStart : Byte := 0xFE
/-- P_TOKEN_MULTI: data token of a multi-block write chunk. -/
def tokenMulti : Byte := 0xFC
/-- P_TOKEN_STOP: stop-transmission token. -/
def tokenStop : Byte := 0xFD
/-- P_DRESP_MASK: low 5 bits of the data-response byte. -/
def drespMask : Byte := 0x1F
/-- P_DRESP_ACCEPTED: the "accepted" data-response pattern. -/
def drespAccepted : Byte := 0x05
/-- P_OCR_CAP_MASK: top two bits of the first OCR byte. -/
def ocrCapMask : Byte := 0xC0
/-- P_BLOCKLEN_ARG: argument of set-block-length. -/
def blockLenArg : U32 := 512
/-- P_V2_UNIT: capacity unit of the high-capacity CSD layout, 512 KiB. -/
def v2Unit : Nat := 524288
/-- P_ACMD_OPCOND: index of the send-operating-condition application command. -/
def acmdOpCond : BitVec 6 := 41
/-- The "all-ones data" of init step 1 (R261). -/
def allOnes : Byte := 0xFF

/-! ### R108: named by the document, numbered from general knowledge (PRESUMED, log 15) -/

/-- P_CMD_GO_IDLE -/
def cmdGoIdle : BitVec 6 := 0
/-- P_CMD_IF_COND -/
def cmdIfCond : BitVec 6 := 8
/-- P_CMD_SEND_CSD -/
def cmdSendCsd : BitVec 6 := 9
/-- P_CMD_SEND_CID -/
def cmdSendCid : BitVec 6 := 10
/-- P_CMD_STOP -/
def cmdStop : BitVec 6 := 12
/-- P_CMD_SET_BLOCKLEN -/
def cmdSetBlockLen : BitVec 6 := 16
/-- P_CMD_READ_SINGLE -/
def cmdReadSingle : BitVec 6 := 17
/-- P_CMD_WRITE_SINGLE -/
def cmdWriteSingle : BitVec 6 := 24
/-- P_CMD_WRITE_MULTI -/
def cmdWriteMulti : BitVec 6 := 25
/-- P_CMD_APP -/
def cmdApp : BitVec 6 := 55
/-- P_CMD_READ_OCR -/
def cmdReadOcr : BitVec 6 := 58
/-- P_CRC_GO_IDLE -/
def crcGoIdle : Byte := 0x95
/-- P_CRC_IF_COND -/
def crcIfCond : Byte := 0x87
/-- P_IF_COND_ARG -/
def ifCondArg : U32 := 0x000001AA
/-- P_CHECK_PATTERN: the low byte of P_IF_COND_ARG. -/
def checkPattern : Byte := 0xAA
/-- P_HCS: the high-capacity-support bit, bit 30 of the argument of ACMD41. -/
def hcs : U32 := 0x40000000
/-- P_R1_IDLE: bit 0 of an R1 response. -/
def r1Idle : Byte := 0x01
/-- P_R1_ILLEGAL: bit 2 of an R1 response. -/
def r1Illegal : Byte := 0x04
/-- P_R1_READY: "the response is zero (ready)"; the value is the document's. -/
def r1Ready : Byte := 0x00

/-! ### R109: left open by the document, defaults of the spec (log 16) -/

/-- P_FILL (D3): byte sent while the block only reads. -/
def fill : Byte := 0xFF
/-- P_CRC_DUMMY (D9): CRC byte of every command but the two fixed ones, and of written data. -/
def crcDummy : Byte := 0xFF
/-- P_N_PRIME (D6): bytes clocked in init step 1. -/
def nPrime : Nat := 13
/-- P_T_CMD_BUSY (D7): 300 ms, budget of the not-busy wait inside `command`. -/
def tCmdBusy : Nat := 300000
/-- P_T_STOP_BUSY (D8): 600 ms, budget of the not-busy wait after the stop token. -/
def tStopBusy : Nat := 600000
/-- P_CS_RELEASE_ON_INIT_FAIL (D15): chip-select driven high on every failing exit of `Configure`. -/
def csReleaseOnInitFail : Bool := true
/-- P_TICK (D4): 1 us, unit of `now()`. -/
def tick : Nat := 1
/-- P_OFFSET_W (D24): bits of a host byte offset. -/
def offsetW : Nat := 64
/-- P_LEN_W (D24): bits of a host buffer length and of a returned count. -/
def lenW : Nat := 64
/-- P_SIZE_W (D24): bits of the value `Size()` returns. -/
def sizeW : Nat := 64

/-! ### Bounds of R170 -/

/-- Block indexes are below this (R145: "a 32-bit block index"). -/
def blockIndexBound : Nat := 2 ^ 32
/-- Block indexes of a byte-addressed card are below this, so that `blockIndex * 512` fits 32 bits (R170). -/
def byteAddressedBound : Nat := 2 ^ 23

end Sys2Proof.P

namespace Sys2Proof

/-- The configuration with the defaults of R108 and R109, the one the machine has after reset. -/
def Params.spec : Params where
  cmdGoIdle := P.cmdGoIdle
  cmdIfCond := P.cmdIfCond
  cmdSendCsd := P.cmdSendCsd
  cmdSendCid := P.cmdSendCid
  cmdStop := P.cmdStop
  cmdSetBlockLen := P.cmdSetBlockLen
  cmdReadSingle := P.cmdReadSingle
  cmdWriteSingle := P.cmdWriteSingle
  cmdWriteMulti := P.cmdWriteMulti
  cmdApp := P.cmdApp
  cmdReadOcr := P.cmdReadOcr
  crcGoIdle := P.crcGoIdle
  crcIfCond := P.crcIfCond
  ifCondArg := P.ifCondArg
  checkPattern := P.checkPattern
  hcs := P.hcs
  r1Idle := P.r1Idle
  r1Illegal := P.r1Illegal
  fill := P.fill
  crcDummy := P.crcDummy
  nPrime := P.nPrime
  tCmdBusy := P.tCmdBusy
  tStopBusy := P.tStopBusy
  tick := P.tick
  offsetW := P.offsetW
  lenW := P.lenW
  sizeW := P.sizeW
  csReleaseOnInitFail := P.csReleaseOnInitFail

/-- A duration in P_TICK units (R290: "T in P_TICK units"). One that is no whole number of units is rounded up, so that no
wait ends before it (DESIGN CHOICE, assumption log 35; nothing is rounded at the default of 1 us). -/
def Params.units (par : Params) (us : Nat) : Nat := (us + par.tick - 1) / par.tick

/-- The bytes a host byte offset of P_OFFSET_W bits takes in a request (log 8). -/
def Params.offsetBytes (par : Params) : Nat := (par.offsetW + 7) / 8

/-- "offset: unsigned, P_OFFSET_W bits" (R213). -/
def Params.holdsOffset (par : Params) (offset : Nat) : Bool := decide (offset < 2 ^ par.offsetW)

/-- A buffer length, and every count up to it, has P_LEN_W bits (R109). -/
def Params.holdsLen (par : Params) (n : Nat) : Bool := decide (n < 2 ^ par.lenW)

/-- The twelve command indices of R200. -/
def Params.commands (par : Params) : List (BitVec 6) :=
  [par.cmdGoIdle, par.cmdIfCond, par.cmdSendCsd, par.cmdSendCid, par.cmdStop, par.cmdSetBlockLen, par.cmdReadSingle,
    par.cmdWriteSingle, par.cmdWriteMulti, par.cmdApp, par.cmdReadOcr, P.acmdOpCond]

/-- What a configuration must satisfy for its words to mean one thing each: the commands differ, the
high-capacity-support bit is a bit, the illegal-command mask is one bit, and the filler is no token. -/
structure Params.Legal (par : Params) : Prop where
  commands : par.commands.Nodup
  hcs : par.hcs ≠ 0
  r1Illegal : ∃ k : Fin 8, par.r1Illegal = 1#8 <<< k.val
  fill : par.fill ≠ P.tokenStart ∧ par.fill ≠ P.tokenMulti ∧ par.fill ≠ P.tokenStop

end Sys2Proof
end

