-- ==== Sys2Proof/Syntax.lean ====
section
/-! DEFINITION. The instructions of the block: one constructor for each of the 36 rows of
spec/opcode_table.json, in the table's order, and the places (`Place`) where a word of each row is read.

Rows are of four formats. A CMD_FRAME48 row is a frame the block sends (R190, R200); a TOKEN8_TX row a byte
it sends (R205); a RX8_CLASS or TOKEN8_RX row a class of received bytes, whose operands are the bits the
class leaves free (R209); a HOST_OP row a host request (R213). -/

namespace Sys2Proof

/-- One instruction. -/
inductive Instr
  /-- CMD0, "the go-idle command": argument 0, CRC byte 0x95 (R262). -/
  | cmd0
  /-- CMD8, "the interface-condition command": argument 0x1AA, CRC byte 0x87 (R263). -/
  | cmd8
  /-- CMD9, the CSD's "dedicated command" (R301). -/
  | cmd9
  /-- CMD10, the CID's "dedicated command" (R301). -/
  | cmd10
  /-- CMD12, "the stop-transmission command": exempt from the pre-wait, never issued by an operation (R241);
  the spec gives no argument and no CRC byte for it, so both are operands. -/
  | cmd12 (arg : U32) (crc : Byte)
  /-- CMD16, "set-block-length", argument 512 (R266). -/
  | cmd16
  /-- CMD17, "the single-block-read command", argument `scale(blockIndex)` (R331). -/
  | cmd17 (arg : U32)
  /-- CMD24, "single-block-write command", argument `scale(blockIndex)` (R332). -/
  | cmd24 (arg : U32)
  /-- CMD25, "the multi-block-write command", argument `scale(blockIndex)` (R334). -/
  | cmd25 (arg : U32)
  /-- CMD55, "the application-command-prefix command", argument 0 (R247). -/
  | cmd55
  /-- CMD58, "the read-OCR command" (R265). -/
  | cmd58
  /-- ACMD41, "the ACMD 'send operating condition' command"; `hcs` is argument bit 30 (R207, R264). -/
  | acmd41 (hcs : Bool)
  /-- TOKEN_START.tx: data-start token sent before the payload of a single-block write (R332). -/
  | tokenStartTx
  /-- TOKEN_START.rx: data-start token awaited before a read payload (R293). -/
  | tokenStartRx
  /-- TOKEN_MULTI: multi-write data token (R335). -/
  | tokenMulti
  /-- TOKEN_STOP: stop-transmission token (R336). -/
  | tokenStop
  /-- FILL: filler byte sent on every exchange whose purpose is to read (R243). -/
  | fill
  /-- R1.valid: response poll, bit 7 clear (R243). -/
  | r1Valid (flags : BitVec 7)
  /-- R1.skip: response poll, bit 7 set (R243). -/
  | r1Skip (rest : BitVec 7)
  /-- R1.idle: init step 2, the whole response equals the in-idle-state bit (R262). -/
  | r1Idle
  /-- R1.illegal: init step 3, the illegal-command bit of the response is set; `high` is bits 7:3, `low` bits 1:0, the
  bit being bit 2 by default (R263). -/
  | r1Illegal (high : BitVec 5) (low : BitVec 2)
  /-- R1.ready: the response is zero (R264). -/
  | r1Ready
  /-- R7.echo: the 4th trailing byte equals the check pattern (R263). -/
  | r7Echo
  /-- R3.ocr0.hc: the first OCR byte has both top bits set (R265). -/
  | r3Ocr0Hc (rest : BitVec 6)
  /-- DATA_RESP.accepted: the low 5 bits of the data-response byte are 0b00101; `ignored` is bits 7:5 (R333). -/
  | dataRespAccepted (ignored : BitVec 3)
  /-- IDLE_BYTE: 0xFF ends the not-busy wait (R291). -/
  | idleByte
  /-- CSD0.v1: first CSD image byte, CSD_STRUCTURE = 0 (R306). -/
  | csd0V1 (rest : BitVec 6)
  /-- CSD0.v2: first CSD image byte, CSD_STRUCTURE = 1 (R307). -/
  | csd0V2 (rest : BitVec 6)
  /-- CSD0.none: first CSD image byte, CSD_STRUCTURE = 2 or 3 (R310). -/
  | csd0None (rest : BitVec 7)
  /-- `Configure()` (R260). -/
  | configure
  /-- `ReadAt(buf, offset)`; the buffer stands in State, and the offset has the P_OFFSET_W bits of the configuration
  (R360, R213, `Instr.holds`). -/
  | readAt (offset : Nat)
  /-- `WriteAt(buf, offset)`; as `ReadAt` (R361, R213). -/
  | writeAt (offset : Nat)
  /-- `Size()` (R381). -/
  | size
  /-- `WriteBlockSize()` (R382). -/
  | writeBlockSize
  /-- `EraseBlockSize()` (R383). -/
  | eraseBlockSize
  /-- `EraseBlocks(startBlock, count)` (R384). The start block is a u32 (R337); that the count is a u64 is a DESIGN CHOICE
  (R213: "unsigned"; assumption log 37). -/
  | eraseBlocks (start : U32) (count : U64)
  deriving DecidableEq, Repr

/-- Where a word is read. The same byte means different things at different places (R209: "where | value
class | effect"), so decoding depends on the place. -/
inductive Place
  /-- The host's request port: op codes of R213. -/
  | host
  /-- The sequencer is about to send a command frame (R190). -/
  | frame
  /-- The sequencer is about to send one byte (R205). -/
  | send
  /-- The response poll of `command` (R243). -/
  | respPoll
  /-- The test of the go-idle response in init step 2 (R262). -/
  | idleTest
  /-- The test of the interface-condition response in init step 3 (R263). -/
  | illegalTest
  /-- A test `r = 0` (R264 to R266, R300, R331, R332, R334). -/
  | readyTest
  /-- The 4th trailing byte of the R7 response (R263). -/
  | echo
  /-- The first OCR byte (R265). -/
  | ocr0
  /-- The data-response byte (R333). -/
  | dataResp
  /-- The not-busy wait (R291). -/
  | notBusy
  /-- The start-token wait (R293). -/
  | startWait
  /-- The first byte of a CSD register image (R305). -/
  | csd0
  deriving DecidableEq, Repr

/-- The place where the words of an instruction are read. -/
def Instr.place : Instr → Place
  | .cmd0 | .cmd8 | .cmd9 | .cmd10 | .cmd12 _ _ | .cmd16 | .cmd17 _ | .cmd24 _ | .cmd25 _
  | .cmd55 | .cmd58 | .acmd41 _ => .frame
  | .tokenStartTx | .tokenMulti | .tokenStop | .fill => .send
  | .tokenStartRx => .startWait
  | .r1Valid _ | .r1Skip _ => .respPoll
  | .r1Idle => .idleTest
  | .r1Illegal _ _ => .illegalTest
  | .r1Ready => .readyTest
  | .r7Echo => .echo
  | .r3Ocr0Hc _ => .ocr0
  | .dataRespAccepted _ => .dataResp
  | .idleByte => .notBusy
  | .csd0V1 _ | .csd0V2 _ | .csd0None _ => .csd0
  | .configure | .readAt _ | .writeAt _ | .size | .writeBlockSize | .eraseBlockSize
  | .eraseBlocks _ _ => .host

end Sys2Proof
end

