-- ==== Sys2Proof/WellFormed.lean ====
section
/-! DEFINITION. The operand checks the spec puts on an instruction before it can mean anything, whatever the
state. Most operands are confined by their types alone; what is left are the width of an offset (R109, R213) and the
request bounds of R170 and U12. -/

namespace Sys2Proof

/-- R170: a host byte offset has a block index, that is `offset / 512` is below 2^32. -/
def offsetInRange (offset : Nat) : Bool :=
  decide (offset / P.blockSize < P.blockIndexBound)

/-- U12: `EraseBlocks(start, count)` stays inside the 32-bit block space. -/
def eraseInRange (start : U32) (count : U64) : Bool :=
  decide (start.toNat + count.toNat ≤ P.blockIndexBound)

/-- The operands have the widths of the configuration (R213); all but the offsets have theirs by their types. -/
def Instr.holds (par : Params) : Instr → Bool
  | .readAt offset | .writeAt offset => par.holdsOffset offset
  | .cmd0 | .cmd8 | .cmd9 | .cmd10 | .cmd12 _ _ | .cmd16 | .cmd17 _ | .cmd24 _ | .cmd25 _
  | .cmd55 | .cmd58 | .acmd41 _ | .tokenStartTx | .tokenStartRx | .tokenMulti | .tokenStop | .fill
  | .r1Valid _ | .r1Skip _ | .r1Idle | .r1Illegal _ _ | .r1Ready | .r7Echo | .r3Ocr0Hc _
  | .dataRespAccepted _ | .idleByte | .csd0V1 _ | .csd0V2 _ | .csd0None _
  | .configure | .size | .writeBlockSize | .eraseBlockSize | .eraseBlocks _ _ => true

/-- The operand check of an instruction. -/
def Instr.wellFormed (par : Params) : Instr → Bool
  | .readAt offset | .writeAt offset => par.holdsOffset offset && offsetInRange offset
  | .eraseBlocks start count => eraseInRange start count
  | .cmd0 | .cmd8 | .cmd9 | .cmd10 | .cmd12 _ _ | .cmd16 | .cmd17 _ | .cmd24 _ | .cmd25 _
  | .cmd55 | .cmd58 | .acmd41 _ | .tokenStartTx | .tokenStartRx | .tokenMulti | .tokenStop | .fill
  | .r1Valid _ | .r1Skip _ | .r1Idle | .r1Illegal _ _ | .r1Ready | .r7Echo | .r3Ocr0Hc _
  | .dataRespAccepted _ | .idleByte | .csd0V1 _ | .csd0V2 _ | .csd0None _
  | .configure | .size | .writeBlockSize | .eraseBlockSize => true

end Sys2Proof
end

