-- ==== Sys2Proof/Decode.lean ====
section
/-! DEFINITION. Decoding, total on any bytes, and encoding, written from the same tables of the spec
(30_encoding.md R190, R200, R205, R209, R213 and spec/opcode_table.json).

A word is a list of bytes in the order of the bus: a frame is its 6 bytes, byte 0 first (R190); a sent or
received byte is itself; a host request is its op code in one byte and then its operands (the layout of a
request's bytes is the model's own, assumption log 8). -/

namespace Sys2Proof

/-! ### Byte order -/

/-- The `n` bytes of a number, most significant byte first. -/
def beBytes : Nat → Nat → List Byte
  | 0, _ => []
  | n + 1, v => BitVec.ofNat 8 (v / 256 ^ n) :: beBytes n v

/-- The number a list of bytes is, most significant byte first. -/
def ofBe (bytes : List Byte) : Nat :=
  bytes.foldl (fun acc b => acc * 256 + b.toNat) 0

/-- The four argument bytes of a frame, most significant first (R160). -/
def argBytes (arg : U32) : List Byte :=
  [arg.extractLsb 31 24, arg.extractLsb 23 16, arg.extractLsb 15 8, arg.extractLsb 7 0]

/-- The argument the four bytes of a frame carry (R160). -/
def joinArg (b1 b2 b3 b4 : Byte) : U32 := b1 ++ b2 ++ b3 ++ b4

/-- Byte 0 of a frame: `0x40 OR code` (R190). -/
def frameByte0 (code : BitVec 6) : Byte := P.frameStart ||| code.setWidth 8

/-- The 6 bytes of a command frame in sending order (R190). -/
def frameBytes (code : BitVec 6) (arg : U32) (crc : Byte) : List Byte :=
  frameByte0 code :: argBytes arg ++ [crc]

/-- The argument of ACMD41: P_HCS or 0 (R207). -/
def opCondArg (par : Params) (hcs : Bool) : U32 := if hcs then par.hcs else 0

/-! ### Received-byte classes (R194, R201, R209) -/

/-- R1.valid: bit 7 clear, the other bits free. -/
def r1ValidByte (flags : BitVec 7) : Byte := 0#1 ++ flags
/-- R1.skip: bit 7 set, the other bits free. -/
def r1SkipByte (rest : BitVec 7) : Byte := 1#1 ++ rest
/-- The place of the lowest bit that is set in a byte. -/
def bitIndex (mask : Byte) : Nat := ((List.range 8).find? mask.getLsbD).getD 0

/-- Seven bits with a set bit put in at place `k`. -/
def insertBit (k : Nat) (rest : BitVec 7) : Byte :=
  ((rest >>> k).setWidth 8 <<< (k + 1)) ||| (1#8 <<< k) ||| (rest.setWidth 8 &&& ((1#8 <<< k) - 1#8))

/-- The seven bits of a byte that are left when bit `k` is taken out. -/
def removeBit (k : Nat) (b : Byte) : BitVec 7 :=
  ((b >>> (k + 1) <<< k) ||| (b &&& ((1#8 <<< k) - 1#8))).setWidth 7

/-- R1.illegal: the bit of P_R1_ILLEGAL set (bit 2 by default), the others free. -/
def r1IllegalByte (par : Params) (high : BitVec 5) (low : BitVec 2) : Byte :=
  insertBit (bitIndex par.r1Illegal) (high ++ low)
/-- R3.ocr0.hc: bits 7:6 set. -/
def ocr0HcByte (rest : BitVec 6) : Byte := 3#2 ++ rest
/-- DATA_RESP.accepted: low 5 bits 0b00101. -/
def acceptedByte (ignored : BitVec 3) : Byte := ignored ++ 5#5
/-- CSD0.v1: CSD_STRUCTURE = 0. -/
def csdV1Byte (rest : BitVec 6) : Byte := 0#2 ++ rest
/-- CSD0.v2: CSD_STRUCTURE = 1. -/
def csdV2Byte (rest : BitVec 6) : Byte := 1#2 ++ rest
/-- CSD0.none: CSD_STRUCTURE = 2 or 3. -/
def csdNoneByte (rest : BitVec 7) : Byte := 1#1 ++ rest

/-! ### Encoding -/

/-- Op codes of the host requests (R213, D1). -/
def hostOp : Instr → Nat
  | .configure => 0
  | .readAt _ => 1
  | .writeAt _ => 2
  | .size => 3
  | .writeBlockSize => 4
  | .eraseBlockSize => 5
  | .eraseBlocks _ _ => 6
  | _ => 7

/-- The bytes of an instruction. -/
def encode (par : Params) : Instr → List Byte
  | .cmd0 => frameBytes par.cmdGoIdle 0 par.crcGoIdle
  | .cmd8 => frameBytes par.cmdIfCond par.ifCondArg par.crcIfCond
  | .cmd9 => frameBytes par.cmdSendCsd 0 par.crcDummy
  | .cmd10 => frameBytes par.cmdSendCid 0 par.crcDummy
  | .cmd12 arg crc => frameBytes par.cmdStop arg crc
  | .cmd16 => frameBytes par.cmdSetBlockLen P.blockLenArg par.crcDummy
  | .cmd17 arg => frameBytes par.cmdReadSingle arg par.crcDummy
  | .cmd24 arg => frameBytes par.cmdWriteSingle arg par.crcDummy
  | .cmd25 arg => frameBytes par.cmdWriteMulti arg par.crcDummy
  | .cmd55 => frameBytes par.cmdApp 0 par.crcDummy
  | .cmd58 => frameBytes par.cmdReadOcr 0 par.crcDummy
  | .acmd41 hcs => frameBytes P.acmdOpCond (opCondArg par hcs) par.crcDummy
  | .tokenStartTx => [P.tokenStart]
  | .tokenStartRx => [P.tokenStart]
  | .tokenMulti => [P.tokenMulti]
  | .tokenStop => [P.tokenStop]
  | .fill => [par.fill]
  | .r1Valid flags => [r1ValidByte flags]
  | .r1Skip rest => [r1SkipByte rest]
  | .r1Idle => [par.r1Idle]
  | .r1Illegal high low => [r1IllegalByte par high low]
  | .r1Ready => [P.r1Ready]
  | .r7Echo => [par.checkPattern]
  | .r3Ocr0Hc rest => [ocr0HcByte rest]
  | .dataRespAccepted ignored => [acceptedByte ignored]
  | .idleByte => [P.idleByte]
  | .csd0V1 rest => [csdV1Byte rest]
  | .csd0V2 rest => [csdV2Byte rest]
  | .csd0None rest => [csdNoneByte rest]
  | .configure => [BitVec.ofNat 8 (hostOp .configure)]
  | .readAt offset => BitVec.ofNat 8 (hostOp (.readAt offset)) :: beBytes par.offsetBytes offset
  | .writeAt offset => BitVec.ofNat 8 (hostOp (.writeAt offset)) :: beBytes par.offsetBytes offset
  | .size => [BitVec.ofNat 8 (hostOp .size)]
  | .writeBlockSize => [BitVec.ofNat 8 (hostOp .writeBlockSize)]
  | .eraseBlockSize => [BitVec.ofNat 8 (hostOp .eraseBlockSize)]
  | .eraseBlocks start count =>
    BitVec.ofNat 8 (hostOp (.eraseBlocks start count)) :: (beBytes 4 start.toNat ++ beBytes 8 count.toNat)

/-! ### Decoding -/

/-- Why bytes are no instruction. -/
inductive Reject
  /-- Fewer bytes than the word has. -/
  | tooShort
  /-- Byte 0 of a frame names no command of R200 (R210). -/
  | noSuchCommand
  /-- A frame of R200 whose fixed argument or CRC byte is another one (R200, R208, R210). -/
  | otherFixedBits
  /-- A byte the block never sends on its own (R205). -/
  | noSuchToken
  /-- A received byte that is not in the class tested at this place (R209). -/
  | outsideClass
  /-- An op code that names no operation (R213). -/
  | noSuchOperation
  /-- A byte offset with a bit beyond P_OFFSET_W set, in a width that fills no whole number of bytes (R213, R109). -/
  | operandTooWide
  deriving DecidableEq, Repr

/-- A frame with a fixed argument and CRC byte. -/
def fixedFrame (i : Instr) (arg : U32) (crc : Byte) (gotArg : U32) (gotCrc : Byte) : Except Reject Instr :=
  if gotArg = arg ∧ gotCrc = crc then .ok i else .error .otherFixedBits

/-- A frame whose argument is an operand. -/
def addressedFrame (par : Params) (i : U32 → Instr) (gotArg : U32) (gotCrc : Byte) : Except Reject Instr :=
  if gotCrc = par.crcDummy then .ok (i gotArg) else .error .otherFixedBits

/-- The frame of ACMD41: every argument bit but bit 30 is fixed at 0 (R207). -/
def opCondFrame (par : Params) (gotArg : U32) (gotCrc : Byte) : Except Reject Instr :=
  if gotCrc ≠ par.crcDummy then .error .otherFixedBits
  else if gotArg = par.hcs then .ok (.acmd41 true)
  else if gotArg = 0 then .ok (.acmd41 false)
  else .error .otherFixedBits

/-- The command a frame carries (R190, R200). -/
def decodeFrame (par : Params) (b0 : Byte) (arg : U32) (crc : Byte) : Except Reject Instr :=
  if b0 = frameByte0 par.cmdGoIdle then fixedFrame .cmd0 0 par.crcGoIdle arg crc
  else if b0 = frameByte0 par.cmdIfCond then fixedFrame .cmd8 par.ifCondArg par.crcIfCond arg crc
  else if b0 = frameByte0 par.cmdSendCsd then fixedFrame .cmd9 0 par.crcDummy arg crc
  else if b0 = frameByte0 par.cmdSendCid then fixedFrame .cmd10 0 par.crcDummy arg crc
  else if b0 = frameByte0 par.cmdStop then .ok (.cmd12 arg crc)
  else if b0 = frameByte0 par.cmdSetBlockLen then fixedFrame .cmd16 P.blockLenArg par.crcDummy arg crc
  else if b0 = frameByte0 par.cmdReadSingle then addressedFrame par .cmd17 arg crc
  else if b0 = frameByte0 par.cmdWriteSingle then addressedFrame par .cmd24 arg crc
  else if b0 = frameByte0 par.cmdWriteMulti then addressedFrame par .cmd25 arg crc
  else if b0 = frameByte0 par.cmdApp then fixedFrame .cmd55 0 par.crcDummy arg crc
  else if b0 = frameByte0 par.cmdReadOcr then fixedFrame .cmd58 0 par.crcDummy arg crc
  else if b0 = frameByte0 P.acmdOpCond then opCondFrame par arg crc
  else .error .noSuchCommand

/-- The byte the block is about to send (R205). -/
def decodeSend (par : Params) (b : Byte) : Except Reject Instr :=
  if b = P.tokenStart then .ok .tokenStartTx
  else if b = P.tokenMulti then .ok .tokenMulti
  else if b = P.tokenStop then .ok .tokenStop
  else if b = par.fill then .ok .fill
  else .error .noSuchToken

/-- The response poll: every byte is in one of the two classes (R243). -/
def decodeRespPoll (b : Byte) : Except Reject Instr :=
  if b.extractLsb 7 7 = 0#1 then .ok (.r1Valid (b.extractLsb 6 0)) else .ok (.r1Skip (b.extractLsb 6 0))

/-- The first byte of a CSD image: every byte is in one of the three classes (R305). -/
def decodeCsd0 (b : Byte) : Except Reject Instr :=
  if b.extractLsb 7 6 = 0#2 then .ok (.csd0V1 (b.extractLsb 5 0))
  else if b.extractLsb 7 6 = 1#2 then .ok (.csd0V2 (b.extractLsb 5 0))
  else .ok (.csd0None (b.extractLsb 6 0))

/-- A class with no free bits. -/
def decodeExact (i : Instr) (value b : Byte) : Except Reject Instr :=
  if b = value then .ok i else .error .outsideClass

/-- The bits of an R1.illegal byte beside the illegal-command bit. -/
def illegalBits (rest : BitVec 7) : Except Reject Instr := .ok (.r1Illegal (rest.extractLsb 6 2) (rest.extractLsb 1 0))

/-- A byte read at a place where one byte is the whole word (R205, R209). -/
def decodeByte (par : Params) (p : Place) (b : Byte) : Except Reject Instr :=
  match p with
  | .send => decodeSend par b
  | .respPoll => decodeRespPoll b
  | .idleTest => decodeExact .r1Idle par.r1Idle b
  | .illegalTest =>
    if b &&& par.r1Illegal ≠ 0 then illegalBits (removeBit (bitIndex par.r1Illegal) b) else .error .outsideClass
  | .readyTest => decodeExact .r1Ready P.r1Ready b
  | .echo => decodeExact .r7Echo par.checkPattern b
  | .ocr0 =>
    if b &&& P.ocrCapMask = P.ocrCapMask then .ok (.r3Ocr0Hc (b.extractLsb 5 0)) else .error .outsideClass
  | .dataResp =>
    if b &&& P.drespMask = P.drespAccepted then .ok (.dataRespAccepted (b.extractLsb 7 5)) else .error .outsideClass
  | .notBusy => decodeExact .idleByte P.idleByte b
  | .startWait => decodeExact .tokenStartRx P.tokenStart b
  | .csd0 => decodeCsd0 b
  | .host | .frame => .error .tooShort

/-- A request whose operand is a byte offset of P_OFFSET_W bits (R213). -/
def decodeOffset (par : Params) (i : Nat → Instr) (rest : List Byte) : Except Reject (Instr × List Byte) :=
  if rest.length < par.offsetBytes then .error .tooShort
  else if par.holdsOffset (ofBe (rest.take par.offsetBytes)) then
    .ok (i (ofBe (rest.take par.offsetBytes)), rest.drop par.offsetBytes)
  else .error .operandTooWide

/-- A host request: the op code in one byte, then the operands (R213). -/
def decodeHost (par : Params) (op : Byte) (rest : List Byte) : Except Reject (Instr × List Byte) :=
  match op.toNat with
  | 0 => .ok (.configure, rest)
  | 1 => decodeOffset par .readAt rest
  | 2 => decodeOffset par .writeAt rest
  | 3 => .ok (.size, rest)
  | 4 => .ok (.writeBlockSize, rest)
  | 5 => .ok (.eraseBlockSize, rest)
  | 6 => if rest.length < 12 then .error .tooShort
         else .ok (.eraseBlocks (BitVec.ofNat 32 (ofBe (rest.take 4)))
                    (BitVec.ofNat 64 (ofBe ((rest.drop 4).take 8))), rest.drop 12)
  | _ => .error .noSuchOperation

/-- The instruction at the head of some bytes, read at a place, and the bytes after it. -/
def decode (par : Params) (p : Place) (bytes : List Byte) : Except Reject (Instr × List Byte) :=
  match p, bytes with
  | .host, op :: rest => decodeHost par op rest
  | .frame, b0 :: b1 :: b2 :: b3 :: b4 :: crc :: rest =>
    match decodeFrame par b0 (joinArg b1 b2 b3 b4) crc with
    | .ok i => .ok (i, rest)
    | .error e => .error e
  | .frame, _ => .error .tooShort
  | _, [] => .error .tooShort
  | p, b :: rest =>
    match decodeByte par p b with
    | .ok i => .ok (i, rest)
    | .error e => .error e

/-! ### Words as the opcode table numbers them -/

/-- The bytes of a table word of `nbits` bits: bit `nbits - 1` is in byte 0 (R190: byte 0 is bits 47:40), and
the operand bytes that the table gives no bits are 0. -/
def tableBytes (par : Params) (nbits w : Nat) : List Byte :=
  beBytes ((nbits + 7) / 8) w ++ List.replicate (max 12 par.offsetBytes) 0

/-- The place a bare table word is read at. A word of more than one byte is a frame. One byte alone does not
say where it stands (the table gives 0x00 to four rows, R209), so this is a convention: host op codes
first, then sent bytes, then the classes of received bytes (assumption log 10). -/
def barePlace (nbits w : Nat) : Place :=
  if 8 < nbits then .frame
  else if w < 7 then .host
  else if 0xFC ≤ w then .send
  else if w = Params.spec.checkPattern.toNat then .echo
  else if w % 32 = P.drespAccepted.toNat then .dataResp
  else if 0xC0 ≤ w then .ocr0
  else if w = 0x40 then .csd0
  else .respPoll

/-- The instruction a bare table word decodes to. -/
def decodeTableWord (nbits w : Nat) : Option Instr :=
  match decode Params.spec (barePlace nbits w) (tableBytes Params.spec nbits w) with
  | .ok (i, _) => some i
  | .error _ => none

end Sys2Proof
end

