-- ==== Sys2Proof/Machine/State.lean ====
section
/-! DEFINITION. The state of the block (10_state.md), as plain data, and its value after reset (R150). -/

namespace Sys2Proof.Machine

/-- `card_type` of R122. -/
inductive CardType
  | unknown
  | sd1
  | sd2
  | sdhc
  deriving DecidableEq, Repr

/-- `seq` of R126: the sequencer state. -/
inductive Seq
  | idle
  | s1Prime
  | s2Idle
  | s3Probe
  | s4OpCond
  | s5Ocr
  | s6BlockLen
  | s7Regs
  | s8Finish
  | runReadAt
  | runWriteAt
  | runErase
  deriving DecidableEq, Repr

/-- `phase` of R135 and R408: which host requests the contract covers. -/
inductive Phase
  | fresh
  | ready
  | failed
  deriving DecidableEq, Repr

/-- The error codes of R401 (code 0, "no error", is `none` of `Option ErrCode`). -/
inductive ErrCode
  /-- E_PARAM, code 1 -/
  | param
  /-- E_NO_CARD, code 2 -/
  | noCard
  /-- E_LEGACY_NOT_IMPLEMENTED, code 3 -/
  | legacyNotImplemented
  /-- E_IF_COND_MISMATCH, code 4 -/
  | ifCondMismatch
  /-- E_OP_COND_TIMEOUT, code 5 -/
  | opCondTimeout
  /-- E_OCR_CMD, code 6 -/
  | ocrCmd
  /-- E_BLOCKLEN_CMD, code 7 -/
  | blockLenCmd
  /-- E_REG_CMD, code 8 -/
  | regCmd
  /-- E_START_BLOCK, code 9 -/
  | startBlock
  /-- E_READ_CMD, code 10 -/
  | readCmd
  /-- E_WRITE_CMD, code 11 -/
  | writeCmd
  /-- E_WRITE_MULTI_CMD, code 12 -/
  | writeMultiCmd
  /-- E_WRITE_DATA_RESP, code 13 -/
  | writeDataResp
  /-- E_WRITE_BUSY_TIMEOUT, code 14: kept for the taxonomy, never raised (R401) -/
  | writeBusyTimeout
  deriving DecidableEq, Repr

/-- `cid` of R123, with the fields of R303. `mdt` holds the raw 12 bits (R304). -/
structure Cid where
  mid : BitVec 8
  oid : BitVec 16
  pnm : BitVec 40
  prv : BitVec 8
  psn : BitVec 32
  mdt : BitVec 12
  deriving DecidableEq, Repr

/-- The CSD fields at the same place in both layouts: register bits 127:76 and 46:0 (R306, R307). -/
structure CsdCommon where
  taac : BitVec 8
  nsac : BitVec 8
  tranSpeed : BitVec 8
  ccc : BitVec 12
  readBlLen : BitVec 4
  readBlPartial : BitVec 1
  writeBlkMisalign : BitVec 1
  readBlkMisalign : BitVec 1
  dsrImp : BitVec 1
  eraseBlkEn : BitVec 1
  sectorSize : BitVec 7
  wpGrpSize : BitVec 7
  wpGrpEnable : BitVec 1
  r2wFactor : BitVec 3
  writeBlLen : BitVec 4
  writeBlPartial : BitVec 1
  fileFormatGrp : BitVec 1
  copy : BitVec 1
  permWriteProtect : BitVec 1
  tmpWriteProtect : BitVec 1
  fileFormat : BitVec 2
  deriving DecidableEq, Repr

/-- CSD version 1 (R306). -/
structure CsdV1 where
  common : CsdCommon
  cSize : BitVec 12
  vddRCurrMin : BitVec 3
  vddRCurrMax : BitVec 3
  vddWCurrMin : BitVec 3
  vddWCurrMax : BitVec 3
  cSizeMult : BitVec 3
  deriving DecidableEq, Repr

/-- CSD version 2 (R307). -/
structure CsdV2 where
  common : CsdCommon
  cSize : BitVec 22
  deriving DecidableEq, Repr

/-- `csd` of R124: the record of the layout that CSD_STRUCTURE selects (R305). With structure 2 or 3 there is
no layout and the record holds the structure field alone (R310); `low` is its bit 0. -/
inductive Csd
  | v1 (fields : CsdV1)
  | v2 (fields : CsdV2)
  | noLayout (low : BitVec 1)
  deriving DecidableEq, Repr

/-- The events of R112, the externally visible behaviour of the block. -/
inductive Event
  | lock
  | unlock
  | rate (r : Rate)
  | cs (level : Bool)
  | x (mosi miso : Byte)
  deriving DecidableEq, Repr

/-- What a completion presents to the host (R134, R213). -/
inductive Completion
  /-- `Configure`, `EraseBlocks`: `err`. -/
  | status (err : Option ErrCode)
  /-- `ReadAt`, `WriteAt`: the count `done` and `err`. -/
  | count (done : Nat) (err : Option ErrCode)
  /-- `Size`, `WriteBlockSize`, `EraseBlockSize`: a value. -/
  | value (v : Nat)
  deriving DecidableEq, Repr

/-- Byte memory: address and byte, addresses strictly rising, no byte 0x00 listed (an unlisted address reads as
0x00, assumption log 20). The one byte memory inside the model's boundary is the caller's buffer (R145). -/
abbrev Memory := List Host.Cell

/-- What is presented to the block: a word, the place it is read at, and the caller's buffer with its length
(R144, R213). A host request has place `host`. -/
structure Request where
  place : Place
  word : List Byte
  buf : Memory
  bufLen : Nat
  deriving DecidableEq, Repr

/-- Why the machine stops for good. -/
inductive Fault
  /-- Raised by `lock()` of Configure, ReadAt, WriteAt and EraseBlocks when the bus transport never grants the lock:
  "the block has no further step: it is stuck" (R140, U14). Safe: the hardware has no further step either. -/
  | lockNeverGranted
  deriving DecidableEq, Repr

/-- Why the model has no step. All are safe: nothing is claimed about the run. -/
inductive Refusal
  /-- Raised by a dispatch arm whose instruction has no meaning yet. Safe. -/
  | notModelled (mnemonic : String)
  /-- Raised by `step`: the presented word is none that can be presented: an op code that names no operation (R213), a
  frame or byte that the block never sends (R205, R210), a word cut short (R190). Never raised for a received byte
  (R209). Safe. -/
  | noInstruction (why : Reject)
  /-- Raised by every host operation: a request while an operation runs (R442, U9). Safe. -/
  | requestWhileRunning
  /-- Raised by Configure: a second request of it (R273, R408, U1). Safe. -/
  | configureTwice
  /-- Raised by ReadAt, WriteAt, EraseBlocks: no successful Configure before (R408, U2). Safe. -/
  | ioWithoutConfigure
  /-- Raised by ReadAt, WriteAt, EraseBlocks when a block is addressed while `card_type` is Unknown (R330, U2). Safe. -/
  | unknownCardType
  /-- Raised by ReadAt, WriteAt: an offset of more than P_OFFSET_W bits or a buffer length of more than P_LEN_W bits. No
  request has one: "offset: unsigned, P_OFFSET_W bits" (R213, R109; log 36). Safe. -/
  | operandTooWide
  /-- Raised by ReadAt, WriteAt: zero length at an unaligned offset (R364, U3). Safe. -/
  | zeroLengthUnaligned
  /-- Raised by Size: the stored CSD has structure 2 or 3, so the capacity is undefined (R310, U4). Safe. -/
  | capacityUndefined
  /-- Raised by Size: no successful Configure before (R381, R408, U5). Safe. -/
  | sizeWithoutConfigure
  /-- Raised by ReadAt, WriteAt, EraseBlocks when a block index of 2^23 or more is scaled for a byte-addressed card
  (R170, U6). Safe. -/
  | blockIndexTooLarge
  /-- Raised by ReadAt, WriteAt: an offset without block index, or a request that runs past block 2^32 - 1 (R170, U7).
  Safe. -/
  | pastLastBlock
  /-- Raised by EraseBlocks: `start + count` above 2^32 (R337, U12). Safe. -/
  | erasePastLastBlock
  deriving DecidableEq, Repr

/-- The state. The comment of each field names the rule of spec/ and the spec's own name. -/
structure State where
  /-- The configuration, R108, R109: which machine it is. No step changes it (log 35) -/
  par : Params
  /-- `card_type`, R122 -/
  cardType : CardType
  /-- `cid`, R123 -/
  cid : Cid
  /-- `csd`, R124 -/
  csd : Csd
  /-- `seq`, R126 -/
  seq : Seq
  /-- `scratch[512]`, R127 -/
  scratch : List Byte
  /-- `phase`, R135 -/
  phase : Phase
  /-- `frame[6]`, R129 -/
  frame : List Byte
  /-- `resp`, R129 -/
  resp : Byte
  /-- `poll_cnt`, R129 -/
  pollCnt : U16
  /-- `deadline`, R129 -/
  deadline : Nat
  /-- `loop_deadline`, R129 -/
  loopDeadline : Nat
  /-- `trail[4]`, R129 -/
  trail : List Byte
  /-- `reg_img[16]`, R129 -/
  regImg : List Byte
  /-- `cid_new`, R129 -/
  cidNew : Cid
  /-- `csd_new`, R129 -/
  csdNew : Csd
  /-- `blk`, R129 -/
  blk : U32
  /-- `boff`, R129 -/
  boff : BitVec 9
  /-- `done`, R129: P_LEN_W bits, which `done <= n` keeps it to (R113, `Inv.widths`) -/
  done : Nat
  /-- `rem`, R129: P_LEN_W bits -/
  rem : Nat
  /-- `err`, R129 -/
  err : Option ErrCode
  /-- `cs`, R131: true is 1, released -/
  cs : Bool
  /-- `rate_sel`, R132 -/
  rateSel : Rate
  /-- `lock_held`, R133 -/
  lockHeld : Bool
  /-- The result registers, R134: none while not valid -/
  presented : Option Completion
  /-- The caller's buffer, R144, R145 -/
  buf : Memory
  /-- `len(buf)`, R213: P_LEN_W bits -/
  bufLen : Nat
  /-- The model's own: the value `r` the last `command` returned (R240) -/
  r1 : Byte
  /-- The model's own: the events of R112 so far, newest first -/
  trace : List Event
  /-- Input: what the host (or, for a place other than `host`, the sequencer) presents next, oldest first, R144 -/
  inbox : List Request
  /-- Input: the bytes the card returns next, R142 -/
  miso : List Byte
  /-- The last reading of the time base, R143 -/
  time : Nat
  /-- Input: by how much the next readings exceed the one before, R143 -/
  ticks : List Nat
  /-- Input: whether the next `lock()` calls are granted, R140 -/
  grants : List Bool
  /-- The model's own: how many free values of Config have been drawn -/
  draws : Nat
  deriving DecidableEq, Repr

/-- A CID record of zeros, the value named for reset (log 6). -/
def Cid.zero : Cid := { mid := 0, oid := 0, pnm := 0, prv := 0, psn := 0, mdt := 0 }

/-- CSD fields of zeros, the value named for reset (log 6). -/
def CsdCommon.zero : CsdCommon :=
  { taac := 0, nsac := 0, tranSpeed := 0, ccc := 0, readBlLen := 0, readBlPartial := 0, writeBlkMisalign := 0
    readBlkMisalign := 0, dsrImp := 0, eraseBlkEn := 0, sectorSize := 0, wpGrpSize := 0, wpGrpEnable := 0
    r2wFactor := 0, writeBlLen := 0, writeBlPartial := 0, fileFormatGrp := 0, copy := 0
    permWriteProtect := 0, tmpWriteProtect := 0, fileFormat := 0 }

/-- A CSD record of zeros, the value named for reset (log 6). -/
def Csd.zero : Csd :=
  .v1 { common := CsdCommon.zero, cSize := 0, vddRCurrMin := 0, vddRCurrMax := 0, vddWCurrMin := 0, vddWCurrMax := 0
        cSizeMult := 0 }

/-- The machine right after reset (R150, R440). `card_type`, `seq`, `cs`, `lock_held`, `phase`, `err` and the
result registers are the spec's, and the configuration is that of the defaults; every other register's value is named in
assumption log 6 and 7, and the inputs are empty. -/
def State.reset : State where
  par := Params.spec
  cardType := .unknown
  cid := Cid.zero
  csd := Csd.zero
  seq := .idle
  scratch := List.replicate P.blockSize 0
  phase := .fresh
  frame := List.replicate P.frameLen 0
  resp := 0
  pollCnt := 0
  deadline := 0
  loopDeadline := 0
  trail := List.replicate 4 0
  regImg := List.replicate P.regSize 0
  cidNew := Cid.zero
  csdNew := Csd.zero
  blk := 0
  boff := 0
  done := 0
  rem := 0
  err := none
  cs := true
  rateSel := .fast
  lockHeld := false
  presented := none
  buf := []
  bufLen := 0
  r1 := 0
  trace := []
  inbox := []
  miso := []
  time := 0
  ticks := []
  grants := []
  draws := 0

end Sys2Proof.Machine
end

