-- ==== Sys2Proof/Machine/Ops.lean ====
section
/-! DEFINITION. The operations everything else is made of: the buffer memory, the primitives of R111 (lock,
rate, chip-select, byte exchange, time base), the end of a host operation (R404), and the two result types
of a micro-operation. -/

namespace Sys2Proof.Machine

/-! ### The caller's buffer -/

/-- The byte at an address; an address not listed reads as 0x00 (log 20). -/
def Memory.read : Memory → Nat → Byte
  | [], _ => 0
  | (k, v) :: m, a => if k = a then v else Memory.read m a

/-- Set the byte at an address, keeping the canonical form. -/
def Memory.write : Memory → Nat → Byte → Memory
  | [], a, b => if b = 0#8 then [] else [(a, b)]
  | (k, v) :: m, a, b =>
    if a < k then (if b = 0#8 then (k, v) :: m else (a, b) :: (k, v) :: m)
    else if a = k then (if b = 0#8 then m else (a, b) :: m)
    else (k, v) :: Memory.write m a b

/-- The canonical form: addresses strictly rising, no byte 0x00 listed. -/
def Memory.wf : Memory → Bool
  | [] => true
  | (k, v) :: m => v != 0#8 && m.all (fun c => k < c.1) && Memory.wf m

/-- `buf[a .. a + n)` -/
def Memory.readBytes (m : Memory) : Nat → Nat → List Byte
  | _, 0 => []
  | a, n + 1 => m.read a :: Memory.readBytes m (a + 1) n

/-- `buf[a .. a + length) <- bytes` -/
def Memory.writeBytes : Memory → Nat → List Byte → Memory
  | m, _, [] => m
  | m, a, b :: bs => Memory.writeBytes (m.write a b) (a + 1) bs

/-! ### Free values -/

/-- A list of inputs after one of them has been used. -/
def drawsAfter {α : Type} (inputs : List α) (draws : Nat) : Nat :=
  match inputs with
  | [] => draws + 1
  | _ :: _ => draws

/-- The byte the card returns in the next exchange (R142). -/
def nextByte (s : State) : Byte :=
  match s.miso with
  | b :: _ => b
  | [] => Config.cardByte s.draws

/-- The next reading of the time base: never below the last (R143), and, once no input fixes it, advancing
(R441 item 2; log 3). -/
def nextTime (s : State) : Nat :=
  match s.ticks with
  | d :: _ => s.time + d
  | [] => s.time + Config.freeTick s.draws + 1

/-- Whether the bus transport grants the next `lock()` (R140). -/
def nextGrant (s : State) : Bool :=
  match s.grants with
  | g :: _ => g
  | [] => Config.lockGrant s.draws

/-! ### The primitives of R111 -/

/-- The event of one exchange (R112). -/
def exchange (mosi miso : Byte) (s : State) : State :=
  { s with trace := .x mosi miso :: s.trace }

/-- `xfer(b) -> m`: one full-duplex byte exchange. -/
def xfer (mosi : Byte) (s : State) : Byte × State :=
  (nextByte s,
    exchange mosi (nextByte s) { s with miso := s.miso.tail, draws := drawsAfter s.miso s.draws })

/-- `xfer_bulk_rd`: `n` exchanges, the bytes received in order (R111, R141, D3). -/
def xferRead (par : Params) : Nat → State → List Byte × State
  | 0, s => ([], s)
  | n + 1, s =>
    ((xfer par.fill s).1 :: (xferRead par n (xfer par.fill s).2).1, (xferRead par n (xfer par.fill s).2).2)

/-- `xfer_bulk_wr`: the bytes sent in order, what is received ignored (R111, R141, D3). -/
def xferWrite : List Byte → State → State
  | [], s => s
  | b :: bs, s => xferWrite bs (xfer b s).2

/-- `cs(v)`: drive chip-select; an event only when the level changes (R112, R131, D33). -/
def setCs (level : Bool) (s : State) : State :=
  { s with cs := level, trace := if s.cs = level then s.trace else .cs level :: s.trace }

/-- `rate(r)`: select the clock rate; always an event (R112, R132). -/
def setRate (r : Rate) (s : State) : State :=
  { s with rateSel := r, trace := .rate r :: s.trace }

/-- `lock()` once granted (R133, R140). The shared rate is then whatever the other users left (R132). -/
def lockBus (s : State) : State :=
  { s with
    lockHeld := true, rateSel := Config.otherRate s.draws, grants := s.grants.tail
    draws := s.draws + 1, trace := .lock :: s.trace }

/-- `unlock()` (R133). -/
def unlockBus (s : State) : State :=
  { s with lockHeld := false, trace := .unlock :: s.trace }

/-- `now()`: read the time base once (R143). -/
def now (s : State) : Nat × State :=
  (nextTime s, { s with time := nextTime s, ticks := s.ticks.tail, draws := drawsAfter s.ticks s.draws })

/-- `expired(d)`: one reading, `now() >= d` (R290). -/
def expired (d : Nat) (s : State) : Bool × State :=
  (decide (d ≤ (now s).1), (now s).2)

/-- An upper bound on how many readings can be made before `d` has passed: a reading uses one of the given
inputs or, when there are none, advances by at least one tick. The loops of R262, R264, R291 and R293
count down from it, so that they are total; they never reach its end (log 14). -/
def patience (d : Nat) (s : State) : Nat := s.ticks.length + (d - s.time)

/-! ### The end of a host operation -/

/-- How a bus-using host operation ends, on success (`e = none`) and on every failure alike: `unlock()`,
`seq <- IDLE`, the completion (R380; R404 items 2 to 4). This is the block's one way of taking an error:
nothing is saved beyond the code and the count, and nothing is rolled back. There is no return from it
(R405). -/
def complete (e : Option ErrCode) (c : Completion) (s : State) : State :=
  { unlockBus s with seq := .idle, err := e, presented := some c }

/-! ### Results of micro-operations -/

/-- How a micro-operation that addresses a block can end early: an error of R401, or a case the spec puts
outside the contract (treatment `refuse`). -/
inductive Stop
  | err (e : ErrCode)
  | refuse (r : Refusal)
  deriving DecidableEq, Repr

/-- A micro-operation that can fail with an error. -/
abbrev Proc (α : Type) := EStateM ErrCode State α

/-- A micro-operation that can fail with an error or leave the contract. -/
abbrev BlockProc (α : Type) := EStateM Stop State α

/-- An operation that cannot fail, inside one that can. -/
def bus {ε α : Type} (f : State → α × State) : EStateM ε State α :=
  fun s => .ok (f s).1 (f s).2

/-- A change of the state, inside a micro-operation. -/
def update {ε : Type} (f : State → State) : EStateM ε State Unit :=
  fun s => .ok () (f s)

/-- A micro-operation that can only fail with an error, inside one that can leave the contract. The error
passes up unchanged (R406). -/
def orFail {α : Type} (p : Proc α) : BlockProc α :=
  fun s =>
    match p s with
    | .ok a t => .ok a t
    | .error e t => .error (.err e) t

end Sys2Proof.Machine
end

