-- ==== Sys2Proof/Machine/Flags.lean ====
section
/-! DEFINITION. The block has no condition codes (10_state.md section 3). What it branches on are tests of a
received byte: the four of an R1 response (R194), and those of R201, R203, R195 and R196. -/

namespace Sys2Proof.Machine

/-- `r[7] = 0`: the byte is an R1 response (R193, R243). -/
def isResponse (b : Byte) : Bool := b.extractLsb 7 7 == 0#1

/-- `r = P_R1_IDLE`: the whole byte equals 0x01 (R194, R262). -/
def isInIdle (par : Params) (r : Byte) : Bool := r == par.r1Idle

/-- `r AND P_R1_ILLEGAL /= 0` (R194, R263, D11). -/
def isIllegal (par : Params) (r : Byte) : Bool := (r &&& par.r1Illegal) != 0

/-- `r = 0` (R194, R264). -/
def isReady (r : Byte) : Bool := r == P.r1Ready

/-- The 4th trailing byte echoes the check pattern (R195). -/
def isEcho (par : Params) (b : Byte) : Bool := b == par.checkPattern

/-- The first OCR byte has both top bits set (R196). -/
def isHighCapacity (b : Byte) : Bool := (b &&& P.ocrCapMask) == P.ocrCapMask

/-- The data-response byte reports "accepted" (R201). -/
def isAccepted (b : Byte) : Bool := (b &&& P.drespMask) == P.drespAccepted

/-- The card is not busy (R203). -/
def isNotBusy (b : Byte) : Bool := b == P.idleByte

end Sys2Proof.Machine
end

