-- ==== Sys2Proof/Machine/Waits.lean ====
section
/-! DEFINITION. Deadlines, the not-busy wait and the start-token wait (42_waits.md). Every wait polls first,
tests the byte, and only then the clock (D5, R403 item 3). -/

namespace Sys2Proof.Machine

/-- `deadline <- now() + T` (R290). -/
def startDeadline (budget : Nat) (s : State) : State :=
  { (now s).2 with deadline := budget + (now s).1 }

/-- `resp <- xfer(P_FILL)`: one poll. -/
def poll (par : Params) (s : State) : Byte × State :=
  ((xfer par.fill s).1, { (xfer par.fill s).2 with resp := (xfer par.fill s).1 })

/-- The loop of `waitNotBusy` (R291). The first argument counts down from `patience`. -/
def notBusyLoop (par : Params) : Nat → State → State
  | 0, s => s
  | n + 1, s =>
    if isNotBusy (poll par s).1 then (poll par s).2
    else if (expired (poll par s).2.deadline (poll par s).2).1 then (expired (poll par s).2.deadline (poll par s).2).2
    else notBusyLoop par n (expired (poll par s).2.deadline (poll par s).2).2

/-- `waitNotBusy(T)`, with T in P_TICK units: "returns success even on timeout" (R290, R291). -/
def waitNotBusy (par : Params) (budget : Nat) (s : State) : State :=
  notBusyLoop par (patience (startDeadline budget s).deadline (startDeadline budget s) + 1) (startDeadline budget s)

/-- The loop of `waitStartBlock` (R293): polls until a byte other than 0xFF. The first argument counts down
from `patience`. -/
def startBlockLoop (par : Params) : Nat → Proc Unit
  | 0 => do
    update (setCs true)
    throw .startBlock
  | n + 1 => do
    let b ← bus (poll par)
    if b = P.idleByte then
      let s ← get
      if ← bus (expired s.deadline) then
        update (setCs true)
        throw .startBlock
      else startBlockLoop par n
    else if b = P.tokenStart then pure ()
    else
      update (setCs true)
      throw .startBlock

/-- `waitStartBlock()`: a timeout and a wrong token are one error, and chip-select is released on both (R293). -/
def waitStartBlock (par : Params) : Proc Unit := do
  update (startDeadline (par.units P.tStart))
  let s ← get
  startBlockLoop par (patience s.deadline s + 1)

end Sys2Proof.Machine
end

