-- ==== Sys2Proof/Machine/Command.lean ====
section
/-! DEFINITION. The command/response engine (40_command_response.md), and the meanings of the 12 command frames
of the opcode table: each is one run of `command` (R240, R249: "one call sends one frame once"). -/

namespace Sys2Proof.Machine

/-- `poll_cnt <- poll_cnt + 1`; the counter "never wraps" (R113, R409). -/
def countPoll (s : State) : State :=
  { s with pollCnt := if s.pollCnt.toNat < P.nRespPoll then s.pollCnt + 1 else s.pollCnt }

/-- The response is taken: `return resp`, chip-select stays as it is (R243, R245). -/
def answered (r : Byte) (s : State) : State := { s with r1 := r }

/-- The response poll is exhausted: `cs(1)`, the sentinel (R244). -/
def exhausted (s : State) : State := { setCs true s with r1 := P.noResponse }

/-- The response poll (R243), with `n` polls left. -/
def respPoll (par : Params) : Nat → State → Byte × State
  | 0, s => (P.noResponse, exhausted s)
  | n + 1, s =>
    if isResponse (poll par s).1 then ((poll par s).1, answered (poll par s).1 (countPoll (poll par s).2))
    else respPoll par n (countPoll (poll par s).2)

/-- The pre-wait: every command but the stop-transmission command (R241). -/
def preWait (par : Params) (code : BitVec 6) (s : State) : State :=
  if code = par.cmdStop then s else waitNotBusy par (par.units par.tCmdBusy) s

/-- Load the frame register and send its 6 bytes in order (R242). -/
def sendFrame (bytes : List Byte) (s : State) : State :=
  xferWrite bytes { s with frame := bytes }

/-- `command(code, arg, crc) -> r` (R240). -/
def command (par : Params) (code : BitVec 6) (arg : U32) (crc : Byte) (s : State) : Byte × State :=
  respPoll par P.nRespPoll
    { sendFrame (frameBytes code arg crc) (preWait par code (setCs false s)) with pollCnt := 0 }

/-- `appCommand(code, arg) -> r`: the prefix command, its response not examined, then the command (R247, R248). -/
def appCommand (par : Params) (code : BitVec 6) (arg : U32) (s : State) : Byte × State :=
  command par code arg par.crcDummy (command par par.cmdApp 0 par.crcDummy s).2

/-! ### The 12 frames (R200)

Run alone, a frame tests neither `lock_held` nor `seq` and takes no lock: it exchanges its bytes and drives chip-select
in every state. DESIGN CHOICE, unsafe: the spec has no rule for a frame outside an operation that holds the lock
(R444; assumption log 31). -/

/-- CMD0 (R200, R262). -/
def execCmd0 (s : State) : Host.Outcome State Fault Refusal :=
  .next (command s.par s.par.cmdGoIdle 0 s.par.crcGoIdle s).2

/-- CMD8 (R200, R263). -/
def execCmd8 (s : State) : Host.Outcome State Fault Refusal :=
  .next (command s.par s.par.cmdIfCond s.par.ifCondArg s.par.crcIfCond s).2

/-- CMD9 (R200, R301). -/
def execCmd9 (s : State) : Host.Outcome State Fault Refusal :=
  .next (command s.par s.par.cmdSendCsd 0 s.par.crcDummy s).2

/-- CMD10 (R200, R301). -/
def execCmd10 (s : State) : Host.Outcome State Fault Refusal :=
  .next (command s.par s.par.cmdSendCid 0 s.par.crcDummy s).2

/-- CMD12: no pre-wait (R241). -/
def execCmd12 (arg : U32) (crc : Byte) (s : State) : Host.Outcome State Fault Refusal :=
  .next (command s.par s.par.cmdStop arg crc s).2

/-- CMD16 (R200, R266). -/
def execCmd16 (s : State) : Host.Outcome State Fault Refusal :=
  .next (command s.par s.par.cmdSetBlockLen P.blockLenArg s.par.crcDummy s).2

/-- CMD17 (R200, R331). -/
def execCmd17 (arg : U32) (s : State) : Host.Outcome State Fault Refusal :=
  .next (command s.par s.par.cmdReadSingle arg s.par.crcDummy s).2

/-- CMD24 (R200, R332). -/
def execCmd24 (arg : U32) (s : State) : Host.Outcome State Fault Refusal :=
  .next (command s.par s.par.cmdWriteSingle arg s.par.crcDummy s).2

/-- CMD25 (R200, R334). -/
def execCmd25 (arg : U32) (s : State) : Host.Outcome State Fault Refusal :=
  .next (command s.par s.par.cmdWriteMulti arg s.par.crcDummy s).2

/-- CMD55: the first of the two frames of an application command (R211, R247). -/
def execCmd55 (s : State) : Host.Outcome State Fault Refusal :=
  .next (command s.par s.par.cmdApp 0 s.par.crcDummy s).2

/-- CMD58 (R200, R265). -/
def execCmd58 (s : State) : Host.Outcome State Fault Refusal :=
  .next (command s.par s.par.cmdReadOcr 0 s.par.crcDummy s).2

/-- ACMD41: the second of the two frames; "nothing in the second frame marks it as an application command" (R211). -/
def execAcmd41 (hcs : Bool) (s : State) : Host.Outcome State Fault Refusal :=
  .next (command s.par P.acmdOpCond (opCondArg s.par hcs) s.par.crcDummy s).2

end Sys2Proof.Machine
end

