-- ==== Sys2Proof/Machine/Operands.lean ====
section
/-! DEFINITION. Operand assembly: the address scaling of R330, the argument of ACMD41 (R207), the split of a
host request into blocks (R362), slices of 512-byte buffers, and what the contract asks of a request
(R170, R364, R408). -/

namespace Sys2Proof.Machine

/-! ### Addresses -/

/-- `scale(blockIndex)`, by card type: the index itself, or times 512 where that fits 32 bits (R330, R170). -/
def scale (card : CardType) (b : U32) : Except Refusal U32 :=
  match card with
  | .sdhc => .ok b
  | .sd1 | .sd2 =>
    if b.toNat < P.byteAddressedBound then .ok (BitVec.ofNat 32 (b.toNat * P.blockSize))
    else .error .blockIndexTooLarge
  | .unknown => .error .unknownCardType

/-- `scale` inside a micro-operation: an index without argument leaves the contract. -/
def scaled (b : U32) : BlockProc U32 :=
  fun s =>
    match scale s.cardType b with
    | .ok arg => .ok arg s
    | .error r => .error (.refuse r) s

/-- The argument of ACMD41 (R207). -/
def opCondArgOf (par : Params) (card : CardType) : U32 := opCondArg par (decide (card = .sd2))

/-! ### Splitting a request (R362) -/

/-- The parts of a request: `n = head + 512 * full + tail`. -/
structure Split where
  blk : Nat
  boff : Nat
  head : Nat
  full : Nat
  tail : Nat
  deriving DecidableEq, Repr

/-- The bytes of the first, partial block (R362). -/
def headOf (off n : Nat) : Nat :=
  if off % P.blockSize = 0 then 0 else min (P.blockSize - off % P.blockSize) n

/-- The split of a transfer of `n` bytes at byte offset `off` (R362). -/
def split (off n : Nat) : Split where
  blk := off / P.blockSize
  boff := off % P.blockSize
  head := headOf off n
  full := (n - headOf off n) / P.blockSize
  tail := (n - headOf off n) % P.blockSize

/-! ### Slices of a 512-byte buffer -/

/-- `a[i .. i + k)` -/
def slice (i k : Nat) (a : List Byte) : List Byte := (a.drop i).take k

/-- `a[i .. i + length) <- src` -/
def patch (i : Nat) (src a : List Byte) : List Byte := a.take i ++ src ++ a.drop (i + src.length)

/-- `zero[512]`: the hard-wired buffer of zero bytes (R128). -/
def zeroBlock : List Byte := List.replicate P.blockSize 0

/-! ### What the contract asks of a request -/

/-- A request is accepted only in IDLE (R144, R442). -/
def refuseBusy (s : State) : Option Refusal :=
  if s.seq = .idle then none else some .requestWhileRunning

/-- `Configure` is in the contract in phase FRESH only (R408). -/
def refuseConfigure (s : State) : Option Refusal :=
  if s.seq ≠ .idle then some .requestWhileRunning
  else if s.phase ≠ .fresh then some .configureTwice
  else none

/-- I/O is in the contract in phase READY only (R408). -/
def refuseIo (s : State) : Option Refusal :=
  if s.seq ≠ .idle then some .requestWhileRunning
  else if s.phase ≠ .ready then some .ioWithoutConfigure
  else none

/-- What a transfer of `n` bytes at `off` must satisfy: not zero bytes at an unaligned offset (R364), and
every block it touches has a 32-bit index (R170). An offset or a length beyond its width is no operand (R213). -/
def refuseTransfer (par : Params) (off n : Nat) : Option Refusal :=
  if par.holdsOffset off = false ∨ par.holdsLen n = false then some .operandTooWide
  else if n = 0 ∧ off % P.blockSize ≠ 0 then some .zeroLengthUnaligned
  else if P.blockIndexBound ≤ off / P.blockSize ∨ P.blockIndexBound * P.blockSize < off + n then some .pastLastBlock
  else none

/-- `start + count` at most 2^32 (R337, U12). -/
def refuseErase (start : U32) (count : U64) : Option Refusal :=
  if start.toNat + count.toNat ≤ P.blockIndexBound then none else some .erasePastLastBlock

end Sys2Proof.Machine
end

