-- ==== Sys2Proof/Machine/BlockIO.lean ====
section
/-! DEFINITION. The block I/O engine (44_block_io.md): block read, block write, the multi-block write session
and the zero-fill. -/

namespace Sys2Proof.Machine

/-- `readBlock(b, dst) -> ok | error`; `dstLen` is `len(dst)` and the 512 payload bytes are the result, which
the caller stores in `dst` (R331). -/
def readBlock (par : Params) (b : U32) (dstLen : Nat) : BlockProc (List Byte) := do
  if dstLen < P.blockSize then throw (.err .param)
  else
    let arg ← scaled b
    let r ← bus (command par par.cmdReadSingle arg par.crcDummy)
    if isReady r then
      orFail (waitStartBlock par)
      let payload ← bus (xferRead par P.blockSize)
      let _ ← bus (xferRead par 2)
      update (setCs true)
      return payload
    else
      update (setCs true)
      throw (.err .readCmd)

/-- What is sent of a written packet: token, the first 512 bytes of `src`, two dummy CRC bytes (R199, R164). -/
def packetBytes (par : Params) (token : Byte) (src : List Byte) : List Byte :=
  token :: src.take P.blockSize ++ [par.crcDummy, par.crcDummy]

/-- `sendDataPacket(token, src) -> ok | E_WRITE_DATA_RESP` (R333). -/
def sendDataPacket (par : Params) (token : Byte) (src : List Byte) : Proc Unit := do
  update (xferWrite (packetBytes par token src))
  let b ← bus (poll par)
  if isAccepted b then update (waitNotBusy par (par.units P.tWriteBusy))
  else
    update (setCs true)
    throw .writeDataResp

/-- `writeBlock(b, src) -> ok | error` (R332). -/
def writeBlock (par : Params) (b : U32) (src : List Byte) : BlockProc Unit := do
  if src.length < P.blockSize then throw (.err .param)
  else
    let arg ← scaled b
    let r ← bus (command par par.cmdWriteSingle arg par.crcDummy)
    if isReady r then
      orFail (sendDataPacket par P.tokenStart src)
      update (setCs true)
    else
      update (setCs true)
      throw (.err .writeCmd)

/-- `writeMultiStart(b) -> ok | error`: on success the session is open and chip-select low (R334). -/
def writeMultiStart (par : Params) (b : U32) : BlockProc Unit := do
  let arg ← scaled b
  let r ← bus (command par par.cmdWriteMulti arg par.crcDummy)
  if isReady r then
    let _ ← bus (xfer par.fill)
    return ()
  else
    update (setCs true)
    throw (.err .writeMultiCmd)

/-- `writeMulti(buf) -> ok | error`: one chunk (R335). -/
def writeMulti (par : Params) (src : List Byte) : Proc Unit := do
  if src.length < P.blockSize then throw .param
  else sendDataPacket par P.tokenMulti src

/-- `writeMultiStop()`: the stop token, not CMD12; cannot fail (R336). -/
def writeMultiStop (par : Params) (s : State) : State :=
  setCs true (waitNotBusy par (par.units par.tStopBusy) (xferWrite [P.tokenStop, par.fill] s))

/-- `count` chunks of zeros; a failing chunk ends them at once (R337, D20). -/
def zeroChunks (par : Params) : Nat → Proc Unit
  | 0 => pure ()
  | n + 1 => do
    writeMulti par zeroBlock
    zeroChunks par n

/-- `eraseBlocks(start, count)`: a zero-fill inside one multi-write session (R337). -/
def eraseSession (par : Params) (start : U32) (count : Nat) : BlockProc Unit := do
  writeMultiStart par start
  orFail (zeroChunks par count)
  update (writeMultiStop par)

end Sys2Proof.Machine
end

