-- ==== Sys2Proof/Machine/Adapter.lean ====
section
/-! DEFINITION. The unaligned access adapter (45_unaligned_adapter.md): the bodies of `ReadAt` and `WriteAt`. -/

namespace Sys2Proof.Machine

/-- `blk`, `boff`, `done` and `rem` at the start of a transfer (R362). -/
def startTransfer (off n : Nat) (s : State) : State :=
  { s with
    blk := BitVec.ofNat 32 (split off n).blk, boff := BitVec.ofNat 9 (split off n).boff
    done := 0, rem := n }

/-- `done <- done + k`, and `rem = n - done` (R362, R363). -/
def advance (k : Nat) (s : State) : State :=
  { s with done := s.done + k, rem := s.rem - k }

/-- `blk <- blk + 1` (R362). After block 2^32 - 1 the register is not read again (log 17). -/
def nextBlock (s : State) : State := { s with blk := s.blk + 1 }

/-- `scratch <- bytes` (R127). -/
def setScratch (bytes : List Byte) (s : State) : State := { s with scratch := bytes }

/-- `buf[done .. done + length) <- bytes` -/
def toBuffer (bytes : List Byte) (s : State) : State :=
  { s with buf := s.buf.writeBytes s.done bytes }

/-- `buf[done .. done + k)` -/
def fromBuffer (k : Nat) (s : State) : List Byte := s.buf.readBytes s.done k

/-- `readBlock(blk, scratch)`: a partial block goes through the scratch buffer, refilled every time (R177). -/
def readScratch (par : Params) : BlockProc Unit := do
  let s ← get
  let payload ← readBlock par s.blk P.blockSize
  update (setScratch payload)

/-- ReadAt, a partial block: `buf[done .. done + k) <- scratch[i .. i + k)` (R360). -/
def readPart (par : Params) (i k : Nat) : BlockProc Unit := do
  readScratch par
  update (fun s => toBuffer (slice i k s.scratch) s)
  update (advance k)

/-- ReadAt, the whole blocks, straight into the caller's buffer (R360). -/
def readWhole (par : Params) : Nat → BlockProc Unit
  | 0 => pure ()
  | n + 1 => do
    let s ← get
    let payload ← readBlock par s.blk P.blockSize
    update (toBuffer payload)
    update (advance P.blockSize)
    update nextBlock
    readWhole par n

/-- The head of ReadAt, when the offset is not block-aligned (R360). -/
def readHead (par : Params) (q : Split) : BlockProc Unit := do
  if q.boff = 0 then pure ()
  else
    readPart par q.boff q.head
    update nextBlock

/-- The tail of ReadAt, when a final partial block remains (R360). -/
def readTail (par : Params) (q : Split) : BlockProc Unit := do
  if q.tail = 0 then pure () else readPart par 0 q.tail

/-- The body of `ReadAt` (R360). -/
def readBody (par : Params) (off n : Nat) : BlockProc Unit := do
  update (startTransfer off n)
  readHead par (split off n)
  readWhole par (split off n).full
  readTail par (split off n)

/-- WriteAt, a partial block: read, `scratch[i .. i + k) <- buf[done .. done + k)`, write back (R361). -/
def writePart (par : Params) (i k : Nat) : BlockProc Unit := do
  readScratch par
  update (fun s => setScratch (patch i (fromBuffer k s) s.scratch) s)
  let s ← get
  writeBlock par s.blk s.scratch
  update (advance k)

/-- WriteAt, the whole blocks, straight from the caller's buffer, one `writeBlock` each (R361). -/
def writeWhole (par : Params) : Nat → BlockProc Unit
  | 0 => pure ()
  | n + 1 => do
    let s ← get
    writeBlock par s.blk (fromBuffer P.blockSize s)
    update (advance P.blockSize)
    update nextBlock
    writeWhole par n

/-- The head of WriteAt: read-modify-write of the first block (R361). -/
def writeHead (par : Params) (q : Split) : BlockProc Unit := do
  if q.boff = 0 then pure ()
  else
    writePart par q.boff q.head
    update nextBlock

/-- The tail of WriteAt: read-modify-write of the last block (R361). -/
def writeTail (par : Params) (q : Split) : BlockProc Unit := do
  if q.tail = 0 then pure () else writePart par 0 q.tail

/-- The body of `WriteAt` (R361). -/
def writeBody (par : Params) (off n : Nat) : BlockProc Unit := do
  update (startTransfer off n)
  writeHead par (split off n)
  writeWhole par (split off n).full
  writeTail par (split off n)

end Sys2Proof.Machine
end

