-- ==== Sys2Proof/Machine/Register.lean ====
section
/-! DEFINITION. The register read, the CID and CSD decoders and the capacity (43_registers.md). All bit
positions are the spec's general-knowledge layouts (assumption log 15). -/

namespace Sys2Proof.Machine

/-! ### Register read -/

/-- `readRegister(code, dst) -> ok | error`; the 16 bytes are the result (R300). -/
def readRegister (par : Params) (code : BitVec 6) : Proc (List Byte) := do
  let r ← bus (command par code 0 par.crcDummy)
  if isReady r then
    waitStartBlock par
    let img ← bus (xferRead par P.regSize)
    let _ ← bus (xferRead par 2)
    update (setCs true)
    return img
  else
    update (setCs true)
    throw .regCmd

/-! ### Fields of a register image -/

/-- `REG(img)`: the 128-bit value of a register image, `img[0]` holding bits 127:120 (R110, R302). -/
def regValue (img : List Byte) : BitVec 128 := BitVec.ofNat 128 (ofBe img)

/-- `decodeCID(img)` (R303, R304). -/
def decodeCid (img : List Byte) : Cid where
  mid := (regValue img).extractLsb 127 120
  oid := (regValue img).extractLsb 119 104
  pnm := (regValue img).extractLsb 103 64
  prv := (regValue img).extractLsb 63 56
  psn := (regValue img).extractLsb 55 24
  mdt := (regValue img).extractLsb 19 8

/-- The fields that stand at the same place in both layouts: bits 127:76 and 46:0 (R306, R307). -/
def decodeCsdCommon (reg : BitVec 128) : CsdCommon where
  taac := reg.extractLsb 119 112
  nsac := reg.extractLsb 111 104
  tranSpeed := reg.extractLsb 103 96
  ccc := reg.extractLsb 95 84
  readBlLen := reg.extractLsb 83 80
  readBlPartial := reg.extractLsb 79 79
  writeBlkMisalign := reg.extractLsb 78 78
  readBlkMisalign := reg.extractLsb 77 77
  dsrImp := reg.extractLsb 76 76
  eraseBlkEn := reg.extractLsb 46 46
  sectorSize := reg.extractLsb 45 39
  wpGrpSize := reg.extractLsb 38 32
  wpGrpEnable := reg.extractLsb 31 31
  r2wFactor := reg.extractLsb 28 26
  writeBlLen := reg.extractLsb 25 22
  writeBlPartial := reg.extractLsb 21 21
  fileFormatGrp := reg.extractLsb 15 15
  copy := reg.extractLsb 14 14
  permWriteProtect := reg.extractLsb 13 13
  tmpWriteProtect := reg.extractLsb 12 12
  fileFormat := reg.extractLsb 11 10

/-- The version 1 layout (R306). -/
def decodeCsdV1 (img : List Byte) : CsdV1 where
  common := decodeCsdCommon (regValue img)
  cSize := (regValue img).extractLsb 73 62
  vddRCurrMin := (regValue img).extractLsb 61 59
  vddRCurrMax := (regValue img).extractLsb 58 56
  vddWCurrMin := (regValue img).extractLsb 55 53
  vddWCurrMax := (regValue img).extractLsb 52 50
  cSizeMult := (regValue img).extractLsb 49 47

/-- The version 2 layout (R307). -/
def decodeCsdV2 (img : List Byte) : CsdV2 where
  common := decodeCsdCommon (regValue img)
  cSize := (regValue img).extractLsb 69 48

/-- `CSD_STRUCTURE = REG[127:126]` (R305). -/
def csdStructure (img : List Byte) : BitVec 2 := (regValue img).extractLsb 127 126

/-- `decodeCSD(img)`: the structure field of the image, and nothing else, selects the layout (R305, R310, R312). -/
def decodeCsd (img : List Byte) : Csd :=
  if csdStructure img = 0#2 then .v1 (decodeCsdV1 img)
  else if csdStructure img = 1#2 then .v2 (decodeCsdV2 img)
  else .noLayout ((regValue img).extractLsb 126 126)

/-- The structure field a record holds (R305: "the record always holds `CSD_STRUCTURE`"). -/
def Csd.structureField : Csd → BitVec 2
  | .v1 _ => 0#2
  | .v2 _ => 1#2
  | .noLayout low => 1#1 ++ low

/-! ### Capacity -/

/-- `capacity_v1`, in bytes, exact (R308). -/
def capacityV1 (f : CsdV1) : Nat :=
  (f.cSize.toNat + 1) * 2 ^ (f.cSizeMult.toNat + 2) * 2 ^ f.common.readBlLen.toNat

/-- `capacity_v2`, in bytes, exact (R309). -/
def capacityV2 (f : CsdV2) : Nat := (f.cSize.toNat + 1) * P.v2Unit

/-- `capacity(csd)`; undefined for structure 2 and 3 (R310, R311). -/
def capacity : Csd → Option Nat
  | .v1 f => some (capacityV1 f)
  | .v2 f => some (capacityV2 f)
  | .noLayout _ => none

end Sys2Proof.Machine
end

