-- ==== Sys2Proof/Machine/Init.lean ====
section
/-! DEFINITION. The initialization sequencer: the eight states of `Configure` (41_initialization.md). -/

namespace Sys2Proof.Machine

/-- `seq <- S` (R111, R126). -/
def setSeq (q : Seq) (s : State) : State := { s with seq := q }

/-- `card_type <- v`; the only writer of `card_type` (R122, R270). -/
def setCardType (v : CardType) (s : State) : State := { s with cardType := v }

/-- S1_PRIME: chip-select high, P_N_PRIME bytes of all ones (R261). -/
def s1Prime (par : Params) : Proc Unit := do
  update (setCs true)
  update (xferWrite (List.replicate par.nPrime P.allOnes))
  update (setSeq .s2Idle)

/-- `loop_deadline <- now() + T` (R262, R264). -/
def startLoopDeadline (budget : Nat) (s : State) : State :=
  { (now s).2 with loopDeadline := budget + (now s).1 }

/-- The retry loop shared by S2 and S4: attempt, test the response, and only then the clock (R262, R264, D5).
The first argument counts down from `patience`. -/
def retryLoop (attempt : State → Byte × State) (good : Byte → Bool) (e : ErrCode) : Nat → Proc Unit
  | 0 => throw e
  | n + 1 => do
    let r ← bus attempt
    if good r then pure ()
    else
      let s ← get
      if ← bus (expired s.loopDeadline) then throw e
      else retryLoop attempt good e n

/-- A retry loop under a fresh loop deadline (R262, R264, D13). -/
def retryUntil (budget : Nat) (attempt : State → Byte × State) (good : Byte → Bool) (e : ErrCode) : Proc Unit := do
  update (startLoopDeadline budget)
  let s ← get
  retryLoop attempt good e (patience s.loopDeadline s + 1)

/-- S2_IDLE: go-idle until the response equals 0x01 (R262). -/
def s2Idle (par : Params) : Proc Unit := do
  retryUntil (par.units P.tIdle) (command par par.cmdGoIdle 0 par.crcGoIdle) (isInIdle par) .noCard
  update (setSeq .s3Probe)

/-- S3_PROBE: the version probe (R263). -/
def s3Probe (par : Params) : Proc Unit := do
  let r ← bus (command par par.cmdIfCond par.ifCondArg par.crcIfCond)
  if isIllegal par r then
    update (setCardType .sd1)
    throw .legacyNotImplemented
  else
    let t ← bus (xferRead par 4)
    update (fun s => { s with trail := t })
    if isEcho par (t.getD 3 0) then
      update (setCardType .sd2)
      update (setSeq .s4OpCond)
    else throw .ifCondMismatch

/-- S4_OPCOND: CMD55 and ACMD41 until the response is zero (R264). -/
def s4OpCond (par : Params) : Proc Unit := do
  let s ← get
  retryUntil (par.units P.tOpCond) (appCommand par P.acmdOpCond (opCondArgOf par s.cardType)) isReady .opCondTimeout
  update (setSeq .s5Ocr)

/-- The first OCR byte decides the capacity class (R265). -/
def classifyOcr (b : Byte) (s : State) : State :=
  if isHighCapacity b then setCardType .sdhc s else s

/-- The body of S5 for `SD2` cards (R265). -/
def s5ReadOcr (par : Params) : Proc Unit := do
  let r ← bus (command par par.cmdReadOcr 0 par.crcDummy)
  if isReady r then
    let b ← bus (xfer par.fill)
    update (classifyOcr b)
    let rest ← bus (xferRead par 3)
    update (fun s => { s with trail := b :: rest })
  else throw .ocrCmd

/-- The capacity class is asked "for `SD2` cards only" (R265). -/
def s5Classify (par : Params) : Proc Unit := do
  let s ← get
  if s.cardType = .sd2 then s5ReadOcr par else pure ()

/-- S5_OCR (R265). -/
def s5Ocr (par : Params) : Proc Unit := do
  s5Classify par
  update (setSeq .s6BlockLen)

/-- S6_BLOCKLEN: set-block-length 512 (R266). -/
def s6BlockLen (par : Params) : Proc Unit := do
  let r ← bus (command par par.cmdSetBlockLen P.blockLenArg par.crcDummy)
  if isReady r then update (setSeq .s7Regs) else throw .blockLenCmd

/-- `reg_img` is received and the CID decoded from it (R267, R304). -/
def takeCid (img : List Byte) (s : State) : State := { s with regImg := img, cidNew := decodeCid img }

/-- `reg_img` is received and the CSD decoded from it (R267, R305). -/
def takeCsd (img : List Byte) (s : State) : State := { s with regImg := img, csdNew := decodeCsd img }

/-- The one commit of step 7 (R267, D26). -/
def commitRegs (s : State) : State := { s with cid := s.cidNew, csd := s.csdNew }

/-- S7_REGS: CID first, CSD second, one commit (R267). -/
def s7Regs (par : Params) : Proc Unit := do
  let cidImg ← readRegister par par.cmdSendCid
  update (takeCid cidImg)
  let csdImg ← readRegister par par.cmdSendCsd
  update (takeCsd csdImg)
  update commitRegs
  update (setSeq .s8Finish)

/-- S8_FINISH: the fast rate, chip-select high (R268). -/
def s8Finish : Proc Unit := do
  update (setRate .fast)
  update (setCs true)

/-- The eight states in order; a failure aborts the whole sequence (R260, R271, R272). -/
def initSequence (par : Params) : Proc Unit := do
  s1Prime par
  s2Idle par
  s3Probe par
  s4OpCond par
  s5Ocr par
  s6BlockLen par
  s7Regs par
  s8Finish

end Sys2Proof.Machine
end

