-- ==== Sys2Proof/Machine/Receive.lean ====
section
/-! DEFINITION. The meanings of the received-byte rows of the opcode table (RX8_CLASS and TOKEN8_RX): what the
block does when a byte of the class stands at the place where the class is tested (R209). A byte that a
poll receives comes with its exchange (the block sends P_FILL); a test of the response `r` of a finished
`command`, or of the register image, makes no exchange.
Run alone, a received byte tests neither `lock_held` nor `seq`: DESIGN CHOICE, unsafe (R444; assumption logs 24, 31). -/

namespace Sys2Proof.Machine

/-- `resp <- xfer(P_FILL)` where the byte received is `b`. -/
def received (par : Params) (b : Byte) (s : State) : State := { exchange par.fill b s with resp := b }

/-- How `Configure` ends (R260; R404; R408): on an error chip-select is released first, if
P_CS_RELEASE_ON_INIT_FAIL (D15), and the phase tells which requests the contract covers from now on. -/
def leaveConfigure (par : Params) (e : Option ErrCode) (s : State) : State :=
  match e with
  | none => { complete none (.status none) s with phase := .ready }
  | some e =>
    { complete (some e) (.status (some e)) (if par.csReleaseOnInitFail then setCs true s else s) with phase := .failed }

/-! ### The response poll of `command` (R243) -/

/-- R1.valid: the first byte with bit 7 clear is the response; chip-select stays low (R243, R245). -/
def execR1Valid (flags : BitVec 7) (s : State) : Host.Outcome State Fault Refusal :=
  .next (answered (r1ValidByte flags) (countPoll (received s.par (r1ValidByte flags) s)))

/-- R1.skip: not a response, "counts as one poll"; after poll 65535 the poll is exhausted (R209, R243, R244). -/
def execR1Skip (rest : BitVec 7) (s : State) : Host.Outcome State Fault Refusal :=
  .next
    (if (countPoll (received s.par (r1SkipByte rest) s)).pollCnt.toNat < P.nRespPoll
      then countPoll (received s.par (r1SkipByte rest) s)
      else exhausted (countPoll (received s.par (r1SkipByte rest) s)))

/-! ### Tests of the response `r` -/

/-- R1.idle: the go-idle response equals 0x01: the loop of S2 ends and `seq <- S3_PROBE` (R262). -/
def execR1Idle (s : State) : Host.Outcome State Fault Refusal :=
  .next (setSeq .s3Probe (answered s.par.r1Idle s))

/-- R1.illegal: in S3, `card_type <- SD1` and `raise E_LEGACY_NOT_IMPLEMENTED`, no trailing byte read (R263, R403 item 5). -/
def execR1Illegal (high : BitVec 5) (low : BitVec 2) (s : State) : Host.Outcome State Fault Refusal :=
  .next (leaveConfigure s.par (some .legacyNotImplemented) (setCardType .sd1 (answered (r1IllegalByte s.par high low) s)))

/-- Where a zero response leads: on to S5 from S4, on to S7 from S6; elsewhere the next action belongs to the
same state or block primitive (R264, R265, R266, R300, R331, R332, R334). -/
def afterReady : Seq → Seq
  | .s4OpCond => .s5Ocr
  | .s6BlockLen => .s7Regs
  | .idle => .idle
  | .s1Prime => .s1Prime
  | .s2Idle => .s2Idle
  | .s3Probe => .s3Probe
  | .s5Ocr => .s5Ocr
  | .s7Regs => .s7Regs
  | .s8Finish => .s8Finish
  | .runReadAt => .runReadAt
  | .runWriteAt => .runWriteAt
  | .runErase => .runErase

/-- R1.ready: the response is zero, ready or accepted (R264). -/
def execR1Ready (s : State) : Host.Outcome State Fault Refusal :=
  .next (setSeq (afterReady s.seq) (answered P.r1Ready s))

/-! ### Bytes after a response -/

/-- R7.echo: `trail[3]` echoes the check pattern: `card_type <- SD2`, `seq <- S4_OPCOND` (R263). -/
def execR7Echo (s : State) : Host.Outcome State Fault Refusal :=
  .next
    (setSeq .s4OpCond (setCardType .sd2
      { exchange s.par.fill s.par.checkPattern s with trail := s.trail.set 3 s.par.checkPattern }))

/-- R3.ocr0.hc: `trail[0]` has both top bits set: `card_type <- SDHC` (R265). -/
def execR3Ocr0Hc (rest : BitVec 6) (s : State) : Host.Outcome State Fault Refusal :=
  .next
    (classifyOcr (ocr0HcByte rest)
      { exchange s.par.fill (ocr0HcByte rest) s with trail := s.trail.set 0 (ocr0HcByte rest) })

/-- DATA_RESP.accepted: the card took the data; chip-select stays low (R201, R333). -/
def execDataRespAccepted (ignored : BitVec 3) (s : State) : Host.Outcome State Fault Refusal :=
  .next (received s.par (acceptedByte ignored) s)

/-! ### Waits -/

/-- IDLE_BYTE: 0xFF ends the not-busy wait (R291). -/
def execIdleByte (s : State) : Host.Outcome State Fault Refusal :=
  .next (received s.par P.idleByte s)

/-- TOKEN_START.rx: the start token ends the start-token wait; "the next byte exchanged is the first payload
byte" (R293). -/
def execTokenStartRx (s : State) : Host.Outcome State Fault Refusal :=
  .next (received s.par P.tokenStart s)

/-! ### The first byte of a CSD image (R305) -/

/-- The register image with `b` as its first byte. -/
def imageWith (b : Byte) (s : State) : List Byte := s.regImg.set 0 b

/-- CSD0.v1: the image decodes under the version 1 layout (R306). -/
def execCsd0V1 (rest : BitVec 6) (s : State) : Host.Outcome State Fault Refusal :=
  .next { s with
    regImg := imageWith (csdV1Byte rest) s
    csdNew := .v1 (decodeCsdV1 (imageWith (csdV1Byte rest) s)) }

/-- CSD0.v2: the image decodes under the version 2 layout (R307). -/
def execCsd0V2 (rest : BitVec 6) (s : State) : Host.Outcome State Fault Refusal :=
  .next { s with
    regImg := imageWith (csdV2Byte rest) s
    csdNew := .v2 (decodeCsdV2 (imageWith (csdV2Byte rest) s)) }

/-- CSD0.none: no layout; the record holds the structure field alone and its capacity is undefined (R310). -/
def execCsd0None (rest : BitVec 7) (s : State) : Host.Outcome State Fault Refusal :=
  .next { s with
    regImg := imageWith (csdNoneByte rest) s
    csdNew := .noLayout (rest.extractLsb 6 6) }

end Sys2Proof.Machine
end

