-- ==== Sys2Proof/Machine/HostOp.lean ====
section
/-! DEFINITION. The meanings of the seven host operations (R103, 46_public_surface.md), each run from request to
completion: "a model may refine it or run each micro-operation as one procedure" (R126), and while an
operation runs the host can observe nothing of the block (R144). -/

namespace Sys2Proof.Machine

/-- The head of the wrapper: `lock()`, `rate(r)`, `seq <- q` (R380); the results of the previous request are no
longer valid (R134). -/
def enter (r : Rate) (q : Seq) (s : State) : State :=
  setSeq q (setRate r { lockBus s with err := none, presented := none })

/-- The state in which `Configure` completes, from how its sequence ended (R260, R271). -/
def configureEnds (par : Params) : EStateM.Result ErrCode State Unit → State
  | .ok _ t => leaveConfigure par none t
  | .error e t => leaveConfigure par (some e) t

/-- `Configure()` (R260). -/
def execConfigure (s : State) : Host.Outcome State Fault Refusal :=
  match refuseConfigure s with
  | some r => .refused r
  | none =>
    if nextGrant s then .next (configureEnds s.par (initSequence s.par (enter .slow .s1Prime s)))
    else .fault .lockNeverGranted

/-- The wrapper of `ReadAt`, `WriteAt` and `EraseBlocks` (R380): fast rate, body, and one way out on success and on
every failure alike. `report` is what the completion presents. -/
def ioOp (q : Seq) (body : BlockProc Unit) (report : Option ErrCode → State → Completion) (s : State) :
    Host.Outcome State Fault Refusal :=
  if nextGrant s then
    match body (enter .fast q s) with
    | .ok _ t => .next (complete none (report none t) t)
    | .error (.err e) t => .next (complete (some e) (report (some e) t) t)
    | .error (.refuse r) _ => .refused r
  else .fault .lockNeverGranted

/-- A transfer presents the count `done` and `err` (R134, R363). -/
def reportCount (e : Option ErrCode) (t : State) : Completion := .count t.done e

/-- `EraseBlocks` presents `err` and no count (R384). -/
def reportStatus (e : Option ErrCode) (_ : State) : Completion := .status e

/-- `ReadAt(buf, offset)` (R360). -/
def execReadAt (offset : Nat) (s : State) : Host.Outcome State Fault Refusal :=
  match refuseIo s, refuseTransfer s.par offset s.bufLen with
  | some r, _ => .refused r
  | none, some r => .refused r
  | none, none => ioOp .runReadAt (readBody s.par offset s.bufLen) reportCount s

/-- `WriteAt(buf, offset)` (R361). -/
def execWriteAt (offset : Nat) (s : State) : Host.Outcome State Fault Refusal :=
  match refuseIo s, refuseTransfer s.par offset s.bufLen with
  | some r, _ => .refused r
  | none, some r => .refused r
  | none, none => ioOp .runWriteAt (writeBody s.par offset s.bufLen) reportCount s

/-- A value presented at once: no bus activity, no lock, no other change (R381 to R383). -/
def present (v : Nat) (s : State) : Host.Outcome State Fault Refusal :=
  .next { s with presented := some (.value v) }

/-- The capacity as a value of P_SIZE_W bits: exact where it fits (R308, R309), and open where the width does not hold it
(assumption log 36). -/
def sizeValue (par : Params) (bytes : Nat) : Nat :=
  if bytes < 2 ^ par.sizeW then bytes else Config.sizeBeyond par.sizeW bytes % 2 ^ par.sizeW

/-- `Size()`: the decoded capacity, a function of `csd` alone (R381, R311). -/
def execSize (s : State) : Host.Outcome State Fault Refusal :=
  match refuseBusy s with
  | some r => .refused r
  | none =>
    if s.phase = .ready then
      match capacity s.csd with
      | some bytes => present (sizeValue s.par bytes) s
      | none => .refused .capacityUndefined
    else .refused .sizeWithoutConfigure

/-- `WriteBlockSize()`: 512, in every phase (R382). -/
def execWriteBlockSize (s : State) : Host.Outcome State Fault Refusal :=
  match refuseBusy s with
  | some r => .refused r
  | none => present P.blockSize s

/-- `EraseBlockSize()`: 512, in every phase (R383). -/
def execEraseBlockSize (s : State) : Host.Outcome State Fault Refusal :=
  match refuseBusy s with
  | some r => .refused r
  | none => present 512 s

/-- `EraseBlocks(startBlock, count)` (R384). -/
def execEraseBlocks (start : U32) (count : U64) (s : State) : Host.Outcome State Fault Refusal :=
  match refuseIo s, refuseErase start count with
  | some r, _ => .refused r
  | none, some r => .refused r
  | none, none => ioOp .runErase (eraseSession s.par start count.toNat) reportStatus s

end Sys2Proof.Machine
end

