-- ==== Sys2Proof/Machine/Token.lean ====
section
/-! DEFINITION. The meanings of the sent bytes (TOKEN8_TX rows of the opcode table; R205): each is one exchange.
Run alone, a sent byte tests neither `lock_held` nor `seq` and takes no lock: DESIGN CHOICE, unsafe (R444; assumption
log 31). -/

namespace Sys2Proof.Machine

/-- TOKEN_START.tx: `xfer(P_TOKEN_START)`, the received byte ignored (R209, R332, R333). -/
def execTokenStartTx (s : State) : Host.Outcome State Fault Refusal :=
  .next (xfer P.tokenStart s).2

/-- TOKEN_MULTI: `xfer(P_TOKEN_MULTI)`, the received byte ignored (R209, R333, R335). -/
def execTokenMulti (s : State) : Host.Outcome State Fault Refusal :=
  .next (xfer P.tokenMulti s).2

/-- TOKEN_STOP: `xfer(P_TOKEN_STOP)`, the received byte ignored (R209, R336). -/
def execTokenStop (s : State) : Host.Outcome State Fault Refusal :=
  .next (xfer P.tokenStop s).2

/-- FILL: `xfer(P_FILL)`, an exchange whose purpose is to read (R111, R205). The byte received is kept in `resp`, as the
polls of R243, R291 and R293 keep it: DESIGN CHOICE, unsafe, since the filler bytes of a bulk read and those that R334
and R336 discard are not kept (assumption log 34). -/
def execFill (s : State) : Host.Outcome State Fault Refusal :=
  .next { (xfer s.par.fill s).2 with resp := (xfer s.par.fill s).1 }

end Sys2Proof.Machine
end

