-- ==== Sys2Proof/Machine/Dispatch.lean ====
section
/-! DEFINITION. One arm per constructor of Instr, each one call of its meaning. -/

namespace Sys2Proof.Machine

def exec (i : Instr) (s : State) : Host.Outcome State Fault Refusal :=
  match i with
  | .cmd0 => Sys2Proof.Machine.execCmd0 s
  | .cmd8 => Sys2Proof.Machine.execCmd8 s
  | .cmd9 => Sys2Proof.Machine.execCmd9 s
  | .cmd10 => Sys2Proof.Machine.execCmd10 s
  | .cmd12 arg crc => Sys2Proof.Machine.execCmd12 arg crc s
  | .cmd16 => Sys2Proof.Machine.execCmd16 s
  | .cmd17 arg => Sys2Proof.Machine.execCmd17 arg s
  | .cmd24 arg => Sys2Proof.Machine.execCmd24 arg s
  | .cmd25 arg => Sys2Proof.Machine.execCmd25 arg s
  | .cmd55 => Sys2Proof.Machine.execCmd55 s
  | .cmd58 => Sys2Proof.Machine.execCmd58 s
  | .acmd41 hcs => Sys2Proof.Machine.execAcmd41 hcs s
  | .tokenStartTx => Sys2Proof.Machine.execTokenStartTx s
  | .tokenStartRx => Sys2Proof.Machine.execTokenStartRx s
  | .tokenMulti => Sys2Proof.Machine.execTokenMulti s
  | .tokenStop => Sys2Proof.Machine.execTokenStop s
  | .fill => Sys2Proof.Machine.execFill s
  | .r1Valid flags => Sys2Proof.Machine.execR1Valid flags s
  | .r1Skip rest => Sys2Proof.Machine.execR1Skip rest s
  | .r1Idle => Sys2Proof.Machine.execR1Idle s
  | .r1Illegal high low => Sys2Proof.Machine.execR1Illegal high low s
  | .r1Ready => Sys2Proof.Machine.execR1Ready s
  | .r7Echo => Sys2Proof.Machine.execR7Echo s
  | .r3Ocr0Hc rest => Sys2Proof.Machine.execR3Ocr0Hc rest s
  | .dataRespAccepted ignored => Sys2Proof.Machine.execDataRespAccepted ignored s
  | .idleByte => Sys2Proof.Machine.execIdleByte s
  | .csd0V1 rest => Sys2Proof.Machine.execCsd0V1 rest s
  | .csd0V2 rest => Sys2Proof.Machine.execCsd0V2 rest s
  | .csd0None rest => Sys2Proof.Machine.execCsd0None rest s
  | .configure => Sys2Proof.Machine.execConfigure s
  | .readAt offset => Sys2Proof.Machine.execReadAt offset s
  | .writeAt offset => Sys2Proof.Machine.execWriteAt offset s
  | .size => Sys2Proof.Machine.execSize s
  | .writeBlockSize => Sys2Proof.Machine.execWriteBlockSize s
  | .eraseBlockSize => Sys2Proof.Machine.execEraseBlockSize s
  | .eraseBlocks start count => Sys2Proof.Machine.execEraseBlocks start count s

end Sys2Proof.Machine
end

