-- ==== Sys2Proof/Machine/OtherByte.lean ====
section
/-! DEFINITION. Received bytes outside the class that a row of the opcode table names for their place: "every byte value
has a defined effect" (R209). Like the rows of Machine/Receive.lean they run alone and take their place as given
(DESIGN CHOICE, unsafe: assumption logs 31, 32). Where the spec raises an error, the host operation that is running ends
(R400, R404). -/

namespace Sys2Proof.Machine

/-- A micro-operation's error "passes unchanged through every caller up to the host operation" (R406) and ends it
(R404). Which one runs, `seq` says (R126); in IDLE there is none to end. -/
def raiseError (par : Params) (e : ErrCode) (s : State) : State :=
  match s.seq with
  | .idle => s
  | .runReadAt => complete (some e) (reportCount (some e) s) s
  | .runWriteAt => complete (some e) (reportCount (some e) s) s
  | .runErase => complete (some e) (reportStatus (some e) s) s
  | .s1Prime => leaveConfigure par (some e) s
  | .s2Idle => leaveConfigure par (some e) s
  | .s3Probe => leaveConfigure par (some e) s
  | .s4OpCond => leaveConfigure par (some e) s
  | .s5Ocr => leaveConfigure par (some e) s
  | .s6BlockLen => leaveConfigure par (some e) s
  | .s7Regs => leaveConfigure par (some e) s
  | .s8Finish => leaveConfigure par (some e) s

/-- `cs(1); fail E` (R404 items 1 to 4). -/
def releaseAndRaise (par : Params) (e : ErrCode) (s : State) : State := raiseError par e (setCs true s)

/-- `if expired(d): …`: one reading of the clock, and `late` if it is not below `d` (R290). -/
def ifExpired (d : Nat) (late : State → State) (s : State) : State :=
  if (expired d s).1 then late (expired d s).2 else (expired d s).2

/-- S2: any response but 0x01 "is a mismatch and causes a retry", or E_NO_CARD past the loop deadline (R262). -/
def otherIdle (par : Params) (r : Byte) (s : State) : State :=
  ifExpired s.loopDeadline (leaveConfigure par (some .noCard)) (answered r s)

/-- S3: a response without the illegal-command bit "takes the 'otherwise' path": the trailing bytes come next (R263). -/
def otherProbe (r : Byte) (s : State) : State := answered r s

/-- The command a WriteAt has sent tells its block read from its block write (R361). -/
def writeAtError (par : Params) (s : State) : ErrCode :=
  if s.frame.headD 0 = frameByte0 par.cmdWriteSingle then .writeCmd else .readCmd

/-- A non-zero response, where a zero one is asked for: retry or timeout in S4 (R264); E_OCR_CMD, E_BLOCKLEN_CMD and
E_REG_CMD in S5, S6 and S7 (R265, R266, R300); the command error of the block primitive in an I/O operation (R331,
R332, R334). In the other states no response is tested for zero. -/
def otherReady (par : Params) (r : Byte) (s : State) : State :=
  match s.seq with
  | .s4OpCond => ifExpired s.loopDeadline (leaveConfigure par (some .opCondTimeout)) (answered r s)
  | .s5Ocr => leaveConfigure par (some .ocrCmd) (answered r s)
  | .s6BlockLen => leaveConfigure par (some .blockLenCmd) (answered r s)
  | .s7Regs => releaseAndRaise par .regCmd (answered r s)
  | .runReadAt => releaseAndRaise par .readCmd (answered r s)
  | .runWriteAt => releaseAndRaise par (writeAtError par s) (answered r s)
  | .runErase => releaseAndRaise par .writeMultiCmd (answered r s)
  | .idle => answered r s
  | .s1Prime => answered r s
  | .s2Idle => answered r s
  | .s3Probe => answered r s
  | .s8Finish => answered r s

/-- `trail[i] <- xfer(P_FILL)` where the byte received is `b`. -/
def trailByte (par : Params) (i : Nat) (b : Byte) (s : State) : State :=
  { exchange par.fill b s with trail := s.trail.set i b }

/-- S3: any other 4th trailing byte is E_IF_COND_MISMATCH, the class of the card as it was (R209, R263). -/
def otherEcho (par : Params) (b : Byte) (s : State) : State := leaveConfigure par (some .ifCondMismatch) (trailByte par 3 b s)

/-- S5: without both top bits the card stays as it was classified (R265). -/
def otherOcr (par : Params) (b : Byte) (s : State) : State := trailByte par 0 b s

/-- Any other data response is E_WRITE_DATA_RESP, chip-select released (R209, R333). -/
def otherDataResp (par : Params) (b : Byte) (s : State) : State := releaseAndRaise par .writeDataResp (received par b s)

/-- The not-busy wait: any other byte is "busy; poll again", or the wait ends at the deadline; in both cases the clock is
read once and nothing else happens (R209, R291). -/
def otherNotBusy (par : Params) (b : Byte) (s : State) : State := (expired s.deadline (received par b s)).2

/-- The start-token wait: 0xFF is skipped until the deadline, any other byte is E_START_BLOCK; chip-select is released
with the error (R209, R293). -/
def otherStartWait (par : Params) (b : Byte) (s : State) : State :=
  if b = P.idleByte then ifExpired s.deadline (releaseAndRaise par .startBlock) (received par b s)
  else releaseAndRaise par .startBlock (received par b s)

/-- The effect of a received byte outside the class tested at a place. At the places that are missing here every byte
is an instruction, or none is received (R205, R243, R305). -/
def otherByte (p : Place) (b : Byte) (s : State) : State :=
  match p with
  | .idleTest => otherIdle s.par b s
  | .illegalTest => otherProbe b s
  | .readyTest => otherReady s.par b s
  | .echo => otherEcho s.par b s
  | .ocr0 => otherOcr s.par b s
  | .dataResp => otherDataResp s.par b s
  | .notBusy => otherNotBusy s.par b s
  | .startWait => otherStartWait s.par b s
  | .host => s
  | .frame => s
  | .send => s
  | .respPoll => s
  | .csd0 => s

end Sys2Proof.Machine
end

