-- ==== Sys2Proof/Machine/Step.lean ====
section
/-! DEFINITION. One step: the next presented word is decoded at its place and executed. The block has no program
counter and no instruction memory (R177: "the block fetches no instructions"); a program is a sequence of
host requests, presented one after the other (95_test_vectors.md part 3; assumption log 11). -/

namespace Sys2Proof.Machine

/-- The state in which a presented word executes: it is no longer waiting, and with a host request the caller's
buffer comes to the block (R144). -/
def accept (r : Request) (s : State) : State :=
  { s with
    inbox := s.inbox.tail
    buf := if r.place = .host then r.buf else s.buf
    bufLen := if r.place = .host then r.bufLen else s.bufLen }

/-- One step. With nothing presented the block stays as it is: it "waits in `IDLE`" (R150, R440). A received byte that
is no instruction at its place has the effect R209 gives it. Any other word that is no instruction is refused: a
request with another op code "cannot be made" (R213), another frame or byte "the block never sends" (R210, R205),
and a frame of fewer than its "exactly 6 bytes" is none (R190).
A presented word that is longer than the instruction at its head runs as that instruction, and the bytes behind it are
dropped. DESIGN CHOICE, unsafe: the spec presents no such word and gives a request no byte layout (R144, R190, R213;
assumption log 33). -/
def step (s : State) : Host.Outcome State Fault Refusal :=
  match s.inbox with
  | [] => .next s
  | r :: _ =>
    match decode s.par r.place r.word with
    | .ok (i, _) => exec i (accept r s)
    | .error .outsideClass => .next (otherByte r.place (r.word.headD 0) (accept r s))
    | .error why => .refused (.noInstruction why)

/-- `s` with a table word presented next, at the place `barePlace` reads it; with a host request the buffer
is the one in `s`, and the bus lock will be granted. -/
def State.withFetchWord (s : State) (nbits w : Nat) : State :=
  { s with
    inbox := { place := barePlace nbits w, word := tableBytes s.par nbits w, buf := s.buf, bufLen := s.bufLen } :: s.inbox
    grants := if barePlace nbits w = .host then true :: s.grants else s.grants }

end Sys2Proof.Machine
end

