-- ==== Sys2Proof/Safety.lean ====
section
/-! DEFINITION. What claims about the block are stated in: which parts of the state an operation leaves alone, the
invariant between requests, and the error table of R402. -/

namespace Sys2Proof.Machine

/-! ### Frames -/

/-- What only `Configure` writes (R122 to R125, R135). -/
structure SameDevice (s t : State) : Prop where
  cardType : t.cardType = s.cardType
  cid : t.cid = s.cid
  csd : t.csd = s.csd
  phase : t.phase = s.phase

/-- The registers of initialization (R129). -/
structure SameInit (s t : State) : Prop where
  loopDeadline : t.loopDeadline = s.loopDeadline
  trail : t.trail = s.trail
  regImg : t.regImg = s.regImg
  cidNew : t.cidNew = s.cidNew
  csdNew : t.csdNew = s.csdNew

/-- The registers of a transfer (R127, R129). -/
structure SameTransfer (s t : State) : Prop where
  scratch : t.scratch = s.scratch
  blk : t.blk = s.blk
  boff : t.boff = s.boff
  done : t.done = s.done
  rem : t.rem = s.rem

/-- The result registers (R129, R134). -/
structure SameResults (s t : State) : Prop where
  err : t.err = s.err
  presented : t.presented = s.presented

/-- The registers of the command engine and the waits (R129), and the response of the last command. -/
structure SameEngine (s t : State) : Prop where
  frame : t.frame = s.frame
  resp : t.resp = s.resp
  pollCnt : t.pollCnt = s.pollCnt
  deadline : t.deadline = s.deadline
  r1 : t.r1 = s.r1

/-- The control state of R130. -/
structure SameControl (s t : State) : Prop where
  cs : t.cs = s.cs
  rateSel : t.rateSel = s.rateSel
  lockHeld : t.lockHeld = s.lockHeld

/-- The caller's buffer: its length, and every byte of it as the model reads one byte. -/
structure SameBuffer (s t : State) : Prop where
  bufLen : t.bufLen = s.bufLen
  bytes : ∀ a, t.buf.read a = s.buf.read a

/-- Time never runs back (R143), events are only ever added (R112, R172), the inputs are used up in order, and the
configuration stays (log 35). -/
structure Onward (s t : State) : Prop where
  time : s.time ≤ t.time
  trace : s.trace <:+ t.trace
  ticks : t.ticks <:+ s.ticks
  miso : t.miso <:+ s.miso
  par : t.par = s.par

/-- LOCK or UNLOCK (R112, R133). -/
def Event.isLock : Event → Bool
  | .lock | .unlock => true
  | .rate _ | .cs _ | .x _ _ => false

/-- The LOCK and UNLOCK events so far, newest first. -/
def lockEvents (s : State) : List Event := s.trace.filter Event.isLock

/-- What an operation that only talks on the bus leaves alone: everything but chip-select, the registers of
the command engine and the waits, the event trace and the inputs that exchanges and readings use up. -/
structure BusOnly (s t : State) : Prop where
  device : SameDevice s t
  init : SameInit s t
  transfer : SameTransfer s t
  results : SameResults s t
  seq : t.seq = s.seq
  rateSel : t.rateSel = s.rateSel
  lockHeld : t.lockHeld = s.lockHeld
  buf : t.buf = s.buf
  bufLen : t.bufLen = s.bufLen
  inbox : t.inbox = s.inbox
  grants : t.grants = s.grants
  onward : Onward s t
  /-- The lock is neither taken nor given back meanwhile (R133, R175). -/
  locks : lockEvents t = lockEvents s
  /-- Whatever frame stands in the frame register, it has 6 bytes (R190). -/
  frameSize : s.frame.length = 6 → t.frame.length = 6

/-- What no row of a received byte writes, but for the error exit of R1.illegal. The caller's buffer is among it, byte
by byte, and so are the inputs: the byte of such a row is in the instruction itself. -/
structure RowFrame (s t : State) : Prop where
  cid : t.cid = s.cid
  csd : t.csd = s.csd
  phase : t.phase = s.phase
  transfer : SameTransfer s t
  results : SameResults s t
  frame : t.frame = s.frame
  deadline : t.deadline = s.deadline
  loopDeadline : t.loopDeadline = s.loopDeadline
  cidNew : t.cidNew = s.cidNew
  rateSel : t.rateSel = s.rateSel
  lockHeld : t.lockHeld = s.lockHeld
  buffer : SameBuffer s t
  inbox : t.inbox = s.inbox
  miso : t.miso = s.miso
  time : t.time = s.time
  ticks : t.ticks = s.ticks
  grants : t.grants = s.grants
  par : t.par = s.par

/-- One reading of the clock behind the exchanges `es`, and nothing else but what `resp` and `r1` hold (R290). -/
structure ClockRead (es : List Event) (s t : State) : Prop where
  only : BusOnly s t
  cs : t.cs = s.cs
  trace : t.trace = es ++ s.trace
  frame : t.frame = s.frame
  pollCnt : t.pollCnt = s.pollCnt
  deadline : t.deadline = s.deadline
  miso : t.miso = s.miso
  time : t.time = nextTime s
  ticks : t.ticks = s.ticks.tail

/-- How a response poll or a command ends: a response, with chip-select still low, or exhaustion, with the
sentinel and chip-select released (R243 to R245). -/
def Answered (r : Byte) (t : State) : Prop :=
  (isResponse r = true ∧ t.cs = false ∧ t.r1 = r ∧ t.resp = r) ∨ (r = P.noResponse ∧ t.cs = true ∧ t.r1 = P.noResponse)

/-- From `s`, the micro-operation ends well in a state with `Q`, or fails in a state with `E`. -/
def Ends {ε α : Type} (p : EStateM ε State α) (s : State) (Q : α → State → Prop) (E : ε → State → Prop) : Prop :=
  match p s with
  | .ok a t => Q a t
  | .error e t => E e t

/-! ### Between requests -/

/-- "At every completion, success or failure, `cs = 1`, `lock_held = false`, `seq = IDLE`" (R404, R447). -/
structure Quiet (s : State) : Prop where
  cs : s.cs = true
  lockHeld : s.lockHeld = false
  seq : s.seq = .idle

/-- The same for every configuration: with P_CS_RELEASE_ON_INIT_FAIL false a failed `Configure` may leave chip-select low
("the literal reading" of D15), and then no I/O request follows (R408). -/
structure Settled (s : State) : Prop where
  cs : s.cs = true ∨ (s.par.csReleaseOnInitFail = false ∧ s.phase = .failed)
  lockHeld : s.lockHeld = false
  seq : s.seq = .idle

/-- The registers that are arrays have their size (R127, R129). -/
structure Sized (s : State) : Prop where
  scratch : s.scratch.length = 512
  frame : s.frame.length = 6
  trail : s.trail.length = 4
  regImg : s.regImg.length = 16

/-- No byte is listed at or beyond a length. -/
def Memory.within (m : Memory) (n : Nat) : Bool := m.all (fun c => c.1 < n)

/-- A buffer is in canonical form and lies within its length. -/
def bufferOk (m : Memory) (len : Nat) : Bool := m.wf && m.within len

/-- A host request with a buffer of its own, whose length has P_LEN_W bits. -/
def Request.fromHost (par : Params) (r : Request) : Prop :=
  r.place = .host ∧ bufferOk r.buf r.bufLen = true ∧ r.bufLen < 2 ^ par.lenW

/-- The registers of P_LEN_W bits hold no more (R109, R129). -/
structure LenHeld (s : State) : Prop where
  done : s.done < 2 ^ s.par.lenW
  rem : s.rem < 2 ^ s.par.lenW
  bufLen : s.bufLen < 2 ^ s.par.lenW

/-- The invariant between host requests. -/
structure Inv (s : State) : Prop where
  settled : Settled s
  sized : Sized s
  buffer : bufferOk s.buf s.bufLen = true
  widths : LenHeld s
  inbox : ∀ r ∈ s.inbox, r.fromHost s.par
  /-- A successful `Configure` leaves SD2 or SDHC, "never `Unknown` or `SD1`" (R270). -/
  ready : s.phase = .ready → s.cardType = .sd2 ∨ s.cardType = .sdhc
  /-- Before the first `Configure` no card is classified (R150). -/
  fresh : s.phase = .fresh → s.cardType = .unknown
  /-- The codes no host operation can produce (R401, R402). -/
  err : s.err ≠ some .param ∧ s.err ≠ some .writeBusyTimeout

/-! ### Errors -/

/-- R402: which host operation can return which error. -/
def errorsOf : Instr → List ErrCode
  | .configure =>
    [.noCard, .legacyNotImplemented, .ifCondMismatch, .opCondTimeout, .ocrCmd, .blockLenCmd, .regCmd, .startBlock]
  | .readAt _ => [.readCmd, .startBlock]
  | .writeAt _ => [.readCmd, .startBlock, .writeCmd, .writeDataResp]
  | .eraseBlocks _ _ => [.writeMultiCmd, .writeDataResp]
  | _ => []

/-- What a failed initialization leaves in `card_type` (R270). -/
def classAfter (e : ErrCode) (before after : CardType) : Prop :=
  match e with
  | .noCard | .ifCondMismatch => after = before
  | .legacyNotImplemented => after = .sd1
  | .opCondTimeout | .ocrCmd => after = .sd2
  | .blockLenCmd | .regCmd | .startBlock => after = .sd2 ∨ after = .sdhc
  | .param | .readCmd | .writeCmd | .writeMultiCmd | .writeDataResp | .writeBusyTimeout => False

/-- What a bus-using host operation presents with an error: a transfer its byte count and the error (R363), the others
the error alone (R134, R384). -/
def errorReport (e : ErrCode) (s : State) : Completion :=
  if s.seq = .runReadAt ∨ s.seq = .runWriteAt then .count s.done (some e) else .status (some e)

/-- The phase after an error: `Configure` has failed; an I/O operation leaves the phase alone (R404, R408). -/
def phaseAfterError (s : State) : Phase :=
  if s.seq = .runReadAt ∨ s.seq = .runWriteAt ∨ s.seq = .runErase then s.phase else .failed

/-- From `s`, with the exchanges `es` made first (newest in front), the host operation that runs ends with the error `e`
and presents `c`: with `rel` chip-select released if it was low, lock given back, sequencer idle (R404); nothing is
rolled back (R405). The response, the trailing bytes and the time are not spoken of. -/
structure ErrorExit (rel : Bool) (e : ErrCode) (c : Completion) (p : Phase) (es : List Event) (s t : State) : Prop where
  err : t.err = some e
  presented : t.presented = some c
  phase : t.phase = p
  cs : t.cs = (rel || s.cs)
  lockHeld : t.lockHeld = false
  seq : t.seq = .idle
  trace : t.trace = .unlock :: ((if rel = true ∧ s.cs = false then [Event.cs true] else []) ++ es ++ s.trace)
  cardType : t.cardType = s.cardType
  cid : t.cid = s.cid
  csd : t.csd = s.csd
  rateSel : t.rateSel = s.rateSel
  transfer : SameTransfer s t
  buffer : SameBuffer s t
  frame : t.frame = s.frame
  pollCnt : t.pollCnt = s.pollCnt
  deadline : t.deadline = s.deadline
  loopDeadline : t.loopDeadline = s.loopDeadline
  regImg : t.regImg = s.regImg
  cidNew : t.cidNew = s.cidNew
  csdNew : t.csdNew = s.csdNew
  inbox : t.inbox = s.inbox
  miso : t.miso = s.miso
  grants : t.grants = s.grants
  par : t.par = s.par

/-! ### Events -/

/-- The events of a run from `s` to `t`, oldest first. -/
def eventsBetween (s t : State) : List Event :=
  (t.trace.take (t.trace.length - s.trace.length)).reverse

/-- The event of chip-select going low, if it was high (R112, D33). -/
def selectEvent (s : State) : List Event := if s.cs = true then [.cs false] else []

/-- The events of sending bytes while receiving others. -/
def exchanges (mosi miso : List Byte) : List Event := List.zipWith Event.x mosi miso

/-- The events of reading bytes with the filler. -/
def reads (par : Params) (miso : List Byte) : List Event := miso.map (Event.x par.fill)

/-- The number of exchanges in a list of events (R460). -/
def exchangeCount (es : List Event) : Nat :=
  es.countP (fun e => match e with | .x _ _ => true | _ => false)

/-! ### Scripts: what a card may return

Each is one possible run of free inputs (R106, R142), not a property of the block. -/

/-- During a `command` the card is not busy, returns the six bytes `ignored` while the frame is sent, and answers `r` on
the first poll; `tail` is what it returns next. -/
def answer (ignored : List Byte) (r : Byte) (tail : List Byte) : List Byte := 0xFF :: ignored ++ r :: tail

/-- A read data packet without a gap: start token, payload, two CRC bytes (R198). -/
def packet (payload crc : List Byte) : List Byte := 0xFE :: payload ++ crc

/-- The events of a `command` that such a card answers, if it was entered with chip-select low (V3.2, V3.6). -/
def commandEvents (par : Params) (frame ignored : List Byte) (r : Byte) : List Event :=
  .x par.fill 0xFF :: exchanges frame ignored ++ [.x par.fill r]

/-- During a `command` the card is not busy, and after the frame returns only bytes with bit 7 set: no response. -/
def silence (ignored polls tail : List Byte) : List Byte := 0xFF :: (ignored ++ polls ++ tail)

/-- As many bytes as the response poll makes polls, none of them a response (R193, R244). -/
structure NoResponse (polls : List Byte) : Prop where
  length : polls.length = 65535
  skipped : ∀ b ∈ polls, b.getLsbD 7 = true

/-- The events of a `command` that such a card does not answer, if it was entered with chip-select low (R244). -/
def silentEvents (par : Params) (frame ignored polls : List Byte) : List Event :=
  .x par.fill 0xFF :: exchanges frame ignored ++ reads par polls ++ [.cs true]

/-- Readings that let a deadline of `budget` time units pass with the try number `tries`, if every try makes `perTry`
readings: of the advances of the time base the first is that of the reading the deadline is made from, those of the
earlier tries stay below the budget, and those of the last try bring it (R290). -/
def Expires (perTry budget tries : Nat) (ticks : List Nat) : Prop :=
  ∃ (first : Nat) (early last : List Nat), ticks = first :: (early ++ last) ∧ last.length = perTry ∧
    early.length + perTry = perTry * tries ∧ early.sum < budget ∧ budget ≤ early.sum + last.sum

/-- A card that is busy until a not-busy wait of `budget` time units has ended: none of the bytes returned is 0xFF, and
the reading after the last of them is the first that reaches the deadline (R290, R291). -/
def BusyUntil (budget : Nat) (busy : List Byte) (ticks : List Nat) : Prop :=
  (∀ b ∈ busy, b ≠ 0xFF) ∧ Expires 1 budget busy.length ticks

/-! ### Block updates: what `WriteAt` sends for one block -/

/-- The argument that names a block to a classified card (R330). -/
def argOf (card : CardType) (block : Nat) : U32 := BitVec.ofNat 32 (if card = .sdhc then block else 512 * block)

/-- The `n` bytes at `off` of the host's byte space cover the whole block. -/
abbrev coversBlock (off n block : Nat) : Prop := off ≤ 512 * block ∧ 512 * block + 512 ≤ off + n

/-- A block after the `n` bytes at `off` have been written from `buf`, if it held `old` before (R361, R176). -/
def blockAfter (buf : Memory) (off n block : Nat) (old : List Byte) : List Byte :=
  (List.range 512).map fun j =>
    if off ≤ 512 * block + j ∧ 512 * block + j < off + n then buf.read (512 * block + j - off) else old.getD j 0

/-- What a card returns that serves the update of one block: the block read, where it is not covered whole, and the
block write, which it accepts with `response` and is done with at once. -/
def updateAnswer (off n block : Nat) (old ignored crc during : List Byte) (response : Byte) : List Byte :=
  (if coversBlock off n block then [] else answer ignored 0x00 (packet old crc)) ++
    answer ignored 0x00 (during ++ [response, 0xFF])

/-- The events of reading one block: CMD17 with the argument that names the block, and its packet (R331). -/
def readEvents (par : Params) (card : CardType) (block : Nat) (payload ignored crc : List Byte) : List Event :=
  [Event.cs false] ++ commandEvents par (encode par (.cmd17 (argOf card block))) ignored 0x00 ++
    reads par (packet payload crc) ++ [Event.cs true]

/-- The events of that update: CMD17 where the block is not covered whole, and CMD24 for the same block (R361, R332). -/
def updateEvents (par : Params) (card : CardType) (off n block : Nat) (old new ignored crc during : List Byte)
    (response : Byte) : List Event :=
  (if coversBlock off n block then [] else readEvents par card block old ignored crc) ++
    [Event.cs false] ++ commandEvents par (encode par (.cmd24 (argOf card block))) ignored 0x00 ++
    exchanges (0xFE :: new ++ [par.crcDummy, par.crcDummy]) during ++ reads par [response, 0xFF] ++ [Event.cs true]

/-! ### Blocks that a card fails -/

/-- How a card fails the read of one block (R331): the error, what the card returns, and the events. It answers CMD17
with a non-zero response, or not at all, or sends neither 0xFF nor the start token behind an accepted response. -/
inductive ReadFails (par : Params) (card : CardType) (block : Nat) (ignored : List Byte) :
    ErrCode → List Byte → List Event → Prop
  | rejected (r : Byte) : r.getLsbD 7 = false → r ≠ 0x00 →
    ReadFails par card block ignored .readCmd (answer ignored r [])
      ([Event.cs false] ++ commandEvents par (encode par (.cmd17 (argOf card block))) ignored r ++ [Event.cs true])
  | silent (polls : List Byte) : NoResponse polls →
    ReadFails par card block ignored .readCmd (silence ignored polls [])
      ([Event.cs false] ++ silentEvents par (encode par (.cmd17 (argOf card block))) ignored polls)
  | noToken (r : Byte) : r ≠ 0xFF → r ≠ 0xFE →
    ReadFails par card block ignored .startBlock (answer ignored 0x00 [r])
      ([Event.cs false] ++ commandEvents par (encode par (.cmd17 (argOf card block))) ignored 0x00 ++
        [Event.x par.fill r, .cs true])

/-- How a card fails the write of the 512 bytes `new` to one block (R332): it answers CMD24 with a non-zero response, or
not at all, or does not accept the packet. -/
inductive WriteFails (par : Params) (card : CardType) (block : Nat) (new ignored : List Byte) :
    ErrCode → List Byte → List Event → Prop
  | rejected (r : Byte) : r.getLsbD 7 = false → r ≠ 0x00 →
    WriteFails par card block new ignored .writeCmd (answer ignored r [])
      ([Event.cs false] ++ commandEvents par (encode par (.cmd24 (argOf card block))) ignored r ++ [Event.cs true])
  | silent (polls : List Byte) : NoResponse polls →
    WriteFails par card block new ignored .writeCmd (silence ignored polls [])
      ([Event.cs false] ++ silentEvents par (encode par (.cmd24 (argOf card block))) ignored polls)
  | notAccepted (during : List Byte) (r : Byte) : during.length = 515 → r.extractLsb 4 0 ≠ 5#5 →
    WriteFails par card block new ignored .writeDataResp (answer ignored 0x00 (during ++ [r]))
      ([Event.cs false] ++ commandEvents par (encode par (.cmd24 (argOf card block))) ignored 0x00 ++
        exchanges (0xFE :: new ++ [par.crcDummy, par.crcDummy]) during ++ [Event.x par.fill r, .cs true])

/-- How a card fails the update of one block by `WriteAt` (R361): it fails the read of a block that is not covered whole,
or the write, behind that read where there is one. -/
inductive UpdateFails (par : Params) (card : CardType) (buf : Memory) (off n block : Nat) (old ignored crc : List Byte) :
    ErrCode → List Byte → List Event → Prop
  | read {e : ErrCode} {script : List Byte} {events : List Event} : ¬coversBlock off n block →
    ReadFails par card block ignored e script events →
    UpdateFails par card buf off n block old ignored crc e script events
  | write {e : ErrCode} {script : List Byte} {events : List Event} :
    WriteFails par card block (blockAfter buf off n block old) ignored e script events →
    UpdateFails par card buf off n block old ignored crc e
      ((if coversBlock off n block then [] else answer ignored 0x00 (packet old crc)) ++ script)
      ((if coversBlock off n block then [] else readEvents par card block old ignored crc) ++ events)

/-! ### Requests inside the contract -/

/-- The offset and the length of a transfer have the widths of the configuration (R109, R213). -/
structure Held (par : Params) (offset n : Nat) : Prop where
  offset : offset < 2 ^ par.offsetW
  len : n < 2 ^ par.lenW

/-- The last block a transfer touches has a command argument on a card of this class (R170, R330). -/
def addressable (card : CardType) (lastBlock : Nat) : Prop :=
  card = .sdhc ∨ ((card = .sd1 ∨ card = .sd2) ∧ lastBlock < 2 ^ 23)

end Sys2Proof.Machine
end

