-- ==== Sys2Proof/Certificates/Slice0/Obligations.lean ====
section
/-! DEFINITION. The statements for the provers. Each names in its docstring the rule of spec/ it formalises. Where a
statement gives the card's bytes (`s.miso = …`), those bytes are one script among all the card may return (R106,
R142); a statement without a script holds for every card. -/

open Sys2Proof Sys2Proof.Machine

/-! ### Encoding -/

/-- Decoding the encoding of an instruction, at the place where its words are read, gives the instruction back with
every operand, and leaves the bytes that follow. For all instructions, all operands that have the widths of the
configuration (`Instr.holds`: an offset has P_OFFSET_W bits), and every configuration whose words are unambiguous
(`Params.Legal`; the defaults are: log 35). Rests on the model's byte order of a request (log 8) and its places of
words (log 10), and on the numbers of R200 (general knowledge, log 15). That the count of an erase has 64 bits is log
37. -/
def Obligations.DecodeEncode : Prop :=
  ∀ (par : Params) (i : Instr) (rest : List Byte), par.Legal → i.holds par = true →
    decode par i.place (encode par i ++ rest) = .ok (i, rest)

/-- The other direction: bytes that decode are the encoding of what they decode to, and nothing at a place decodes to
an instruction of another place. So no two encodings of a place overlap, and no reserved frame, byte or request falls
through to a neighbour; and its operands have the widths of the configuration. In every configuration whose words are
unambiguous. Rests on logs 8, 10, 15 and 35. That the count of an erase has 64 bits is log 37. -/
def Obligations.DecodedWordIsEncoding : Prop :=
  ∀ (par : Params) (p : Place) (bytes : List Byte) (i : Instr) (rest : List Byte), par.Legal →
    decode par p bytes = .ok (i, rest) → i.place = p ∧ bytes = encode par i ++ rest ∧ i.holds par = true

/-- Words written out from R200, R205, R209 and R213 decode to the instructions they stand for, and words of no row
are refused, in the configuration of the defaults. With P_OFFSET_W = 32 an offset has 4 bytes; with 41 the number 2^41
is no offset. The place of a request's operands is the model's (log 8), and so is what a number too wide is (log 36).
The numbers are general knowledge (log 15). -/
def Obligations.SpecWordsDecode : Prop :=
  decode Params.spec .frame [0x40, 0x00, 0x00, 0x00, 0x00, 0x95] = .ok (.cmd0, []) ∧
  decode Params.spec .frame [0x48, 0x00, 0x00, 0x01, 0xAA, 0x87] = .ok (.cmd8, []) ∧
  decode Params.spec .frame [0x69, 0x40, 0x00, 0x00, 0x00, 0xFF] = .ok (.acmd41 true, []) ∧
  decode Params.spec .frame [0x51, 0x00, 0x00, 0x0A, 0x00, 0xFF] = .ok (.cmd17 2560, []) ∧
  decode Params.spec .frame [0x58, 0x12, 0x34, 0x56, 0x78, 0xFF] = .ok (.cmd24 0x12345678, []) ∧
  decode Params.spec .frame [0x60, 0x00, 0x00, 0x00, 0x00, 0xFF] = .error .noSuchCommand ∧
  decode Params.spec .send [0xFC] = .ok (.tokenMulti, []) ∧ decode Params.spec .send [0xFB] = .error .noSuchToken ∧
  decode Params.spec .illegalTest [0x05] = .ok (.r1Illegal 0 1, []) ∧
  decode Params.spec .dataResp [0xE5] = .ok (.dataRespAccepted 7, []) ∧
  decode Params.spec .dataResp [0x0B] = .error .outsideClass ∧
  decode Params.spec .respPoll [0x7F] = .ok (.r1Valid 0x7F, []) ∧
  decode Params.spec .respPoll [0x80] = .ok (.r1Skip 0, []) ∧
  decode Params.spec .csd0 [0x80] = .ok (.csd0None 0, []) ∧ decode Params.spec .host [0x07] = .error .noSuchOperation ∧
  decode Params.spec .host [0x01, 0x00, 0x00, 0x00, 0x00, 0x00, 0x00, 0x02, 0x10] = .ok (.readAt 528, []) ∧
  decode { Params.spec with offsetW := 32 } .host [0x01, 0x00, 0x00, 0x02, 0x10] = .ok (.readAt 528, []) ∧
  decode { Params.spec with offsetW := 41 } .host [0x02, 0x02, 0x00, 0x00, 0x00, 0x00, 0x00] = .error .operandTooWide

/-- R190, R160: the six bytes of a frame. Byte 0 has bit 7 clear, bit 6 set and the command index below; bytes 1 to 4
are the argument, most significant byte first; byte 5 is the CRC byte as supplied. They are sent in this order,
whatever comes back meanwhile. -/
def Obligations.FrameFields : Prop :=
  ∀ (code : BitVec 6) (arg : U32) (crc : Byte), ∃ b0 b1 b2 b3 b4 b5 : Byte,
    frameBytes code arg crc = [b0, b1, b2, b3, b4, b5] ∧ b0.getLsbD 7 = false ∧ b0.getLsbD 6 = true ∧
      b0.extractLsb 5 0 = code ∧ b1 = arg.extractLsb 31 24 ∧ b2 = arg.extractLsb 23 16 ∧ b3 = arg.extractLsb 15 8 ∧
      b4 = arg.extractLsb 7 0 ∧ b5 = crc ∧
      ∀ (s : State) (m0 m1 m2 m3 m4 m5 : Byte) (rest : List Byte), s.miso = [m0, m1, m2, m3, m4, m5] ++ rest →
        eventsBetween s (sendFrame (frameBytes code arg crc) s) =
          [Event.x b0 m0, .x b1 m1, .x b2 m2, .x b3 m3, .x b4 m4, .x b5 m5]

/-! ### The command engine: CMD0, CMD8, CMD9, CMD10, CMD12, CMD16, CMD17, CMD24, CMD25, CMD55, CMD58, ACMD41 -/

/-- R240 to R245: every one of the 12 command frames leaves its own frame in the frame register, and ends with a
response under chip-select low or with the sentinel 0xFF under chip-select high. Its frame: nothing but the bus and the
engine's own registers changes (`BusOnly`). That a frame presented alone runs in every state, whether or not an
operation runs and the lock is held, is the model's choice (logs 9 and 31), and so are the operands of CMD12, which the
block never sends (logs 25 and 26). Rests on the numbers of R200 (log 15) and on the pre-wait's budget (D7, log 16). -/
def Obligations.CommandCompletes : Prop :=
  ∀ (i : Instr) (s : State), i.place = .frame →
    ∃ t r, exec i s = .next t ∧ BusOnly s t ∧ t.frame = encode s.par i ∧ Answered r t

/-- R240 to R243, R245, every command but CMD12, on a card that is not busy: chip-select goes low, one poll, the six
bytes of the frame in order while `ignored` is received, then polls that skip the bytes with bit 7 set; the first
byte with bit 7 clear is the response, no further exchange is made, and chip-select stays low. That a frame runs
standing alone is the model's choice (logs 9 and 31). Rests on the spec's D7 and D34 and on log 15. -/
def Obligations.CommandExchanges : Prop :=
  ∀ (i : Instr) (s : State) (ignored skipped rest : List Byte) (r : Byte),
    s.par.Legal → i.place = .frame → (∀ arg crc, i ≠ .cmd12 arg crc) →
    ignored.length = 6 → (∀ b ∈ skipped, b.getLsbD 7 = true) → skipped.length < 65535 → r.getLsbD 7 = false →
    s.miso = 0xFF :: (ignored ++ skipped ++ r :: rest) →
    ∃ t, exec i s = .next t ∧ t.r1 = r ∧ t.resp = r ∧ t.cs = false ∧ t.pollCnt.toNat = skipped.length + 1 ∧
      t.miso = rest ∧
      eventsBetween s t =
        selectEvent s ++ [Event.x s.par.fill 0xFF] ++ exchanges (encode s.par i) ignored ++ reads s.par (skipped ++ [r])

/-- R241: the stop-transmission command has no pre-wait, and reads no clock at all (R243). The block never sends
CMD12 itself: that it runs alone, and with which operands, is the model's (logs 9, 25, 26 and 31). -/
def Obligations.StopCommandExchanges : Prop :=
  ∀ (arg : U32) (crc : Byte) (s : State) (ignored skipped rest : List Byte) (r : Byte),
    ignored.length = 6 → (∀ b ∈ skipped, b.getLsbD 7 = true) → skipped.length < 65535 → r.getLsbD 7 = false →
    s.miso = ignored ++ skipped ++ r :: rest →
    ∃ t, exec (.cmd12 arg crc) s = .next t ∧ t.r1 = r ∧ t.cs = false ∧ t.miso = rest ∧ t.time = s.time ∧
      t.ticks = s.ticks ∧
      eventsBetween s t =
        selectEvent s ++ exchanges (encode s.par (.cmd12 arg crc)) ignored ++ reads s.par (skipped ++ [r])

/-- R244: after 65535 polls with bit 7 set chip-select is released and the sentinel 0xFF is the result. That a frame
runs standing alone is the model's choice (logs 9 and 31). Rests on the spec's D7 (log 16) for the pre-wait. -/
def Obligations.CommandExhaustion : Prop :=
  ∀ (i : Instr) (s : State) (ignored polls rest : List Byte),
    s.par.Legal → i.place = .frame → (∀ arg crc, i ≠ .cmd12 arg crc) →
    ignored.length = 6 → (∀ b ∈ polls, b.getLsbD 7 = true) → polls.length = 65535 →
    s.miso = 0xFF :: (ignored ++ polls ++ rest) →
    ∃ t, exec i s = .next t ∧ t.r1 = 0xFF ∧ t.cs = true ∧ t.pollCnt.toNat = 65535 ∧ t.miso = rest ∧
      eventsBetween s t =
        selectEvent s ++ [Event.x s.par.fill 0xFF] ++ exchanges (encode s.par i) ignored ++ reads s.par polls ++
          [Event.cs true]

/-- R247, R248, R211: `appCommand` is the prefix command CMD55 and then ACMD41, two complete runs; its result is the
response of the second, and the first is not examined: the second runs in every case. That each frame runs standing
alone is the model's choice (logs 9 and 31). Rests on the spec's D14 and on the numbers of R200 and R207 (log 15). -/
def Obligations.AppCommandIsTwoFrames : Prop :=
  ∀ (hcs : Bool) (s : State), ∃ t u,
    exec .cmd55 s = .next t ∧ exec (.acmd41 hcs) t = .next u ∧
      appCommand s.par P.acmdOpCond (if hcs then s.par.hcs else 0) s = (u.r1, u)

/-! ### Sent bytes: TOKEN_START.tx, TOKEN_MULTI, TOKEN_STOP, FILL -/

/-- R205, R111: each of the four sent bytes is one exchange of exactly that byte; what comes back is the card's next
byte where one is given. That FILL keeps that byte in `resp`, as a poll does, is the model's choice (log 34); the others
ignore it. That a row runs standing alone is the model's choice (logs 9 and 31); the filler is D3 (log 16). -/
def Obligations.SentByteRows : Prop :=
  ∀ (i : Instr) (s : State), i.place = .send → ∃ t sent m,
    exec i s = .next t ∧ encode s.par i = [sent] ∧ t.trace = .x sent m :: s.trace ∧ t.miso = s.miso.tail ∧
      (∀ b bs, s.miso = b :: bs → m = b) ∧ (i = .fill → t.resp = m) ∧ (i ≠ .fill → t.resp = s.resp) ∧
      BusOnly s t ∧ t.cs = s.cs ∧ t.frame = s.frame ∧ t.pollCnt = s.pollCnt ∧ t.deadline = s.deadline ∧ t.r1 = s.r1 ∧
      t.time = s.time ∧ t.ticks = s.ticks

/-! ### Received bytes -/

/-- R243, R245, R209, R244: a byte with bit 7 clear at the response poll is the response, and chip-select stays as it
is; a byte with bit 7 set is skipped. Each "counts as one poll", and a skipped byte that is poll 65535 exhausts the
poll: chip-select is released and the result is 0xFF. Nothing else changes. That a row runs standing alone is the
model's choice (log 9), and so is a counter that stops at 65535 (log 23); R209 is from general knowledge (log 15). -/
def Obligations.ResponsePollRows : Prop :=
  ∀ (bits : BitVec 7) (s : State),
    (∃ t, exec (.r1Valid bits) s = .next t ∧ t.r1.getLsbD 7 = false ∧ t.r1.extractLsb 6 0 = bits ∧ t.resp = t.r1 ∧
      t.cs = s.cs ∧ t.pollCnt.toNat = min (s.pollCnt.toNat + 1) 65535 ∧ t.trace = .x s.par.fill t.r1 :: s.trace ∧
      RowFrame s t ∧ t.cardType = s.cardType ∧ t.seq = s.seq ∧ t.trail = s.trail ∧ t.regImg = s.regImg ∧
      t.csdNew = s.csdNew) ∧
    (∃ t, exec (.r1Skip bits) s = .next t ∧ t.resp.getLsbD 7 = true ∧ t.resp.extractLsb 6 0 = bits ∧
      t.pollCnt.toNat = min (s.pollCnt.toNat + 1) 65535 ∧
      (s.pollCnt.toNat + 1 < 65535 → t.cs = s.cs ∧ t.r1 = s.r1 ∧ t.trace = .x s.par.fill t.resp :: s.trace) ∧
      (65535 ≤ s.pollCnt.toNat + 1 → t.cs = true ∧ t.r1 = 0xFF ∧
        t.trace = (if s.cs = true then [] else [Event.cs true]) ++ .x s.par.fill t.resp :: s.trace) ∧
      RowFrame s t ∧ t.cardType = s.cardType ∧ t.seq = s.seq ∧ t.trail = s.trail ∧ t.regImg = s.regImg ∧
      t.csdNew = s.csdNew)

/-- The response poll of `command` goes on, byte by byte, exactly as the rows R1.valid and R1.skip say (R209, R243).
Rests on log 9. -/
def Obligations.PollLoopFollowsRows : Prop :=
  ∀ (s : State) (n : Nat) (b : Byte) (bs : List Byte),
    s.miso = b :: bs → s.pollCnt.toNat + (n + 1) = 65535 →
    (b.getLsbD 7 = false → exec (.r1Valid (b.extractLsb 6 0)) { s with miso := bs } = .next (respPoll s.par (n + 1) s).2 ∧
      (respPoll s.par (n + 1) s).1 = b) ∧
    (b.getLsbD 7 = true → ∃ t, exec (.r1Skip (b.extractLsb 6 0)) { s with miso := bs } = .next t ∧
      respPoll s.par (n + 1) s = if n = 0 then (t.r1, t) else respPoll s.par n t)

/-- R262, R264, R209: the tests of a finished response, on every byte. P_R1_IDLE (0x01) moves the sequencer from S2 on
to S3; any other byte at that test retries, or is E_NO_CARD once the one reading made has reached the loop deadline.
0x00 moves S4 on to S5 and S6 on to S7 and leaves any other state; any other byte retries or times out in S4, is
E_OCR_CMD, E_BLOCKLEN_CMD and E_REG_CMD in S5, S6 and S7, and the error of the command just sent in an I/O operation. No
exchange is made; nothing else changes. That a row or byte stands alone, and where it leads, is the model's reading
(logs 9, 24, 31, 32); the bits are general knowledge (log 15), and chip-select at an error of S2 to S6 is D15
(log 16). -/
def Obligations.ResponseTestRows : Prop :=
  ∀ (s : State), s.par.Legal →
    (∃ t, exec .r1Idle s = .next t ∧ t.seq = .s3Probe ∧ t.r1 = s.par.r1Idle ∧ t.cs = s.cs ∧ t.trace = s.trace ∧
      RowFrame s t ∧ t.cardType = s.cardType ∧ t.resp = s.resp ∧ t.pollCnt = s.pollCnt ∧ t.trail = s.trail ∧
      t.regImg = s.regImg ∧ t.csdNew = s.csdNew) ∧
    (∀ r : Byte, r ≠ s.par.r1Idle → ∃ t, otherByte .idleTest r s = t ∧ t.r1 = r ∧ t.resp = s.resp ∧
      t.time = nextTime s ∧ t.ticks = s.ticks.tail ∧ t.trail = s.trail ∧
      (nextTime s < s.loopDeadline → ClockRead [] s t) ∧
      (s.loopDeadline ≤ nextTime s →
        ErrorExit s.par.csReleaseOnInitFail .noCard (.status (some .noCard)) .failed [] s t)) ∧
    (∃ t, exec .r1Ready s = .next t ∧
      (s.seq = .s4OpCond → t.seq = .s5Ocr) ∧ (s.seq = .s6BlockLen → t.seq = .s7Regs) ∧
      (s.seq ≠ .s4OpCond → s.seq ≠ .s6BlockLen → t.seq = s.seq) ∧
      t.r1 = 0x00 ∧ t.cs = s.cs ∧ t.trace = s.trace ∧ RowFrame s t ∧
      t.cardType = s.cardType ∧ t.resp = s.resp ∧ t.pollCnt = s.pollCnt ∧ t.trail = s.trail ∧ t.regImg = s.regImg ∧
      t.csdNew = s.csdNew) ∧
    (∀ r : Byte, r ≠ 0x00 → ∃ t, otherByte .readyTest r s = t ∧ t.r1 = r ∧ t.resp = s.resp ∧ t.trail = s.trail ∧
      (s.seq = .s4OpCond → t.time = nextTime s ∧ t.ticks = s.ticks.tail ∧
        (nextTime s < s.loopDeadline → ClockRead [] s t) ∧
        (s.loopDeadline ≤ nextTime s →
          ErrorExit s.par.csReleaseOnInitFail .opCondTimeout (.status (some .opCondTimeout)) .failed [] s t)) ∧
      (∀ e, (s.seq = .s5Ocr ∧ e = .ocrCmd) ∨ (s.seq = .s6BlockLen ∧ e = .blockLenCmd) ∨
          (s.seq = .s7Regs ∧ e = .regCmd) ∨ (s.seq = .runReadAt ∧ e = .readCmd) ∨
          (s.seq = .runWriteAt ∧ s.frame.headD 0 = frameByte0 s.par.cmdReadSingle ∧ e = .readCmd) ∨
          (s.seq = .runWriteAt ∧ s.frame.headD 0 = frameByte0 s.par.cmdWriteSingle ∧ e = .writeCmd) ∨
          (s.seq = .runErase ∧ e = .writeMultiCmd) →
        ErrorExit (if e = .ocrCmd ∨ e = .blockLenCmd then s.par.csReleaseOnInitFail else true) e (errorReport e s)
          (phaseAfterError s) [] s t ∧ t.time = s.time ∧ t.ticks = s.ticks) ∧
      (s.seq ∈ [Seq.idle, .s1Prime, .s2Idle, .s3Probe, .s8Finish] → t = { s with r1 := r }))

/-- R263, R404, R209: a response with the illegal-command bit set in S3 classifies the card SD1 and takes the error
exit of `Configure`: chip-select released (by D15, unless P_CS_RELEASE_ON_INIT_FAIL is false), lock given back,
sequencer idle, E_LEGACY_NOT_IMPLEMENTED presented, phase FAILED; the rate is not changed, no trailing byte is read, and
everything else is as it was. The response is the bits of the instruction with that bit set among them; with the default
mask 0x04 they are bits 7:3 and 1:0. A response with that bit clear is kept as the response and changes nothing else:
the trailing bytes come next. Rests on the spec's D11 and D15 (log 16), on general knowledge (log 15) and on logs 9, 24,
31 and 32. -/
def Obligations.IllegalCommandRow : Prop :=
  (∀ (high : BitVec 5) (low : BitVec 2) (s : State), s.par.Legal → ∃ t,
    exec (.r1Illegal high low) s = .next t ∧ t.r1 &&& s.par.r1Illegal ≠ 0 ∧
      removeBit (bitIndex s.par.r1Illegal) t.r1 = high ++ low ∧
      (s.par.r1Illegal = 0x04 → t.r1.extractLsb 7 3 = high ∧ t.r1.extractLsb 1 0 = low) ∧
      t.cardType = .sd1 ∧ t.err = some .legacyNotImplemented ∧
      t.presented = some (.status (some .legacyNotImplemented)) ∧ t.seq = .idle ∧ t.lockHeld = false ∧
      t.phase = .failed ∧ t.rateSel = s.rateSel ∧ t.cid = s.cid ∧ t.csd = s.csd ∧
      t.cs = (s.par.csReleaseOnInitFail || s.cs) ∧
      t.trace = .unlock ::
        ((if s.par.csReleaseOnInitFail = true ∧ s.cs = false then [Event.cs true] else []) ++ s.trace) ∧
      SameInit s t ∧ SameTransfer s t ∧ SameBuffer s t ∧ t.frame = s.frame ∧ t.resp = s.resp ∧ t.pollCnt = s.pollCnt ∧
      t.deadline = s.deadline ∧ t.inbox = s.inbox ∧ t.miso = s.miso ∧ t.time = s.time ∧ t.ticks = s.ticks ∧
      t.grants = s.grants ∧ t.par = s.par) ∧
  (∀ (r : Byte) (s : State), r &&& s.par.r1Illegal = 0 → otherByte .illegalTest r s = { s with r1 := r })

/-- R263, R265, R209: the 4th trailing byte equal to the check pattern classifies the card SD2 and ends S3; any other
is E_IF_COND_MISMATCH with the class as it was. A first OCR byte with both top bits set classifies the card SDHC; any
other leaves the class. Each is one exchange and stands in `trail`; nothing else changes. Rests on the spec's D12 and
D15 (log 16), on general knowledge (log 15) and on logs 9, 24, 31 and 32. -/
def Obligations.TrailingByteRows : Prop :=
  ∀ (rest : BitVec 6) (s : State),
    (∃ t, exec .r7Echo s = .next t ∧ t.cardType = .sd2 ∧ t.seq = .s4OpCond ∧
      t.trail = s.trail.set 3 s.par.checkPattern ∧ t.trace = .x s.par.fill s.par.checkPattern :: s.trace ∧ t.cs = s.cs ∧
      RowFrame s t ∧ t.resp = s.resp ∧ t.pollCnt = s.pollCnt ∧ t.r1 = s.r1 ∧ t.regImg = s.regImg ∧
      t.csdNew = s.csdNew) ∧
    (∀ b : Byte, b ≠ s.par.checkPattern → ∃ t, otherByte .echo b s = t ∧ t.trail = s.trail.set 3 b ∧ t.resp = s.resp ∧
      t.r1 = s.r1 ∧ t.time = s.time ∧ t.ticks = s.ticks ∧
      ErrorExit s.par.csReleaseOnInitFail .ifCondMismatch (.status (some .ifCondMismatch)) .failed
        [Event.x s.par.fill b] s t) ∧
    (∃ t b, exec (.r3Ocr0Hc rest) s = .next t ∧ b.getLsbD 7 = true ∧ b.getLsbD 6 = true ∧ b.extractLsb 5 0 = rest ∧
      t.cardType = .sdhc ∧ t.seq = s.seq ∧ t.trail = s.trail.set 0 b ∧ t.trace = .x s.par.fill b :: s.trace ∧
      t.cs = s.cs ∧ RowFrame s t ∧ t.resp = s.resp ∧ t.pollCnt = s.pollCnt ∧ t.r1 = s.r1 ∧ t.regImg = s.regImg ∧
      t.csdNew = s.csdNew) ∧
    (∀ b : Byte, b.extractLsb 7 6 ≠ 3#2 →
      otherByte .ocr0 b s = { s with trail := s.trail.set 0 b, trace := Event.x s.par.fill b :: s.trace })

/-- R201, R209, R291, R293: an accepted data response, the idle byte that ends the not-busy wait, and the start token
are each one poll: the byte comes back for P_FILL and stands in `resp`, chip-select stays, and nothing else changes.
On any other byte: a data response is E_WRITE_DATA_RESP; the not-busy wait reads the clock once and nothing else
happens; in the start-token wait 0xFF is skipped until the one reading made reaches the deadline, and then, as any
other byte at once, it is E_START_BLOCK. With each error chip-select is released, and the operation that runs ends.
Rests on logs 9, 15, 31 and 32. -/
def Obligations.PolledByteRows : Prop :=
  (∀ (i : Instr) (s : State),
    i.place = .dataResp ∨ i.place = .notBusy ∨ i.place = .startWait → ∃ t b,
    exec i s = .next t ∧ encode s.par i = [b] ∧ t.resp = b ∧ t.trace = .x s.par.fill b :: s.trace ∧ t.cs = s.cs ∧
      RowFrame s t ∧ t.cardType = s.cardType ∧ t.seq = s.seq ∧ t.pollCnt = s.pollCnt ∧ t.r1 = s.r1 ∧
      t.trail = s.trail ∧ t.regImg = s.regImg ∧ t.csdNew = s.csdNew) ∧
  (∀ (b : Byte) (s : State), b ≠ 0xFF → ∃ t, otherByte .notBusy b s = t ∧ t.resp = b ∧ t.r1 = s.r1 ∧
      ClockRead [Event.x s.par.fill b] s t) ∧
  (∀ (s : State), nextTime s < s.deadline → ∃ t, otherByte .startWait 0xFF s = t ∧ t.resp = 0xFF ∧ t.r1 = s.r1 ∧
      ClockRead [Event.x s.par.fill 0xFF] s t) ∧
  (∀ (p : Place) (b : Byte) (e : ErrCode) (s : State),
    (p = .dataResp ∧ b.extractLsb 4 0 ≠ 5#5 ∧ e = .writeDataResp) ∨
      (p = .startWait ∧ b ≠ 0xFE ∧ (b = 0xFF → s.deadline ≤ nextTime s) ∧ e = .startBlock) → ∃ t,
    otherByte p b s = t ∧ t.resp = b ∧ t.r1 = s.r1 ∧ t.trail = s.trail ∧
      t.time = (if b = 0xFF ∧ p = .startWait then nextTime s else s.time) ∧
      t.ticks = (if b = 0xFF ∧ p = .startWait then s.ticks.tail else s.ticks) ∧
      (s.seq ≠ .idle → ErrorExit true e (errorReport e s) (phaseAfterError s) [Event.x s.par.fill b] s t) ∧
      (s.seq = .idle → BusOnly s t ∧ t.cs = true ∧ t.frame = s.frame ∧ t.pollCnt = s.pollCnt ∧
        t.deadline = s.deadline ∧ t.miso = s.miso ∧
        t.trace = (if s.cs = true then [] else [Event.cs true]) ++ .x s.par.fill b :: s.trace))

/-- R305, R306, R307, R310: with the first byte of a CSD image in place, the image decodes as `decodeCSD` says, and
the row CSD0.v1, CSD0.v2 or CSD0.none tells which structure the record holds. Nothing else changes. The layouts are
general knowledge (log 15); that a row runs standing alone is log 9; D25 for structure 2 and 3. -/
def Obligations.CsdFirstByteRows : Prop :=
  ∀ (i : Instr) (s : State), i.place = .csd0 → s.regImg.length = 16 → ∃ t b,
    exec i s = .next t ∧ encode s.par i = [b] ∧ t.regImg = s.regImg.set 0 b ∧ t.csdNew = decodeCsd t.regImg ∧
      t.csdNew.structureField = b.extractLsb 7 6 ∧ t.cs = s.cs ∧ t.trace = s.trace ∧ RowFrame s t ∧
      t.cardType = s.cardType ∧ t.seq = s.seq ∧ t.resp = s.resp ∧ t.pollCnt = s.pollCnt ∧ t.r1 = s.r1 ∧ t.trail = s.trail

/-! ### Waits -/

/-- R291, R290, R294, R241, R333, R336: what `waitNotBusy` does in every run: it polls at least once, every poll but
the last returned a byte other than 0xFF, and it ends with 0xFF or with the deadline passed; the deadline is one
reading plus the budget, exactly; chip-select is not touched and nothing fails. On a card that is busy until the
budget has run out, it makes exactly the polls and readings before that. The budgets: P_T_CMD_BUSY before every command
but CMD12, 600 ms after a data packet, P_T_STOP_BUSY after the stop token; the operation goes on either way. Poll
first, clock second, is the spec's D5; the two budgets without a number in the document are D7 and D8, 300 ms and 600 ms
by default (log 16); a duration counts in units of P_TICK (log 35). -/
def Obligations.WaitNotBusyOutcome : Prop :=
  (∀ (par : Params) (budget : Nat) (s : State), ∃ (busy : List Byte) (last : Byte),
    eventsBetween s (waitNotBusy par budget s) = reads par (busy ++ [last]) ∧ (∀ b ∈ busy, b ≠ 0xFF) ∧
      (waitNotBusy par budget s).resp = last ∧
      (last = 0xFF ∨ (waitNotBusy par budget s).deadline ≤ (waitNotBusy par budget s).time) ∧
      (waitNotBusy par budget s).deadline = nextTime s + budget ∧ (waitNotBusy par budget s).cs = s.cs ∧
      BusOnly s (waitNotBusy par budget s)) ∧
  (∀ (par : Params) (budget : Nat) (s : State) (busy rest : List Byte) (ticks more : List Nat),
    BusyUntil budget busy ticks → s.miso = busy ++ rest → s.ticks = ticks ++ more →
    eventsBetween s (waitNotBusy par budget s) = reads par busy ∧ (waitNotBusy par budget s).miso = rest ∧
      (waitNotBusy par budget s).ticks = more) ∧
  (∀ (i : Instr) (s : State) (busy ignored rest : List Byte) (r : Byte) (ticks more : List Nat),
    s.par.Legal → i.place = .frame → (∀ arg crc, i ≠ .cmd12 arg crc) →
    BusyUntil (s.par.units s.par.tCmdBusy) busy ticks → ignored.length = 6 →
    r.getLsbD 7 = false → s.miso = busy ++ (ignored ++ r :: rest) → s.ticks = ticks ++ more →
    ∃ t, exec i s = .next t ∧ t.r1 = r ∧ t.miso = rest ∧ t.ticks = more ∧
      eventsBetween s t =
        selectEvent s ++ reads s.par busy ++ exchanges (encode s.par i) ignored ++ [Event.x s.par.fill r]) ∧
  (∀ (par : Params) (token : Byte) (src during busy rest : List Byte) (response : Byte) (s : State)
    (ticks more : List Nat),
    512 ≤ src.length → during.length = 515 → response.extractLsb 4 0 = 5#5 →
    BusyUntil (par.units 600000) busy ticks →
    s.miso = during ++ response :: (busy ++ rest) → s.ticks = ticks ++ more →
    ∃ t, sendDataPacket par token src s = .ok () t ∧ t.miso = rest ∧ t.ticks = more ∧ t.cs = s.cs ∧
      eventsBetween s t =
        exchanges (token :: src.take 512 ++ [par.crcDummy, par.crcDummy]) during ++ reads par (response :: busy)) ∧
  (∀ (par : Params) (busy rest : List Byte) (y z : Byte) (s : State) (ticks more : List Nat),
    BusyUntil (par.units par.tStopBusy) busy ticks → s.miso = y :: z :: (busy ++ rest) → s.ticks = ticks ++ more →
    s.cs = false →
    (writeMultiStop par s).miso = rest ∧ (writeMultiStop par s).ticks = more ∧ (writeMultiStop par s).cs = true ∧
      eventsBetween s (writeMultiStop par s) =
        [Event.x 0xFD y, .x par.fill z] ++ reads par busy ++ [Event.cs true])

/-- R292: "a 0-duration call makes exactly one poll"; with any budget the number of polls is at least 1, and polls are
all that happens, finitely many of them; which ones is set by the returned bytes and the time readings: where those are
the same, so are the polls, whatever else differs. The returned bytes 00 00 FF with the deadline far away are 3 polls. -/
def Obligations.WaitNotBusyBound : Prop :=
  (∀ (par : Params) (s : State), exchangeCount (eventsBetween s (waitNotBusy par 0 s)) = 1) ∧
  (∀ (par : Params) (budget : Nat) (s : State), ∃ polls : List Byte, 1 ≤ polls.length ∧
    eventsBetween s (waitNotBusy par budget s) = reads par polls) ∧
  (∀ (par : Params) (budget : Nat) (s s' : State), s'.miso = s.miso → s'.ticks = s.ticks → s'.draws = s.draws →
    eventsBetween s' (waitNotBusy par budget s') = eventsBetween s (waitNotBusy par budget s)) ∧
  (∀ (par : Params) (budget first second third : Nat) (s : State) (rest : List Byte) (more : List Nat),
    s.miso = 0x00 :: 0x00 :: 0xFF :: rest → s.ticks = first :: second :: third :: more → second + third < budget →
    eventsBetween s (waitNotBusy par budget s) = reads par [0x00, 0x00, 0xFF])

/-- R293, R294: what `waitStartBlock` does. In every run it succeeds exactly when the first byte other than 0xFF is
0xFE, and then chip-select stays; a wrong byte, or 0xFF with the deadline passed, which is one reading plus 300
ms exactly, is E_START_BLOCK with chip-select released. On a card that returns 0xFF until the deadline, it makes exactly
the polls and readings up to the first reading that reaches the deadline, and no more. Poll first, clock second, is the
spec's D5. -/
def Obligations.WaitStartBlockOutcome : Prop :=
  (∀ (par : Params) (s : State), Ends (waitStartBlock par) s
    (fun _ t => BusOnly s t ∧ t.cs = s.cs ∧ ∃ n, eventsBetween s t = reads par (List.replicate n 0xFF ++ [0xFE]))
    (fun e t => BusOnly s t ∧ e = .startBlock ∧ t.cs = true ∧ t.deadline = nextTime s + par.units 300000 ∧
      ∃ (n : Nat) (b : Byte),
        eventsBetween s t =
          reads par (List.replicate n 0xFF ++ [b]) ++ (if s.cs = true then [] else [Event.cs true]) ∧
        b ≠ 0xFE ∧ (b = 0xFF → t.deadline ≤ t.time))) ∧
  (∀ (par : Params) (s : State) (n : Nat) (rest : List Byte) (ticks more : List Nat),
    Expires 1 (par.units 300000) n ticks → s.miso = List.replicate n 0xFF ++ rest → s.ticks = ticks ++ more →
    ∃ t, waitStartBlock par s = .error .startBlock t ∧ t.cs = true ∧ t.miso = rest ∧ t.ticks = more ∧
      eventsBetween s t =
        reads par (List.replicate n 0xFF) ++ (if s.cs = true then [] else [Event.cs true]))

/-- R293, R403 item 3: the byte is tested before the clock. A start token behind `n` bytes 0xFF succeeds as long as
the `n` readings made before it stay below the deadline, whatever the time is when the token comes. Rests on the
spec's D5 (order of test and clock). -/
def Obligations.TokenBeatsClock : Prop :=
  ∀ (par : Params) (s : State) (n : Nat) (rest : List Byte) (first : Nat) (readings more : List Nat),
    s.miso = List.replicate n 0xFF ++ 0xFE :: rest → s.ticks = first :: (readings ++ more) → readings.length = n →
    readings.sum < par.units 300000 →
    ∃ t, waitStartBlock par s = .ok () t ∧ t.miso = rest ∧ t.cs = s.cs ∧ t.ticks = more ∧
      eventsBetween s t = reads par (List.replicate n 0xFF ++ [0xFE])

/-! ### Initialization -/

/-- R262, R264, R249: the two retry loops. In every run S2 ends well only with the response P_R1_IDLE to CMD0, S4 only
with the response 0x00 to ACMD41 (its argument carries P_HCS exactly for an SD2 card); each fails only with its loop
deadline, one reading plus 2 s exactly, passed and its last response unsuitable, under its own error, and then the
sequencer has not moved on. On a card that is never busy and answers unsuitably until the deadline, each makes exactly
the attempts up to the first loop reading that reaches the deadline, and no more; an attempt of S2 is one command and
makes two readings (its pre-wait and the loop's), one of S4 is two commands and makes three. Rests on the spec's D5, D7,
D13 and on log 15. -/
def Obligations.RetryLoopOutcomes : Prop :=
  (∀ (par : Params) (s : State),
    Ends (s2Idle par) s
      (fun _ t => t.r1 = par.r1Idle ∧ t.seq = .s3Probe ∧ t.frame = encode par .cmd0 ∧ t.cardType = s.cardType)
      (fun e t => e = .noCard ∧ t.r1 ≠ par.r1Idle ∧ t.loopDeadline = nextTime s + par.units 2000000 ∧
        t.loopDeadline ≤ t.time ∧ t.seq = s.seq ∧ t.frame = encode par .cmd0 ∧ t.cardType = s.cardType) ∧
    Ends (s4OpCond par) s
      (fun _ t => t.r1 = 0x00 ∧ t.seq = .s5Ocr ∧ t.frame = encode par (.acmd41 (decide (s.cardType = .sd2))) ∧
        t.cardType = s.cardType)
      (fun e t => e = .opCondTimeout ∧ t.r1 ≠ 0x00 ∧ t.loopDeadline = nextTime s + par.units 2000000 ∧
        t.loopDeadline ≤ t.time ∧ t.seq = s.seq ∧ t.frame = encode par (.acmd41 (decide (s.cardType = .sd2))) ∧
        t.cardType = s.cardType)) ∧
  (∀ (par : Params) (s : State) (responses ignored rest : List Byte) (ticks more : List Nat),
    par.Legal → ignored.length = 6 → (∀ r ∈ responses, r.getLsbD 7 = false ∧ r ≠ par.r1Idle) →
    Expires 2 (par.units 2000000) responses.length ticks → s.ticks = ticks ++ more →
    s.miso = responses.flatMap (fun r => answer ignored r []) ++ rest →
    ∃ t, s2Idle par s = .error .noCard t ∧ t.miso = rest ∧ t.ticks = more ∧ t.cs = false ∧
      eventsBetween s t =
        selectEvent s ++ responses.flatMap (fun r => commandEvents par (encode par .cmd0) ignored r)) ∧
  (∀ (par : Params) (s : State) (responses ignored rest : List Byte) (prefixResponse : Byte) (ticks more : List Nat),
    par.Legal → ignored.length = 6 → prefixResponse.getLsbD 7 = false →
    (∀ r ∈ responses, r.getLsbD 7 = false ∧ r ≠ 0x00) →
    Expires 3 (par.units 2000000) responses.length ticks → s.ticks = ticks ++ more →
    s.miso = responses.flatMap (fun r => answer ignored prefixResponse (answer ignored r [])) ++ rest →
    ∃ t, s4OpCond par s = .error .opCondTimeout t ∧ t.miso = rest ∧ t.ticks = more ∧ t.cs = false ∧
      eventsBetween s t =
        selectEvent s ++ responses.flatMap (fun r =>
          commandEvents par (encode par .cmd55) ignored prefixResponse ++
            commandEvents par (encode par (.acmd41 (decide (s.cardType = .sd2)))) ignored r))

/-- R263, R244, R403 item 5: the version probe on a card that answers CMD8 with `r`, or not at all. With the
illegal-command bit set no trailing byte is read; otherwise four are, and only the 4th counts. The sentinel 0xFF of a
silent card has that bit set, so a silent card is classified SD1; chip-select is released with the sentinel. Rests on
the spec's D11 and D12 and on log 15. -/
def Obligations.VersionProbe : Prop :=
  ∀ (par : Params) (s : State) (ignored rest : List Byte),
    par.Legal → ignored.length = 6 →
    (∀ r : Byte, r.getLsbD 7 = false → r &&& par.r1Illegal ≠ 0 → s.miso = answer ignored r rest →
      ∃ t, s3Probe par s = .error .legacyNotImplemented t ∧ t.cardType = .sd1 ∧ t.miso = rest ∧ t.cs = false ∧
        eventsBetween s t = selectEvent s ++ commandEvents par (encode par .cmd8) ignored r) ∧
    (∀ r a b c d : Byte, r.getLsbD 7 = false → r &&& par.r1Illegal = 0 →
      s.miso = answer ignored r (a :: b :: c :: d :: rest) →
      ∃ t, s3Probe par s = (if d = par.checkPattern then .ok () t else .error .ifCondMismatch t) ∧
        t.trail = [a, b, c, d] ∧ t.miso = rest ∧ (d = par.checkPattern → t.cardType = .sd2 ∧ t.seq = .s4OpCond) ∧
        (d ≠ par.checkPattern → t.cardType = s.cardType ∧ t.seq = s.seq) ∧
        eventsBetween s t =
          selectEvent s ++ commandEvents par (encode par .cmd8) ignored r ++ reads par [a, b, c, d]) ∧
    (∀ polls : List Byte, NoResponse polls → s.miso = silence ignored polls rest →
      ∃ t, s3Probe par s = .error .legacyNotImplemented t ∧ t.cardType = .sd1 ∧ t.miso = rest ∧ t.cs = true ∧
        t.r1 = 0xFF ∧ eventsBetween s t = selectEvent s ++ silentEvents par (encode par .cmd8) ignored polls)

/-- R265, R266, R244, R403 item 6: the capacity class of an SD2 card that answers CMD58 with `r`, or not at all. A
non-zero response, and the sentinel of a silent card, is E_OCR_CMD with no OCR byte read; otherwise four are, and the
card is SDHC exactly when the top two bits of the first are set. Then CMD16 with argument 512, whatever the class: a
zero response moves on to S7; a non-zero one, and the sentinel of a silent card, is E_BLOCKLEN_CMD, and the class and
the sequencer stay. Rests on log 15. -/
def Obligations.CapacityClassAndBlockLength : Prop :=
  ∀ (par : Params) (s : State) (ignored rest : List Byte),
    par.Legal → ignored.length = 6 →
    (s.cardType = .sd2 →
      (∀ r : Byte, r.getLsbD 7 = false → r ≠ 0 → s.miso = answer ignored r rest →
        ∃ t, s5Ocr par s = .error .ocrCmd t ∧ t.cardType = .sd2 ∧ t.miso = rest ∧
          eventsBetween s t = selectEvent s ++ commandEvents par (encode par .cmd58) ignored r) ∧
      (∀ a b c d : Byte, s.miso = answer ignored 0x00 (a :: b :: c :: d :: rest) →
        ∃ t, s5Ocr par s = .ok () t ∧ t.trail = [a, b, c, d] ∧ t.miso = rest ∧ t.seq = .s6BlockLen ∧
          t.cardType = (if a.extractLsb 7 6 = 3#2 then .sdhc else .sd2) ∧
          eventsBetween s t =
            selectEvent s ++ commandEvents par (encode par .cmd58) ignored 0x00 ++ reads par [a, b, c, d]) ∧
      (∀ polls : List Byte, NoResponse polls → s.miso = silence ignored polls rest →
        ∃ t, s5Ocr par s = .error .ocrCmd t ∧ t.cardType = .sd2 ∧ t.miso = rest ∧ t.cs = true ∧
          eventsBetween s t = selectEvent s ++ silentEvents par (encode par .cmd58) ignored polls)) ∧
    (s.miso = answer ignored 0x00 rest →
      ∃ t, s6BlockLen par s = .ok () t ∧ t.seq = .s7Regs ∧ t.cardType = s.cardType ∧ t.miso = rest ∧ t.cs = false ∧
        eventsBetween s t =
          selectEvent s ++ commandEvents par (frameBytes par.cmdSetBlockLen 512 par.crcDummy) ignored 0x00) ∧
    (∀ r : Byte, r.getLsbD 7 = false → r ≠ 0 → s.miso = answer ignored r rest →
      ∃ t, s6BlockLen par s = .error .blockLenCmd t ∧ t.seq = s.seq ∧ t.cardType = s.cardType ∧ t.miso = rest ∧
        eventsBetween s t =
          selectEvent s ++ commandEvents par (frameBytes par.cmdSetBlockLen 512 par.crcDummy) ignored r) ∧
    (∀ polls : List Byte, NoResponse polls → s.miso = silence ignored polls rest →
      ∃ t, s6BlockLen par s = .error .blockLenCmd t ∧ t.seq = s.seq ∧ t.cardType = s.cardType ∧ t.miso = rest ∧
        t.cs = true ∧
        eventsBetween s t =
          selectEvent s ++ silentEvents par (frameBytes par.cmdSetBlockLen 512 par.crcDummy) ignored polls)

/-- R260 to R271, R402, R404, R447: `Configure` completes in every run that is in the contract and granted the lock,
on every card. On success the card is SD2 or SDHC, the rate is fast, the phase READY, and the records committed are
decoded from the two images received in this run, 16 bytes between a start token and two CRC bytes each; the CSD's is
the one `reg_img` still holds. On failure the error is one of its eight, the card class is what R270 says, no record
is committed, the rate stays slow and the phase is FAILED. In both cases the lock is given back, the sequencer idle
and chip-select released, on a failure by D15, unless P_CS_RELEASE_ON_INIT_FAIL is false. The transfer registers and
the caller's buffer are untouched. Rests on the spec's D15 (log 16), D26 and D41, and on log 15; that the lock is
granted is a hypothesis (log 4). -/
def Obligations.ConfigureCompletes : Prop :=
  ∀ (s : State), s.seq = .idle → s.phase = .fresh → nextGrant s = true → ∃ t,
    exec .configure s = .next t ∧ t.lockHeld = false ∧ t.seq = .idle ∧
      (t.err = none ∨ s.par.csReleaseOnInitFail = true → t.cs = true) ∧
      t.presented = some (.status t.err) ∧ SameTransfer s t ∧ SameBuffer s t ∧ t.inbox = s.inbox ∧ Onward s t ∧
      (t.err = none → t.phase = .ready ∧ t.rateSel = .fast ∧ (t.cardType = .sd2 ∨ t.cardType = .sdhc) ∧
        t.cid = t.cidNew ∧ t.csd = t.csdNew ∧ t.csd = decodeCsd t.regImg ∧ t.regImg.length = 16 ∧
        ∃ cidImg crc crc' : List Byte, cidImg.length = 16 ∧ crc.length = 2 ∧ crc'.length = 2 ∧ t.cid = decodeCid cidImg ∧
          reads s.par (packet cidImg crc) <:+: eventsBetween s t ∧
          reads s.par (packet t.regImg crc') <:+: eventsBetween s t) ∧
      (∀ e, t.err = some e → e ∈ errorsOf .configure ∧ t.phase = .failed ∧ t.rateSel = .slow ∧ t.cid = s.cid ∧
        t.csd = s.csd ∧ classAfter e s.cardType t.cardType)

/-- R260 to R268, R460: `Configure` in the configuration of the defaults, against a card that answers every command on
the first poll, CMD0 with 0x01, CMD8 with the echo, ACMD41 ready on the first round, CMD58 with the OCR byte `ocr`,
and sends the register images `cidImg` and `csdImg`: it ends ready, with the class the OCR byte gives and the two
images decoded, after exactly 123 exchanges. Event by event: LOCK, the slow rate; 13 bytes 0xFF under chip-select
high; then under chip-select low the frames of CMD0, CMD8, CMD55, ACMD41, CMD58 and CMD16, each with its answer and
the bytes read behind it; the CID by CMD10 and then the CSD by CMD9, chip-select released behind each; the fast rate,
UNLOCK. The frames are written out. The script is one possible card; the numbers and layouts are general knowledge
(log 15), P_N_PRIME, the filler and the dummy CRC are D6, D3 and D9 (log 16). -/
def Obligations.ConfigureOnScript : Prop :=
  ∀ (s : State) (primed ignored cidImg csdImg rest : List Byte) (ocr : Byte),
    s.par = Params.spec → s.seq = .idle → s.phase = .fresh → nextGrant s = true →
    primed.length = 13 → ignored.length = 6 → cidImg.length = 16 → csdImg.length = 16 →
    s.miso = primed ++ answer ignored 0x01 (answer ignored 0x01 (0x00 :: 0x00 :: 0x01 :: 0xAA ::
      answer ignored 0x01 (answer ignored 0x00 (answer ignored 0x00 (ocr :: 0xFF :: 0x80 :: 0x00 ::
      answer ignored 0x00 (answer ignored 0x00 (packet cidImg [0x12, 0x34] ++
      answer ignored 0x00 (packet csdImg [0x56, 0x78] ++ rest)))))))) →
    ∃ t, exec .configure s = .next t ∧ t.err = none ∧ t.phase = .ready ∧ t.cid = decodeCid cidImg ∧
      t.csd = decodeCsd csdImg ∧ t.cardType = (if ocr.extractLsb 7 6 = 3#2 then .sdhc else .sd2) ∧ t.rateSel = .fast ∧
      t.cs = true ∧ t.lockHeld = false ∧ t.seq = .idle ∧ t.miso = rest ∧ exchangeCount (eventsBetween s t) = 123 ∧
      eventsBetween s t =
        [Event.lock, .rate .slow] ++ (if s.cs = true then [] else [Event.cs true]) ++
        exchanges (List.replicate 13 0xFF) primed ++ [Event.cs false] ++
        commandEvents s.par [0x40, 0x00, 0x00, 0x00, 0x00, 0x95] ignored 0x01 ++
        commandEvents s.par [0x48, 0x00, 0x00, 0x01, 0xAA, 0x87] ignored 0x01 ++ reads s.par [0x00, 0x00, 0x01, 0xAA] ++
        commandEvents s.par [0x77, 0x00, 0x00, 0x00, 0x00, 0xFF] ignored 0x01 ++
        commandEvents s.par [0x69, 0x40, 0x00, 0x00, 0x00, 0xFF] ignored 0x00 ++
        commandEvents s.par [0x7A, 0x00, 0x00, 0x00, 0x00, 0xFF] ignored 0x00 ++ reads s.par [ocr, 0xFF, 0x80, 0x00] ++
        commandEvents s.par [0x50, 0x00, 0x00, 0x02, 0x00, 0xFF] ignored 0x00 ++
        commandEvents s.par [0x4A, 0x00, 0x00, 0x00, 0x00, 0xFF] ignored 0x00 ++
        reads s.par (packet cidImg [0x12, 0x34]) ++ [Event.cs true, .cs false] ++
        commandEvents s.par [0x49, 0x00, 0x00, 0x00, 0x00, 0xFF] ignored 0x00 ++
        reads s.par (packet csdImg [0x56, 0x78]) ++ [Event.cs true, .rate .fast, .unlock]

/-! ### Registers -/

/-- R300, R161, R244: a register read whose command is accepted takes the 16 bytes behind the start token in order,
discards two, and releases chip-select; a non-zero response, and the sentinel of a silent card, is E_REG_CMD with
chip-select released (once) and nothing read; a byte other than 0xFF and 0xFE in place of the start token, and 0xFF
until its deadline has passed, is E_START_BLOCK, with chip-select released (once) and no byte of the image read. The
scripts of the deadline give the readings of the clock: one for the pre-wait of the command, then those of the wait.
Rests on the spec's D5 and D16. -/
def Obligations.ReadRegisterOnScript : Prop :=
  ∀ (par : Params) (s : State) (code : BitVec 6) (ignored rest : List Byte),
    code ≠ par.cmdStop → ignored.length = 6 →
    (∀ (img : List Byte) (c1 c2 : Byte), img.length = 16 →
      s.miso = answer ignored 0x00 (packet img [c1, c2] ++ rest) →
      ∃ t, readRegister par code s = .ok img t ∧ t.cs = true ∧ t.miso = rest ∧
        eventsBetween s t = selectEvent s ++ commandEvents par (frameBytes code 0 par.crcDummy) ignored 0x00 ++
          reads par (packet img [c1, c2]) ++ [Event.cs true]) ∧
    (∀ r : Byte, r.getLsbD 7 = false → r ≠ 0 → s.miso = answer ignored r rest →
      ∃ t, readRegister par code s = .error .regCmd t ∧ t.cs = true ∧ t.miso = rest ∧
        eventsBetween s t =
          selectEvent s ++ commandEvents par (frameBytes code 0 par.crcDummy) ignored r ++ [Event.cs true]) ∧
    (∀ polls : List Byte, NoResponse polls → s.miso = silence ignored polls rest →
      ∃ t, readRegister par code s = .error .regCmd t ∧ t.cs = true ∧ t.miso = rest ∧
        eventsBetween s t = selectEvent s ++ silentEvents par (frameBytes code 0 par.crcDummy) ignored polls) ∧
    (∀ r : Byte, r ≠ 0xFF → r ≠ 0xFE → s.miso = answer ignored 0x00 (r :: rest) →
      ∃ t, readRegister par code s = .error .startBlock t ∧ t.cs = true ∧ t.miso = rest ∧
        eventsBetween s t = selectEvent s ++ commandEvents par (frameBytes code 0 par.crcDummy) ignored 0x00 ++
          [Event.x par.fill r, .cs true]) ∧
    (∀ (n first : Nat) (ticks more : List Nat), Expires 1 (par.units 300000) n ticks →
      s.miso = answer ignored 0x00 (List.replicate n 0xFF ++ rest) → s.ticks = first :: (ticks ++ more) →
      ∃ t, readRegister par code s = .error .startBlock t ∧ t.cs = true ∧ t.miso = rest ∧ t.ticks = more ∧
        eventsBetween s t = selectEvent s ++ commandEvents par (frameBytes code 0 par.crcDummy) ignored 0x00 ++
          reads par (List.replicate n 0xFF) ++ [Event.cs true])

/-- R303, R304: the six fields of the CID, byte by byte, for every image. The layout is general knowledge (log 15);
the month-year field is kept raw (log 22). -/
def Obligations.DecodeCidFields : Prop :=
  ∀ (b0 b1 b2 b3 b4 b5 b6 b7 b8 b9 b10 b11 b12 b13 b14 b15 : Byte),
    decodeCid [b0, b1, b2, b3, b4, b5, b6, b7, b8, b9, b10, b11, b12, b13, b14, b15] =
      { mid := b0, oid := b1 ++ b2, pnm := b3 ++ b4 ++ b5 ++ b6 ++ b7, prv := b8, psn := b9 ++ b10 ++ b11 ++ b12
        mdt := b13.extractLsb 3 0 ++ b14 }

/-- R306: the version 1 layout, byte by byte, for every image with structure 0. The layout is general knowledge (log
15). -/
def Obligations.DecodeCsdV1Fields : Prop :=
  ∀ (b0 b1 b2 b3 b4 b5 b6 b7 b8 b9 b10 b11 b12 b13 b14 b15 : Byte), b0.extractLsb 7 6 = 0#2 →
    decodeCsd [b0, b1, b2, b3, b4, b5, b6, b7, b8, b9, b10, b11, b12, b13, b14, b15] =
      .v1
        { common :=
            { taac := b1, nsac := b2, tranSpeed := b3, ccc := b4 ++ b5.extractLsb 7 4, readBlLen := b5.extractLsb 3 0
              readBlPartial := b6.extractLsb 7 7, writeBlkMisalign := b6.extractLsb 6 6
              readBlkMisalign := b6.extractLsb 5 5, dsrImp := b6.extractLsb 4 4, eraseBlkEn := b10.extractLsb 6 6
              sectorSize := b10.extractLsb 5 0 ++ b11.extractLsb 7 7, wpGrpSize := b11.extractLsb 6 0
              wpGrpEnable := b12.extractLsb 7 7, r2wFactor := b12.extractLsb 4 2
              writeBlLen := b12.extractLsb 1 0 ++ b13.extractLsb 7 6, writeBlPartial := b13.extractLsb 5 5
              fileFormatGrp := b14.extractLsb 7 7, copy := b14.extractLsb 6 6, permWriteProtect := b14.extractLsb 5 5
              tmpWriteProtect := b14.extractLsb 4 4, fileFormat := b14.extractLsb 3 2 }
          cSize := b6.extractLsb 1 0 ++ b7 ++ b8.extractLsb 7 6
          vddRCurrMin := b8.extractLsb 5 3, vddRCurrMax := b8.extractLsb 2 0, vddWCurrMin := b9.extractLsb 7 5
          vddWCurrMax := b9.extractLsb 4 2, cSizeMult := b9.extractLsb 1 0 ++ b10.extractLsb 7 7 }

/-- R307: the version 2 layout, for every image with structure 1: C_SIZE byte by byte, and the other fields where the
version 1 layout has them. The layout is general knowledge (log 15). -/
def Obligations.DecodeCsdV2Fields : Prop :=
  ∀ (b0 b1 b2 b3 b4 b5 b6 b7 b8 b9 b10 b11 b12 b13 b14 b15 : Byte), b0.extractLsb 7 6 = 1#2 → ∃ f : CsdV2,
    decodeCsd [b0, b1, b2, b3, b4, b5, b6, b7, b8, b9, b10, b11, b12, b13, b14, b15] = .v2 f ∧
      f.cSize = b7.extractLsb 5 0 ++ b8 ++ b9 ∧
      f.common = (decodeCsdV1 [b0, b1, b2, b3, b4, b5, b6, b7, b8, b9, b10, b11, b12, b13, b14, b15]).common

/-- R305, R310, R312: the structure field of the image alone selects the layout; the record always holds it; and with
structure 2 or 3 there is no layout and no capacity. Rests on general knowledge (log 15) and on the spec's D25. -/
def Obligations.CsdStructureSelects : Prop :=
  ∀ (b0 : Byte) (others : List Byte), others.length = 15 →
    (decodeCsd (b0 :: others)).structureField = b0.extractLsb 7 6 ∧
      (capacity (decodeCsd (b0 :: others)) = none ↔ b0.getLsbD 7 = true)

/-- R308, R309: the two capacity formulas in bytes, exact, with the largest values 2^36 and 2^41; so every capacity
fits the 64 bits that `Size()` presents. The formula of R308 is general knowledge (log 15). -/
def Obligations.CapacityExact : Prop :=
  (∀ f : CsdV1, capacity (.v1 f) =
      some ((f.cSize.toNat + 1) * 2 ^ (f.cSizeMult.toNat + 2) * 2 ^ f.common.readBlLen.toNat) ∧
    ∀ n, capacity (.v1 f) = some n → 4 ≤ n ∧ n ≤ 2 ^ 36) ∧
  (∀ f : CsdV2, capacity (.v2 f) = some ((f.cSize.toNat + 1) * 524288) ∧
    ∀ n, capacity (.v2 f) = some n → 524288 ≤ n ∧ n ≤ 2 ^ 41)

/-! ### Queries: Size, WriteBlockSize, EraseBlockSize -/

/-- R381: `Size()` is host op code 3; after a successful `Configure` it presents a value of P_SIZE_W bits, the exact
capacity of the stored CSD wherever those hold it, as 42 bits and more always do, and changes nothing else; a width
that does not hold the capacity leaves the value free (log 36). That it is refused with a CSD that has no capacity
(R310, D25: U4, logs 12 and 30) and without a successful `Configure` (R408, D41: U5, log 12), that its request is the
op code byte alone (log 8) and that a query leaves `err` (log 28) are the model's choice. -/
def Obligations.SizeCompletes : Prop :=
  (∀ par : Params, decode par .host [0x03] = .ok (.size, [])) ∧
  ∀ (s : State), s.seq = .idle →
    (s.phase = .ready → ∀ n, capacity s.csd = some n →
      (42 ≤ s.par.sizeW → n < 2 ^ s.par.sizeW) ∧
      ∃ v, exec .size s = .next { s with presented := some (.value v) } ∧ v < 2 ^ s.par.sizeW ∧
        (n < 2 ^ s.par.sizeW → v = n)) ∧
    (s.phase = .ready → capacity s.csd = none → exec .size s = .refused .capacityUndefined) ∧
    (s.phase ≠ .ready → exec .size s = .refused .sizeWithoutConfigure)

/-- R382, R383: the block-size queries are host op codes 4 and 5; both present 512 in every phase, and change nothing
else. That a request is the op code byte alone (the spec's D1, log 8) and that a query leaves `err` (log 28) are the
model's choice. -/
def Obligations.BlockSizeQueries : Prop :=
  (∀ par : Params, decode par .host [0x04] = .ok (.writeBlockSize, []) ∧
    decode par .host [0x05] = .ok (.eraseBlockSize, [])) ∧
  ∀ (s : State), s.seq = .idle →
    exec .writeBlockSize s = .next { s with presented := some (.value 512) } ∧
      exec .eraseBlockSize s = .next { s with presented := some (.value 512) }

/-! ### Block I/O -/

/-- R330, R170: the address scaling: the index itself for SDHC; times 512 for SD1 and SD2 as long as it fits; no
argument otherwise. Rests on the spec's D21 and D22; an index without argument is refused where it is used (log 13).
-/
def Obligations.ScaleRule : Prop :=
  ∀ (b : U32),
    scale .sdhc b = .ok b ∧
    (∀ card, card = .sd1 ∨ card = .sd2 →
      (b.toNat < 2 ^ 23 → ∃ arg, scale card b = .ok arg ∧ arg.toNat = b.toNat * 512) ∧
      (2 ^ 23 ≤ b.toNat → scale card b = .error .blockIndexTooLarge)) ∧
    scale .unknown b = .error .unknownCardType

/-- R331, R161, R198: a block read the card accepts: CMD17 with the scaled index, the 512 bytes behind the start
token in order, two CRC bytes discarded, chip-select released; a longer destination makes no difference. Rests on log
15; a longer destination is the spec's D36. -/
def Obligations.ReadBlockOnScript : Prop :=
  ∀ (par : Params) (s : State) (b arg : U32) (len : Nat) (ignored payload rest : List Byte) (c1 c2 : Byte),
    par.Legal → 512 ≤ len → scale s.cardType b = .ok arg → ignored.length = 6 → payload.length = 512 →
    s.miso = answer ignored 0x00 (packet payload [c1, c2] ++ rest) →
    ∃ t, readBlock par b len s = .ok payload t ∧ t.cs = true ∧ t.miso = rest ∧ t.frame = encode par (.cmd17 arg) ∧
      eventsBetween s t = selectEvent s ++ commandEvents par (encode par (.cmd17 arg)) ignored 0x00 ++
        reads par (packet payload [c1, c2]) ++ [Event.cs true]

/-- R331, R244, R403 item 2: a block read the card does not serve. A non-zero response, and the sentinel of a silent
card, is E_READ_CMD; a byte other than 0xFF and 0xFE in place of the start token is E_START_BLOCK; nothing more is
exchanged and chip-select is released (once). Rests on the spec's D17 for chip-select. -/
def Obligations.ReadBlockFailures : Prop :=
  ∀ (par : Params) (s : State) (b arg : U32) (len : Nat) (ignored rest : List Byte),
    par.Legal → 512 ≤ len → scale s.cardType b = .ok arg → ignored.length = 6 →
    (∀ r : Byte, r.getLsbD 7 = false → r ≠ 0 → s.miso = answer ignored r rest →
      ∃ t, readBlock par b len s = .error (.err .readCmd) t ∧ t.cs = true ∧ t.miso = rest ∧
        eventsBetween s t = selectEvent s ++ commandEvents par (encode par (.cmd17 arg)) ignored r ++ [Event.cs true]) ∧
    (∀ polls : List Byte, NoResponse polls → s.miso = silence ignored polls rest →
      ∃ t, readBlock par b len s = .error (.err .readCmd) t ∧ t.cs = true ∧ t.miso = rest ∧
        eventsBetween s t = selectEvent s ++ silentEvents par (encode par (.cmd17 arg)) ignored polls) ∧
    (∀ r : Byte, r ≠ 0xFF → r ≠ 0xFE → s.miso = answer ignored 0x00 (r :: rest) →
      ∃ t, readBlock par b len s = .error (.err .startBlock) t ∧ t.cs = true ∧ t.miso = rest ∧
        eventsBetween s t =
          selectEvent s ++ commandEvents par (encode par (.cmd17 arg)) ignored 0x00 ++
            [Event.x par.fill r, .cs true])

/-- R332, R333, R199: a block write the card accepts and is done with at once: CMD24 with the scaled index, the start
token, the first 512 bytes of the source in order, two dummy CRC bytes, the data response, one poll, chip-select
released. A longer source makes no difference (R164). Rests on logs 15 and 16 (D9); a longer source is the spec's
D36. -/
def Obligations.WriteBlockOnScript : Prop :=
  ∀ (par : Params) (s : State) (b arg : U32) (src ignored during rest : List Byte) (response : Byte),
    par.Legal → 512 ≤ src.length → scale s.cardType b = .ok arg → ignored.length = 6 → during.length = 515 →
    response.extractLsb 4 0 = 5#5 →
    s.miso = answer ignored 0x00 (during ++ response :: 0xFF :: rest) →
    ∃ t, writeBlock par b src s = .ok () t ∧ t.cs = true ∧ t.miso = rest ∧ t.frame = encode par (.cmd24 arg) ∧
      eventsBetween s t = selectEvent s ++ commandEvents par (encode par (.cmd24 arg)) ignored 0x00 ++
        exchanges (0xFE :: src.take 512 ++ [par.crcDummy, par.crcDummy]) during ++ reads par [response, 0xFF] ++
        [Event.cs true]

/-- R332, R333, R201, R244, D40: a block write the card does not take. A non-zero response, and the sentinel of a
silent card, is E_WRITE_CMD with no data sent; a data response whose low 5 bits are not 0b00101 is E_WRITE_DATA_RESP
right after that byte, with no busy wait. Chip-select is released (once) in each case. Rests on the spec's D16, D18
and D40. -/
def Obligations.WriteBlockFailures : Prop :=
  ∀ (par : Params) (s : State) (b arg : U32) (src ignored rest : List Byte),
    par.Legal → 512 ≤ src.length → scale s.cardType b = .ok arg → ignored.length = 6 →
    (∀ r : Byte, r.getLsbD 7 = false → r ≠ 0 → s.miso = answer ignored r rest →
      ∃ t, writeBlock par b src s = .error (.err .writeCmd) t ∧ t.cs = true ∧ t.miso = rest ∧
        eventsBetween s t = selectEvent s ++ commandEvents par (encode par (.cmd24 arg)) ignored r ++ [Event.cs true]) ∧
    (∀ polls : List Byte, NoResponse polls → s.miso = silence ignored polls rest →
      ∃ t, writeBlock par b src s = .error (.err .writeCmd) t ∧ t.cs = true ∧ t.miso = rest ∧
        eventsBetween s t = selectEvent s ++ silentEvents par (encode par (.cmd24 arg)) ignored polls) ∧
    (∀ (during : List Byte) (r : Byte), during.length = 515 → r.extractLsb 4 0 ≠ 5#5 →
      s.miso = answer ignored 0x00 (during ++ r :: rest) →
      ∃ t, writeBlock par b src s = .error (.err .writeDataResp) t ∧ t.cs = true ∧ t.miso = rest ∧
        eventsBetween s t = selectEvent s ++ commandEvents par (encode par (.cmd24 arg)) ignored 0x00 ++
          exchanges (0xFE :: src.take 512 ++ [par.crcDummy, par.crcDummy]) during ++
          [Event.x par.fill r, .cs true])

/-- R164, R403 item 1: a buffer shorter than 512 bytes is E_PARAM in each block primitive, before any bus activity:
the state is the same. -/
def Obligations.ShortBuffer : Prop :=
  ∀ (par : Params) (s : State) (b : U32) (len : Nat) (src : List Byte), len < 512 → src.length < 512 →
    readBlock par b len s = .error (.err .param) s ∧ writeBlock par b src s = .error (.err .param) s ∧
      writeMulti par src s = .error .param s

/-! ### EraseBlocks -/

/-- R384, R337, R380, R402, R404: `EraseBlocks` completes in every run in the contract, granted the lock, whose start
block has a command argument, on every card. The error is one of its two or none; the device registers, the transfer
registers and the buffer are untouched. Rests on logs 4, 13 and 15. That the count of an erase has 64 bits is log 37.
-/
def Obligations.EraseBlocksCompletes : Prop :=
  ∀ (start : U32) (count : U64) (s : State), s.seq = .idle → s.phase = .ready → nextGrant s = true →
    start.toNat + count.toNat ≤ 2 ^ 32 → addressable s.cardType start.toNat → ∃ t,
    exec (.eraseBlocks start count) s = .next t ∧ t.cs = true ∧ t.lockHeld = false ∧ t.seq = .idle ∧ t.rateSel = .fast ∧
      t.presented = some (.status t.err) ∧ (∀ e, t.err = some e → e = .writeMultiCmd ∨ e = .writeDataResp) ∧
      SameDevice s t ∧ SameInit s t ∧ SameTransfer s t ∧ SameBuffer s t ∧ t.inbox = s.inbox ∧ Onward s t

/-- R337, R334 to R336, R384, R380, R452: an erase whose `count` chunks the card accepts and is done with at once,
event by event: lock, fast rate, one CMD25 with the scaled start block, one byte discarded, `count` packets of token
0xFC, 512 zeros and two dummy CRC bytes, then the stop token, one byte discarded, one poll, chip-select, unlock. Rests
on the numbers of R200 (log 15) and on D8 and D9 (log 16). That the count of an erase has 64 bits is log 37. -/
def Obligations.EraseOnScript : Prop :=
  ∀ (start arg : U32) (count : U64) (s : State) (ignored during rest : List Byte) (x y z response : Byte),
    s.par.Legal → s.seq = .idle → s.phase = .ready → nextGrant s = true → start.toNat + count.toNat ≤ 2 ^ 32 →
    s.cs = true → scale s.cardType start = .ok arg → ignored.length = 6 → during.length = 515 →
    response.extractLsb 4 0 = 5#5 →
    s.miso = answer ignored 0x00 (x :: ((List.replicate count.toNat (during ++ [response, 0xFF])).flatten ++
      y :: z :: 0xFF :: rest)) →
    ∃ t, exec (.eraseBlocks start count) s = .next t ∧ t.err = none ∧ t.miso = rest ∧
      eventsBetween s t =
        [Event.lock, .rate .fast, .cs false] ++ commandEvents s.par (encode s.par (.cmd25 arg)) ignored 0x00 ++
        [Event.x s.par.fill x] ++
        (List.replicate count.toNat (exchanges (0xFC :: zeroBlock ++ [s.par.crcDummy, s.par.crcDummy]) during ++
          reads s.par [response, 0xFF])).flatten ++
        [Event.x 0xFD y, .x s.par.fill z, .x s.par.fill 0xFF, .cs true, .unlock]

/-- R334, R337, R450, R404: how an erase fails. A CMD25 that the card answers with a non-zero response, or not at all,
is E_WRITE_MULTI_CMD: no chunk and no stop token is sent, whatever the count. The first chunk the card does not
accept, after `k` accepted ones, is E_WRITE_DATA_RESP and ends the erase at once: after its data response no stop
token, and nothing else, is sent. In each case chip-select (once) and then the lock are released. That no stop token
is sent is the spec's D20, chip-select after a rejected command D16. Rests on log 15. That the count of an erase has
64 bits is log 37. -/
def Obligations.EraseFailures : Prop :=
  ∀ (start arg : U32) (count : U64) (s : State) (ignored rest : List Byte),
    s.par.Legal → s.seq = .idle → s.phase = .ready → nextGrant s = true → start.toNat + count.toNat ≤ 2 ^ 32 →
    s.cs = true → scale s.cardType start = .ok arg → ignored.length = 6 →
    (∀ r : Byte, r.getLsbD 7 = false → r ≠ 0 → s.miso = answer ignored r rest →
      ∃ t, exec (.eraseBlocks start count) s = .next t ∧ t.err = some .writeMultiCmd ∧ t.cs = true ∧ t.miso = rest ∧
        eventsBetween s t = [Event.lock, .rate .fast, .cs false] ++
          commandEvents s.par (encode s.par (.cmd25 arg)) ignored r ++ [Event.cs true, .unlock]) ∧
    (∀ polls : List Byte, NoResponse polls → s.miso = silence ignored polls rest →
      ∃ t, exec (.eraseBlocks start count) s = .next t ∧ t.err = some .writeMultiCmd ∧ t.cs = true ∧ t.miso = rest ∧
        eventsBetween s t = [Event.lock, .rate .fast, .cs false] ++
          silentEvents s.par (encode s.par (.cmd25 arg)) ignored polls ++ [Event.unlock]) ∧
    (∀ (k : Nat) (during : List Byte) (x response bad : Byte),
      during.length = 515 → response.extractLsb 4 0 = 5#5 → bad.extractLsb 4 0 ≠ 5#5 → k < count.toNat →
      s.miso = answer ignored 0x00 (x :: ((List.replicate k (during ++ [response, 0xFF])).flatten ++
        (during ++ bad :: rest))) →
      ∃ t, exec (.eraseBlocks start count) s = .next t ∧ t.err = some .writeDataResp ∧ t.cs = true ∧ t.miso = rest ∧
        eventsBetween s t =
          [Event.lock, .rate .fast, .cs false] ++ commandEvents s.par (encode s.par (.cmd25 arg)) ignored 0x00 ++
          [Event.x s.par.fill x] ++
          (List.replicate k (exchanges (0xFC :: zeroBlock ++ [s.par.crcDummy, s.par.crcDummy]) during ++
            reads s.par [response, 0xFF])).flatten ++
          exchanges (0xFC :: zeroBlock ++ [s.par.crcDummy, s.par.crcDummy]) during ++
          [Event.x s.par.fill bad, .cs true, .unlock])

/-! ### ReadAt and WriteAt -/

/-- R362, R169: the split of `n` bytes at offset `off`: the parts add up, the head ends at a block boundary or at the
end of the request, the tail is a partial block, and every byte of the request is in the block and at the place that
`offset / 512` and `offset % 512` say: a byte of the head in the first block, any later byte `k` in the block and at
the place it has when 512-byte blocks are counted from the end of the head. -/
def Obligations.SplitArithmetic : Prop :=
  ∀ (off n : Nat),
    (split off n).blk = off / 512 ∧ (split off n).boff = off % 512 ∧
      n = (split off n).head + 512 * (split off n).full + (split off n).tail ∧ (split off n).tail < 512 ∧
      ((split off n).boff = 0 → (split off n).head = 0) ∧
      ((split off n).boff ≠ 0 → (split off n).head = min (512 - (split off n).boff) n) ∧
      ((split off n).head < n → 512 ∣ off + (split off n).head) ∧
      (∀ k, k < (split off n).head → (off + k) / 512 = (split off n).blk ∧ (off + k) % 512 = (split off n).boff + k) ∧
      (∀ k, (split off n).head ≤ k → k < n →
        (off + k) / 512 =
          (split off n).blk + (if (split off n).boff = 0 then 0 else 1) + (k - (split off n).head) / 512 ∧
        (off + k) % 512 = (k - (split off n).head) % 512 ∧
        (k - (split off n).head) / 512 < (split off n).full + (if (split off n).tail = 0 then 0 else 1) ∧
        ((k - (split off n).head) / 512 = (split off n).full →
          (k - (split off n).head) % 512 < (split off n).tail))

/-- R360, R363, R380, R402, R404: `ReadAt` completes in every run in the contract, granted the lock, whose last block
has a command argument, on every card. Without an error all bytes are done; with one the error is E_READ_CMD or
E_START_BLOCK and the count is 0, the head, or the head and some whole blocks. Bytes of the buffer beyond the count
are as they were; the device registers and the registers of initialization are untouched. On a card that serves the
first `j` blocks of the range and then fails the next (`ReadFails`), the transfer ends there, with the error of that
failure: the count is the bytes of the range before that block, they are in the buffer and no others, and nothing is
sent behind the failure but UNLOCK. Rests on the spec's D35 for the count and D16 and D17 for chip-select, and on logs
4, 13, 15 and 36. -/
def Obligations.ReadAtCompletes : Prop :=
  ∀ (offset : Nat) (s : State), Quiet s → s.phase = .ready → nextGrant s = true → Held s.par offset s.bufLen →
    (s.bufLen = 0 → offset % 512 = 0) → offset / 512 < 2 ^ 32 →
    offset + s.bufLen ≤ 2 ^ 41 → addressable s.cardType ((offset + s.bufLen - 1) / 512) → s.buf.wf = true →
    (∃ t, exec (.readAt offset) s = .next t ∧ Quiet t ∧ t.rateSel = .fast ∧ t.presented = some (.count t.done t.err) ∧
      (t.err = none → t.done = s.bufLen) ∧
      (∀ e, t.err = some e → (e = .readCmd ∨ e = .startBlock) ∧ t.done < s.bufLen ∧
        (t.done = 0 ∨ ∃ k, t.done = (split offset s.bufLen).head + 512 * k)) ∧
      t.bufLen = s.bufLen ∧ (∀ a, t.done ≤ a → t.buf.read a = s.buf.read a) ∧
      SameDevice s t ∧ SameInit s t ∧ t.inbox = s.inbox ∧ Onward s t) ∧
    (∀ (store : Nat → List Byte) (ignored crc script rest : List Byte) (events : List Event) (e : ErrCode) (j : Nat),
      s.par.Legal → ignored.length = 6 → crc.length = 2 → (∀ b, (store b).length = 512) → 0 < s.bufLen →
      offset / 512 + j ≤ (offset + s.bufLen - 1) / 512 →
      ReadFails s.par s.cardType (offset / 512 + j) ignored e script events →
      s.miso = (List.range j).flatMap (fun i =>
        answer ignored 0x00 (packet (store (offset / 512 + i)) crc)) ++ (script ++ rest) →
      ∃ t, exec (.readAt offset) s = .next t ∧ t.err = some e ∧ t.done = 512 * (offset / 512 + j) - offset ∧
        t.miso = rest ∧ (∀ a, a < t.done → t.buf.read a = (store ((offset + a) / 512)).getD ((offset + a) % 512) 0) ∧
        (∀ a, t.done ≤ a → t.buf.read a = s.buf.read a) ∧
        eventsBetween s t = [Event.lock, .rate .fast] ++
          (List.range j).flatMap (fun i =>
            readEvents s.par s.cardType (offset / 512 + i) (store (offset / 512 + i)) ignored crc) ++
          events ++ [Event.unlock])

/-- R360, R161, R169, R331: `ReadAt` against a card that serves every block it is asked for, with `store b` as the
content of block `b`. The blocks of the range are asked for one after the other, each by one CMD17 with its own
argument, and nothing else is sent; every byte of the buffer is the card's byte at that place of the host's byte space,
and no other byte of the buffer changes. Any offset, any length. The card of the script serves every block at once; its
numbers are general knowledge (log 15). -/
def Obligations.ReadAtOnScript : Prop :=
  ∀ (offset : Nat) (s : State) (store : Nat → List Byte) (ignored crc rest : List Byte) (blocks : Nat),
    s.par.Legal → Quiet s → s.phase = .ready → nextGrant s = true → Held s.par offset s.bufLen → 0 < s.bufLen →
    offset + s.bufLen ≤ 2 ^ 41 → addressable s.cardType ((offset + s.bufLen - 1) / 512) →
    s.buf.wf = true → ignored.length = 6 → crc.length = 2 → (∀ b, (store b).length = 512) →
    blocks = (offset + s.bufLen - 1) / 512 - offset / 512 + 1 →
    s.miso = (List.range blocks).flatMap (fun j =>
      answer ignored 0x00 (packet (store (offset / 512 + j)) crc)) ++ rest →
    ∃ t, exec (.readAt offset) s = .next t ∧ t.err = none ∧ t.done = s.bufLen ∧ t.miso = rest ∧
      (∀ a, a < s.bufLen → t.buf.read a =
        (store ((offset + a) / 512)).getD ((offset + a) % 512) 0) ∧
      (∀ a, s.bufLen ≤ a → t.buf.read a = s.buf.read a) ∧
      eventsBetween s t = [Event.lock, .rate .fast] ++
        (List.range blocks).flatMap (fun j =>
          readEvents s.par s.cardType (offset / 512 + j) (store (offset / 512 + j)) ignored crc) ++
        [Event.unlock]

/-- R361, R363, R380, R402, R404: `WriteAt` completes in every run in the contract, granted the lock, whose last block
has a command argument, on every card. As for `ReadAt`, with the errors of the write added; the buffer "is only read".
On a card that serves the first `j` blocks of the range and then fails the next (`UpdateFails`: its read, or its
write, behind a read that was served), the transfer ends there, with the error of that failure: the count is the bytes
of the range before that block, a block whose write-back failed adds nothing, and nothing is sent behind the failure
but UNLOCK. Rests on the spec's D35 for the count and D16 to D18 and D40 for chip-select, and on logs 4, 13, 15, 16
(D9) and 36. -/
def Obligations.WriteAtCompletes : Prop :=
  ∀ (offset : Nat) (s : State), Quiet s → s.phase = .ready → nextGrant s = true → Held s.par offset s.bufLen →
    (s.bufLen = 0 → offset % 512 = 0) → offset / 512 < 2 ^ 32 →
    offset + s.bufLen ≤ 2 ^ 41 → addressable s.cardType ((offset + s.bufLen - 1) / 512) →
    (∃ t, exec (.writeAt offset) s = .next t ∧ Quiet t ∧ t.rateSel = .fast ∧ t.presented = some (.count t.done t.err) ∧
      (t.err = none → t.done = s.bufLen) ∧
      (∀ e, t.err = some e → e ∈ errorsOf (.writeAt offset) ∧ t.done < s.bufLen ∧
        (t.done = 0 ∨ ∃ k, t.done = (split offset s.bufLen).head + 512 * k)) ∧
      SameBuffer s t ∧ SameDevice s t ∧ SameInit s t ∧ t.inbox = s.inbox ∧ Onward s t) ∧
    (∀ (old : Nat → List Byte) (ignored crc during script rest : List Byte) (response : Byte) (events : List Event)
      (e : ErrCode) (j : Nat),
      s.par.Legal → ignored.length = 6 → crc.length = 2 → during.length = 515 → response.extractLsb 4 0 = 5#5 →
      (∀ b, (old b).length = 512) → 0 < s.bufLen → offset / 512 + j ≤ (offset + s.bufLen - 1) / 512 →
      UpdateFails s.par s.cardType s.buf offset s.bufLen (offset / 512 + j) (old (offset / 512 + j)) ignored crc
        e script events →
      s.miso = (List.range j).flatMap (fun i => updateAnswer offset s.bufLen (offset / 512 + i)
        (old (offset / 512 + i)) ignored crc during response) ++ (script ++ rest) →
      ∃ t, exec (.writeAt offset) s = .next t ∧ t.err = some e ∧ t.done = 512 * (offset / 512 + j) - offset ∧
        t.miso = rest ∧ SameBuffer s t ∧
        eventsBetween s t = [Event.lock, .rate .fast] ++
          (List.range j).flatMap (fun i =>
            updateEvents s.par s.cardType offset s.bufLen (offset / 512 + i) (old (offset / 512 + i))
              (blockAfter s.buf offset s.bufLen (offset / 512 + i) (old (offset / 512 + i))) ignored crc during
              response) ++
          events ++ [Event.unlock])

/-- R361, R332, R333, R176: `WriteAt` of a range inside one block, not all of it: CMD17 for the block, and then CMD24
for the same block with a packet whose bytes are those of the caller's buffer inside the range and those just read
outside it ("preserved from before the write"). Numbers are general knowledge (log 15), dummy CRC D9 (log 16). -/
def Obligations.WriteAtPartialBlock : Prop :=
  ∀ (offset : Nat) (s : State) (arg : U32) (ignored old crc during rest : List Byte) (response : Byte),
    s.par.Legal → Quiet s → s.phase = .ready → nextGrant s = true → Held s.par offset s.bufLen →
    0 < s.bufLen → s.bufLen < 512 →
    offset % 512 + s.bufLen ≤ 512 → offset / 512 < 2 ^ 32 →
    scale s.cardType (BitVec.ofNat 32 (offset / 512)) = .ok arg →
    ignored.length = 6 → old.length = 512 → crc.length = 2 → during.length = 515 → response.extractLsb 4 0 = 5#5 →
    s.miso = answer ignored 0x00 (packet old crc ++ answer ignored 0x00 (during ++ response :: 0xFF :: rest)) →
    ∃ t new, exec (.writeAt offset) s = .next t ∧ t.err = none ∧ t.done = s.bufLen ∧ t.miso = rest ∧
      new.length = 512 ∧
      (∀ a, a < s.bufLen → new.getD (offset % 512 + a) 0 = s.buf.read a) ∧
      (∀ j, j < offset % 512 ∨ offset % 512 + s.bufLen ≤ j → new.getD j 0 = old.getD j 0) ∧
      eventsBetween s t =
        [Event.lock, .rate .fast, .cs false] ++ commandEvents s.par (encode s.par (.cmd17 arg)) ignored 0x00 ++
        reads s.par (packet old crc) ++ [Event.cs true, .cs false] ++
        commandEvents s.par (encode s.par (.cmd24 arg)) ignored 0x00 ++
        exchanges (0xFE :: new ++ [s.par.crcDummy, s.par.crcDummy]) during ++ reads s.par [response, 0xFF] ++
        [Event.cs true, .unlock]

/-- R361, R332, R333, R176, R169: `WriteAt` of any range, head, whole blocks and tail together, against a card that
serves every block it is asked for, with `old b` as the content of block `b`. Block by block in rising order: a block
the request covers whole is written by one CMD24 without a read; any other is read by CMD17 and then written by CMD24.
Each packet carries the caller's bytes inside the range and the old bytes outside it. All bytes are done and the
buffer is as it was. Any offset, any length. The script is one possible card; its numbers are general knowledge (log
15), the dummy CRC is D9 (log 16). -/
def Obligations.WriteAtOnScript : Prop :=
  ∀ (offset : Nat) (s : State) (old : Nat → List Byte) (ignored crc during rest : List Byte) (response : Byte)
    (blocks : Nat),
    s.par.Legal → Quiet s → s.phase = .ready → nextGrant s = true → Held s.par offset s.bufLen → 0 < s.bufLen →
    offset + s.bufLen ≤ 2 ^ 41 → addressable s.cardType ((offset + s.bufLen - 1) / 512) →
    ignored.length = 6 → crc.length = 2 → during.length = 515 → response.extractLsb 4 0 = 5#5 →
    (∀ b, (old b).length = 512) →
    blocks = (offset + s.bufLen - 1) / 512 - offset / 512 + 1 →
    s.miso = (List.range blocks).flatMap (fun j => updateAnswer offset s.bufLen (offset / 512 + j)
      (old (offset / 512 + j)) ignored crc during response) ++ rest →
    ∃ t, exec (.writeAt offset) s = .next t ∧ t.err = none ∧ t.done = s.bufLen ∧ t.miso = rest ∧ SameBuffer s t ∧
      eventsBetween s t = [Event.lock, .rate .fast] ++
        (List.range blocks).flatMap (fun j =>
          updateEvents s.par s.cardType offset s.bufLen (offset / 512 + j)
            (old (offset / 512 + j))
            (blockAfter s.buf offset s.bufLen (offset / 512 + j) (old (offset / 512 + j)))
            ignored crc during response) ++ [Event.unlock]

/-- R364: a zero-length transfer at an aligned offset takes the lock, sets the fast rate, gives the lock back and
returns `(0, no error)` with no card traffic; at an unaligned offset it is outside the contract (U3). Rests on the
spec's D29 and U3 (log 12). -/
def Obligations.ZeroLength : Prop :=
  ∀ (i : Instr) (offset : Nat) (s : State), i = .readAt offset ∨ i = .writeAt offset →
    s.seq = .idle → s.phase = .ready → nextGrant s = true → Held s.par offset s.bufLen → s.bufLen = 0 →
    offset / 512 < 2 ^ 32 →
    (offset % 512 = 0 → ∃ t, exec i s = .next t ∧ t.presented = some (.count 0 none) ∧ t.err = none ∧
      eventsBetween s t = [Event.lock, .rate .fast, .unlock] ∧ t.cs = s.cs ∧ t.miso = s.miso ∧ SameBuffer s t) ∧
    (offset % 512 ≠ 0 → exec i s = .refused .zeroLengthUnaligned)

/-! ### The whole machine -/

/-- R213, R144, R209: a step takes the next presented word, decodes it at its place, and is exactly `exec` of the
decoded instruction in the state in which the word has been taken and a host's buffer has come to the block. A
received byte outside the class its place tests has the effect `otherByte` there ("every byte value has a defined
effect"). Any other word of no row has no step: R213's "cannot be made", R210's and R205's "never sends", and a frame of
fewer than R190's "exactly 6 bytes". With nothing presented the block waits as it is (R440). How a word comes to be
presented is the model's choice (log 11), that a received byte stands alone (log 32), and that a word longer than its
instruction runs with the bytes behind it dropped (log 33: `rest` may be any bytes). -/
def Obligations.StepRunsDecoded : Prop :=
  ∀ (s : State),
    (∀ r rs i rest, s.inbox = r :: rs → decode s.par r.place r.word = .ok (i, rest) →
      step s = exec i { s with
        inbox := rs
        buf := if r.place = .host then r.buf else s.buf
        bufLen := if r.place = .host then r.bufLen else s.bufLen }) ∧
    (∀ r rs, s.inbox = r :: rs → decode s.par r.place r.word = .error .outsideClass →
      (∃ b more, r.word = b :: more ∧ step s = .next (otherByte r.place b { s with inbox := rs })) ∧
      r.place ∈ [Place.idleTest, .illegalTest, .readyTest, .echo, .ocr0, .dataResp, .notBusy, .startWait]) ∧
    (∀ r rs why, s.inbox = r :: rs → decode s.par r.place r.word = .error why → why ≠ .outsideClass →
      step s = .refused (.noInstruction why)) ∧
    (s.inbox = [] → step s = .next s)

/-- R150, R440: what reset leaves, for the state the spec gives a value (the spec's D27), and the configuration: the
defaults of R108 and R109, one by one. That those stand in State is the model's (log 35); the numbers of R108 are
general knowledge (log 15), those of R109 the spec's defaults (log 16). -/
def Obligations.ResetValues : Prop :=
  State.reset.cardType = .unknown ∧ State.reset.seq = .idle ∧ State.reset.cs = true ∧ State.reset.lockHeld = false ∧
    State.reset.err = none ∧ State.reset.presented = none ∧ State.reset.phase = .fresh ∧ State.reset.trace = [] ∧
    State.reset.inbox = [] ∧ zeroBlock.length = 512 ∧ (∀ b ∈ zeroBlock, b = 0) ∧
    State.reset.par =
      { cmdGoIdle := 0, cmdIfCond := 8, cmdSendCsd := 9, cmdSendCid := 10, cmdStop := 12, cmdSetBlockLen := 16
        cmdReadSingle := 17, cmdWriteSingle := 24, cmdWriteMulti := 25, cmdApp := 55, cmdReadOcr := 58
        crcGoIdle := 0x95, crcIfCond := 0x87, ifCondArg := 0x000001AA, checkPattern := 0xAA, hcs := 0x40000000
        r1Idle := 0x01, r1Illegal := 0x04, fill := 0xFF, crcDummy := 0xFF, nPrime := 13, tCmdBusy := 300000
        tStopBusy := 600000, tick := 1, offsetW := 64, lenW := 64, sizeW := 64, csReleaseOnInitFail := true }

/-- The invariant between host requests holds at reset. -/
def Obligations.ResetInv : Prop := Inv State.reset

/-- R404, R447, R144, R270, R401: every step from a state between requests leads to one: lock not held, sequencer
idle, chip-select released (but for a failed `Configure` with P_CS_RELEASE_ON_INIT_FAIL false, D15); array registers
of their size; the caller's buffer in canonical form within its length; that length and the counts of P_LEN_W bits; a
classified card once Configure has succeeded; no error code that no host operation can produce. Canonical form of the
buffer is the model's (log 20); one step is one whole request (log 1). -/
def Obligations.StepKeepsInv : Prop :=
  ∀ (s t : State), Inv s → step s = .next t → Inv t

/-- R125, R122, R267: of the host operations, the command frames and the sent bytes, only `Configure` writes the card
class, the two records and the phase. -/
def Obligations.OnlyConfigureWritesDevice : Prop :=
  ∀ (i : Instr) (s t : State), i ≠ .configure → i.place = .host ∨ i.place = .frame ∨ i.place = .send →
    exec i s = .next t → SameDevice s t

/-- R402, R401: which error each of the four bus-using host operations can return; E_PARAM and E_WRITE_BUSY_TIMEOUT
are returned by none. The three queries have no error result (R381 to R383); that they leave `err` as it was is the
model's choice (log 28). The table of R402 is derived by the spec. -/
def Obligations.ErrorTable : Prop :=
  ∀ (i : Instr) (s t : State), i.place = .host → Quiet s → exec i s = .next t →
    (∀ e, t.err = some e →
      (i = .configure ∧ e ∈ [.noCard, .legacyNotImplemented, .ifCondMismatch, .opCondTimeout, .ocrCmd, .blockLenCmd,
        .regCmd, .startBlock]) ∨
      (∃ o, i = .readAt o ∧ e ∈ [.readCmd, .startBlock]) ∨
      (∃ o, i = .writeAt o ∧ e ∈ [.readCmd, .startBlock, .writeCmd, .writeDataResp]) ∨
      (∃ a n, i = .eraseBlocks a n ∧ e ∈ [.writeMultiCmd, .writeDataResp]) ∨
      ((i = .size ∨ i = .writeBlockSize ∨ i = .eraseBlockSize) ∧ t.err = s.err))

/-- R380, R175, R133: the four bus-using operations begin with LOCK and the choice of the rate, and end with UNLOCK,
on success and on every failure, and in between the lock is neither given back nor taken again ("held for the full
duration"); the three queries make no event. The order is the spec's D31. -/
def Obligations.WrapperEvents : Prop :=
  ∀ (i : Instr) (s t : State), i.place = .host → exec i s = .next t →
    if i = .size ∨ i = .writeBlockSize ∨ i = .eraseBlockSize then eventsBetween s t = []
    else t.lockHeld = false ∧ ∃ es, Event.lock ∉ es ∧ Event.unlock ∉ es ∧
      eventsBetween s t = .lock :: .rate (if i = .configure then .slow else .fast) :: es ++ [.unlock]

/-- R143, R112, R172: whatever runs, an instruction or a received byte of no row, on any card: time does not go back,
events are only added, the bytes and readings given as inputs are used in their order, and the configuration never
changes. That inputs stand in lists is the model's (logs 2 and 3), and the configuration in State (log 35). -/
def Obligations.OnwardAlways : Prop :=
  (∀ (i : Instr) (s t : State), exec i s = .next t → Onward s t) ∧
  (∀ (p : Place) (b : Byte) (s : State), Onward s (otherByte p b s))

/-- R408, R442, R310, R381, R364, R170, R330, R337 (U1 to U7, U9, U12): the requests outside the contract have no
step, each under its own name. So has a transfer whose offset or length has a bit beyond P_OFFSET_W or P_LEN_W set,
which is no operand of R213 (log 36). Offset 2^41 is outside with any length, zero among them (its block index is
2^32). A transfer on a byte-addressed card that starts below block 2^23 and ends above it never succeeds: it has no
step, unless the card fails an earlier block, and then the bytes done end below that block. The treatment `refuse` is
that of 93_implementation_defined.md; where U6 is refused is log 13, and that an unaligned zero-length request is U3
before it is U7 is log 12. That the count of an erase has 64 bits is log 37. -/
def Obligations.OutsideContract : Prop :=
  ∀ (s : State) (offset : Nat) (start : U32) (count : U64),
    (s.seq ≠ .idle → ∀ i : Instr, i.place = .host → exec i s = .refused .requestWhileRunning) ∧
    (s.seq = .idle → s.phase ≠ .fresh → exec .configure s = .refused .configureTwice) ∧
    (s.seq = .idle → s.phase ≠ .ready →
      exec (.readAt offset) s = .refused .ioWithoutConfigure ∧ exec (.writeAt offset) s = .refused .ioWithoutConfigure ∧
      exec (.eraseBlocks start count) s = .refused .ioWithoutConfigure ∧ exec .size s = .refused .sizeWithoutConfigure) ∧
    (s.seq = .idle → s.phase = .ready →
      (s.csd.structureField = 2 ∨ s.csd.structureField = 3 → exec .size s = .refused .capacityUndefined) ∧
      (2 ^ 32 < start.toNat + count.toNat → exec (.eraseBlocks start count) s = .refused .erasePastLastBlock) ∧
      (¬Held s.par offset s.bufLen →
        exec (.readAt offset) s = .refused .operandTooWide ∧ exec (.writeAt offset) s = .refused .operandTooWide) ∧
      (Held s.par offset s.bufLen → s.bufLen = 0 → offset % 512 ≠ 0 →
        exec (.readAt offset) s = .refused .zeroLengthUnaligned ∧
        exec (.writeAt offset) s = .refused .zeroLengthUnaligned) ∧
      (Held s.par offset s.bufLen → (s.bufLen = 0 → offset % 512 = 0) →
        2 ^ 41 ≤ offset ∨ 2 ^ 41 < offset + s.bufLen →
        exec (.readAt offset) s = .refused .pastLastBlock ∧ exec (.writeAt offset) s = .refused .pastLastBlock) ∧
      (nextGrant s = true → s.cardType = .sd1 ∨ s.cardType = .sd2 →
        (2 ^ 23 ≤ start.toNat → start.toNat + count.toNat ≤ 2 ^ 32 →
          exec (.eraseBlocks start count) s = .refused .blockIndexTooLarge) ∧
        (Held s.par offset s.bufLen → 2 ^ 23 ≤ offset / 512 → 0 < s.bufLen → offset + s.bufLen ≤ 2 ^ 41 →
          exec (.readAt offset) s = .refused .blockIndexTooLarge ∧
          exec (.writeAt offset) s = .refused .blockIndexTooLarge) ∧
        (Held s.par offset s.bufLen → offset / 512 < 2 ^ 23 → 2 ^ 23 ≤ (offset + s.bufLen - 1) / 512 → 0 < s.bufLen →
          offset + s.bufLen ≤ 2 ^ 41 → ∀ i, i = .readAt offset ∨ i = .writeAt offset →
          exec i s = .refused .blockIndexTooLarge ∨
          ∃ t e, exec i s = .next t ∧ t.err = some e ∧ e ∈ errorsOf i ∧ offset + t.done < 2 ^ 32)) ∧
      (nextGrant s = true → s.cardType = .unknown →
        (start.toNat + count.toNat ≤ 2 ^ 32 → exec (.eraseBlocks start count) s = .refused .unknownCardType) ∧
        (Held s.par offset s.bufLen → 0 < s.bufLen → offset + s.bufLen ≤ 2 ^ 41 →
          exec (.readAt offset) s = .refused .unknownCardType ∧
          exec (.writeAt offset) s = .refused .unknownCardType)))

/-- R140 (U14): if the lock is never granted, an operation in the contract has no further step: it is stuck. The stuck
state is a fault of the model (log 4). That the count of an erase has 64 bits is log 37. -/
def Obligations.LockNeverGranted : Prop :=
  ∀ (s : State) (start : U32) (count : U64) (offset : Nat), s.seq = .idle → nextGrant s = false →
    (s.phase = .fresh → exec .configure s = .fault .lockNeverGranted) ∧
    (s.phase = .ready →
      (start.toNat + count.toNat ≤ 2 ^ 32 → exec (.eraseBlocks start count) s = .fault .lockNeverGranted) ∧
      (Held s.par offset s.bufLen → (s.bufLen = 0 → offset % 512 = 0) → offset / 512 < 2 ^ 32 →
        offset + s.bufLen ≤ 2 ^ 41 →
        exec (.readAt offset) s = .fault .lockNeverGranted ∧ exec (.writeAt offset) s = .fault .lockNeverGranted))
end

