-- ==== Sys2Proof/Laws/Memory.lean ====
section
/-! SUPPORT. The buffer memory: what a read after a write gives, and that every operation keeps the canonical
form and the length bound. -/

namespace Sys2Proof.Machine

variable {m : Memory} {a b n : Nat} {v : Byte} {bytes : List Byte}

@[simp] theorem Memory.read_nil (a : Nat) : Memory.read [] a = 0 := rfl

/-- Below the first listed address everything reads as 0x00. -/
theorem Memory.read_below (h : m.all (fun c => decide (a < c.1)) = true) : m.read a = 0 := by
  induction m with
  | nil => rfl
  | cons c m ih =>
    simp only [List.all_cons, Bool.and_eq_true, decide_eq_true_eq] at h
    simp only [Memory.read, if_neg (Nat.ne_of_gt h.1)]
    exact ih h.2

theorem Memory.all_lt_of_lt {k k' : Nat} (hk : k < k') (h : m.all (fun c => decide (k' < c.1)) = true) :
    m.all (fun c => decide (k < c.1)) = true := by
  simp only [List.all_eq_true, decide_eq_true_eq] at h ⊢
  exact fun c hc => Nat.lt_trans hk (h c hc)

theorem Memory.wf_cons {k : Nat} {w : Byte} :
    Memory.wf ((k, w) :: m) = true ↔ w ≠ 0#8 ∧ m.all (fun c => decide (k < c.1)) = true ∧ m.wf = true := by
  simp [Memory.wf, and_assoc]

@[simp] theorem Memory.read_cons {k : Nat} {w : Byte} : Memory.read ((k, w) :: m) b = if k = b then w else Memory.read m b :=
  rfl

/-- A read after a write: the written byte at the address, the old byte elsewhere. -/
theorem Memory.read_write (h : m.wf = true) :
    Memory.read (m.write a v) b = if b = a then v else Memory.read m b := by
  induction m with
  | nil =>
    by_cases hv : v = 0#8 <;> by_cases hb : b = a <;> simp [Memory.write, hv, hb, Ne.symm]
  | cons c m ih =>
    obtain ⟨k, w⟩ := c
    obtain ⟨-, hall, hm⟩ := Memory.wf_cons.1 h
    rcases Nat.lt_trichotomy a k with hak | rfl | hka
    · have below : Memory.read m a = 0 := Memory.read_below (Memory.all_lt_of_lt hak hall)
      by_cases hv : v = 0#8 <;> by_cases hb : b = a
      · subst hb; simp [Memory.write, hak, hv, below, (Nat.ne_of_gt hak)]
      · simp [Memory.write, hak, hv, hb]
      · subst hb; simp [Memory.write, hak, hv]
      · simp [Memory.write, hak, hv, hb, Ne.symm hb]
    · have below : Memory.read m a = 0 := Memory.read_below hall
      by_cases hv : v = 0#8 <;> by_cases hb : b = a
      · subst hb; simp [Memory.write, hv, below]
      · simp [Memory.write, hv, hb, Ne.symm hb]
      · subst hb; simp [Memory.write, hv]
      · simp [Memory.write, hv, hb, Ne.symm hb]
    · have hn : ¬ a < k := by omega
      have hne : ¬ a = k := by omega
      by_cases hb : b = a
      · subst hb; simp [Memory.write, hn, hne, ih hm, Ne.symm hne]
      · simp [Memory.write, hn, hne, ih hm, hb]

theorem Memory.write_all {p : Host.Cell → Bool} (h : m.all p = true) (ha : p (a, v) = true) :
    (m.write a v).all p = true := by
  induction m with
  | nil => by_cases hv : v = 0#8 <;> simp [Memory.write, hv, ha]
  | cons c m ih =>
    obtain ⟨k, w⟩ := c
    simp only [List.all_cons, Bool.and_eq_true] at h
    unfold Memory.write
    split
    · split <;> simp [h, ha]
    · split
      · split <;> simp [h, ha]
      · simp only [List.all_cons, h.1, Bool.true_and]; exact ih h.2

/-- A write keeps the canonical form. -/
theorem Memory.wf_write (h : m.wf = true) : (m.write a v).wf = true := by
  induction m with
  | nil =>
    unfold Memory.write
    split
    · rfl
    · exact Memory.wf_cons.2 ⟨‹_›, rfl, rfl⟩
  | cons c m ih =>
    obtain ⟨k, w⟩ := c
    obtain ⟨hw, hall, hm⟩ := Memory.wf_cons.1 h
    unfold Memory.write
    split
    · rename_i hak
      split
      · exact h
      · refine Memory.wf_cons.2 ⟨‹_›, ?_, h⟩
        simp [hak, Memory.all_lt_of_lt hak hall]
    · split
      · subst_vars
        split
        · exact hm
        · exact Memory.wf_cons.2 ⟨‹_›, hall, hm⟩
      · exact Memory.wf_cons.2 ⟨hw, Memory.write_all hall (by simp; omega), ih hm⟩

theorem Memory.wf_writeBytes (h : m.wf = true) : (m.writeBytes a bytes).wf = true := by
  induction bytes generalizing m a with
  | nil => exact h
  | cons b bs ih => exact ih (Memory.wf_write h)

theorem Memory.within_writeBytes (h : m.within n = true) (ha : a + bytes.length ≤ n) :
    (m.writeBytes a bytes).within n = true := by
  induction bytes generalizing m a with
  | nil => exact h
  | cons b bs ih =>
    simp only [List.length_cons] at ha
    exact ih (Memory.write_all h (by simp; omega)) (by omega)

/-- What a read gives after a run of bytes has been written. -/
theorem Memory.read_writeBytes (h : m.wf = true) :
    (m.writeBytes a bytes).read b = if a ≤ b ∧ b < a + bytes.length then bytes.getD (b - a) 0 else m.read b := by
  induction bytes generalizing m a with
  | nil => simp [Memory.writeBytes]
  | cons w ws ih =>
    rw [Memory.writeBytes, ih (Memory.wf_write h), Memory.read_write h, List.length_cons]
    by_cases h1 : a + 1 ≤ b ∧ b < a + 1 + ws.length
    · rw [if_pos h1, if_pos (by omega), show b - a = (b - (a + 1)) + 1 by omega]
      rfl
    · rw [if_neg h1]
      by_cases h2 : b = a
      · subst h2; simp
      · rw [if_neg h2, if_neg (by omega)]

@[simp] theorem Memory.length_readBytes : (m.readBytes a n).length = n := by
  induction n generalizing a with
  | zero => rfl
  | succ n ih => simp [Memory.readBytes, ih]

theorem Memory.getD_readBytes {i : Nat} (h : i < n) : (m.readBytes a n).getD i 0 = m.read (a + i) := by
  induction n generalizing a i with
  | zero => omega
  | succ n ih =>
    cases i with
    | zero => simp [Memory.readBytes]
    | succ i => simpa [Memory.readBytes, Nat.add_right_comm, Nat.add_assoc, Nat.add_comm 1 i] using ih (a := a + 1) (i := i) (by omega)

end Sys2Proof.Machine
end

