-- ==== Sys2Proof/Laws/State.lean ====
section
/-! SUPPORT. One lemma per field per named update of the state, so that no later proof unfolds an update. -/

namespace Sys2Proof.Machine

/-! ### exchange -/

@[simp] theorem exchange_cardType (m b : Byte) (s : State) : (exchange m b s).cardType = s.cardType := rfl
@[simp] theorem exchange_cid (m b : Byte) (s : State) : (exchange m b s).cid = s.cid := rfl
@[simp] theorem exchange_csd (m b : Byte) (s : State) : (exchange m b s).csd = s.csd := rfl
@[simp] theorem exchange_seq (m b : Byte) (s : State) : (exchange m b s).seq = s.seq := rfl
@[simp] theorem exchange_scratch (m b : Byte) (s : State) : (exchange m b s).scratch = s.scratch := rfl
@[simp] theorem exchange_phase (m b : Byte) (s : State) : (exchange m b s).phase = s.phase := rfl
@[simp] theorem exchange_frame (m b : Byte) (s : State) : (exchange m b s).frame = s.frame := rfl
@[simp] theorem exchange_resp (m b : Byte) (s : State) : (exchange m b s).resp = s.resp := rfl
@[simp] theorem exchange_pollCnt (m b : Byte) (s : State) : (exchange m b s).pollCnt = s.pollCnt := rfl
@[simp] theorem exchange_deadline (m b : Byte) (s : State) : (exchange m b s).deadline = s.deadline := rfl
@[simp] theorem exchange_loopDeadline (m b : Byte) (s : State) : (exchange m b s).loopDeadline = s.loopDeadline := rfl
@[simp] theorem exchange_trail (m b : Byte) (s : State) : (exchange m b s).trail = s.trail := rfl
@[simp] theorem exchange_regImg (m b : Byte) (s : State) : (exchange m b s).regImg = s.regImg := rfl
@[simp] theorem exchange_cidNew (m b : Byte) (s : State) : (exchange m b s).cidNew = s.cidNew := rfl
@[simp] theorem exchange_csdNew (m b : Byte) (s : State) : (exchange m b s).csdNew = s.csdNew := rfl
@[simp] theorem exchange_blk (m b : Byte) (s : State) : (exchange m b s).blk = s.blk := rfl
@[simp] theorem exchange_boff (m b : Byte) (s : State) : (exchange m b s).boff = s.boff := rfl
@[simp] theorem exchange_done (m b : Byte) (s : State) : (exchange m b s).done = s.done := rfl
@[simp] theorem exchange_rem (m b : Byte) (s : State) : (exchange m b s).rem = s.rem := rfl
@[simp] theorem exchange_err (m b : Byte) (s : State) : (exchange m b s).err = s.err := rfl
@[simp] theorem exchange_cs (m b : Byte) (s : State) : (exchange m b s).cs = s.cs := rfl
@[simp] theorem exchange_rateSel (m b : Byte) (s : State) : (exchange m b s).rateSel = s.rateSel := rfl
@[simp] theorem exchange_lockHeld (m b : Byte) (s : State) : (exchange m b s).lockHeld = s.lockHeld := rfl
@[simp] theorem exchange_presented (m b : Byte) (s : State) : (exchange m b s).presented = s.presented := rfl
@[simp] theorem exchange_buf (m b : Byte) (s : State) : (exchange m b s).buf = s.buf := rfl
@[simp] theorem exchange_bufLen (m b : Byte) (s : State) : (exchange m b s).bufLen = s.bufLen := rfl
@[simp] theorem exchange_r1 (m b : Byte) (s : State) : (exchange m b s).r1 = s.r1 := rfl
@[simp] theorem exchange_trace (m b : Byte) (s : State) : (exchange m b s).trace = .x m b :: s.trace := rfl
@[simp] theorem exchange_inbox (m b : Byte) (s : State) : (exchange m b s).inbox = s.inbox := rfl
@[simp] theorem exchange_miso (m b : Byte) (s : State) : (exchange m b s).miso = s.miso := rfl
@[simp] theorem exchange_time (m b : Byte) (s : State) : (exchange m b s).time = s.time := rfl
@[simp] theorem exchange_ticks (m b : Byte) (s : State) : (exchange m b s).ticks = s.ticks := rfl
@[simp] theorem exchange_grants (m b : Byte) (s : State) : (exchange m b s).grants = s.grants := rfl
@[simp] theorem exchange_draws (m b : Byte) (s : State) : (exchange m b s).draws = s.draws := rfl
@[simp] theorem exchange_par (m b : Byte) (s : State) : (exchange m b s).par = s.par := rfl

/-! ### xfer -/

@[simp] theorem xfer_cardType (m : Byte) (s : State) : ((xfer m s).2).cardType = s.cardType := rfl
@[simp] theorem xfer_cid (m : Byte) (s : State) : ((xfer m s).2).cid = s.cid := rfl
@[simp] theorem xfer_csd (m : Byte) (s : State) : ((xfer m s).2).csd = s.csd := rfl
@[simp] theorem xfer_seq (m : Byte) (s : State) : ((xfer m s).2).seq = s.seq := rfl
@[simp] theorem xfer_scratch (m : Byte) (s : State) : ((xfer m s).2).scratch = s.scratch := rfl
@[simp] theorem xfer_phase (m : Byte) (s : State) : ((xfer m s).2).phase = s.phase := rfl
@[simp] theorem xfer_frame (m : Byte) (s : State) : ((xfer m s).2).frame = s.frame := rfl
@[simp] theorem xfer_resp (m : Byte) (s : State) : ((xfer m s).2).resp = s.resp := rfl
@[simp] theorem xfer_pollCnt (m : Byte) (s : State) : ((xfer m s).2).pollCnt = s.pollCnt := rfl
@[simp] theorem xfer_deadline (m : Byte) (s : State) : ((xfer m s).2).deadline = s.deadline := rfl
@[simp] theorem xfer_loopDeadline (m : Byte) (s : State) : ((xfer m s).2).loopDeadline = s.loopDeadline := rfl
@[simp] theorem xfer_trail (m : Byte) (s : State) : ((xfer m s).2).trail = s.trail := rfl
@[simp] theorem xfer_regImg (m : Byte) (s : State) : ((xfer m s).2).regImg = s.regImg := rfl
@[simp] theorem xfer_cidNew (m : Byte) (s : State) : ((xfer m s).2).cidNew = s.cidNew := rfl
@[simp] theorem xfer_csdNew (m : Byte) (s : State) : ((xfer m s).2).csdNew = s.csdNew := rfl
@[simp] theorem xfer_blk (m : Byte) (s : State) : ((xfer m s).2).blk = s.blk := rfl
@[simp] theorem xfer_boff (m : Byte) (s : State) : ((xfer m s).2).boff = s.boff := rfl
@[simp] theorem xfer_done (m : Byte) (s : State) : ((xfer m s).2).done = s.done := rfl
@[simp] theorem xfer_rem (m : Byte) (s : State) : ((xfer m s).2).rem = s.rem := rfl
@[simp] theorem xfer_err (m : Byte) (s : State) : ((xfer m s).2).err = s.err := rfl
@[simp] theorem xfer_cs (m : Byte) (s : State) : ((xfer m s).2).cs = s.cs := rfl
@[simp] theorem xfer_rateSel (m : Byte) (s : State) : ((xfer m s).2).rateSel = s.rateSel := rfl
@[simp] theorem xfer_lockHeld (m : Byte) (s : State) : ((xfer m s).2).lockHeld = s.lockHeld := rfl
@[simp] theorem xfer_presented (m : Byte) (s : State) : ((xfer m s).2).presented = s.presented := rfl
@[simp] theorem xfer_buf (m : Byte) (s : State) : ((xfer m s).2).buf = s.buf := rfl
@[simp] theorem xfer_bufLen (m : Byte) (s : State) : ((xfer m s).2).bufLen = s.bufLen := rfl
@[simp] theorem xfer_r1 (m : Byte) (s : State) : ((xfer m s).2).r1 = s.r1 := rfl
@[simp] theorem xfer_trace (m : Byte) (s : State) : ((xfer m s).2).trace = .x m (nextByte s) :: s.trace := rfl
@[simp] theorem xfer_inbox (m : Byte) (s : State) : ((xfer m s).2).inbox = s.inbox := rfl
@[simp] theorem xfer_miso (m : Byte) (s : State) : ((xfer m s).2).miso = s.miso.tail := rfl
@[simp] theorem xfer_time (m : Byte) (s : State) : ((xfer m s).2).time = s.time := rfl
@[simp] theorem xfer_ticks (m : Byte) (s : State) : ((xfer m s).2).ticks = s.ticks := rfl
@[simp] theorem xfer_grants (m : Byte) (s : State) : ((xfer m s).2).grants = s.grants := rfl
@[simp] theorem xfer_draws (m : Byte) (s : State) : ((xfer m s).2).draws = drawsAfter s.miso s.draws := rfl
@[simp] theorem xfer_par (m : Byte) (s : State) : ((xfer m s).2).par = s.par := rfl

/-! ### setCs -/

@[simp] theorem setCs_cardType (v : Bool) (s : State) : (setCs v s).cardType = s.cardType := rfl
@[simp] theorem setCs_cid (v : Bool) (s : State) : (setCs v s).cid = s.cid := rfl
@[simp] theorem setCs_csd (v : Bool) (s : State) : (setCs v s).csd = s.csd := rfl
@[simp] theorem setCs_seq (v : Bool) (s : State) : (setCs v s).seq = s.seq := rfl
@[simp] theorem setCs_scratch (v : Bool) (s : State) : (setCs v s).scratch = s.scratch := rfl
@[simp] theorem setCs_phase (v : Bool) (s : State) : (setCs v s).phase = s.phase := rfl
@[simp] theorem setCs_frame (v : Bool) (s : State) : (setCs v s).frame = s.frame := rfl
@[simp] theorem setCs_resp (v : Bool) (s : State) : (setCs v s).resp = s.resp := rfl
@[simp] theorem setCs_pollCnt (v : Bool) (s : State) : (setCs v s).pollCnt = s.pollCnt := rfl
@[simp] theorem setCs_deadline (v : Bool) (s : State) : (setCs v s).deadline = s.deadline := rfl
@[simp] theorem setCs_loopDeadline (v : Bool) (s : State) : (setCs v s).loopDeadline = s.loopDeadline := rfl
@[simp] theorem setCs_trail (v : Bool) (s : State) : (setCs v s).trail = s.trail := rfl
@[simp] theorem setCs_regImg (v : Bool) (s : State) : (setCs v s).regImg = s.regImg := rfl
@[simp] theorem setCs_cidNew (v : Bool) (s : State) : (setCs v s).cidNew = s.cidNew := rfl
@[simp] theorem setCs_csdNew (v : Bool) (s : State) : (setCs v s).csdNew = s.csdNew := rfl
@[simp] theorem setCs_blk (v : Bool) (s : State) : (setCs v s).blk = s.blk := rfl
@[simp] theorem setCs_boff (v : Bool) (s : State) : (setCs v s).boff = s.boff := rfl
@[simp] theorem setCs_done (v : Bool) (s : State) : (setCs v s).done = s.done := rfl
@[simp] theorem setCs_rem (v : Bool) (s : State) : (setCs v s).rem = s.rem := rfl
@[simp] theorem setCs_err (v : Bool) (s : State) : (setCs v s).err = s.err := rfl
@[simp] theorem setCs_cs (v : Bool) (s : State) : (setCs v s).cs = v := rfl
@[simp] theorem setCs_rateSel (v : Bool) (s : State) : (setCs v s).rateSel = s.rateSel := rfl
@[simp] theorem setCs_lockHeld (v : Bool) (s : State) : (setCs v s).lockHeld = s.lockHeld := rfl
@[simp] theorem setCs_presented (v : Bool) (s : State) : (setCs v s).presented = s.presented := rfl
@[simp] theorem setCs_buf (v : Bool) (s : State) : (setCs v s).buf = s.buf := rfl
@[simp] theorem setCs_bufLen (v : Bool) (s : State) : (setCs v s).bufLen = s.bufLen := rfl
@[simp] theorem setCs_r1 (v : Bool) (s : State) : (setCs v s).r1 = s.r1 := rfl
@[simp] theorem setCs_trace (v : Bool) (s : State) : (setCs v s).trace = if s.cs = v then s.trace else .cs v :: s.trace := rfl
@[simp] theorem setCs_inbox (v : Bool) (s : State) : (setCs v s).inbox = s.inbox := rfl
@[simp] theorem setCs_miso (v : Bool) (s : State) : (setCs v s).miso = s.miso := rfl
@[simp] theorem setCs_time (v : Bool) (s : State) : (setCs v s).time = s.time := rfl
@[simp] theorem setCs_ticks (v : Bool) (s : State) : (setCs v s).ticks = s.ticks := rfl
@[simp] theorem setCs_grants (v : Bool) (s : State) : (setCs v s).grants = s.grants := rfl
@[simp] theorem setCs_draws (v : Bool) (s : State) : (setCs v s).draws = s.draws := rfl
@[simp] theorem setCs_par (v : Bool) (s : State) : (setCs v s).par = s.par := rfl

/-! ### setRate -/

@[simp] theorem setRate_cardType (r : Rate) (s : State) : (setRate r s).cardType = s.cardType := rfl
@[simp] theorem setRate_cid (r : Rate) (s : State) : (setRate r s).cid = s.cid := rfl
@[simp] theorem setRate_csd (r : Rate) (s : State) : (setRate r s).csd = s.csd := rfl
@[simp] theorem setRate_seq (r : Rate) (s : State) : (setRate r s).seq = s.seq := rfl
@[simp] theorem setRate_scratch (r : Rate) (s : State) : (setRate r s).scratch = s.scratch := rfl
@[simp] theorem setRate_phase (r : Rate) (s : State) : (setRate r s).phase = s.phase := rfl
@[simp] theorem setRate_frame (r : Rate) (s : State) : (setRate r s).frame = s.frame := rfl
@[simp] theorem setRate_resp (r : Rate) (s : State) : (setRate r s).resp = s.resp := rfl
@[simp] theorem setRate_pollCnt (r : Rate) (s : State) : (setRate r s).pollCnt = s.pollCnt := rfl
@[simp] theorem setRate_deadline (r : Rate) (s : State) : (setRate r s).deadline = s.deadline := rfl
@[simp] theorem setRate_loopDeadline (r : Rate) (s : State) : (setRate r s).loopDeadline = s.loopDeadline := rfl
@[simp] theorem setRate_trail (r : Rate) (s : State) : (setRate r s).trail = s.trail := rfl
@[simp] theorem setRate_regImg (r : Rate) (s : State) : (setRate r s).regImg = s.regImg := rfl
@[simp] theorem setRate_cidNew (r : Rate) (s : State) : (setRate r s).cidNew = s.cidNew := rfl
@[simp] theorem setRate_csdNew (r : Rate) (s : State) : (setRate r s).csdNew = s.csdNew := rfl
@[simp] theorem setRate_blk (r : Rate) (s : State) : (setRate r s).blk = s.blk := rfl
@[simp] theorem setRate_boff (r : Rate) (s : State) : (setRate r s).boff = s.boff := rfl
@[simp] theorem setRate_done (r : Rate) (s : State) : (setRate r s).done = s.done := rfl
@[simp] theorem setRate_rem (r : Rate) (s : State) : (setRate r s).rem = s.rem := rfl
@[simp] theorem setRate_err (r : Rate) (s : State) : (setRate r s).err = s.err := rfl
@[simp] theorem setRate_cs (r : Rate) (s : State) : (setRate r s).cs = s.cs := rfl
@[simp] theorem setRate_rateSel (r : Rate) (s : State) : (setRate r s).rateSel = r := rfl
@[simp] theorem setRate_lockHeld (r : Rate) (s : State) : (setRate r s).lockHeld = s.lockHeld := rfl
@[simp] theorem setRate_presented (r : Rate) (s : State) : (setRate r s).presented = s.presented := rfl
@[simp] theorem setRate_buf (r : Rate) (s : State) : (setRate r s).buf = s.buf := rfl
@[simp] theorem setRate_bufLen (r : Rate) (s : State) : (setRate r s).bufLen = s.bufLen := rfl
@[simp] theorem setRate_r1 (r : Rate) (s : State) : (setRate r s).r1 = s.r1 := rfl
@[simp] theorem setRate_trace (r : Rate) (s : State) : (setRate r s).trace = .rate r :: s.trace := rfl
@[simp] theorem setRate_inbox (r : Rate) (s : State) : (setRate r s).inbox = s.inbox := rfl
@[simp] theorem setRate_miso (r : Rate) (s : State) : (setRate r s).miso = s.miso := rfl
@[simp] theorem setRate_time (r : Rate) (s : State) : (setRate r s).time = s.time := rfl
@[simp] theorem setRate_ticks (r : Rate) (s : State) : (setRate r s).ticks = s.ticks := rfl
@[simp] theorem setRate_grants (r : Rate) (s : State) : (setRate r s).grants = s.grants := rfl
@[simp] theorem setRate_draws (r : Rate) (s : State) : (setRate r s).draws = s.draws := rfl
@[simp] theorem setRate_par (r : Rate) (s : State) : (setRate r s).par = s.par := rfl

/-! ### lockBus -/

@[simp] theorem lockBus_cardType (s : State) : (lockBus s).cardType = s.cardType := rfl
@[simp] theorem lockBus_cid (s : State) : (lockBus s).cid = s.cid := rfl
@[simp] theorem lockBus_csd (s : State) : (lockBus s).csd = s.csd := rfl
@[simp] theorem lockBus_seq (s : State) : (lockBus s).seq = s.seq := rfl
@[simp] theorem lockBus_scratch (s : State) : (lockBus s).scratch = s.scratch := rfl
@[simp] theorem lockBus_phase (s : State) : (lockBus s).phase = s.phase := rfl
@[simp] theorem lockBus_frame (s : State) : (lockBus s).frame = s.frame := rfl
@[simp] theorem lockBus_resp (s : State) : (lockBus s).resp = s.resp := rfl
@[simp] theorem lockBus_pollCnt (s : State) : (lockBus s).pollCnt = s.pollCnt := rfl
@[simp] theorem lockBus_deadline (s : State) : (lockBus s).deadline = s.deadline := rfl
@[simp] theorem lockBus_loopDeadline (s : State) : (lockBus s).loopDeadline = s.loopDeadline := rfl
@[simp] theorem lockBus_trail (s : State) : (lockBus s).trail = s.trail := rfl
@[simp] theorem lockBus_regImg (s : State) : (lockBus s).regImg = s.regImg := rfl
@[simp] theorem lockBus_cidNew (s : State) : (lockBus s).cidNew = s.cidNew := rfl
@[simp] theorem lockBus_csdNew (s : State) : (lockBus s).csdNew = s.csdNew := rfl
@[simp] theorem lockBus_blk (s : State) : (lockBus s).blk = s.blk := rfl
@[simp] theorem lockBus_boff (s : State) : (lockBus s).boff = s.boff := rfl
@[simp] theorem lockBus_done (s : State) : (lockBus s).done = s.done := rfl
@[simp] theorem lockBus_rem (s : State) : (lockBus s).rem = s.rem := rfl
@[simp] theorem lockBus_err (s : State) : (lockBus s).err = s.err := rfl
@[simp] theorem lockBus_cs (s : State) : (lockBus s).cs = s.cs := rfl
@[simp] theorem lockBus_rateSel (s : State) : (lockBus s).rateSel = Config.otherRate s.draws := rfl
@[simp] theorem lockBus_lockHeld (s : State) : (lockBus s).lockHeld = true := rfl
@[simp] theorem lockBus_presented (s : State) : (lockBus s).presented = s.presented := rfl
@[simp] theorem lockBus_buf (s : State) : (lockBus s).buf = s.buf := rfl
@[simp] theorem lockBus_bufLen (s : State) : (lockBus s).bufLen = s.bufLen := rfl
@[simp] theorem lockBus_r1 (s : State) : (lockBus s).r1 = s.r1 := rfl
@[simp] theorem lockBus_trace (s : State) : (lockBus s).trace = .lock :: s.trace := rfl
@[simp] theorem lockBus_inbox (s : State) : (lockBus s).inbox = s.inbox := rfl
@[simp] theorem lockBus_miso (s : State) : (lockBus s).miso = s.miso := rfl
@[simp] theorem lockBus_time (s : State) : (lockBus s).time = s.time := rfl
@[simp] theorem lockBus_ticks (s : State) : (lockBus s).ticks = s.ticks := rfl
@[simp] theorem lockBus_grants (s : State) : (lockBus s).grants = s.grants.tail := rfl
@[simp] theorem lockBus_draws (s : State) : (lockBus s).draws = s.draws + 1 := rfl
@[simp] theorem lockBus_par (s : State) : (lockBus s).par = s.par := rfl

/-! ### unlockBus -/

@[simp] theorem unlockBus_cardType (s : State) : (unlockBus s).cardType = s.cardType := rfl
@[simp] theorem unlockBus_cid (s : State) : (unlockBus s).cid = s.cid := rfl
@[simp] theorem unlockBus_csd (s : State) : (unlockBus s).csd = s.csd := rfl
@[simp] theorem unlockBus_seq (s : State) : (unlockBus s).seq = s.seq := rfl
@[simp] theorem unlockBus_scratch (s : State) : (unlockBus s).scratch = s.scratch := rfl
@[simp] theorem unlockBus_phase (s : State) : (unlockBus s).phase = s.phase := rfl
@[simp] theorem unlockBus_frame (s : State) : (unlockBus s).frame = s.frame := rfl
@[simp] theorem unlockBus_resp (s : State) : (unlockBus s).resp = s.resp := rfl
@[simp] theorem unlockBus_pollCnt (s : State) : (unlockBus s).pollCnt = s.pollCnt := rfl
@[simp] theorem unlockBus_deadline (s : State) : (unlockBus s).deadline = s.deadline := rfl
@[simp] theorem unlockBus_loopDeadline (s : State) : (unlockBus s).loopDeadline = s.loopDeadline := rfl
@[simp] theorem unlockBus_trail (s : State) : (unlockBus s).trail = s.trail := rfl
@[simp] theorem unlockBus_regImg (s : State) : (unlockBus s).regImg = s.regImg := rfl
@[simp] theorem unlockBus_cidNew (s : State) : (unlockBus s).cidNew = s.cidNew := rfl
@[simp] theorem unlockBus_csdNew (s : State) : (unlockBus s).csdNew = s.csdNew := rfl
@[simp] theorem unlockBus_blk (s : State) : (unlockBus s).blk = s.blk := rfl
@[simp] theorem unlockBus_boff (s : State) : (unlockBus s).boff = s.boff := rfl
@[simp] theorem unlockBus_done (s : State) : (unlockBus s).done = s.done := rfl
@[simp] theorem unlockBus_rem (s : State) : (unlockBus s).rem = s.rem := rfl
@[simp] theorem unlockBus_err (s : State) : (unlockBus s).err = s.err := rfl
@[simp] theorem unlockBus_cs (s : State) : (unlockBus s).cs = s.cs := rfl
@[simp] theorem unlockBus_rateSel (s : State) : (unlockBus s).rateSel = s.rateSel := rfl
@[simp] theorem unlockBus_lockHeld (s : State) : (unlockBus s).lockHeld = false := rfl
@[simp] theorem unlockBus_presented (s : State) : (unlockBus s).presented = s.presented := rfl
@[simp] theorem unlockBus_buf (s : State) : (unlockBus s).buf = s.buf := rfl
@[simp] theorem unlockBus_bufLen (s : State) : (unlockBus s).bufLen = s.bufLen := rfl
@[simp] theorem unlockBus_r1 (s : State) : (unlockBus s).r1 = s.r1 := rfl
@[simp] theorem unlockBus_trace (s : State) : (unlockBus s).trace = .unlock :: s.trace := rfl
@[simp] theorem unlockBus_inbox (s : State) : (unlockBus s).inbox = s.inbox := rfl
@[simp] theorem unlockBus_miso (s : State) : (unlockBus s).miso = s.miso := rfl
@[simp] theorem unlockBus_time (s : State) : (unlockBus s).time = s.time := rfl
@[simp] theorem unlockBus_ticks (s : State) : (unlockBus s).ticks = s.ticks := rfl
@[simp] theorem unlockBus_grants (s : State) : (unlockBus s).grants = s.grants := rfl
@[simp] theorem unlockBus_draws (s : State) : (unlockBus s).draws = s.draws := rfl
@[simp] theorem unlockBus_par (s : State) : (unlockBus s).par = s.par := rfl

/-! ### now -/

@[simp] theorem now_cardType (s : State) : ((now s).2).cardType = s.cardType := rfl
@[simp] theorem now_cid (s : State) : ((now s).2).cid = s.cid := rfl
@[simp] theorem now_csd (s : State) : ((now s).2).csd = s.csd := rfl
@[simp] theorem now_seq (s : State) : ((now s).2).seq = s.seq := rfl
@[simp] theorem now_scratch (s : State) : ((now s).2).scratch = s.scratch := rfl
@[simp] theorem now_phase (s : State) : ((now s).2).phase = s.phase := rfl
@[simp] theorem now_frame (s : State) : ((now s).2).frame = s.frame := rfl
@[simp] theorem now_resp (s : State) : ((now s).2).resp = s.resp := rfl
@[simp] theorem now_pollCnt (s : State) : ((now s).2).pollCnt = s.pollCnt := rfl
@[simp] theorem now_deadline (s : State) : ((now s).2).deadline = s.deadline := rfl
@[simp] theorem now_loopDeadline (s : State) : ((now s).2).loopDeadline = s.loopDeadline := rfl
@[simp] theorem now_trail (s : State) : ((now s).2).trail = s.trail := rfl
@[simp] theorem now_regImg (s : State) : ((now s).2).regImg = s.regImg := rfl
@[simp] theorem now_cidNew (s : State) : ((now s).2).cidNew = s.cidNew := rfl
@[simp] theorem now_csdNew (s : State) : ((now s).2).csdNew = s.csdNew := rfl
@[simp] theorem now_blk (s : State) : ((now s).2).blk = s.blk := rfl
@[simp] theorem now_boff (s : State) : ((now s).2).boff = s.boff := rfl
@[simp] theorem now_done (s : State) : ((now s).2).done = s.done := rfl
@[simp] theorem now_rem (s : State) : ((now s).2).rem = s.rem := rfl
@[simp] theorem now_err (s : State) : ((now s).2).err = s.err := rfl
@[simp] theorem now_cs (s : State) : ((now s).2).cs = s.cs := rfl
@[simp] theorem now_rateSel (s : State) : ((now s).2).rateSel = s.rateSel := rfl
@[simp] theorem now_lockHeld (s : State) : ((now s).2).lockHeld = s.lockHeld := rfl
@[simp] theorem now_presented (s : State) : ((now s).2).presented = s.presented := rfl
@[simp] theorem now_buf (s : State) : ((now s).2).buf = s.buf := rfl
@[simp] theorem now_bufLen (s : State) : ((now s).2).bufLen = s.bufLen := rfl
@[simp] theorem now_r1 (s : State) : ((now s).2).r1 = s.r1 := rfl
@[simp] theorem now_trace (s : State) : ((now s).2).trace = s.trace := rfl
@[simp] theorem now_inbox (s : State) : ((now s).2).inbox = s.inbox := rfl
@[simp] theorem now_miso (s : State) : ((now s).2).miso = s.miso := rfl
@[simp] theorem now_time (s : State) : ((now s).2).time = nextTime s := rfl
@[simp] theorem now_ticks (s : State) : ((now s).2).ticks = s.ticks.tail := rfl
@[simp] theorem now_grants (s : State) : ((now s).2).grants = s.grants := rfl
@[simp] theorem now_draws (s : State) : ((now s).2).draws = drawsAfter s.ticks s.draws := rfl
@[simp] theorem now_par (s : State) : ((now s).2).par = s.par := rfl

/-! ### setSeq -/

@[simp] theorem setSeq_cardType (q : Seq) (s : State) : (setSeq q s).cardType = s.cardType := rfl
@[simp] theorem setSeq_cid (q : Seq) (s : State) : (setSeq q s).cid = s.cid := rfl
@[simp] theorem setSeq_csd (q : Seq) (s : State) : (setSeq q s).csd = s.csd := rfl
@[simp] theorem setSeq_seq (q : Seq) (s : State) : (setSeq q s).seq = q := rfl
@[simp] theorem setSeq_scratch (q : Seq) (s : State) : (setSeq q s).scratch = s.scratch := rfl
@[simp] theorem setSeq_phase (q : Seq) (s : State) : (setSeq q s).phase = s.phase := rfl
@[simp] theorem setSeq_frame (q : Seq) (s : State) : (setSeq q s).frame = s.frame := rfl
@[simp] theorem setSeq_resp (q : Seq) (s : State) : (setSeq q s).resp = s.resp := rfl
@[simp] theorem setSeq_pollCnt (q : Seq) (s : State) : (setSeq q s).pollCnt = s.pollCnt := rfl
@[simp] theorem setSeq_deadline (q : Seq) (s : State) : (setSeq q s).deadline = s.deadline := rfl
@[simp] theorem setSeq_loopDeadline (q : Seq) (s : State) : (setSeq q s).loopDeadline = s.loopDeadline := rfl
@[simp] theorem setSeq_trail (q : Seq) (s : State) : (setSeq q s).trail = s.trail := rfl
@[simp] theorem setSeq_regImg (q : Seq) (s : State) : (setSeq q s).regImg = s.regImg := rfl
@[simp] theorem setSeq_cidNew (q : Seq) (s : State) : (setSeq q s).cidNew = s.cidNew := rfl
@[simp] theorem setSeq_csdNew (q : Seq) (s : State) : (setSeq q s).csdNew = s.csdNew := rfl
@[simp] theorem setSeq_blk (q : Seq) (s : State) : (setSeq q s).blk = s.blk := rfl
@[simp] theorem setSeq_boff (q : Seq) (s : State) : (setSeq q s).boff = s.boff := rfl
@[simp] theorem setSeq_done (q : Seq) (s : State) : (setSeq q s).done = s.done := rfl
@[simp] theorem setSeq_rem (q : Seq) (s : State) : (setSeq q s).rem = s.rem := rfl
@[simp] theorem setSeq_err (q : Seq) (s : State) : (setSeq q s).err = s.err := rfl
@[simp] theorem setSeq_cs (q : Seq) (s : State) : (setSeq q s).cs = s.cs := rfl
@[simp] theorem setSeq_rateSel (q : Seq) (s : State) : (setSeq q s).rateSel = s.rateSel := rfl
@[simp] theorem setSeq_lockHeld (q : Seq) (s : State) : (setSeq q s).lockHeld = s.lockHeld := rfl
@[simp] theorem setSeq_presented (q : Seq) (s : State) : (setSeq q s).presented = s.presented := rfl
@[simp] theorem setSeq_buf (q : Seq) (s : State) : (setSeq q s).buf = s.buf := rfl
@[simp] theorem setSeq_bufLen (q : Seq) (s : State) : (setSeq q s).bufLen = s.bufLen := rfl
@[simp] theorem setSeq_r1 (q : Seq) (s : State) : (setSeq q s).r1 = s.r1 := rfl
@[simp] theorem setSeq_trace (q : Seq) (s : State) : (setSeq q s).trace = s.trace := rfl
@[simp] theorem setSeq_inbox (q : Seq) (s : State) : (setSeq q s).inbox = s.inbox := rfl
@[simp] theorem setSeq_miso (q : Seq) (s : State) : (setSeq q s).miso = s.miso := rfl
@[simp] theorem setSeq_time (q : Seq) (s : State) : (setSeq q s).time = s.time := rfl
@[simp] theorem setSeq_ticks (q : Seq) (s : State) : (setSeq q s).ticks = s.ticks := rfl
@[simp] theorem setSeq_grants (q : Seq) (s : State) : (setSeq q s).grants = s.grants := rfl
@[simp] theorem setSeq_draws (q : Seq) (s : State) : (setSeq q s).draws = s.draws := rfl
@[simp] theorem setSeq_par (q : Seq) (s : State) : (setSeq q s).par = s.par := rfl

/-! ### setCardType -/

@[simp] theorem setCardType_cardType (v : CardType) (s : State) : (setCardType v s).cardType = v := rfl
@[simp] theorem setCardType_cid (v : CardType) (s : State) : (setCardType v s).cid = s.cid := rfl
@[simp] theorem setCardType_csd (v : CardType) (s : State) : (setCardType v s).csd = s.csd := rfl
@[simp] theorem setCardType_seq (v : CardType) (s : State) : (setCardType v s).seq = s.seq := rfl
@[simp] theorem setCardType_scratch (v : CardType) (s : State) : (setCardType v s).scratch = s.scratch := rfl
@[simp] theorem setCardType_phase (v : CardType) (s : State) : (setCardType v s).phase = s.phase := rfl
@[simp] theorem setCardType_frame (v : CardType) (s : State) : (setCardType v s).frame = s.frame := rfl
@[simp] theorem setCardType_resp (v : CardType) (s : State) : (setCardType v s).resp = s.resp := rfl
@[simp] theorem setCardType_pollCnt (v : CardType) (s : State) : (setCardType v s).pollCnt = s.pollCnt := rfl
@[simp] theorem setCardType_deadline (v : CardType) (s : State) : (setCardType v s).deadline = s.deadline := rfl
@[simp] theorem setCardType_loopDeadline (v : CardType) (s : State) : (setCardType v s).loopDeadline = s.loopDeadline := rfl
@[simp] theorem setCardType_trail (v : CardType) (s : State) : (setCardType v s).trail = s.trail := rfl
@[simp] theorem setCardType_regImg (v : CardType) (s : State) : (setCardType v s).regImg = s.regImg := rfl
@[simp] theorem setCardType_cidNew (v : CardType) (s : State) : (setCardType v s).cidNew = s.cidNew := rfl
@[simp] theorem setCardType_csdNew (v : CardType) (s : State) : (setCardType v s).csdNew = s.csdNew := rfl
@[simp] theorem setCardType_blk (v : CardType) (s : State) : (setCardType v s).blk = s.blk := rfl
@[simp] theorem setCardType_boff (v : CardType) (s : State) : (setCardType v s).boff = s.boff := rfl
@[simp] theorem setCardType_done (v : CardType) (s : State) : (setCardType v s).done = s.done := rfl
@[simp] theorem setCardType_rem (v : CardType) (s : State) : (setCardType v s).rem = s.rem := rfl
@[simp] theorem setCardType_err (v : CardType) (s : State) : (setCardType v s).err = s.err := rfl
@[simp] theorem setCardType_cs (v : CardType) (s : State) : (setCardType v s).cs = s.cs := rfl
@[simp] theorem setCardType_rateSel (v : CardType) (s : State) : (setCardType v s).rateSel = s.rateSel := rfl
@[simp] theorem setCardType_lockHeld (v : CardType) (s : State) : (setCardType v s).lockHeld = s.lockHeld := rfl
@[simp] theorem setCardType_presented (v : CardType) (s : State) : (setCardType v s).presented = s.presented := rfl
@[simp] theorem setCardType_buf (v : CardType) (s : State) : (setCardType v s).buf = s.buf := rfl
@[simp] theorem setCardType_bufLen (v : CardType) (s : State) : (setCardType v s).bufLen = s.bufLen := rfl
@[simp] theorem setCardType_r1 (v : CardType) (s : State) : (setCardType v s).r1 = s.r1 := rfl
@[simp] theorem setCardType_trace (v : CardType) (s : State) : (setCardType v s).trace = s.trace := rfl
@[simp] theorem setCardType_inbox (v : CardType) (s : State) : (setCardType v s).inbox = s.inbox := rfl
@[simp] theorem setCardType_miso (v : CardType) (s : State) : (setCardType v s).miso = s.miso := rfl
@[simp] theorem setCardType_time (v : CardType) (s : State) : (setCardType v s).time = s.time := rfl
@[simp] theorem setCardType_ticks (v : CardType) (s : State) : (setCardType v s).ticks = s.ticks := rfl
@[simp] theorem setCardType_grants (v : CardType) (s : State) : (setCardType v s).grants = s.grants := rfl
@[simp] theorem setCardType_draws (v : CardType) (s : State) : (setCardType v s).draws = s.draws := rfl
@[simp] theorem setCardType_par (v : CardType) (s : State) : (setCardType v s).par = s.par := rfl

/-! ### answered -/

@[simp] theorem answered_cardType (r : Byte) (s : State) : (answered r s).cardType = s.cardType := rfl
@[simp] theorem answered_cid (r : Byte) (s : State) : (answered r s).cid = s.cid := rfl
@[simp] theorem answered_csd (r : Byte) (s : State) : (answered r s).csd = s.csd := rfl
@[simp] theorem answered_seq (r : Byte) (s : State) : (answered r s).seq = s.seq := rfl
@[simp] theorem answered_scratch (r : Byte) (s : State) : (answered r s).scratch = s.scratch := rfl
@[simp] theorem answered_phase (r : Byte) (s : State) : (answered r s).phase = s.phase := rfl
@[simp] theorem answered_frame (r : Byte) (s : State) : (answered r s).frame = s.frame := rfl
@[simp] theorem answered_resp (r : Byte) (s : State) : (answered r s).resp = s.resp := rfl
@[simp] theorem answered_pollCnt (r : Byte) (s : State) : (answered r s).pollCnt = s.pollCnt := rfl
@[simp] theorem answered_deadline (r : Byte) (s : State) : (answered r s).deadline = s.deadline := rfl
@[simp] theorem answered_loopDeadline (r : Byte) (s : State) : (answered r s).loopDeadline = s.loopDeadline := rfl
@[simp] theorem answered_trail (r : Byte) (s : State) : (answered r s).trail = s.trail := rfl
@[simp] theorem answered_regImg (r : Byte) (s : State) : (answered r s).regImg = s.regImg := rfl
@[simp] theorem answered_cidNew (r : Byte) (s : State) : (answered r s).cidNew = s.cidNew := rfl
@[simp] theorem answered_csdNew (r : Byte) (s : State) : (answered r s).csdNew = s.csdNew := rfl
@[simp] theorem answered_blk (r : Byte) (s : State) : (answered r s).blk = s.blk := rfl
@[simp] theorem answered_boff (r : Byte) (s : State) : (answered r s).boff = s.boff := rfl
@[simp] theorem answered_done (r : Byte) (s : State) : (answered r s).done = s.done := rfl
@[simp] theorem answered_rem (r : Byte) (s : State) : (answered r s).rem = s.rem := rfl
@[simp] theorem answered_err (r : Byte) (s : State) : (answered r s).err = s.err := rfl
@[simp] theorem answered_cs (r : Byte) (s : State) : (answered r s).cs = s.cs := rfl
@[simp] theorem answered_rateSel (r : Byte) (s : State) : (answered r s).rateSel = s.rateSel := rfl
@[simp] theorem answered_lockHeld (r : Byte) (s : State) : (answered r s).lockHeld = s.lockHeld := rfl
@[simp] theorem answered_presented (r : Byte) (s : State) : (answered r s).presented = s.presented := rfl
@[simp] theorem answered_buf (r : Byte) (s : State) : (answered r s).buf = s.buf := rfl
@[simp] theorem answered_bufLen (r : Byte) (s : State) : (answered r s).bufLen = s.bufLen := rfl
@[simp] theorem answered_r1 (r : Byte) (s : State) : (answered r s).r1 = r := rfl
@[simp] theorem answered_trace (r : Byte) (s : State) : (answered r s).trace = s.trace := rfl
@[simp] theorem answered_inbox (r : Byte) (s : State) : (answered r s).inbox = s.inbox := rfl
@[simp] theorem answered_miso (r : Byte) (s : State) : (answered r s).miso = s.miso := rfl
@[simp] theorem answered_time (r : Byte) (s : State) : (answered r s).time = s.time := rfl
@[simp] theorem answered_ticks (r : Byte) (s : State) : (answered r s).ticks = s.ticks := rfl
@[simp] theorem answered_grants (r : Byte) (s : State) : (answered r s).grants = s.grants := rfl
@[simp] theorem answered_draws (r : Byte) (s : State) : (answered r s).draws = s.draws := rfl
@[simp] theorem answered_par (r : Byte) (s : State) : (answered r s).par = s.par := rfl

/-! ### countPoll -/

@[simp] theorem countPoll_cardType (s : State) : (countPoll s).cardType = s.cardType := rfl
@[simp] theorem countPoll_cid (s : State) : (countPoll s).cid = s.cid := rfl
@[simp] theorem countPoll_csd (s : State) : (countPoll s).csd = s.csd := rfl
@[simp] theorem countPoll_seq (s : State) : (countPoll s).seq = s.seq := rfl
@[simp] theorem countPoll_scratch (s : State) : (countPoll s).scratch = s.scratch := rfl
@[simp] theorem countPoll_phase (s : State) : (countPoll s).phase = s.phase := rfl
@[simp] theorem countPoll_frame (s : State) : (countPoll s).frame = s.frame := rfl
@[simp] theorem countPoll_resp (s : State) : (countPoll s).resp = s.resp := rfl
@[simp] theorem countPoll_pollCnt (s : State) : (countPoll s).pollCnt = if s.pollCnt.toNat < P.nRespPoll then s.pollCnt + 1 else s.pollCnt := rfl
@[simp] theorem countPoll_deadline (s : State) : (countPoll s).deadline = s.deadline := rfl
@[simp] theorem countPoll_loopDeadline (s : State) : (countPoll s).loopDeadline = s.loopDeadline := rfl
@[simp] theorem countPoll_trail (s : State) : (countPoll s).trail = s.trail := rfl
@[simp] theorem countPoll_regImg (s : State) : (countPoll s).regImg = s.regImg := rfl
@[simp] theorem countPoll_cidNew (s : State) : (countPoll s).cidNew = s.cidNew := rfl
@[simp] theorem countPoll_csdNew (s : State) : (countPoll s).csdNew = s.csdNew := rfl
@[simp] theorem countPoll_blk (s : State) : (countPoll s).blk = s.blk := rfl
@[simp] theorem countPoll_boff (s : State) : (countPoll s).boff = s.boff := rfl
@[simp] theorem countPoll_done (s : State) : (countPoll s).done = s.done := rfl
@[simp] theorem countPoll_rem (s : State) : (countPoll s).rem = s.rem := rfl
@[simp] theorem countPoll_err (s : State) : (countPoll s).err = s.err := rfl
@[simp] theorem countPoll_cs (s : State) : (countPoll s).cs = s.cs := rfl
@[simp] theorem countPoll_rateSel (s : State) : (countPoll s).rateSel = s.rateSel := rfl
@[simp] theorem countPoll_lockHeld (s : State) : (countPoll s).lockHeld = s.lockHeld := rfl
@[simp] theorem countPoll_presented (s : State) : (countPoll s).presented = s.presented := rfl
@[simp] theorem countPoll_buf (s : State) : (countPoll s).buf = s.buf := rfl
@[simp] theorem countPoll_bufLen (s : State) : (countPoll s).bufLen = s.bufLen := rfl
@[simp] theorem countPoll_r1 (s : State) : (countPoll s).r1 = s.r1 := rfl
@[simp] theorem countPoll_trace (s : State) : (countPoll s).trace = s.trace := rfl
@[simp] theorem countPoll_inbox (s : State) : (countPoll s).inbox = s.inbox := rfl
@[simp] theorem countPoll_miso (s : State) : (countPoll s).miso = s.miso := rfl
@[simp] theorem countPoll_time (s : State) : (countPoll s).time = s.time := rfl
@[simp] theorem countPoll_ticks (s : State) : (countPoll s).ticks = s.ticks := rfl
@[simp] theorem countPoll_grants (s : State) : (countPoll s).grants = s.grants := rfl
@[simp] theorem countPoll_draws (s : State) : (countPoll s).draws = s.draws := rfl
@[simp] theorem countPoll_par (s : State) : (countPoll s).par = s.par := rfl

/-! ### complete -/

@[simp] theorem complete_cardType (e : Option ErrCode) (c : Completion) (s : State) : (complete e c s).cardType = s.cardType := rfl
@[simp] theorem complete_cid (e : Option ErrCode) (c : Completion) (s : State) : (complete e c s).cid = s.cid := rfl
@[simp] theorem complete_csd (e : Option ErrCode) (c : Completion) (s : State) : (complete e c s).csd = s.csd := rfl
@[simp] theorem complete_seq (e : Option ErrCode) (c : Completion) (s : State) : (complete e c s).seq = .idle := rfl
@[simp] theorem complete_scratch (e : Option ErrCode) (c : Completion) (s : State) : (complete e c s).scratch = s.scratch := rfl
@[simp] theorem complete_phase (e : Option ErrCode) (c : Completion) (s : State) : (complete e c s).phase = s.phase := rfl
@[simp] theorem complete_frame (e : Option ErrCode) (c : Completion) (s : State) : (complete e c s).frame = s.frame := rfl
@[simp] theorem complete_resp (e : Option ErrCode) (c : Completion) (s : State) : (complete e c s).resp = s.resp := rfl
@[simp] theorem complete_pollCnt (e : Option ErrCode) (c : Completion) (s : State) : (complete e c s).pollCnt = s.pollCnt := rfl
@[simp] theorem complete_deadline (e : Option ErrCode) (c : Completion) (s : State) : (complete e c s).deadline = s.deadline := rfl
@[simp] theorem complete_loopDeadline (e : Option ErrCode) (c : Completion) (s : State) : (complete e c s).loopDeadline = s.loopDeadline := rfl
@[simp] theorem complete_trail (e : Option ErrCode) (c : Completion) (s : State) : (complete e c s).trail = s.trail := rfl
@[simp] theorem complete_regImg (e : Option ErrCode) (c : Completion) (s : State) : (complete e c s).regImg = s.regImg := rfl
@[simp] theorem complete_cidNew (e : Option ErrCode) (c : Completion) (s : State) : (complete e c s).cidNew = s.cidNew := rfl
@[simp] theorem complete_csdNew (e : Option ErrCode) (c : Completion) (s : State) : (complete e c s).csdNew = s.csdNew := rfl
@[simp] theorem complete_blk (e : Option ErrCode) (c : Completion) (s : State) : (complete e c s).blk = s.blk := rfl
@[simp] theorem complete_boff (e : Option ErrCode) (c : Completion) (s : State) : (complete e c s).boff = s.boff := rfl
@[simp] theorem complete_done (e : Option ErrCode) (c : Completion) (s : State) : (complete e c s).done = s.done := rfl
@[simp] theorem complete_rem (e : Option ErrCode) (c : Completion) (s : State) : (complete e c s).rem = s.rem := rfl
@[simp] theorem complete_err (e : Option ErrCode) (c : Completion) (s : State) : (complete e c s).err = e := rfl
@[simp] theorem complete_cs (e : Option ErrCode) (c : Completion) (s : State) : (complete e c s).cs = s.cs := rfl
@[simp] theorem complete_rateSel (e : Option ErrCode) (c : Completion) (s : State) : (complete e c s).rateSel = s.rateSel := rfl
@[simp] theorem complete_lockHeld (e : Option ErrCode) (c : Completion) (s : State) : (complete e c s).lockHeld = false := rfl
@[simp] theorem complete_presented (e : Option ErrCode) (c : Completion) (s : State) : (complete e c s).presented = some c := rfl
@[simp] theorem complete_buf (e : Option ErrCode) (c : Completion) (s : State) : (complete e c s).buf = s.buf := rfl
@[simp] theorem complete_bufLen (e : Option ErrCode) (c : Completion) (s : State) : (complete e c s).bufLen = s.bufLen := rfl
@[simp] theorem complete_r1 (e : Option ErrCode) (c : Completion) (s : State) : (complete e c s).r1 = s.r1 := rfl
@[simp] theorem complete_trace (e : Option ErrCode) (c : Completion) (s : State) : (complete e c s).trace = .unlock :: s.trace := rfl
@[simp] theorem complete_inbox (e : Option ErrCode) (c : Completion) (s : State) : (complete e c s).inbox = s.inbox := rfl
@[simp] theorem complete_miso (e : Option ErrCode) (c : Completion) (s : State) : (complete e c s).miso = s.miso := rfl
@[simp] theorem complete_time (e : Option ErrCode) (c : Completion) (s : State) : (complete e c s).time = s.time := rfl
@[simp] theorem complete_ticks (e : Option ErrCode) (c : Completion) (s : State) : (complete e c s).ticks = s.ticks := rfl
@[simp] theorem complete_grants (e : Option ErrCode) (c : Completion) (s : State) : (complete e c s).grants = s.grants := rfl
@[simp] theorem complete_draws (e : Option ErrCode) (c : Completion) (s : State) : (complete e c s).draws = s.draws := rfl
@[simp] theorem complete_par (e : Option ErrCode) (c : Completion) (s : State) : (complete e c s).par = s.par := rfl

end Sys2Proof.Machine
end

