-- ==== Sys2Proof/Laws/Frame.lean ====
section
/-! SUPPORT. The frames of Sys2Proof/Safety.lean compose. -/

namespace Sys2Proof.Machine

variable {s t u : State}

theorem SameDevice.refl (s : State) : SameDevice s s := ⟨rfl, rfl, rfl, rfl⟩
theorem SameInit.refl (s : State) : SameInit s s := ⟨rfl, rfl, rfl, rfl, rfl⟩
theorem SameTransfer.refl (s : State) : SameTransfer s s := ⟨rfl, rfl, rfl, rfl, rfl⟩
theorem SameResults.refl (s : State) : SameResults s s := ⟨rfl, rfl⟩
theorem SameEngine.refl (s : State) : SameEngine s s := ⟨rfl, rfl, rfl, rfl, rfl⟩
theorem SameControl.refl (s : State) : SameControl s s := ⟨rfl, rfl, rfl⟩
theorem SameBuffer.refl (s : State) : SameBuffer s s := ⟨rfl, fun _ => rfl⟩

theorem SameDevice.trans (h : SameDevice s t) (k : SameDevice t u) : SameDevice s u :=
  ⟨k.1.trans h.1, k.2.trans h.2, k.3.trans h.3, k.4.trans h.4⟩
theorem SameInit.trans (h : SameInit s t) (k : SameInit t u) : SameInit s u :=
  ⟨k.1.trans h.1, k.2.trans h.2, k.3.trans h.3, k.4.trans h.4, k.5.trans h.5⟩
theorem SameTransfer.trans (h : SameTransfer s t) (k : SameTransfer t u) : SameTransfer s u :=
  ⟨k.1.trans h.1, k.2.trans h.2, k.3.trans h.3, k.4.trans h.4, k.5.trans h.5⟩
theorem SameResults.trans (h : SameResults s t) (k : SameResults t u) : SameResults s u :=
  ⟨k.1.trans h.1, k.2.trans h.2⟩

theorem Onward.refl (s : State) : Onward s s :=
  ⟨Nat.le_refl _, List.suffix_refl _, List.suffix_refl _, List.suffix_refl _, rfl⟩

theorem Onward.trans (h : Onward s t) (k : Onward t u) : Onward s u :=
  ⟨Nat.le_trans h.1 k.1, h.2.trans k.2, k.3.trans h.3, k.4.trans h.4, k.5.trans h.5⟩

theorem BusOnly.refl (s : State) : BusOnly s s :=
  ⟨.refl s, .refl s, .refl s, .refl s, rfl, rfl, rfl, rfl, rfl, rfl, rfl, .refl s, rfl, id⟩

theorem BusOnly.trans (h : BusOnly s t) (k : BusOnly t u) : BusOnly s u :=
  ⟨h.device.trans k.device, h.init.trans k.init, h.transfer.trans k.transfer, h.results.trans k.results,
    k.seq.trans h.seq, k.rateSel.trans h.rateSel, k.lockHeld.trans h.lockHeld, k.buf.trans h.buf,
    k.bufLen.trans h.bufLen, k.inbox.trans h.inbox, k.grants.trans h.grants, h.onward.trans k.onward,
    k.locks.trans h.locks, fun hf => k.frameSize (h.frameSize hf)⟩

theorem BusOnly.buffer (h : BusOnly s t) : SameBuffer s t := ⟨h.bufLen, fun a => by rw [h.buf]⟩

/-- Only after a failed `Configure` may chip-select stay low between requests (D15). -/
theorem Settled.released (h : Settled s) (hp : s.phase ≠ .failed) : s.cs = true :=
  h.cs.resolve_right fun k => hp k.2

theorem Settled.quiet (h : Settled s) (hp : s.phase ≠ .failed) : Quiet s := ⟨h.released hp, h.lockHeld, h.seq⟩

/-- Readings and exchanges only bring a deadline nearer. -/
theorem Onward.patience (h : Onward s t) (d : Nat) : patience d t ≤ patience d s := by
  have := h.ticks.length_le
  have := h.time
  unfold Machine.patience
  omega

end Sys2Proof.Machine
end

