-- ==== Sys2Proof/Laws/Bus.lean ====
section
/-! SUPPORT. What the bus primitives, the waits and the command engine can do, each said once. -/

namespace Sys2Proof.Machine

variable {s t : State}

/-! ### Exchanges and readings -/

theorem xfer_onward (m : Byte) (s : State) : Onward s (xfer m s).2 :=
  ⟨Nat.le_refl _, List.suffix_cons _ _, List.suffix_refl _, List.tail_suffix _, rfl⟩

theorem xfer_busOnly (m : Byte) (s : State) : BusOnly s (xfer m s).2 :=
  ⟨⟨rfl, rfl, rfl, rfl⟩, ⟨rfl, rfl, rfl, rfl, rfl⟩, ⟨rfl, rfl, rfl, rfl, rfl⟩, ⟨rfl, rfl⟩, rfl, rfl, rfl, rfl, rfl, rfl,
    rfl, xfer_onward m s, rfl, id⟩

/-- With bytes given, an exchange receives the first of them. -/
theorem xfer_given {b : Byte} {bs : List Byte} (h : s.miso = b :: bs) (m : Byte) :
    xfer m s = (b, { s with miso := bs, trace := .x m b :: s.trace }) := by
  simp [xfer, nextByte, exchange, drawsAfter, h]

theorem xferRead_busOnly (par : Params) (n : Nat) (s : State) : BusOnly s (xferRead par n s).2 := by
  induction n generalizing s with
  | zero => exact .refl s
  | succ n ih => exact (xfer_busOnly _ s).trans (ih _)

@[simp] theorem xferRead_length (par : Params) (n : Nat) (s : State) : (xferRead par n s).1.length = n := by
  induction n generalizing s with
  | zero => rfl
  | succ n ih => simp [xferRead, ih]

@[simp] theorem xferRead_cs (par : Params) (n : Nat) (s : State) : (xferRead par n s).2.cs = s.cs := by
  induction n generalizing s with
  | zero => rfl
  | succ n ih => simp [xferRead, ih]

@[simp] theorem xferRead_frame (par : Params) (n : Nat) (s : State) : (xferRead par n s).2.frame = s.frame := by
  induction n generalizing s with
  | zero => rfl
  | succ n ih => simp [xferRead, ih]

/-- The events of a bulk read are the bytes it returns (R111). -/
theorem xferRead_trace (par : Params) (n : Nat) (s : State) :
    (xferRead par n s).2.trace = (reads par (xferRead par n s).1).reverse ++ s.trace := by
  induction n generalizing s with
  | zero => rfl
  | succ n ih =>
    show (xferRead par n (xfer par.fill s).2).2.trace = (reads par (_ :: (xferRead par n (xfer par.fill s).2).1)).reverse ++ _
    rw [ih]
    simp [reads]
    rfl

/-- With bytes given, a bulk read receives them in order. -/
theorem xferRead_given (par : Params) {bs rest : List Byte} (h : s.miso = bs ++ rest) :
    xferRead par bs.length s = (bs, { s with miso := rest, trace := (reads par bs).reverse ++ s.trace }) := by
  induction bs generalizing s with
  | nil => subst h; simp [xferRead, reads]
  | cons b bs ih =>
    have step := xfer_given (s := s) (b := b) (bs := bs ++ rest) h par.fill
    simp only [List.length_cons, xferRead, step]
    rw [ih rfl]
    simp [reads]

theorem xferWrite_busOnly (bytes : List Byte) (s : State) : BusOnly s (xferWrite bytes s) := by
  induction bytes generalizing s with
  | nil => exact .refl s
  | cons b bs ih => exact (xfer_busOnly _ s).trans (ih _)

@[simp] theorem xferWrite_cs (bytes : List Byte) (s : State) : (xferWrite bytes s).cs = s.cs := by
  induction bytes generalizing s with
  | nil => rfl
  | cons b bs ih => simp [xferWrite, ih]

@[simp] theorem xferWrite_frame (bytes : List Byte) (s : State) : (xferWrite bytes s).frame = s.frame := by
  induction bytes generalizing s with
  | nil => rfl
  | cons b bs ih => simp [xferWrite, ih]

@[simp] theorem xferWrite_ticks (bytes : List Byte) (s : State) : (xferWrite bytes s).ticks = s.ticks := by
  induction bytes generalizing s with
  | nil => rfl
  | cons b bs ih => exact ih _

@[simp] theorem xferWrite_time (bytes : List Byte) (s : State) : (xferWrite bytes s).time = s.time := by
  induction bytes generalizing s with
  | nil => rfl
  | cons b bs ih => exact ih _

/-- With bytes given, a bulk write sends its bytes in order while receiving those. -/
theorem xferWrite_given {out bs rest : List Byte} (h : s.miso = bs ++ rest) (hl : out.length = bs.length) :
    xferWrite out s = { s with miso := rest, trace := (exchanges out bs).reverse ++ s.trace } := by
  induction out generalizing s bs with
  | nil =>
    cases bs with
    | nil => subst h; simp [xferWrite, exchanges]
    | cons b bs => simp at hl
  | cons o out ih =>
    cases bs with
    | nil => simp at hl
    | cons b bs =>
      have step := xfer_given (s := s) (b := b) (bs := bs ++ rest) h o
      simp only [xferWrite, step]
      rw [ih (bs := bs) rfl (by simpa using hl)]
      simp [exchanges]

theorem setCs_busOnly (v : Bool) (s : State) : BusOnly s (setCs v s) := by
  refine ⟨⟨rfl, rfl, rfl, rfl⟩, ⟨rfl, rfl, rfl, rfl, rfl⟩, ⟨rfl, rfl, rfl, rfl, rfl⟩, ⟨rfl, rfl⟩, rfl, rfl, rfl, rfl, rfl,
    rfl, rfl, ⟨Nat.le_refl _, ?_, List.suffix_refl _, List.suffix_refl _, rfl⟩, ?_, id⟩
  · rw [setCs_trace]
    split
    · exact List.suffix_refl _
    · exact List.suffix_cons _ _
  · rw [lockEvents, setCs_trace]
    split <;> rfl

/-- Driving a level the line already has changes nothing (R112). -/
theorem setCs_same {v : Bool} (h : s.cs = v) : setCs v s = s := by
  subst h; simp [setCs]

/-- A reading that the inputs give (R143). -/
theorem nextTime_given {d : Nat} {more : List Nat} (h : s.ticks = d :: more) : nextTime s = s.time + d := by
  unfold nextTime; rw [h]

theorem nextTime_le (s : State) : s.time ≤ nextTime s := by
  unfold nextTime; split <;> omega

theorem now_busOnly (s : State) : BusOnly s (now s).2 :=
  ⟨⟨rfl, rfl, rfl, rfl⟩, ⟨rfl, rfl, rfl, rfl, rfl⟩, ⟨rfl, rfl, rfl, rfl, rfl⟩, ⟨rfl, rfl⟩, rfl, rfl, rfl, rfl, rfl, rfl,
    rfl, ⟨nextTime_le s, List.suffix_refl _, List.tail_suffix _, List.suffix_refl _, rfl⟩, rfl, id⟩

/-- A reading either shows the deadline passed or brings it strictly nearer: the loops that count down from
`patience` end before the count does. -/
theorem now_patience (d : Nat) (s : State) :
    d ≤ (now s).1 ∨ patience d (now s).2 < patience d s := by
  simp only [now, patience, nextTime]
  cases h : s.ticks with
  | nil => simp only [List.tail_nil, List.length_nil]; omega
  | cons x xs => simp only [List.tail_cons, List.length_cons]; omega

theorem expired_patience {d : Nat} (h : (expired d s).1 = false) : patience d (expired d s).2 < patience d s :=
  (now_patience d s).resolve_left (by simpa [expired] using h)

theorem expired_busOnly (d : Nat) (s : State) : BusOnly s (expired d s).2 := now_busOnly s

@[simp] theorem expired_cs (d : Nat) (s : State) : (expired d s).2.cs = s.cs := rfl
@[simp] theorem expired_frame (d : Nat) (s : State) : (expired d s).2.frame = s.frame := rfl
@[simp] theorem expired_deadline (d : Nat) (s : State) : (expired d s).2.deadline = s.deadline := rfl
@[simp] theorem expired_loopDeadline (d : Nat) (s : State) : (expired d s).2.loopDeadline = s.loopDeadline := rfl

/-- A change of the engine's registers alone is within the frame. -/
theorem BusOnly.engine (h : BusOnly s t) (resp r1 : Byte) (pollCnt : U16) (deadline : Nat) :
    BusOnly s { t with resp := resp, r1 := r1, pollCnt := pollCnt, deadline := deadline } :=
  ⟨⟨h.device.1, h.device.2, h.device.3, h.device.4⟩, ⟨h.init.1, h.init.2, h.init.3, h.init.4, h.init.5⟩,
    ⟨h.transfer.1, h.transfer.2, h.transfer.3, h.transfer.4, h.transfer.5⟩, ⟨h.results.1, h.results.2⟩, h.seq, h.rateSel,
    h.lockHeld, h.buf, h.bufLen, h.inbox, h.grants, ⟨h.onward.1, h.onward.2, h.onward.3, h.onward.4, h.onward.5⟩, h.locks,
    h.frameSize⟩

/-- A frame of 6 bytes in the frame register is within the frame. -/
theorem BusOnly.load {frame : List Byte} (hf : frame.length = 6) (s : State) : BusOnly s { s with frame := frame } :=
  ⟨⟨rfl, rfl, rfl, rfl⟩, ⟨rfl, rfl, rfl, rfl, rfl⟩, ⟨rfl, rfl, rfl, rfl, rfl⟩, ⟨rfl, rfl⟩, rfl, rfl, rfl, rfl, rfl, rfl, rfl,
    ⟨Nat.le_refl _, List.suffix_refl _, List.suffix_refl _, List.suffix_refl _, rfl⟩, rfl, fun _ => hf⟩

@[simp] theorem frameBytes_length (code : BitVec 6) (arg : U32) (crc : Byte) : (frameBytes code arg crc).length = 6 := rfl

/-! ### Waits -/

theorem poll_busOnly (par : Params) (s : State) : BusOnly s (poll par s).2 :=
  (xfer_busOnly par.fill s).engine _ _ _ _

@[simp] theorem poll_cs (par : Params) (s : State) : (poll par s).2.cs = s.cs := rfl
@[simp] theorem poll_frame (par : Params) (s : State) : (poll par s).2.frame = s.frame := rfl
@[simp] theorem poll_resp (par : Params) (s : State) : (poll par s).2.resp = (poll par s).1 := rfl
@[simp] theorem poll_deadline (par : Params) (s : State) : (poll par s).2.deadline = s.deadline := rfl

theorem startDeadline_busOnly (T : Nat) (s : State) : BusOnly s (startDeadline T s) :=
  (now_busOnly s).engine _ _ _ _

@[simp] theorem startDeadline_cs (T : Nat) (s : State) : (startDeadline T s).cs = s.cs := rfl
@[simp] theorem startDeadline_frame (T : Nat) (s : State) : (startDeadline T s).frame = s.frame := rfl

theorem notBusyLoop_spec (par : Params) (n : Nat) (s : State) :
    BusOnly s (notBusyLoop par n s) ∧ (notBusyLoop par n s).cs = s.cs ∧ (notBusyLoop par n s).frame = s.frame := by
  induction n generalizing s with
  | zero => exact ⟨.refl s, rfl, rfl⟩
  | succ n ih =>
    have hp := poll_busOnly par s
    have he := hp.trans (expired_busOnly (poll par s).2.deadline (poll par s).2)
    unfold notBusyLoop
    split
    · exact ⟨hp, rfl, rfl⟩
    · split
      · exact ⟨he, rfl, rfl⟩
      · exact ⟨he.trans (ih _).1, (ih _).2.1, (ih _).2.2⟩

/-- `waitNotBusy` "never fails and raises nothing. It does not touch `cs`" (R291). -/
theorem waitNotBusy_spec (par : Params) (T : Nat) (s : State) :
    BusOnly s (waitNotBusy par T s) ∧ (waitNotBusy par T s).cs = s.cs ∧ (waitNotBusy par T s).frame = s.frame := by
  have h := notBusyLoop_spec par (patience (startDeadline T s).deadline (startDeadline T s) + 1) (startDeadline T s)
  exact ⟨(startDeadline_busOnly T s).trans h.1, h.2.1, h.2.2⟩

/-! ### The command engine -/

/-- The poll counter counts up to 65535 and never wraps (R113, R409). -/
theorem countPoll_toNat (s : State) : (countPoll s).pollCnt.toNat = min (s.pollCnt.toNat + 1) 65535 := by
  have := s.pollCnt.isLt
  unfold countPoll
  by_cases h : s.pollCnt.toNat < P.nRespPoll
  · have h' : s.pollCnt.toNat < 65535 := h
    have h1 : (1 : U16).toNat = 1 := rfl
    simp only [if_pos h, BitVec.toNat_add, h1]
    omega
  · have h' : ¬s.pollCnt.toNat < 65535 := h
    simp only [if_neg h]
    omega

theorem countPoll_busOnly (h : BusOnly s t) : BusOnly s (countPoll t) := h.engine _ _ _ _

theorem respPoll_spec (par : Params) (n : Nat) (s : State) (hcs : s.cs = false) :
    BusOnly s (respPoll par n s).2 ∧ (respPoll par n s).2.frame = s.frame ∧ Answered (respPoll par n s).1 (respPoll par n s).2 := by
  induction n generalizing s with
  | zero => exact ⟨(setCs_busOnly true s).engine _ _ _ _, rfl, .inr ⟨rfl, rfl, rfl⟩⟩
  | succ n ih =>
    unfold respPoll
    split
    · rename_i hr
      exact ⟨(countPoll_busOnly (poll_busOnly par s)).engine _ _ _ _, rfl, .inl ⟨hr, hcs, rfl, rfl⟩⟩
    · have h := ih (countPoll (poll par s).2) hcs
      exact ⟨(countPoll_busOnly (poll_busOnly par s)).trans h.1, h.2.1, h.2.2⟩

/-- "This wait reads no clock" (R243). -/
@[simp] theorem respPoll_ticks (par : Params) (n : Nat) (s : State) : (respPoll par n s).2.ticks = s.ticks := by
  induction n generalizing s with
  | zero => rfl
  | succ n ih =>
    unfold respPoll
    split
    · rfl
    · exact ih _

@[simp] theorem respPoll_time (par : Params) (n : Nat) (s : State) : (respPoll par n s).2.time = s.time := by
  induction n generalizing s with
  | zero => rfl
  | succ n ih =>
    unfold respPoll
    split
    · rfl
    · exact ih _

theorem preWait_spec (par : Params) (code : BitVec 6) (s : State) :
    BusOnly s (preWait par code s) ∧ (preWait par code s).cs = s.cs := by
  unfold preWait
  split
  · exact ⟨.refl s, rfl⟩
  · exact ⟨(waitNotBusy_spec par _ s).1, (waitNotBusy_spec par _ s).2.1⟩

theorem sendFrame_spec {bytes : List Byte} (hl : bytes.length = 6) (s : State) :
    BusOnly s (sendFrame bytes s) ∧ (sendFrame bytes s).cs = s.cs ∧ (sendFrame bytes s).frame = bytes :=
  ⟨(BusOnly.load hl s).trans (xferWrite_busOnly _ _),
    by simp [sendFrame], by simp [sendFrame]⟩

/-- All that `command` can do: it talks on the bus, leaves its frame in the frame register, and ends with a
response under chip-select low or with the sentinel under chip-select high (R240 to R245). -/
theorem command_spec (par : Params) (code : BitVec 6) (arg : U32) (crc : Byte) (s : State) :
    BusOnly s (command par code arg crc s).2 ∧ (command par code arg crc s).2.frame = frameBytes code arg crc ∧
      Answered (command par code arg crc s).1 (command par code arg crc s).2 := by
  have hw := preWait_spec par code (setCs false s)
  have hf := sendFrame_spec (frameBytes_length code arg crc) (preWait par code (setCs false s))
  have hr := respPoll_spec par P.nRespPoll
    { sendFrame (frameBytes code arg crc) (preWait par code (setCs false s)) with pollCnt := 0 }
    (hf.2.1.trans (hw.2.trans rfl))
  exact ⟨(((setCs_busOnly false s).trans (hw.1.trans hf.1)).engine _ _ 0 _).trans hr.1,
    hr.2.1.trans hf.2.2, hr.2.2⟩

theorem appCommand_spec (par : Params) (code : BitVec 6) (arg : U32) (s : State) :
    BusOnly s (appCommand par code arg s).2 ∧ (appCommand par code arg s).2.frame = frameBytes code arg par.crcDummy ∧
      Answered (appCommand par code arg s).1 (appCommand par code arg s).2 := by
  have h := command_spec par code arg par.crcDummy (command par par.cmdApp 0 par.crcDummy s).2
  exact ⟨(command_spec par par.cmdApp 0 par.crcDummy s).1.trans h.1, h.2⟩

/-- A command whose response is zero leaves chip-select low (R245). -/
theorem Answered.ready {r : Byte} (h : Answered r t) (hr : isReady r = true) : t.cs = false := by
  rcases h with h | h
  · exact h.2.1
  · have : r = P.r1Ready := by simpa [isReady] using hr
    rw [h.1] at this
    exact absurd this (by decide)

end Sys2Proof.Machine
end

