-- ==== Sys2Proof/Laws/Proc.lean ====
section
/-! SUPPORT. How a micro-operation ends: one rule for each way they are put together. -/

namespace Sys2Proof.Machine

variable {ε α β : Type} {s : State} {Q : α → State → Prop} {R : β → State → Prop} {E : ε → State → Prop}

theorem Ends.ok {p : EStateM ε State α} (h : Ends p s Q E) {a : α} {t : State} (hp : p s = .ok a t) : Q a t := by
  simpa [Ends, hp] using h

theorem Ends.error {p : EStateM ε State α} (h : Ends p s Q E) {e : ε} {t : State} (hp : p s = .error e t) : E e t := by
  simpa [Ends, hp] using h

theorem Ends.mono {p : EStateM ε State α} {Q' : α → State → Prop} {E' : ε → State → Prop} (h : Ends p s Q E)
    (hQ : ∀ a t, Q a t → Q' a t) (hE : ∀ e t, E e t → E' e t) : Ends p s Q' E' := by
  unfold Ends at h ⊢
  split at h
  · exact hQ _ _ h
  · exact hE _ _ h

theorem Ends.and {p : EStateM ε State α} {Q' : α → State → Prop} {E' : ε → State → Prop} (h : Ends p s Q E)
    (h' : Ends p s Q' E') : Ends p s (fun a t => Q a t ∧ Q' a t) (fun e t => E e t ∧ E' e t) := by
  unfold Ends at h h' ⊢
  split at h
  · rename_i hp; rw [hp] at h'; exact ⟨h, h'⟩
  · rename_i hp; rw [hp] at h'; exact ⟨h, h'⟩

theorem Ends.bind {p : EStateM ε State β} {f : β → EStateM ε State α}
    (h : Ends p s (fun b t => Ends (f b) t Q E) E) : Ends (p >>= f) s Q E := by
  unfold Ends at h ⊢
  simp only [Bind.bind, EStateM.bind]
  split at h
  · rename_i hp; rw [hp]; exact h
  · rename_i hp; rw [hp]; exact h

/-- One after the other, with what the first leaves named. -/
theorem Ends.seq {p : EStateM ε State β} {f : β → EStateM ε State α} (h : Ends p s R E)
    (k : ∀ b t, R b t → Ends (f b) t Q E) : Ends (p >>= f) s Q E :=
  .bind (h.mono k fun _ _ he => he)

theorem Ends.pure {a : α} (h : Q a s) : Ends (Pure.pure a : EStateM ε State α) s Q E := h

theorem Ends.throw {e : ε} (h : E e s) : Ends (MonadExcept.throw e : EStateM ε State α) s Q E := h

theorem Ends.get {Q : State → State → Prop} (h : Q s s) : Ends (MonadState.get : EStateM ε State State) s Q E := h

theorem Ends.getBind {f : State → EStateM ε State α} (h : Ends (f s) s Q E) :
    Ends (MonadState.get >>= f) s Q E := h

theorem Ends.bus {f : State → α × State} (h : Q (f s).1 (f s).2) : Ends (bus f : EStateM ε State α) s Q E := h

theorem Ends.update {f : State → State} {Q : Unit → State → Prop} (h : Q () (f s)) :
    Ends (update f : EStateM ε State Unit) s Q E := h

theorem Ends.ite {c : Prop} [Decidable c] {p q : EStateM ε State α} (hp : c → Ends p s Q E) (hq : ¬c → Ends q s Q E) :
    Ends (if c then p else q) s Q E := by
  split
  · exact hp ‹_›
  · exact hq ‹_›

/-- An error passes up unchanged (R406). -/
theorem Ends.orFail {p : Proc α} {E : Stop → State → Prop} (h : Ends p s Q (fun e => E (.err e))) :
    Ends (orFail p) s Q E := by
  unfold Ends at h ⊢
  unfold Machine.orFail
  split at h
  · rename_i hp; rw [hp]; exact h
  · rename_i hp; rw [hp]; exact h

/-! ### Exact results: what a micro-operation answers, put together from what its parts answer -/

section exact
variable {t : State} {r : EStateM.Result ε State α}

theorem bind_ok {p : EStateM ε State β} {f : β → EStateM ε State α} {b : β} (h : p s = .ok b t) (k : f b t = r) :
    (p >>= f) s = r := by
  simp only [Bind.bind, EStateM.bind, h]
  exact k

theorem bind_error {p : EStateM ε State β} {f : β → EStateM ε State α} {e : ε} (h : p s = .error e t) :
    (p >>= f) s = .error e t := by
  simp only [Bind.bind, EStateM.bind, h]

theorem bus_ok {f : State → α × State} {a : α} (h : (f s).1 = a) : (bus f : EStateM ε State α) s = .ok a (f s).2 := by
  subst h; rfl

theorem update_ok (f : State → State) (s : State) : (update f : EStateM ε State Unit) s = .ok () (f s) := rfl

theorem get_ok (s : State) : (MonadState.get : EStateM ε State State) s = .ok s s := rfl

theorem ite_then {c : Prop} [Decidable c] {p q : EStateM ε State α} (h : c) (k : p s = r) : (if c then p else q) s = r := by
  rw [if_pos h]; exact k

theorem ite_else {c : Prop} [Decidable c] {p q : EStateM ε State α} (h : ¬c) (k : q s = r) : (if c then p else q) s = r := by
  rw [if_neg h]; exact k

theorem orFail_ok {p : Proc α} {a : α} (h : p s = .ok a t) : orFail p s = .ok a t := by
  unfold orFail; rw [h]

theorem orFail_error {p : Proc α} {e : ErrCode} (h : p s = .error e t) : orFail p s = .error (.err e) t := by
  unfold orFail; rw [h]

end exact

end Sys2Proof.Machine
end

