-- ==== Sys2Proof/Laws/Micro.lean ====
section
/-! SUPPORT. What the failing micro-operations can do: one lemma each, with the frame, the errors, and what
chip-select is at every way out (R404, R447). -/

namespace Sys2Proof.Machine

variable {s : State}

/-! ### Start-token wait and register read -/

/-- The events of a run are what it put in front of the trace. -/
theorem eventsBetween_of {t : State} {es : List Event} (h : t.trace = es.reverse ++ s.trace) : eventsBetween s t = es := by
  simp [eventsBetween, h]

/-- From `s` to `t` the events `es` happened, one right after the other, whatever else happened before and after. -/
def Took (es : List Event) (s t : State) : Prop := ∃ after before, t.trace = after ++ es.reverse ++ before ++ s.trace

theorem Took.onward {t u : State} {es : List Event} (h : Took es s t) (k : Onward t u) : Took es s u := by
  obtain ⟨a, b, e⟩ := h
  obtain ⟨c, hc⟩ := k.trace
  exact ⟨c ++ a, b, by rw [← hc, e]; simp⟩

theorem Onward.took {t u : State} {es : List Event} (h : Onward s t) (k : Took es t u) : Took es s u := by
  obtain ⟨a, b, e⟩ := k
  obtain ⟨c, hc⟩ := h.trace
  exact ⟨a, b ++ c, by rw [e, ← hc]; simp⟩

theorem Took.infix {t : State} {es : List Event} (h : Took es s t) : es <:+: eventsBetween s t := by
  obtain ⟨a, b, e⟩ := h
  exact ⟨b.reverse, a.reverse, (eventsBetween_of (by rw [e]; simp)).symm⟩

theorem startBlockLoop_spec (par : Params) (n : Nat) (s : State) :
    Ends (startBlockLoop par n) s
      (fun _ t => BusOnly s t ∧ t.cs = s.cs ∧ t.frame = s.frame ∧ t.resp = P.tokenStart ∧
        ∃ before, t.trace = .x par.fill P.tokenStart :: (before ++ s.trace))
      (fun e t => BusOnly s t ∧ t.cs = true ∧ t.frame = s.frame ∧ e = .startBlock) := by
  induction n generalizing s with
  | zero => exact .bind (.update (.throw ⟨setCs_busOnly true s, rfl, rfl, rfl⟩))
  | succ n ih =>
    have hp := poll_busOnly par s
    refine .bind (.bus (.ite (fun _ => .bind (.get (.bind (.bus (.ite (fun _ => ?_) fun _ => ?_))))) fun _ => .ite (fun hb => ?_) fun _ => ?_))
    · have he := hp.trans (expired_busOnly (poll par s).2.deadline (poll par s).2)
      exact .bind (.update (.throw ⟨he.trans (setCs_busOnly true _), rfl, rfl, rfl⟩))
    · have he := hp.trans (expired_busOnly (poll par s).2.deadline (poll par s).2)
      exact (ih _).mono (fun _ t ⟨hb, hc, hf, hr, before, ht⟩ => ⟨he.trans hb, hc, hf, hr, before ++ [.x par.fill (poll par s).1], by
        rw [ht]
        show _ :: (before ++ (Event.x par.fill (poll par s).1 :: s.trace)) = _
        simp⟩)
        (fun _ t h => ⟨he.trans h.1, h.2.1, h.2.2.1, h.2.2.2⟩)
    · exact .pure ⟨hp, rfl, rfl, hb, [], by show Event.x _ (poll par s).1 :: s.trace = _; rw [hb]; rfl⟩
    · exact .bind (.update (.throw ⟨hp.trans (setCs_busOnly true _), rfl, rfl, rfl⟩))

/-- R293: on success chip-select stays as it was and the last byte was the start token; the one error releases
chip-select. -/
theorem waitStartBlock_spec (par : Params) (s : State) :
    Ends (waitStartBlock par) s
      (fun _ t => BusOnly s t ∧ t.cs = s.cs ∧ t.frame = s.frame ∧ t.resp = P.tokenStart ∧
        ∃ before, t.trace = .x par.fill P.tokenStart :: (before ++ s.trace))
      (fun e t => BusOnly s t ∧ t.cs = true ∧ t.frame = s.frame ∧ e = .startBlock) := by
  have hd := startDeadline_busOnly (par.units P.tStart) s
  refine .bind (.update (.bind (.get ((startBlockLoop_spec par _ _).mono ?_ ?_))))
  · exact fun _ t h => ⟨hd.trans h.1, h.2.1, h.2.2.1, h.2.2.2.1, h.2.2.2.2⟩
  · exact fun _ t h => ⟨hd.trans h.1, h.2.1, h.2.2.1, h.2.2.2⟩

/-- R300: 16 bytes behind a start token and before two others, or E_REG_CMD, or E_START_BLOCK; chip-select is released on every way out. -/
theorem readRegister_spec (par : Params) (code : BitVec 6) (s : State) :
    Ends (readRegister par code) s
      (fun img t => BusOnly s t ∧ t.cs = true ∧ t.frame = frameBytes code 0 par.crcDummy ∧ img.length = 16 ∧
        ∃ crc : List Byte, crc.length = 2 ∧ Took (reads par (packet img crc)) s t)
      (fun e t => BusOnly s t ∧ t.cs = true ∧ t.frame = frameBytes code 0 par.crcDummy ∧ (e = .regCmd ∨ e = .startBlock)) := by
  have hc := command_spec par code 0 par.crcDummy s
  refine .bind (.bus (.ite (fun _ => .bind ((waitStartBlock_spec par _).mono ?_ ?_)) fun _ => ?_))
  · rintro _ t ⟨hb, -, hf, -, before, ht⟩
    refine .bind (.bus (.bind (.bus (.bind (.update (.pure ⟨?_, rfl, ?_, xferRead_length par _ _,
      (xferRead par 2 (xferRead par P.regSize t).2).1, xferRead_length par 2 _,
      hc.1.onward.took (.onward ⟨[], before, ?_⟩ (setCs_busOnly true _).onward)⟩))))))
    · exact hc.1.trans (hb.trans ((xferRead_busOnly par _ _).trans ((xferRead_busOnly par _ _).trans (setCs_busOnly _ _))))
    · simpa using hf.trans hc.2.1
    · rw [xferRead_trace, xferRead_trace, ht]
      simp [reads, packet, P.tokenStart]
  · rintro e t ⟨hb, hcs, hf, rfl⟩
    exact ⟨hc.1.trans hb, hcs, hf.trans hc.2.1, .inr rfl⟩
  · exact .bind (.update (.throw ⟨hc.1.trans (setCs_busOnly _ _), rfl, hc.2.1, .inl rfl⟩))

/-! ### Block primitives -/

/-- The block index has a command argument on a card of this class (R170, R330). -/
theorem scaled_spec (b : U32) (s : State) :
    Ends (scaled b) s (fun arg t => s = t ∧ scale s.cardType b = .ok arg)
      (fun e t => s = t ∧ ∃ r, e = .refuse r ∧ scale s.cardType b = .error r) := by
  unfold Ends scaled
  cases scale s.cardType b with
  | ok arg => exact ⟨rfl, rfl⟩
  | error r => exact ⟨rfl, r, rfl, rfl⟩

/-- R331: 512 bytes with chip-select released, or E_PARAM with nothing done, or E_READ_CMD or E_START_BLOCK with
chip-select released; outside the contract exactly when the index has no argument. -/
theorem readBlock_spec (par : Params) (b : U32) (len : Nat) (s : State) :
    Ends (readBlock par b len) s
      (fun d t => BusOnly s t ∧ t.cs = true ∧ d.length = 512 ∧ ∃ arg, scale s.cardType b = .ok arg)
      (fun e t =>
        (e = .err .param ∧ len < 512 ∧ t = s) ∨
        (BusOnly s t ∧ t.cs = true ∧ 512 ≤ len ∧ (e = .err .readCmd ∨ e = .err .startBlock) ∧
          ∃ arg, scale s.cardType b = .ok arg) ∨
        (t = s ∧ ∃ r, e = .refuse r ∧ scale s.cardType b = .error r)) := by
  refine .ite (fun h => .throw (.inl ⟨rfl, h, rfl⟩)) fun hl => .bind ((scaled_spec b s).mono ?_ ?_)
  · rintro arg _ ⟨rfl, ha⟩
    have hc := command_spec par par.cmdReadSingle arg par.crcDummy s
    have hl' : 512 ≤ len := Nat.le_of_not_lt hl
    refine .bind (.bus (.ite (fun _ => .bind (.orFail ((waitStartBlock_spec par _).mono ?_ ?_))) fun _ => ?_))
    · rintro _ t ⟨hb, -, -, -, -⟩
      refine .bind (.bus (.bind (.bus (.bind (.update (.pure ⟨?_, rfl, xferRead_length par _ _, arg, ha⟩))))))
      exact hc.1.trans (hb.trans ((xferRead_busOnly par _ _).trans ((xferRead_busOnly par _ _).trans (setCs_busOnly _ _))))
    · rintro e t ⟨hb, hcs, -, rfl⟩
      exact .inr (.inl ⟨hc.1.trans hb, hcs, hl', .inr rfl, arg, ha⟩)
    · exact .bind (.update (.throw (.inr (.inl ⟨hc.1.trans (setCs_busOnly _ _), rfl, hl', .inl rfl, arg, ha⟩))))
  · rintro e _ ⟨rfl, r, rfl, hr⟩
    exact .inr (.inr ⟨rfl, r, rfl, hr⟩)

/-- R333: on success chip-select stays as it was; the one error releases it. -/
theorem sendDataPacket_spec (par : Params) (token : Byte) (src : List Byte) (s : State) :
    Ends (sendDataPacket par token src) s
      (fun _ t => BusOnly s t ∧ t.cs = s.cs)
      (fun e t => BusOnly s t ∧ t.cs = true ∧ e = .writeDataResp) := by
  have hp := (xferWrite_busOnly (packetBytes par token src) s).trans (poll_busOnly par _)
  refine .bind (.update (.bind (.bus (.ite (fun _ => .update ?_) fun _ => ?_))))
  · have hw := waitNotBusy_spec par (par.units P.tWriteBusy) (poll par (xferWrite (packetBytes par token src) s)).2
    exact ⟨hp.trans hw.1, hw.2.1.trans (by simp)⟩
  · exact .bind (.update (.throw ⟨hp.trans (setCs_busOnly _ _), rfl, rfl⟩))

/-- R332: chip-select is released on every way out but the parameter error, which does nothing. -/
theorem writeBlock_spec (par : Params) (b : U32) (src : List Byte) (s : State) :
    Ends (writeBlock par b src) s
      (fun _ t => BusOnly s t ∧ t.cs = true ∧ ∃ arg, scale s.cardType b = .ok arg)
      (fun e t =>
        (e = .err .param ∧ src.length < 512 ∧ t = s) ∨
        (BusOnly s t ∧ t.cs = true ∧ 512 ≤ src.length ∧ (e = .err .writeCmd ∨ e = .err .writeDataResp) ∧
          ∃ arg, scale s.cardType b = .ok arg) ∨
        (t = s ∧ ∃ r, e = .refuse r ∧ scale s.cardType b = .error r)) := by
  refine .ite (fun h => .throw (.inl ⟨rfl, h, rfl⟩)) fun hl => .bind ((scaled_spec b s).mono ?_ ?_)
  · rintro arg _ ⟨rfl, ha⟩
    have hc := command_spec par par.cmdWriteSingle arg par.crcDummy s
    have hl' : 512 ≤ src.length := Nat.le_of_not_lt hl
    refine .bind (.bus (.ite (fun _ => .bind (.orFail ((sendDataPacket_spec par _ _ _).mono ?_ ?_))) fun _ => ?_))
    · rintro _ t ⟨hb, -⟩
      exact .update ⟨hc.1.trans (hb.trans (setCs_busOnly _ _)), rfl, arg, ha⟩
    · rintro e t ⟨hb, hcs, rfl⟩
      exact .inr (.inl ⟨hc.1.trans hb, hcs, hl', .inr rfl, arg, ha⟩)
    · exact .bind (.update (.throw (.inr (.inl ⟨hc.1.trans (setCs_busOnly _ _), rfl, hl', .inl rfl, arg, ha⟩))))
  · rintro e _ ⟨rfl, r, rfl, hr⟩
    exact .inr (.inr ⟨rfl, r, rfl, hr⟩)

/-- R334: on success the session is open, chip-select low; the one error releases chip-select. -/
theorem writeMultiStart_spec (par : Params) (b : U32) (s : State) :
    Ends (writeMultiStart par b) s
      (fun _ t => BusOnly s t ∧ t.cs = false)
      (fun e t =>
        (BusOnly s t ∧ t.cs = true ∧ e = .err .writeMultiCmd) ∨
        (t = s ∧ ∃ r, e = .refuse r ∧ scale s.cardType b = .error r)) := by
  refine .bind ((scaled_spec b s).mono ?_ ?_)
  · rintro arg _ ⟨rfl, -⟩
    have hc := command_spec par par.cmdWriteMulti arg par.crcDummy s
    refine .bind (.bus (.ite (fun hr => .bind (.bus (.pure ⟨?_, ?_⟩))) fun _ => ?_))
    · exact hc.1.trans (xfer_busOnly _ _)
    · exact hc.2.2.ready hr
    · exact .bind (.update (.throw (.inl ⟨hc.1.trans (setCs_busOnly _ _), rfl, rfl⟩)))
  · rintro e _ ⟨rfl, r, rfl, hr⟩
    exact .inr ⟨rfl, r, rfl, hr⟩

/-- R335. -/
theorem writeMulti_spec (par : Params) (src : List Byte) (s : State) :
    Ends (writeMulti par src) s
      (fun _ t => BusOnly s t ∧ t.cs = s.cs)
      (fun e t => (e = .param ∧ src.length < 512 ∧ t = s) ∨ (BusOnly s t ∧ t.cs = true ∧ e = .writeDataResp)) :=
  .ite (fun h => .throw (.inl ⟨rfl, h, rfl⟩)) fun _ =>
    (sendDataPacket_spec par _ _ _).mono (fun _ _ h => h) fun _ _ h => .inr h

/-- R336: the session ends with chip-select released. -/
theorem writeMultiStop_spec (par : Params) (s : State) : BusOnly s (writeMultiStop par s) ∧ (writeMultiStop par s).cs = true :=
  ⟨(xferWrite_busOnly _ _).trans ((waitNotBusy_spec par _ _).1.trans (setCs_busOnly _ _)), rfl⟩

theorem zeroBlock_length : zeroBlock.length = 512 := List.length_replicate

/-- R337: a failing chunk ends the chunks with chip-select released. -/
theorem zeroChunks_spec (par : Params) (n : Nat) (s : State) :
    Ends (zeroChunks par n) s
      (fun _ t => BusOnly s t ∧ t.cs = s.cs)
      (fun e t => BusOnly s t ∧ t.cs = true ∧ e = .writeDataResp) := by
  induction n generalizing s with
  | zero => exact .pure ⟨.refl s, rfl⟩
  | succ n ih =>
    rw [zeroChunks]
    generalize hz : zeroBlock = z
    have hzl : z.length = 512 := hz ▸ zeroBlock_length
    refine .bind ((writeMulti_spec par z s).mono ?_ ?_)
    · rintro _ t ⟨hb, hcs⟩
      exact (ih t).mono (fun _ u h => ⟨hb.trans h.1, h.2.trans hcs⟩) fun _ u h => ⟨hb.trans h.1, h.2⟩
    · rintro e t (⟨-, hl, -⟩ | h)
      · exact absurd hl (by omega)
      · exact h

/-- R337. -/
theorem eraseSession_spec (par : Params) (b : U32) (n : Nat) (s : State) :
    Ends (eraseSession par b n) s
      (fun _ t => BusOnly s t ∧ t.cs = true)
      (fun e t =>
        (BusOnly s t ∧ t.cs = true ∧ (e = .err .writeMultiCmd ∨ e = .err .writeDataResp)) ∨
        (t = s ∧ ∃ r, e = .refuse r ∧ scale s.cardType b = .error r)) := by
  refine .bind ((writeMultiStart_spec par b s).mono ?_ ?_)
  · rintro _ t ⟨hb, hcs⟩
    refine .bind (.orFail ((zeroChunks_spec par n t).mono ?_ ?_))
    · rintro _ u ⟨hb', -⟩
      exact .update ⟨hb.trans (hb'.trans (writeMultiStop_spec par u).1), (writeMultiStop_spec par u).2⟩
    · rintro e u ⟨hb', hcs', rfl⟩
      exact .inl ⟨hb.trans hb', hcs', .inr rfl⟩
  · rintro e t (⟨hb, hcs, rfl⟩ | h)
    · exact .inl ⟨hb, hcs, .inl rfl⟩
    · exact .inr h

end Sys2Proof.Machine
end

