-- ==== Sys2Proof/Laws/Adapter.lean ====
section
/-! SUPPORT. What the unaligned access adapter can do: how far a transfer has come, what it has left alone, and how
it can end (R360 to R363). -/

namespace Sys2Proof.Machine

variable {s t u : State} {k n i : Nat}

/-- What a transfer leaves alone. -/
structure AdapterOnly (s t : State) : Prop where
  device : SameDevice s t
  init : SameInit s t
  results : SameResults s t
  seq : t.seq = s.seq
  rateSel : t.rateSel = s.rateSel
  lockHeld : t.lockHeld = s.lockHeld
  bufLen : t.bufLen = s.bufLen
  inbox : t.inbox = s.inbox
  grants : t.grants = s.grants
  onward : Onward s t
  locks : lockEvents t = lockEvents s

theorem AdapterOnly.refl (s : State) : AdapterOnly s s :=
  ⟨.refl s, .refl s, .refl s, rfl, rfl, rfl, rfl, rfl, rfl, .refl s, rfl⟩

theorem AdapterOnly.trans (h : AdapterOnly s t) (k : AdapterOnly t u) : AdapterOnly s u :=
  ⟨h.1.trans k.1, h.2.trans k.2, h.3.trans k.3, k.4.trans h.4, k.5.trans h.5, k.6.trans h.6, k.7.trans h.7,
    k.8.trans h.8, k.9.trans h.9, h.10.trans k.10, k.11.trans h.11⟩

theorem AdapterOnly.ofBus (h : BusOnly s t) : AdapterOnly s t :=
  ⟨h.device, h.init, h.results, h.seq, h.rateSel, h.lockHeld, h.bufLen, h.inbox, h.grants, h.onward, h.locks⟩

theorem setScratch_only (d : List Byte) (s : State) : AdapterOnly s (setScratch d s) :=
  ⟨⟨rfl, rfl, rfl, rfl⟩, ⟨rfl, rfl, rfl, rfl, rfl⟩, ⟨rfl, rfl⟩, rfl, rfl, rfl, rfl, rfl, rfl,
    ⟨Nat.le_refl _, List.suffix_refl _, List.suffix_refl _, List.suffix_refl _, rfl⟩, rfl⟩

theorem toBuffer_only (d : List Byte) (s : State) : AdapterOnly s (toBuffer d s) :=
  ⟨⟨rfl, rfl, rfl, rfl⟩, ⟨rfl, rfl, rfl, rfl, rfl⟩, ⟨rfl, rfl⟩, rfl, rfl, rfl, rfl, rfl, rfl,
    ⟨Nat.le_refl _, List.suffix_refl _, List.suffix_refl _, List.suffix_refl _, rfl⟩, rfl⟩

theorem advance_only (k : Nat) (s : State) : AdapterOnly s (advance k s) :=
  ⟨⟨rfl, rfl, rfl, rfl⟩, ⟨rfl, rfl, rfl, rfl, rfl⟩, ⟨rfl, rfl⟩, rfl, rfl, rfl, rfl, rfl, rfl,
    ⟨Nat.le_refl _, List.suffix_refl _, List.suffix_refl _, List.suffix_refl _, rfl⟩, rfl⟩

theorem nextBlock_only (s : State) : AdapterOnly s (nextBlock s) :=
  ⟨⟨rfl, rfl, rfl, rfl⟩, ⟨rfl, rfl, rfl, rfl, rfl⟩, ⟨rfl, rfl⟩, rfl, rfl, rfl, rfl, rfl, rfl,
    ⟨Nat.le_refl _, List.suffix_refl _, List.suffix_refl _, List.suffix_refl _, rfl⟩, rfl⟩

theorem startTransfer_only (off n : Nat) (s : State) : AdapterOnly s (startTransfer off n s) :=
  ⟨⟨rfl, rfl, rfl, rfl⟩, ⟨rfl, rfl, rfl, rfl, rfl⟩, ⟨rfl, rfl⟩, rfl, rfl, rfl, rfl, rfl, rfl,
    ⟨Nat.le_refl _, List.suffix_refl _, List.suffix_refl _, List.suffix_refl _, rfl⟩, rfl⟩

theorem step_buf (k : Nat) (s : State) : (nextBlock (advance k s)).buf = s.buf := rfl

/-! ### The split (R362) -/

theorem headOf_le (off n : Nat) : headOf off n ≤ n := by
  unfold headOf; split <;> omega

theorem headOf_aligned {off : Nat} (h : off % 512 = 0) (n : Nat) : headOf off n = 0 := if_pos h

theorem headOf_cases (off n : Nat) :
    (off % 512 = 0 ∧ headOf off n = 0) ∨ (off % 512 ≠ 0 ∧ headOf off n = min (512 - off % 512) n) := by
  unfold headOf
  by_cases h : off % 512 = 0
  · exact .inl ⟨h, if_pos h⟩
  · exact .inr ⟨h, if_neg h⟩

theorem split_total (off n : Nat) : (split off n).head + 512 * (split off n).full + (split off n).tail = n := by
  have h := headOf_le off n
  simp only [split, P.blockSize]
  omega

/-! ### How far a transfer has come -/

/-- From the start `s` of the body to `t`: `k` bytes are done, `b` is the block to be addressed next, and chip-select,
released at the start, is released between block primitives (R447). -/
structure Reached (k b : Nat) (s t : State) : Prop where
  only : AdapterOnly s t
  cs : s.cs = true → t.cs = true
  done : t.done = k
  rem : t.rem ≤ s.bufLen
  blk : t.blk = BitVec.ofNat 32 b
  sized : Sized s → Sized t

/-- The caller's buffer while the block reads `n` bytes into it: canonical, within its length, and as it was from `k` on. -/
structure Filled (k n : Nat) (s t : State) : Prop where
  wf : s.buf.wf = true → t.buf.wf = true
  within : s.buf.within n = true → t.buf.within n = true
  rest : s.buf.wf = true → ∀ a, k ≤ a → t.buf.read a = s.buf.read a

variable {b : Nat}

theorem Reached.bus (h : Reached k b s t) (hb : BusOnly t u) (hcs : u.cs = true) : Reached k b s u :=
  ⟨h.only.trans (.ofBus hb), fun _ => hcs, hb.transfer.done.trans h.done, hb.transfer.rem ▸ h.rem, hb.transfer.blk.trans h.blk, fun hs =>
    have k := h.sized hs
    ⟨hb.transfer.scratch ▸ k.scratch, hb.frameSize k.frame, hb.init.trail ▸ k.trail, hb.init.regImg ▸ k.regImg⟩⟩

theorem Reached.setScratch (h : Reached k b s t) {d : List Byte} (hd : d.length = 512) : Reached k b s (setScratch d t) :=
  ⟨h.only.trans (setScratch_only d t), h.cs, h.done, h.rem, h.blk, fun hs =>
    have k := h.sized hs
    ⟨hd, k.frame, k.trail, k.regImg⟩⟩

theorem Reached.toBuffer (h : Reached k b s t) (d : List Byte) : Reached k b s (toBuffer d t) :=
  ⟨h.only.trans (toBuffer_only d t), h.cs, h.done, h.rem, h.blk, fun hs =>
    have k := h.sized hs
    ⟨k.scratch, k.frame, k.trail, k.regImg⟩⟩

theorem Reached.advance (h : Reached k b s t) (n : Nat) : Reached (k + n) b s (advance n t) :=
  ⟨h.only.trans (advance_only n t), h.cs, by simp [Machine.advance, h.done], (Nat.sub_le _ _).trans h.rem, h.blk, fun hs =>
    have k := h.sized hs
    ⟨k.scratch, k.frame, k.trail, k.regImg⟩⟩

theorem Reached.nextBlock (h : Reached k b s t) : Reached k (b + 1) s (nextBlock t) :=
  ⟨h.only.trans (nextBlock_only t), h.cs, h.done, h.rem, by simp [Machine.nextBlock, h.blk, BitVec.ofNat_add], fun hs =>
    have k := h.sized hs
    ⟨k.scratch, k.frame, k.trail, k.regImg⟩⟩

theorem Filled.mono (h : Filled k n s t) {k' : Nat} (hk : k ≤ k') : Filled k' n s t :=
  ⟨h.wf, h.within, fun hw a ha => h.rest hw a (Nat.le_trans hk ha)⟩

theorem Filled.same (h : Filled k n s t) (hb : u.buf = t.buf) : Filled k n s u :=
  ⟨fun hw => hb ▸ h.wf hw, fun hw => hb ▸ h.within hw, fun hw a ha => by rw [hb]; exact h.rest hw a ha⟩

/-- The bytes stored are `buf[k .. k + length)`, and no others (R360). -/
theorem Filled.toBuffer (h : Filled k n s t) (hd : t.done = k) {d : List Byte} (hn : k + d.length ≤ n) : Filled (k + d.length) n s (toBuffer d t) := by
  refine ⟨fun hw => Memory.wf_writeBytes (h.wf hw), fun hw => Memory.within_writeBytes (h.within hw) (by omega), ?_⟩
  intro hw a ha
  simp only [Machine.toBuffer, hd]
  rw [Memory.read_writeBytes (h.wf hw), if_neg (by omega)]
  exact h.rest hw a (by omega)

/-! ### Reading -/

/-- The block has a command argument on a card of this class (R330, R170). -/
def HasArg (card : CardType) (b : Nat) : Prop := ∃ arg, scale card (BitVec.ofNat 32 b) = .ok arg

theorem Reached.hasArg (h : Reached k b s t) (ha : ∃ arg, scale t.cardType t.blk = .ok arg) : HasArg s.cardType b := by
  rwa [h.blk, h.only.device.cardType] at ha

/-- One block read between two steps of the adapter. -/
theorem readBlock_reached (par : Params) (h : Reached k b s t) :
    Ends (readBlock par t.blk P.blockSize) t
      (fun d u => Reached k b s u ∧ u.buf = t.buf ∧ d.length = 512 ∧ HasArg s.cardType b)
      (fun e u => (∃ c, (c = .readCmd ∨ c = .startBlock) ∧ e = .err c ∧ HasArg s.cardType b ∧ Reached k b s u ∧
          u.buf = t.buf) ∨
        ∃ r, e = .refuse r ∧ scale s.cardType (BitVec.ofNat 32 b) = .error r) := by
  refine (readBlock_spec par t.blk P.blockSize t).mono ?_ ?_
  · rintro d u ⟨hb, hcs, hl, ha⟩
    exact ⟨h.bus hb hcs, hb.buf, hl, h.hasArg ha⟩
  · rintro e u (⟨-, hl, -⟩ | ⟨hb, hcs, -, rfl | rfl, ha⟩ | ⟨-, r, rfl, hr⟩)
    · exact absurd hl (by decide)
    · exact .inl ⟨_, .inl rfl, rfl, h.hasArg ha, h.bus hb hcs, hb.buf⟩
    · exact .inl ⟨_, .inr rfl, rfl, h.hasArg ha, h.bus hb hcs, hb.buf⟩
    · rw [h.blk, h.only.device.cardType] at hr
      exact .inr ⟨r, rfl, hr⟩

/-- How a reading step at byte `k` and block `b` ends early. -/
def ReadStop (k b n : Nat) (s : State) (e : Stop) (u : State) : Prop :=
  (∃ c, (c = .readCmd ∨ c = .startBlock) ∧ e = .err c ∧ HasArg s.cardType b ∧ Reached k b s u ∧ Filled k n s u) ∨
    ∃ r, e = .refuse r ∧ scale s.cardType (BitVec.ofNat 32 b) = .error r

theorem slice_length {j m : Nat} {d : List Byte} (h : j + m ≤ d.length) : (slice j m d).length = m := by
  simp [slice]; omega

/-- R360: a partial block. -/
theorem readPart_spec (par : Params) (h : Reached k b s t) (hf : Filled k n s t) {j m : Nat} (hj : j + m ≤ 512) (hn : k + m ≤ n) :
    Ends (readPart par j m) t (fun _ u => Reached (k + m) b s u ∧ Filled (k + m) n s u ∧ HasArg s.cardType b)
      (ReadStop k b n s) := by
  refine .bind (.bind (.get (.bind ((readBlock_reached par h).mono ?_ ?_))))
  · rintro d u ⟨hu, hb, hl, ha⟩
    refine .update (.bind (.update (.update ?_)))
    have hs := slice_length (d := d) (hl ▸ hj)
    have hf' := ((hf.same hb).same (u := setScratch d u) rfl).toBuffer hu.done (d := slice j m d) (hs.symm ▸ hn)
    rw [hs] at hf'
    exact ⟨((hu.setScratch hl).toBuffer _).advance m, hf'.same rfl, ha⟩
  · rintro e u (⟨c, hc, rfl, ha, hu, hb⟩ | h')
    · exact .inl ⟨c, hc, rfl, ha, hu, hf.same hb⟩
    · exact .inr h'

theorem hasArg_succ {card : CardType} {m : Nat} (h : HasArg card b) (k : ∀ j, j < m → HasArg card (b + 1 + j)) :
    ∀ j, j < m + 1 → HasArg card (b + j) := by
  rintro (_ | j) hj
  · exact h
  · rw [show b + (j + 1) = b + 1 + j by omega]
    exact k j (by omega)

/-- R360: the whole blocks. -/
theorem readWhole_spec (par : Params) (m : Nat) {k b : Nat} {t : State} (h : Reached k b s t) (hf : Filled k n s t) (hn : k + 512 * m ≤ n) :
    Ends (readWhole par m) t
      (fun _ u => Reached (k + 512 * m) (b + m) s u ∧ Filled (k + 512 * m) n s u ∧ ∀ j, j < m → HasArg s.cardType (b + j))
      (fun e u => ∃ j, j < m ∧ ReadStop (k + 512 * j) (b + j) n s e u) := by
  induction m generalizing k b t with
  | zero => exact .pure ⟨h, hf, fun j hj => absurd hj (Nat.not_lt_zero j)⟩
  | succ m ih =>
    refine .bind (.get (.bind ((readBlock_reached par h).mono ?_ ?_)))
    · rintro d u ⟨hu, hb, hl, ha⟩
      have hf' := (hf.same hb).toBuffer hu.done (d := d) (by omega)
      rw [hl] at hf'
      have hr := ((hu.toBuffer d).advance 512).nextBlock
      refine .bind (.update (.bind (.update (.bind (.update ?_)))))
      refine (ih hr (hf'.same rfl) (by omega)).mono ?_ ?_
      · rintro _ v ⟨hv, fv, av⟩
        rw [show k + 512 + 512 * m = k + 512 * (m + 1) by ring, show b + 1 + m = b + (m + 1) by ring] at hv
        rw [show k + 512 + 512 * m = k + 512 * (m + 1) by ring] at fv
        exact ⟨hv, fv, hasArg_succ ha av⟩
      · rintro e v ⟨j, hj, hv⟩
        refine ⟨j + 1, by omega, ?_⟩
        rwa [show k + 512 + 512 * j = k + 512 * (j + 1) by ring, show b + 1 + j = b + (j + 1) by ring] at hv
    · rintro e u (⟨c, hc, rfl, ha, hu, hb⟩ | h')
      · exact ⟨0, by omega, .inl ⟨c, hc, rfl, ha, hu, hf.same hb⟩⟩
      · exact ⟨0, by omega, .inr h'⟩

/-- How the body of a transfer of `n` bytes at `off` can end early: at a byte count the split allows, before the block
that byte belongs to (R363). -/
def AtStep (off n : Nat) (p : Nat → Nat → Prop) : Prop :=
  ∃ k, k < n ∧ (k = 0 ∨ ∃ j, k = headOf off n + 512 * j) ∧ p k ((off + k) / 512)

theorem startTransfer_reached (off : Nat) {n : Nat} (hn : n ≤ s.bufLen) : Reached 0 (off / 512) s (startTransfer off n s) :=
  ⟨startTransfer_only off n s, id, rfl, hn, rfl, fun h => ⟨h.1, h.2, h.3, h.4⟩⟩

theorem startTransfer_filled (off m : Nat) : Filled 0 n s (startTransfer off m s) := ⟨id, id, fun _ _ _ => rfl⟩

/-- The byte after `head + 512 * j` bytes is the first of a block (R362). -/
theorem block_after (off n j : Nat) (h : headOf off n + 512 * j < n) :
    (off + (headOf off n + 512 * j)) / 512 = off / 512 + (if off % 512 = 0 then 0 else 1) + j := by
  rcases headOf_cases off n with ⟨ho, hh⟩ | ⟨ho, hh⟩
  · rw [if_pos ho]; omega
  · rw [if_neg ho]; omega

theorem head_fits {off n : Nat} : (off % 512) + headOf off n ≤ 512 ∧ headOf off n ≤ n := by
  rcases headOf_cases off n with ⟨ho, hh⟩ | ⟨ho, hh⟩ <;> omega

/-- Every byte of a request lies in a block one of its three parts addresses (R362). -/
theorem hasArg_all {card : CardType} {off n : Nat} (head : off % 512 ≠ 0 → HasArg card (off / 512))
    (full : ∀ j, j < (split off n).full → HasArg card (off / 512 + (if off % 512 = 0 then 0 else 1) + j))
    (tail : (split off n).tail ≠ 0 → HasArg card (off / 512 + (if off % 512 = 0 then 0 else 1) + (split off n).full)) :
    ∀ a, a < n → HasArg card ((off + a) / 512) := by
  intro a ha
  have ht := split_total off n
  have hfit := head_fits (off := off) (n := n)
  rw [show (split off n).head = headOf off n from rfl] at ht
  have hl : (split off n).tail < 512 := Nat.mod_lt _ (by decide)
  generalize (split off n).full = f at *
  generalize (split off n).tail = r at *
  by_cases hh : a < headOf off n
  · have ho : off % 512 ≠ 0 := fun h => by rw [headOf_aligned h] at hh; omega
    rw [show (off + a) / 512 = off / 512 by omega]
    exact head ho
  · have hb := block_after off n ((a - headOf off n) / 512) (by omega)
    have he : (off + a) / 512 = (off + (headOf off n + 512 * ((a - headOf off n) / 512))) / 512 := by
      rcases headOf_cases off n with ⟨ho, hz⟩ | ⟨ho, hz⟩ <;> omega
    rw [he, hb]
    by_cases hf : (a - headOf off n) / 512 < f
    · exact full _ hf
    · rw [show (a - headOf off n) / 512 = f by omega]
      exact tail (by omega)

/-- R360: the body of `ReadAt` transfers every byte, or stops at one of its steps. -/
theorem readBody_spec (par : Params) (off n : Nat) (s : State) (hn : n ≤ s.bufLen) (h0 : n = 0 → off % 512 = 0) :
    Ends (readBody par off n) s (fun _ u => (∃ b, Reached n b s u) ∧ Filled n n s u ∧ ∀ a, a < n → HasArg s.cardType ((off + a) / 512))
      (fun e u => AtStep off n (fun k b => ReadStop k b n s e u)) := by
  have ht := split_total off n
  have hfit := head_fits (off := off) (n := n)
  have hpos : off % 512 ≠ 0 → 0 < headOf off n := by
    rcases headOf_cases off n with ⟨ho, hh⟩ | ⟨ho, hh⟩ <;> omega
  have hl512 : (split off n).tail < 512 := Nat.mod_lt _ (by decide)
  rw [show (split off n).head = headOf off n from rfl] at ht
  refine .bind (.update (.seq (R := fun _ t => Reached (headOf off n) (off / 512 + (if off % 512 = 0 then 0 else 1)) s t ∧
    Filled (headOf off n) n s t ∧ (off % 512 ≠ 0 → HasArg s.cardType (off / 512))) ?_ fun _ t ⟨h1, f1, a1⟩ =>
      .seq ((readWhole_spec par (split off n).full h1 f1 (by omega)).mono (fun _ _ h => h) ?_)
    fun _ u ⟨h2, f2, a2⟩ => ?_))
  · refine .ite (fun hb => ?_) fun hb => ?_
    · have hb' : off % 512 = 0 := hb
      rw [if_pos hb', headOf_aligned hb']
      exact .pure ⟨startTransfer_reached off hn, startTransfer_filled off n, fun h => absurd hb' h⟩
    · have hb' : off % 512 ≠ 0 := hb
      rw [if_neg hb']
      have hp := readPart_spec (n := n) par (startTransfer_reached (s := s) off hn) (startTransfer_filled off n)
        (j := off % 512) (m := headOf off n) hfit.1 (by omega)
      refine .seq (hp.mono (fun _ _ h => h) ?_) fun _ v ⟨hv, fv, av⟩ => .update ⟨?_, ?_, fun _ => av⟩
      · intro e v hv
        have := hpos hb'
        exact ⟨0, by omega, .inl rfl, hv⟩
      · have := hv.nextBlock
        rwa [Nat.zero_add] at this
      · have := fv.same (u := nextBlock v) rfl
        rwa [Nat.zero_add] at this
  · rintro e u ⟨j, hj, hu⟩
    have hlt : headOf off n + 512 * j < n := by omega
    refine ⟨_, hlt, .inr ⟨j, rfl⟩, ?_⟩
    rw [block_after off n j hlt]
    exact hu
  · refine .ite (fun hz => .pure ?_) fun hz => ?_
    · rw [show headOf off n + 512 * (split off n).full = n by omega] at h2 f2
      exact ⟨⟨_, h2⟩, f2, hasArg_all a1 a2 fun h => absurd hz h⟩
    · refine (readPart_spec par h2 f2 (j := 0) (m := (split off n).tail) (by omega) (by omega)).mono ?_ ?_
      · rintro _ v ⟨hv, fv, av⟩
        rw [show headOf off n + 512 * (split off n).full + (split off n).tail = n by omega] at hv fv
        exact ⟨⟨_, hv⟩, fv, hasArg_all a1 a2 fun _ => av⟩
      · intro e v hv
        have hlt : headOf off n + 512 * (split off n).full < n := by omega
        refine ⟨_, hlt, .inr ⟨_, rfl⟩, ?_⟩
        rw [block_after off n _ hlt]
        exact hv

/-! ### Writing -/

/-- One block written between two steps of the adapter. -/
theorem writeBlock_reached (par : Params) (h : Reached k b s t) {src : List Byte} (hl : src.length = 512) :
    Ends (writeBlock par t.blk src) t
      (fun _ u => Reached k b s u ∧ u.buf = t.buf ∧ HasArg s.cardType b)
      (fun e u => (∃ c, (c = .writeCmd ∨ c = .writeDataResp) ∧ e = .err c ∧ HasArg s.cardType b ∧ Reached k b s u ∧
          u.buf = t.buf) ∨
        ∃ r, e = .refuse r ∧ scale s.cardType (BitVec.ofNat 32 b) = .error r) := by
  refine (writeBlock_spec par t.blk src t).mono ?_ ?_
  · rintro _ u ⟨hb, hcs, ha⟩
    exact ⟨h.bus hb hcs, hb.buf, h.hasArg ha⟩
  · rintro e u (⟨-, hl', -⟩ | ⟨hb, hcs, -, rfl | rfl, ha⟩ | ⟨-, r, rfl, hr⟩)
    · omega
    · exact .inl ⟨_, .inl rfl, rfl, h.hasArg ha, h.bus hb hcs, hb.buf⟩
    · exact .inl ⟨_, .inr rfl, rfl, h.hasArg ha, h.bus hb hcs, hb.buf⟩
    · rw [h.blk, h.only.device.cardType] at hr
      exact .inr ⟨r, rfl, hr⟩

/-- How a writing step at byte `k` and block `b` ends early. -/
def WriteStop (k b : Nat) (s : State) (e : Stop) (u : State) : Prop :=
  (∃ c, (c = .readCmd ∨ c = .startBlock ∨ c = .writeCmd ∨ c = .writeDataResp) ∧ e = .err c ∧
      HasArg s.cardType b ∧ Reached k b s u ∧ u.buf = s.buf) ∨
    ∃ r, e = .refuse r ∧ scale s.cardType (BitVec.ofNat 32 b) = .error r

theorem patch_length {j : Nat} {src d : List Byte} (h : j + src.length ≤ d.length) : (patch j src d).length = d.length := by
  simp [patch]; omega

/-- R361: a partial block, read, patched and written back. -/
theorem writePart_spec (par : Params) (h : Reached k b s t) (hb : t.buf = s.buf) {j m : Nat} (hj : j + m ≤ 512) :
    Ends (writePart par j m) t (fun _ u => Reached (k + m) b s u ∧ u.buf = s.buf ∧ HasArg s.cardType b)
      (WriteStop k b s) := by
  refine .bind (.bind (.get (.bind ((readBlock_reached par h).mono ?_ ?_))))
  · rintro d u ⟨hu, hub, hl, ha⟩
    refine .update (.bind (.update (.bind (.get (.bind ?_)))))
    have hp : (patch j (fromBuffer m (setScratch d u)) d).length = 512 :=
      (patch_length (by simpa [fromBuffer, hl] using hj)).trans hl
    refine (writeBlock_reached par ((hu.setScratch hl).setScratch hp) hp).mono ?_ ?_
    · rintro _ v ⟨hv, hvb, -⟩
      exact .update ⟨hv.advance m, hvb.trans (hub.trans hb), ha⟩
    · rintro e v (⟨c, hc, rfl, -, hv, hvb⟩ | h')
      · exact .inl ⟨c, by tauto, rfl, ha, hv, hvb.trans (hub.trans hb)⟩
      · exact .inr h'
  · rintro e u (⟨c, hc, rfl, ha, hu, hub⟩ | h')
    · exact .inl ⟨c, by tauto, rfl, ha, hu, hub.trans hb⟩
    · exact .inr h'

/-- R361: the whole blocks. -/
theorem writeWhole_spec (par : Params) (m : Nat) {k b : Nat} {t : State} (h : Reached k b s t) (hb : t.buf = s.buf) :
    Ends (writeWhole par m) t
      (fun _ u => Reached (k + 512 * m) (b + m) s u ∧ u.buf = s.buf ∧ ∀ j, j < m → HasArg s.cardType (b + j))
      (fun e u => ∃ j, j < m ∧ WriteStop (k + 512 * j) (b + j) s e u) := by
  induction m generalizing k b t with
  | zero => exact .pure ⟨h, hb, fun j hj => absurd hj (Nat.not_lt_zero j)⟩
  | succ m ih =>
    have hl : (fromBuffer P.blockSize t).length = 512 := by simp [fromBuffer, P.blockSize]
    rw [writeWhole]
    refine Ends.getBind ?_
    generalize fromBuffer P.blockSize t = src at hl ⊢
    refine .bind ((writeBlock_reached par h hl).mono ?_ ?_)
    · rintro _ u ⟨hu, hub, ha⟩
      refine .bind (.update (.bind (.update ?_)))
      have hr : Reached (k + 512) (b + 1) s (nextBlock (advance P.blockSize u)) := (hu.advance P.blockSize).nextBlock
      refine (ih hr ((step_buf P.blockSize u).trans (hub.trans hb))).mono ?_ ?_
      · rintro _ v ⟨hv, fv, av⟩
        rw [show k + 512 + 512 * m = k + 512 * (m + 1) by ring, show b + 1 + m = b + (m + 1) by ring] at hv
        exact ⟨hv, fv, hasArg_succ ha av⟩
      · rintro e v ⟨j, hj, hv⟩
        refine ⟨j + 1, by omega, ?_⟩
        rwa [show k + 512 + 512 * j = k + 512 * (j + 1) by ring, show b + 1 + j = b + (j + 1) by ring] at hv
    · rintro e u (⟨c, hc, rfl, ha, hu, hub⟩ | h')
      · exact ⟨0, by omega, .inl ⟨c, by tauto, rfl, ha, hu, hub.trans hb⟩⟩
      · exact ⟨0, by omega, .inr h'⟩

/-- R361: the body of `WriteAt` transfers every byte, or stops at one of its steps; the caller's buffer "is only read". -/
theorem writeBody_spec (par : Params) (off n : Nat) (s : State) (hn : n ≤ s.bufLen) (h0 : n = 0 → off % 512 = 0) :
    Ends (writeBody par off n) s (fun _ u => (∃ b, Reached n b s u) ∧ u.buf = s.buf ∧ ∀ a, a < n → HasArg s.cardType ((off + a) / 512))
      (fun e u => AtStep off n (fun k b => WriteStop k b s e u)) := by
  have ht := split_total off n
  have hfit := head_fits (off := off) (n := n)
  have hpos : off % 512 ≠ 0 → 0 < headOf off n := by
    rcases headOf_cases off n with ⟨ho, hh⟩ | ⟨ho, hh⟩ <;> omega
  have hl512 : (split off n).tail < 512 := Nat.mod_lt _ (by decide)
  rw [show (split off n).head = headOf off n from rfl] at ht
  refine .bind (.update (.seq (R := fun _ t => Reached (headOf off n) (off / 512 + (if off % 512 = 0 then 0 else 1)) s t ∧
    t.buf = s.buf ∧ (off % 512 ≠ 0 → HasArg s.cardType (off / 512))) ?_ fun _ t ⟨h1, f1, a1⟩ =>
      .seq ((writeWhole_spec par (split off n).full h1 f1).mono (fun _ _ h => h) ?_)
    fun _ u ⟨h2, f2, a2⟩ => ?_))
  · refine .ite (fun hb => ?_) fun hb => ?_
    · have hb' : off % 512 = 0 := hb
      rw [if_pos hb', headOf_aligned hb']
      exact .pure ⟨startTransfer_reached off hn, rfl, fun h => absurd hb' h⟩
    · have hb' : off % 512 ≠ 0 := hb
      rw [if_neg hb']
      have hp := writePart_spec par (startTransfer_reached (s := s) off hn) rfl (j := off % 512) (m := headOf off n) hfit.1
      refine .seq (hp.mono (fun _ _ h => h) ?_) fun _ v ⟨hv, fv, av⟩ => .update ⟨?_, fv, fun _ => av⟩
      · intro e v hv
        have := hpos hb'
        exact ⟨0, by omega, .inl rfl, hv⟩
      · have := hv.nextBlock
        rwa [Nat.zero_add] at this
  · rintro e u ⟨j, hj, hu⟩
    have hlt : headOf off n + 512 * j < n := by omega
    refine ⟨_, hlt, .inr ⟨j, rfl⟩, ?_⟩
    rw [block_after off n j hlt]
    exact hu
  · refine .ite (fun hz => .pure ?_) fun hz => ?_
    · rw [show headOf off n + 512 * (split off n).full = n by omega] at h2
      exact ⟨⟨_, h2⟩, f2, hasArg_all a1 a2 fun h => absurd hz h⟩
    · refine (writePart_spec par h2 f2 (j := 0) (m := (split off n).tail) (by omega)).mono ?_ ?_
      · rintro _ v ⟨hv, fv, av⟩
        rw [show headOf off n + 512 * (split off n).full + (split off n).tail = n by omega] at hv
        exact ⟨⟨_, hv⟩, fv, hasArg_all a1 a2 fun _ => av⟩
      · intro e v hv
        have hlt : headOf off n + 512 * (split off n).full < n := by omega
        refine ⟨_, hlt, .inr ⟨_, rfl⟩, ?_⟩
        rw [block_after off n _ hlt]
        exact hv

/-! ### Bytes of a patched block -/

/-- The bytes of a block after a part of it has been replaced (R361, R176). -/
theorem patch_bytes {j : Nat} {src old : List Byte} (hj : j + src.length ≤ old.length) (i : Nat) :
    (patch j src old).getD i 0 =
      if j ≤ i ∧ i < j + src.length then src.getD (i - j) 0 else old.getD i 0 := by
  simp only [patch, List.getD, List.append_assoc]
  by_cases h : i < j
  · rw [if_neg (by omega), List.getElem?_append_left (by rw [List.length_take]; omega), List.getElem?_take_of_lt h]
  · rw [List.getElem?_append_right (by rw [List.length_take]; omega), List.length_take, Nat.min_eq_left (by omega)]
    by_cases h' : i < j + src.length
    · rw [if_pos ⟨by omega, h'⟩, List.getElem?_append_left (by omega)]
    · rw [if_neg (by omega), List.getElem?_append_right (by omega), List.getElem?_drop]
      congr 2
      omega

theorem step_miso (k : Nat) (s : State) : (nextBlock (advance k s)).miso = s.miso := rfl
theorem step_trace (k : Nat) (s : State) : (nextBlock (advance k s)).trace = s.trace := rfl
theorem step_cs (k : Nat) (s : State) : (nextBlock (advance k s)).cs = s.cs := rfl
theorem step_done (k : Nat) (s : State) : (nextBlock (advance k s)).done = s.done + k := rfl
theorem toBuffer_miso (d : List Byte) (s : State) : (toBuffer d s).miso = s.miso := rfl

end Sys2Proof.Machine
end

