-- ==== Sys2Proof/Laws/Init.lean ====
section
/-! SUPPORT. What the eight states of `Configure` can do: one lemma each, and one for the whole sequence. -/

namespace Sys2Proof.Machine

variable {s t u : State}

/-- What the initialization sequence leaves alone. -/
structure InitOnly (s t : State) : Prop where
  transfer : SameTransfer s t
  results : SameResults s t
  phase : t.phase = s.phase
  lockHeld : t.lockHeld = s.lockHeld
  buf : t.buf = s.buf
  bufLen : t.bufLen = s.bufLen
  inbox : t.inbox = s.inbox
  grants : t.grants = s.grants
  onward : Onward s t
  locks : lockEvents t = lockEvents s
  sized : Sized s → Sized t

theorem InitOnly.refl (s : State) : InitOnly s s :=
  ⟨.refl s, .refl s, rfl, rfl, rfl, rfl, rfl, rfl, .refl s, rfl, id⟩

theorem InitOnly.trans (h : InitOnly s t) (k : InitOnly t u) : InitOnly s u :=
  ⟨h.1.trans k.1, h.2.trans k.2, k.3.trans h.3, k.4.trans h.4, k.5.trans h.5, k.6.trans h.6, k.7.trans h.7,
    k.8.trans h.8, h.9.trans k.9, k.locks.trans h.locks, fun hs => k.sized (h.sized hs)⟩

theorem InitOnly.ofBus (h : BusOnly s t) : InitOnly s t :=
  ⟨h.transfer, h.results, h.device.phase, h.lockHeld, h.buf, h.bufLen, h.inbox, h.grants, h.onward, h.locks,
    fun hs => ⟨h.transfer.scratch ▸ hs.scratch, h.frameSize hs.frame, h.init.trail ▸ hs.trail, h.init.regImg ▸ hs.regImg⟩⟩

/-- What stands while no state of the sequence classifies the card, commits registers or moves on. -/
structure SameCard (s t : State) : Prop where
  cardType : t.cardType = s.cardType
  cid : t.cid = s.cid
  csd : t.csd = s.csd
  rateSel : t.rateSel = s.rateSel

theorem SameCard.refl (s : State) : SameCard s s := ⟨rfl, rfl, rfl, rfl⟩

theorem SameCard.trans (h : SameCard s t) (k : SameCard t u) : SameCard s u :=
  ⟨k.1.trans h.1, k.2.trans h.2, k.3.trans h.3, k.4.trans h.4⟩

theorem SameCard.ofBus (h : BusOnly s t) : SameCard s t :=
  ⟨h.device.cardType, h.device.cid, h.device.csd, h.rateSel⟩

theorem command_init (par : Params) (code : BitVec 6) (arg : U32) (crc : Byte) (s : State) :
    InitOnly s (command par code arg crc s).2 ∧ SameCard s (command par code arg crc s).2 := by
  have h := command_spec par code arg crc s
  exact ⟨.ofBus h.1, .ofBus h.1⟩

theorem appCommand_init (par : Params) (code : BitVec 6) (arg : U32) (s : State) :
    InitOnly s (appCommand par code arg s).2 ∧ SameCard s (appCommand par code arg s).2 := by
  have h := appCommand_spec par code arg s
  exact ⟨.ofBus h.1, .ofBus h.1⟩

/-! ### The retry loops -/

theorem retryLoop_spec {attempt : State → Byte × State} {good : Byte → Bool} {err : ErrCode}
    (ha : ∀ s, InitOnly s (attempt s).2 ∧ SameCard s (attempt s).2) (n : Nat) (s : State) :
    Ends (retryLoop attempt good err n) s (fun _ t => InitOnly s t ∧ SameCard s t)
      (fun e t => InitOnly s t ∧ SameCard s t ∧ e = err) := by
  induction n generalizing s with
  | zero => exact .throw ⟨.refl s, .refl s, rfl⟩
  | succ n ih =>
    have h := ha s
    refine .bind (.bus (.ite (fun _ => .pure h) fun _ => .bind (.get (.bind (.bus ?_)))))
    have he := expired_busOnly (attempt s).2.loopDeadline (attempt s).2
    have h1 := h.1.trans (.ofBus he)
    have h2 := h.2.trans (.ofBus he)
    refine .ite (fun _ => .throw ⟨h1, h2, rfl⟩) fun _ => (ih _).mono ?_ ?_
    · exact fun _ t k => ⟨h1.trans k.1, h2.trans k.2⟩
    · exact fun _ t k => ⟨h1.trans k.1, h2.trans k.2.1, k.2.2⟩

theorem startLoopDeadline_init (T : Nat) (s : State) :
    InitOnly s (startLoopDeadline T s) ∧ SameCard s (startLoopDeadline T s) :=
  have k := (now_busOnly s).onward
  ⟨⟨⟨rfl, rfl, rfl, rfl, rfl⟩, ⟨rfl, rfl⟩, rfl, rfl, rfl, rfl, rfl, rfl, ⟨k.1, k.2, k.3, k.4, k.5⟩, rfl, fun h => ⟨h.1, h.2, h.3, h.4⟩⟩,
    rfl, rfl, rfl, rfl⟩

theorem retryUntil_spec {attempt : State → Byte × State} {good : Byte → Bool} {err : ErrCode}
    (ha : ∀ s, InitOnly s (attempt s).2 ∧ SameCard s (attempt s).2) (T : Nat) (s : State) :
    Ends (retryUntil T attempt good err) s (fun _ t => InitOnly s t ∧ SameCard s t)
      (fun e t => InitOnly s t ∧ SameCard s t ∧ e = err) := by
  have h := startLoopDeadline_init T s
  refine .bind (.update (.bind (.get ((retryLoop_spec ha _ _).mono ?_ ?_))))
  · exact fun _ t k => ⟨h.1.trans k.1, h.2.trans k.2⟩
  · exact fun _ t k => ⟨h.1.trans k.1, h.2.trans k.2.1, k.2.2⟩

/-! ### The states -/

theorem setSeq_init (q : Seq) (s : State) : InitOnly s (setSeq q s) ∧ SameCard s (setSeq q s) :=
  ⟨⟨⟨rfl, rfl, rfl, rfl, rfl⟩, ⟨rfl, rfl⟩, rfl, rfl, rfl, rfl, rfl, rfl, ⟨Nat.le_refl _, List.suffix_refl _, List.suffix_refl _,
    List.suffix_refl _, rfl⟩, rfl, fun h => ⟨h.1, h.2, h.3, h.4⟩⟩, rfl, rfl, rfl, rfl⟩

theorem setCardType_init (v : CardType) (s : State) : InitOnly s (setCardType v s) :=
  ⟨⟨rfl, rfl, rfl, rfl, rfl⟩, ⟨rfl, rfl⟩, rfl, rfl, rfl, rfl, rfl, rfl, ⟨Nat.le_refl _, List.suffix_refl _, List.suffix_refl _,
    List.suffix_refl _, rfl⟩, rfl, fun h => ⟨h.1, h.2, h.3, h.4⟩⟩

theorem setTrail_init {tr : List Byte} (h : tr.length = 4) (s : State) :
    InitOnly s { s with trail := tr } ∧ SameCard s { s with trail := tr } :=
  ⟨⟨⟨rfl, rfl, rfl, rfl, rfl⟩, ⟨rfl, rfl⟩, rfl, rfl, rfl, rfl, rfl, rfl, ⟨Nat.le_refl _, List.suffix_refl _, List.suffix_refl _,
    List.suffix_refl _, rfl⟩, rfl, fun k => ⟨k.1, k.2, h, k.4⟩⟩, rfl, rfl, rfl, rfl⟩

/-- R261: no failure is possible. -/
theorem s1Prime_spec (par : Params) (s : State) :
    Ends (s1Prime par) s (fun _ t => InitOnly s t ∧ SameCard s t ∧ t.seq = .s2Idle ∧ t.cs = true) (fun _ _ => False) := by
  have hb := (setCs_busOnly true s).trans (xferWrite_busOnly (List.replicate par.nPrime P.allOnes) (setCs true s))
  refine .bind (.update (.bind (.update (.update ⟨?_, ?_, rfl, ?_⟩))))
  · exact (InitOnly.ofBus hb).trans (setSeq_init _ _).1
  · exact (SameCard.ofBus hb).trans (setSeq_init _ _).2
  · simp

/-- R262. -/
theorem s2Idle_spec (par : Params) (s : State) :
    Ends (s2Idle par) s (fun _ t => InitOnly s t ∧ SameCard s t ∧ t.seq = .s3Probe)
      (fun e t => InitOnly s t ∧ SameCard s t ∧ e = .noCard) := by
  refine .bind ((retryUntil_spec (command_init par _ _ _) _ _).mono ?_ fun _ _ h => h)
  exact fun _ t h => .update ⟨h.1.trans (setSeq_init _ t).1, h.2.trans (setSeq_init _ t).2, rfl⟩

/-- What the initialization sequence keeps besides `InitOnly` once the card may be classified. -/
structure SameRegs (s t : State) : Prop where
  cid : t.cid = s.cid
  csd : t.csd = s.csd
  rateSel : t.rateSel = s.rateSel

theorem SameCard.regs (h : SameCard s t) : SameRegs s t := ⟨h.cid, h.csd, h.rateSel⟩

theorem SameRegs.trans (h : SameRegs s t) (k : SameRegs t u) : SameRegs s u :=
  ⟨k.1.trans h.1, k.2.trans h.2, k.3.trans h.3⟩

/-- R263. -/
theorem s3Probe_spec (par : Params) (s : State) :
    Ends (s3Probe par) s (fun _ t => InitOnly s t ∧ SameRegs s t ∧ t.cardType = .sd2 ∧ t.seq = .s4OpCond)
      (fun e t => InitOnly s t ∧ SameRegs s t ∧
        (e = .legacyNotImplemented ∧ t.cardType = .sd1 ∨ e = .ifCondMismatch ∧ t.cardType = s.cardType)) := by
  have hc := command_init par par.cmdIfCond par.ifCondArg par.crcIfCond s
  refine .bind (.bus (.ite (fun _ => .bind (.update (.throw ⟨?_, ?_, .inl ⟨rfl, rfl⟩⟩))) fun _ => .bind (.bus (.bind (.update ?_)))))
  · exact hc.1.trans (setCardType_init _ _)
  · exact ⟨hc.2.cid, hc.2.csd, hc.2.rateSel⟩
  · have hr := xferRead_busOnly par 4 (command par par.cmdIfCond par.ifCondArg par.crcIfCond s).2
    have h4 := setTrail_init (xferRead_length par 4 (command par par.cmdIfCond par.ifCondArg par.crcIfCond s).2)
      (xferRead par 4 (command par par.cmdIfCond par.ifCondArg par.crcIfCond s).2).2
    have h1 := hc.1.trans ((InitOnly.ofBus hr).trans h4.1)
    have h2 := hc.2.trans ((SameCard.ofBus hr).trans h4.2)
    refine .ite (fun _ => .bind (.update (.update ⟨?_, ?_, rfl, rfl⟩))) fun _ => .throw ⟨h1, h2.regs, .inr ⟨rfl, h2.cardType⟩⟩
    · exact h1.trans ((setCardType_init _ _).trans (setSeq_init _ _).1)
    · exact ⟨h2.cid, h2.csd, h2.rateSel⟩

/-- R264. -/
theorem s4OpCond_spec (par : Params) (s : State) :
    Ends (s4OpCond par) s (fun _ t => InitOnly s t ∧ SameCard s t ∧ t.seq = .s5Ocr)
      (fun e t => InitOnly s t ∧ SameCard s t ∧ e = .opCondTimeout) := by
  refine .bind (.get (.bind ((retryUntil_spec (appCommand_init par _ _) _ _).mono ?_ fun _ _ h => h)))
  exact fun _ t h => .update ⟨h.1.trans (setSeq_init _ t).1, h.2.trans (setSeq_init _ t).2, rfl⟩

/-- The body of S5 (R265). -/
theorem s5ReadOcr_spec (par : Params) (s : State) (hs : s.cardType = .sd2) :
    Ends (s5ReadOcr par) s (fun _ t => InitOnly s t ∧ SameRegs s t ∧ (t.cardType = .sd2 ∨ t.cardType = .sdhc))
      (fun e t => InitOnly s t ∧ SameRegs s t ∧ e = .ocrCmd ∧ t.cardType = .sd2) := by
  have hc := command_init par par.cmdReadOcr 0 par.crcDummy s
  refine .bind (.bus (.ite (fun _ => ?_) fun _ => .throw ⟨hc.1, hc.2.regs, rfl, hc.2.cardType.trans hs⟩))
  generalize hu : (command par par.cmdReadOcr 0 par.crcDummy s).2 = u at hc
  have hx := xfer_busOnly par.fill u
  have h1 := hc.1.trans (InitOnly.ofBus hx)
  have h2 := hc.2.trans (SameCard.ofBus hx)
  refine .bind (.bus (.bind (.update (.bind (.bus (.update ?_))))))
  generalize hb : (xfer par.fill u).1 = b
  generalize hv : (xfer par.fill u).2 = v at h1 h2
  have hk : InitOnly v (classifyOcr b v) ∧ SameRegs v (classifyOcr b v) ∧
      ((classifyOcr b v).cardType = v.cardType ∨ (classifyOcr b v).cardType = .sdhc) := by
    unfold classifyOcr
    split
    · exact ⟨setCardType_init _ _, ⟨rfl, rfl, rfl⟩, .inr rfl⟩
    · exact ⟨.refl v, ⟨rfl, rfl, rfl⟩, .inl rfl⟩
  generalize classifyOcr b v = w at hk
  have hr := xferRead_busOnly par 3 w
  have h4 := setTrail_init (tr := b :: (xferRead par 3 w).1) (by simp) (xferRead par 3 w).2
  refine ⟨h1.trans (hk.1.trans ((InitOnly.ofBus hr).trans h4.1)),
    h2.regs.trans (hk.2.1.trans ((SameCard.ofBus hr).trans h4.2).regs), ?_⟩
  have e : ({ (xferRead par 3 w).2 with trail := b :: (xferRead par 3 w).1 } : State).cardType = w.cardType := hr.device.cardType
  rw [e]
  rcases hk.2.2 with k | k
  · exact .inl (k.trans (h2.cardType.trans hs))
  · exact .inr k

/-- R265, for a card classified SD2 by S3. -/
theorem s5Ocr_spec (par : Params) (s : State) (hs : s.cardType = .sd2) :
    Ends (s5Ocr par) s (fun _ t => InitOnly s t ∧ SameRegs s t ∧ (t.cardType = .sd2 ∨ t.cardType = .sdhc) ∧ t.seq = .s6BlockLen)
      (fun e t => InitOnly s t ∧ SameRegs s t ∧ e = .ocrCmd ∧ t.cardType = .sd2) := by
  refine .bind (.bind (.get (.ite (fun _ => (s5ReadOcr_spec par s hs).mono ?_ fun _ _ h => h) fun h => absurd hs h)))
  exact fun _ t h => .update ⟨h.1.trans (setSeq_init _ t).1, h.2.1.trans (setSeq_init _ t).2.regs, h.2.2, rfl⟩

/-- R266. -/
theorem s6BlockLen_spec (par : Params) (s : State) :
    Ends (s6BlockLen par) s (fun _ t => InitOnly s t ∧ SameCard s t ∧ t.seq = .s7Regs)
      (fun e t => InitOnly s t ∧ SameCard s t ∧ e = .blockLenCmd) := by
  have hc := command_init par par.cmdSetBlockLen P.blockLenArg par.crcDummy s
  refine .bind (.bus (.ite (fun _ => .update ⟨?_, ?_, rfl⟩) fun _ => .throw ⟨hc.1, hc.2, rfl⟩))
  · exact hc.1.trans (setSeq_init _ _).1
  · exact hc.2.trans (setSeq_init _ _).2

theorem takeCid_init {img : List Byte} (h : img.length = 16) (s : State) :
    InitOnly s (takeCid img s) ∧ SameCard s (takeCid img s) :=
  ⟨⟨⟨rfl, rfl, rfl, rfl, rfl⟩, ⟨rfl, rfl⟩, rfl, rfl, rfl, rfl, rfl, rfl, ⟨Nat.le_refl _, List.suffix_refl _, List.suffix_refl _,
    List.suffix_refl _, rfl⟩, rfl, fun k => ⟨k.1, k.2, k.3, h⟩⟩, rfl, rfl, rfl, rfl⟩

theorem takeCsd_init {img : List Byte} (h : img.length = 16) (s : State) :
    InitOnly s (takeCsd img s) ∧ SameCard s (takeCsd img s) :=
  ⟨⟨⟨rfl, rfl, rfl, rfl, rfl⟩, ⟨rfl, rfl⟩, rfl, rfl, rfl, rfl, rfl, rfl, ⟨Nat.le_refl _, List.suffix_refl _, List.suffix_refl _,
    List.suffix_refl _, rfl⟩, rfl, fun k => ⟨k.1, k.2, k.3, h⟩⟩, rfl, rfl, rfl, rfl⟩

/-- The registers committed at `t` are the two images received since `s`, CID and CSD (R267, R304, R305). -/
structure Fetched (par : Params) (s t : State) : Prop where
  cid : ∃ img crc : List Byte, img.length = 16 ∧ crc.length = 2 ∧ t.cid = decodeCid img ∧ Took (reads par (packet img crc)) s t
  csd : t.csd = decodeCsd t.regImg
  image : t.regImg.length = 16 ∧ ∃ crc : List Byte, crc.length = 2 ∧ Took (reads par (packet t.regImg crc)) s t

theorem Fetched.onward {par : Params} (h : Fetched par s t) (k : Onward t u) (hc : u.cid = t.cid) (hd : u.csd = t.csd)
    (hr : u.regImg = t.regImg) : Fetched par s u := by
  obtain ⟨⟨img, crc, h1, h2, h3, h4⟩, h5, h6, crc', h7, h8⟩ := h
  exact ⟨⟨img, crc, h1, h2, hc.trans h3, h4.onward k⟩, by rw [hd, hr, h5], by rw [hr]; exact h6, crc', h7,
    by rw [hr]; exact h8.onward k⟩

theorem Onward.fetched {par : Params} (h : Onward s t) (k : Fetched par t u) : Fetched par s u := by
  obtain ⟨⟨img, crc, h1, h2, h3, h4⟩, h5, h6, crc', h7, h8⟩ := k
  exact ⟨⟨img, crc, h1, h2, h3, h.took h4⟩, h5, h6, crc', h7, h.took h8⟩

/-- R267: CID and CSD are committed together, or neither is. -/
theorem s7Regs_spec (par : Params) (s : State) :
    Ends (s7Regs par) s
      (fun _ t => InitOnly s t ∧ t.cardType = s.cardType ∧ t.rateSel = s.rateSel ∧ t.cid = t.cidNew ∧ t.csd = t.csdNew ∧
        t.cs = true ∧ t.seq = .s8Finish ∧ Fetched par s t)
      (fun e t => InitOnly s t ∧ SameCard s t ∧ t.cs = true ∧ (e = .regCmd ∨ e = .startBlock)) := by
  refine .bind ((readRegister_spec par par.cmdSendCid s).mono ?_ ?_)
  · rintro img t ⟨hb, -, hf, hl, crc, hcl, hk⟩
    have h1 := (InitOnly.ofBus hb).trans (takeCid_init hl t).1
    have h2 := (SameCard.ofBus hb).trans (takeCid_init hl t).2
    refine .bind (.update (.bind ((readRegister_spec par par.cmdSendCsd _).mono ?_ ?_)))
    · rintro img' u ⟨hb', hcs', hf', hl', crc', hcl', hk'⟩
      have k1 := h1.trans ((InitOnly.ofBus hb').trans (takeCsd_init hl' u).1)
      have k2 := h2.trans ((SameCard.ofBus hb').trans (takeCsd_init hl' u).2)
      refine .bind (.update (.bind (.update (.update ⟨?_, k2.cardType, k2.rateSel, rfl, rfl, hcs', rfl, ?_⟩))))
      · exact k1.trans
          ⟨⟨rfl, rfl, rfl, rfl, rfl⟩, ⟨rfl, rfl⟩, rfl, rfl, rfl, rfl, rfl, rfl,
            ⟨Nat.le_refl _, List.suffix_refl _, List.suffix_refl _, List.suffix_refl _, rfl⟩, rfl, fun k => ⟨k.1, k.2, k.3, k.4⟩⟩
      · have hc := (hk.onward (takeCid_init hl t).1.onward).onward hb'.onward
        have hd := h1.onward.took hk'
        exact ⟨⟨img, crc, hl, hcl, hb'.init.cidNew, hc⟩, rfl, hl', crc', hcl', hd⟩
    · rintro e u ⟨hb', hcs', hf', he⟩
      exact ⟨h1.trans (.ofBus hb'), h2.trans (.ofBus hb'), hcs', he⟩
  · rintro e t ⟨hb, hcs, hf, he⟩
    exact ⟨.ofBus hb, .ofBus hb, hcs, he⟩

/-- R268: no failure is possible. -/
theorem s8Finish_spec (s : State) :
    Ends s8Finish s
      (fun _ t => InitOnly s t ∧ t.cardType = s.cardType ∧ t.rateSel = .fast ∧ t.cid = s.cid ∧ t.csd = s.csd ∧
        t.cidNew = s.cidNew ∧ t.csdNew = s.csdNew ∧ t.cs = true ∧ t.regImg = s.regImg)
      (fun _ _ => False) := by
  refine .bind (.update (.update ⟨?_, rfl, rfl, rfl, rfl, rfl, rfl, rfl, rfl⟩))
  refine InitOnly.trans (t := setRate .fast s) ?_ (.ofBus (setCs_busOnly true _))
  exact ⟨⟨rfl, rfl, rfl, rfl, rfl⟩, ⟨rfl, rfl⟩, rfl, rfl, rfl, rfl, rfl, rfl,
    ⟨Nat.le_refl _, List.suffix_cons _ _, List.suffix_refl _, List.suffix_refl _, rfl⟩, rfl, fun k => ⟨k.1, k.2, k.3, k.4⟩⟩

/-- All that the sequence of `Configure` can do (R260 to R271). -/
theorem initSequence_spec (par : Params) (s : State) :
    Ends (initSequence par) s
      (fun _ t => InitOnly s t ∧ t.cs = true ∧ t.rateSel = .fast ∧ (t.cardType = .sd2 ∨ t.cardType = .sdhc) ∧
        t.cid = t.cidNew ∧ t.csd = t.csdNew ∧ Fetched par s t)
      (fun e t => InitOnly s t ∧ SameRegs s t ∧ classAfter e s.cardType t.cardType) := by
  refine .bind ((s1Prime_spec par s).mono ?_ fun _ _ h => h.elim)
  rintro _ s1 ⟨i1, c1, -, -⟩
  refine .bind ((s2Idle_spec par s1).mono ?_ ?_)
  rotate_left
  · rintro e t ⟨i, c, rfl⟩
    exact ⟨i1.trans i, (c1.trans c).regs, (c1.trans c).cardType⟩
  rintro _ s2 ⟨i2, c2, -⟩
  have i12 := i1.trans i2
  have c12 := c1.trans c2
  refine .bind ((s3Probe_spec par s2).mono ?_ ?_)
  rotate_left
  · rintro e t ⟨i, r, (⟨rfl, h⟩ | ⟨rfl, h⟩)⟩
    · exact ⟨i12.trans i, c12.regs.trans r, h⟩
    · exact ⟨i12.trans i, c12.regs.trans r, h.trans c12.cardType⟩
  rintro _ s3 ⟨i3, r3, k3, -⟩
  have i13 := i12.trans i3
  have r13 := c12.regs.trans r3
  refine .bind ((s4OpCond_spec par s3).mono ?_ ?_)
  rotate_left
  · rintro e t ⟨i, c, rfl⟩
    exact ⟨i13.trans i, r13.trans c.regs, c.cardType.trans k3⟩
  rintro _ s4 ⟨i4, c4, -⟩
  have i14 := i13.trans i4
  have r14 := r13.trans c4.regs
  refine .bind ((s5Ocr_spec par s4 (c4.cardType.trans k3)).mono ?_ ?_)
  rotate_left
  · rintro e t ⟨i, r, rfl, k⟩
    exact ⟨i14.trans i, r14.trans r, k⟩
  rintro _ s5 ⟨i5, r5, k5, -⟩
  have i15 := i14.trans i5
  have r15 := r14.trans r5
  refine .bind ((s6BlockLen_spec par s5).mono ?_ ?_)
  rotate_left
  · rintro e t ⟨i, c, rfl⟩
    exact ⟨i15.trans i, r15.trans c.regs, c.cardType ▸ k5⟩
  rintro _ s6 ⟨i6, c6, -⟩
  have i16 := i15.trans i6
  have r16 := r15.trans c6.regs
  refine .bind ((s7Regs_spec par s6).mono ?_ ?_)
  rotate_left
  · rintro e t ⟨i, c, -, (rfl | rfl)⟩
    · exact ⟨i16.trans i, r16.trans c.regs, (c6.trans c).cardType ▸ k5⟩
    · exact ⟨i16.trans i, r16.trans c.regs, (c6.trans c).cardType ▸ k5⟩
  rintro _ s7 ⟨i7, k7, -, hcid, hcsd, -, -, hf⟩
  refine (s8Finish_spec s7).mono ?_ fun _ _ h => h.elim
  rintro _ t ⟨i8, k8, hr, h1, h2, h3, h4, hcs, hg⟩
  exact ⟨(i16.trans i7).trans i8, hcs, hr, by rw [k8, k7, c6.cardType]; exact k5,
    by rw [h1, h3, hcid], by rw [h2, h4, hcsd],
    i16.onward.fetched (hf.onward i8.onward h1 h2 hg)⟩

end Sys2Proof.Machine
end

