-- ==== Sys2Proof/Laws/Script.lean ====
section
/-! SUPPORT. Runs on a script: which events an operation adds when the card's next bytes are given, and which bytes
it leaves. -/

namespace Sys2Proof.Machine

variable {s t u : State} {es es' : List Event} {bs rest rest' : List Byte}

/-- From `s` to `t` only bus traffic: the events `es`, in order, and `rest` left of the card's bytes. -/
structure Ran (s t : State) (es : List Event) (rest : List Byte) : Prop where
  only : BusOnly s t
  trace : t.trace = es.reverse ++ s.trace
  miso : t.miso = rest

theorem Ran.events (h : Ran s t es rest) : eventsBetween s t = es := eventsBetween_of h.trace

theorem Ran.refl (s : State) : Ran s s [] s.miso := ⟨.refl s, rfl, rfl⟩

theorem Ran.trans (h : Ran s t es rest) (k : Ran t u es' rest') : Ran s u (es ++ es') rest' :=
  ⟨h.only.trans k.only, by simp [k.trace, h.trace], k.miso⟩

theorem Ran.cast (h : Ran s t es rest) (he : es = es') (hr : rest = rest') : Ran s t es' rest' := he ▸ hr ▸ h

theorem xfer_ran {b : Byte} (m : Byte) (h : s.miso = b :: rest) :
    (xfer m s).1 = b ∧ Ran s (xfer m s).2 [.x m b] rest ∧ (xfer m s).2.cs = s.cs := by
  have hx := xfer_busOnly m s
  rw [xfer_given h] at hx ⊢
  exact ⟨rfl, ⟨hx, rfl, rfl⟩, rfl⟩

theorem xferRead_ran (par : Params) (h : s.miso = bs ++ rest) :
    (xferRead par bs.length s).1 = bs ∧ Ran s (xferRead par bs.length s).2 (reads par bs) rest ∧
      (xferRead par bs.length s).2.cs = s.cs := by
  have hx := xferRead_busOnly par bs.length s
  rw [xferRead_given par h] at hx ⊢
  exact ⟨rfl, ⟨hx, rfl, rfl⟩, rfl⟩

theorem xferWrite_ran {out : List Byte} (h : s.miso = bs ++ rest) (hl : out.length = bs.length) :
    Ran s (xferWrite out s) (exchanges out bs) rest ∧ (xferWrite out s).cs = s.cs ∧
      (xferWrite out s).frame = s.frame := by
  have hx := xferWrite_busOnly out s
  rw [xferWrite_given h hl] at hx ⊢
  exact ⟨⟨hx, rfl, rfl⟩, rfl, rfl⟩

theorem poll_ran (par : Params) {b : Byte} (h : s.miso = b :: rest) :
    (poll par s).1 = b ∧ Ran s (poll par s).2 [.x par.fill b] rest := by
  have hx := xfer_ran par.fill h
  exact ⟨hx.1, poll_busOnly par s, hx.2.1.trace, hx.2.1.miso⟩

theorem setCs_ran (v : Bool) (s : State) :
    Ran s (setCs v s) (if s.cs = v then [] else [.cs v]) s.miso := by
  refine ⟨setCs_busOnly v s, ?_, rfl⟩
  rw [setCs_trace]
  split <;> rfl

/-- A card that is not busy: one poll (R291, D5). -/
theorem waitNotBusy_ran (par : Params) {T : Nat} (h : s.miso = 0xFF :: rest) : Ran s (waitNotBusy par T s) [.x par.fill 0xFF] rest := by
  have hd := startDeadline_busOnly T s
  have hp := poll_ran par (s := startDeadline T s) (b := 0xFF) (rest := rest) h
  have he : waitNotBusy par T s = (poll par (startDeadline T s)).2 := by
    unfold waitNotBusy notBusyLoop
    rw [hp.1]
    rfl
  rw [he]
  exact ⟨hd.trans hp.2.only, hp.2.trace, hp.2.miso⟩

/-- The loop of the wait on a card that stays busy: it ends with the reading that brings the deadline (R291). -/
theorem notBusyLoop_busy (par : Params) {busy : List Byte} {readings more : List Nat} {last n : Nat} (hb : ∀ b ∈ busy, b ≠ 0xFF)
    (hl : busy.length = readings.length + 1) (hm : s.miso = busy ++ rest) (ht : s.ticks = readings ++ last :: more)
    (h1 : s.time + readings.sum < s.deadline) (h2 : s.deadline ≤ s.time + readings.sum + last) (hn : busy.length ≤ n) :
    Ran s (notBusyLoop par n s) (reads par busy) rest ∧ (notBusyLoop par n s).ticks = more := by
  induction readings generalizing s busy n with
  | nil =>
    obtain ⟨b, rfl⟩ : ∃ b, busy = [b] := List.length_eq_one_iff.1 hl
    obtain ⟨n, rfl⟩ : ∃ k, n = k + 1 := ⟨n - 1, by simp at hn; omega⟩
    have hp := poll_ran par (s := s) (b := b) (rest := rest) hm
    have hx : ¬isNotBusy (poll par s).1 = true := by
      rw [hp.1]; simpa [isNotBusy, P.idleByte] using hb b (List.mem_cons_self ..)
    have htp : (poll par s).2.ticks = last :: more := ht
    have hnow : nextTime (poll par s).2 = s.time + last := by unfold nextTime; rw [htp]; rfl
    have he : (expired (poll par s).2.deadline (poll par s).2).1 = true := by
      refine decide_eq_true ?_
      show s.deadline ≤ nextTime (poll par s).2
      rw [hnow]; simpa using h2
    unfold notBusyLoop
    rw [if_neg hx, if_pos he]
    exact ⟨⟨hp.2.only.trans (expired_busOnly _ _), hp.2.trace, hp.2.miso⟩, by show (poll par s).2.ticks.tail = _; rw [htp]; rfl⟩
  | cons d readings ih =>
    obtain ⟨b, busy, rfl⟩ : ∃ b bs, busy = b :: bs := List.exists_cons_of_length_eq_add_one hl
    obtain ⟨n, rfl⟩ : ∃ k, n = k + 1 := ⟨n - 1, by simp at hn; omega⟩
    have hp := poll_ran par (s := s) (b := b) (rest := busy ++ rest) hm
    have hx : ¬isNotBusy (poll par s).1 = true := by
      rw [hp.1]; simpa [isNotBusy, P.idleByte] using hb b (List.mem_cons_self ..)
    have htp : (poll par s).2.ticks = d :: (readings ++ last :: more) := ht
    have hnow : nextTime (poll par s).2 = s.time + d := by unfold nextTime; rw [htp]; rfl
    simp only [List.sum_cons] at h1 h2
    have he : ¬(expired (poll par s).2.deadline (poll par s).2).1 = true := by
      refine ne_true_of_eq_false (decide_eq_false ?_)
      show ¬s.deadline ≤ nextTime (poll par s).2
      rw [hnow]; omega
    have hr : Ran s (expired (poll par s).2.deadline (poll par s).2).2 [.x par.fill b] (busy ++ rest) :=
      ⟨hp.2.only.trans (expired_busOnly _ _), hp.2.trace, hp.2.miso⟩
    have htime : (expired (poll par s).2.deadline (poll par s).2).2.time = s.time + d := hnow
    have hi := ih (s := (expired (poll par s).2.deadline (poll par s).2).2) (busy := busy) (n := n)
      (fun x hx => hb x (List.mem_cons_of_mem _ hx)) (by simpa using hl) hr.miso
      (by show (poll par s).2.ticks.tail = _; rw [htp]; rfl)
      (by rw [htime]; show _ < s.deadline; omega) (by rw [htime]; show s.deadline ≤ _; omega) (by simpa using hn)
    unfold notBusyLoop
    rw [if_neg hx, if_neg he]
    exact ⟨(hr.trans hi.1).cast (by simp [reads]) rfl, hi.2⟩

/-- A card that is busy until the budget has run out (R291). -/
theorem waitNotBusy_busy (par : Params) {T : Nat} {busy : List Byte} {ticks more : List Nat} (hb : BusyUntil T busy ticks)
    (hm : s.miso = busy ++ rest) (ht : s.ticks = ticks ++ more) :
    Ran s (waitNotBusy par T s) (reads par busy) rest ∧ (waitNotBusy par T s).ticks = more := by
  obtain ⟨hb, first, readings, lasts, rfl, hll, hl, h1, h2⟩ := hb
  obtain ⟨last, rfl⟩ := List.length_eq_one_iff.1 hll
  rw [Nat.one_mul] at hl
  rw [List.sum_singleton] at h2
  have hd := startDeadline_busOnly T s
  have htime : (startDeadline T s).time = s.time + first := by
    show nextTime s = _; unfold nextTime; rw [ht]; rfl
  have hdl : (startDeadline T s).deadline = T + (startDeadline T s).time := rfl
  have htk : (startDeadline T s).ticks = readings ++ last :: more := by
    show s.ticks.tail = _; rw [ht]; simp
  have k := notBusyLoop_busy par (s := startDeadline T s) (rest := rest) hb hl.symm hm htk (by omega) (by omega)
    (n := patience (startDeadline T s).deadline (startDeadline T s) + 1)
    (by rw [← hl]; unfold patience; rw [htk]; simp; omega)
  exact ⟨⟨hd.trans k.1.only, k.1.trace, k.1.miso⟩, k.2⟩

/-- The response poll skips the bytes with bit 7 set and takes the next one (R243). -/
theorem respPoll_ran (par : Params) {skipped : List Byte} {r : Byte} (h : s.miso = skipped ++ r :: rest)
    (hs : ∀ b ∈ skipped, isResponse b = false) (hr : isResponse r = true) {n : Nat} (hn : skipped.length < n) :
    (respPoll par n s).1 = r ∧ Ran s (respPoll par n s).2 (reads par (skipped ++ [r])) rest ∧ (respPoll par n s).2.cs = s.cs ∧
      (respPoll par n s).2.resp = r ∧ (respPoll par n s).2.r1 = r ∧ (respPoll par n s).2.time = s.time := by
  induction skipped generalizing s n with
  | nil =>
    obtain ⟨n, rfl⟩ : ∃ k, n = k + 1 := ⟨n - 1, by simp at hn; omega⟩
    have hp := poll_ran par (s := s) (b := r) (rest := rest) h
    have hb : BusOnly s (answered r (countPoll (poll par s).2)) := (countPoll_busOnly (poll_busOnly par s)).engine _ _ _ _
    unfold respPoll
    rw [hp.1, if_pos hr]
    exact ⟨rfl, ⟨hb, hp.2.trace, hp.2.miso⟩, rfl,
      hp.1, rfl, rfl⟩
  | cons b skipped ih =>
    obtain ⟨n, rfl⟩ : ∃ k, n = k + 1 := ⟨n - 1, by simp at hn; omega⟩
    have hp := poll_ran par (s := s) (b := b) (rest := skipped ++ r :: rest) h
    have hc : Ran s (countPoll (poll par s).2) [.x par.fill b] (skipped ++ r :: rest) :=
      ⟨countPoll_busOnly hp.2.only, hp.2.trace, hp.2.miso⟩
    have hi := ih (s := countPoll (poll par s).2) hc.miso (fun x hx => hs x (List.mem_cons_of_mem _ hx))
      (n := n) (by simp at hn; omega)
    have hb : isResponse (poll par s).1 ≠ true := by rw [hp.1, hs b (List.mem_cons_self ..)]; decide
    unfold respPoll
    rw [if_neg hb]
    exact ⟨hi.1, (hc.trans hi.2.1).cast (by simp [reads]) rfl, hi.2.2.1, hi.2.2.2.1, hi.2.2.2.2.1, hi.2.2.2.2.2⟩

/-- What a command does before its response poll (R241, R242), given how its pre-wait ran. -/
theorem sendCommand_after (par : Params) {code : BitVec 6} (arg : U32) (crc : Byte) (hc : code ≠ par.cmdStop) {ignored : List Byte}
    (hi : ignored.length = 6)
    (h1 : Ran (setCs false s) (waitNotBusy par (par.units par.tCmdBusy) (setCs false s)) es (ignored ++ rest)) :
    Ran s { sendFrame (frameBytes code arg crc) (preWait par code (setCs false s)) with pollCnt := 0 }
        (selectEvent s ++ es ++ exchanges (frameBytes code arg crc) ignored) rest ∧
      (sendFrame (frameBytes code arg crc) (preWait par code (setCs false s))).cs = false ∧
      (sendFrame (frameBytes code arg crc) (preWait par code (setCs false s))).ticks =
        (waitNotBusy par (par.units par.tCmdBusy) (setCs false s)).ticks := by
  have h0 := setCs_ran false s
  have hw : preWait par code (setCs false s) = waitNotBusy par (par.units par.tCmdBusy) (setCs false s) := if_neg hc
  have hcs := (waitNotBusy_spec par (par.units par.tCmdBusy) (setCs false s)).2.1
  rw [hw]
  generalize waitNotBusy par (par.units par.tCmdBusy) (setCs false s) = w at h1 hw hcs
  have h2 := xferWrite_ran (s := { w with frame := frameBytes code arg crc }) (out := frameBytes code arg crc)
    (bs := ignored) (rest := rest) h1.miso hi.symm
  have h3 : Ran w { sendFrame (frameBytes code arg crc) w with pollCnt := 0 } (exchanges (frameBytes code arg crc) ignored)
      rest :=
    ⟨((BusOnly.load (frameBytes_length code arg crc) w).trans h2.1.only).engine _ _ 0 _, h2.1.trace, h2.1.miso⟩
  exact ⟨((h0.trans h1).trans h3).cast (by cases hcs : s.cs <;> simp [selectEvent, hcs]) rfl, h2.2.1.trans (hcs.trans rfl),
    xferWrite_ticks _ _⟩

/-- The same on a card that is not busy. -/
theorem sendCommand_ran (par : Params) {code : BitVec 6} (arg : U32) (crc : Byte) (hc : code ≠ par.cmdStop) {ignored : List Byte}
    (hi : ignored.length = 6) (h : s.miso = 0xFF :: (ignored ++ rest)) :
    Ran s { sendFrame (frameBytes code arg crc) (preWait par code (setCs false s)) with pollCnt := 0 }
        (selectEvent s ++ .x par.fill 0xFF :: exchanges (frameBytes code arg crc) ignored) rest ∧
      (sendFrame (frameBytes code arg crc) (preWait par code (setCs false s))).cs = false := by
  have k := sendCommand_after par (s := s) (rest := rest) arg crc hc hi
    (waitNotBusy_ran par (s := setCs false s) (T := par.units par.tCmdBusy) (rest := ignored ++ rest) h)
  exact ⟨k.1.cast (by simp) rfl, k.2.1⟩

/-- Every command but the stop-transmission command, on a card that is not busy and answers at once. -/
theorem command_ran (par : Params) {code : BitVec 6} (arg : U32) (crc : Byte) (hc : code ≠ par.cmdStop) {ignored : List Byte}
    (hi : ignored.length = 6) {r : Byte} (hr : isResponse r = true) (h : s.miso = answer ignored r rest) :
    (command par code arg crc s).1 = r ∧
      Ran s (command par code arg crc s).2 (selectEvent s ++ commandEvents par (frameBytes code arg crc) ignored r) rest ∧
      (command par code arg crc s).2.cs = false ∧ (command par code arg crc s).2.r1 = r := by
  obtain ⟨hb, hcs⟩ := sendCommand_ran par (s := s) arg crc hc (rest := r :: rest) hi h
  have hp := respPoll_ran par (skipped := []) (r := r) (rest := rest) (n := P.nRespPoll) hb.miso (by simp) hr (by decide)
  exact ⟨hp.1, (hb.trans hp.2.1).cast (by simp [commandEvents, reads]) rfl, hp.2.2.1.trans hcs, hp.2.2.2.2.1⟩

/-! ### Tests of a byte, as tests of its bits -/

theorem isResponse_bit (b : Byte) : isResponse b = !b.getLsbD 7 := by revert b; decide
theorem isIllegal_and (par : Params) (b : Byte) : isIllegal par b = decide (b &&& par.r1Illegal ≠ 0) := by
  rw [Bool.eq_iff_iff]
  simp [isIllegal]
theorem isReady_eq (b : Byte) : isReady b = decide (b = 0) := by revert b; decide
theorem isAccepted_bits (b : Byte) : isAccepted b = decide (b.extractLsb 4 0 = 5#5) := by revert b; decide
theorem isHighCapacity_bits (b : Byte) : isHighCapacity b = decide (b.extractLsb 7 6 = 3#2) := by revert b; decide

/-! ### No response -/

/-- The response poll on a silent card: every poll is made, chip-select is released, the sentinel is the result (R244). -/
theorem respPoll_silent (par : Params) {polls : List Byte} (h : s.miso = polls ++ rest) (hcs : s.cs = false)
    (hs : ∀ b ∈ polls, b.getLsbD 7 = true) :
    (respPoll par polls.length s).1 = 0xFF ∧ Ran s (respPoll par polls.length s).2 (reads par polls ++ [.cs true]) rest ∧
      (respPoll par polls.length s).2.cs = true ∧ (respPoll par polls.length s).2.r1 = 0xFF := by
  induction polls generalizing s with
  | nil =>
    have k := setCs_ran true s
    rw [hcs] at k
    exact ⟨rfl, ⟨k.only.engine _ _ _ _, k.trace, h⟩, rfl, rfl⟩
  | cons b polls ih =>
    have hp := poll_ran par (s := s) (b := b) (rest := polls ++ rest) h
    have hc : Ran s (countPoll (poll par s).2) [.x par.fill b] (polls ++ rest) :=
      ⟨countPoll_busOnly hp.2.only, hp.2.trace, hp.2.miso⟩
    have hb : ¬isResponse (poll par s).1 = true := by rw [hp.1, isResponse_bit, hs b (List.mem_cons_self ..)]; decide
    have hi := ih (s := countPoll (poll par s).2) hc.miso hcs fun x hx => hs x (List.mem_cons_of_mem _ hx)
    rw [List.length_cons]
    unfold respPoll
    rw [if_neg hb]
    exact ⟨hi.1, (hc.trans hi.2.1).cast (by simp [reads]) rfl, hi.2.2⟩

/-- Every command but the stop-transmission command, on a card that is not busy and does not answer (R244). -/
theorem command_silent (par : Params) {code : BitVec 6} (arg : U32) (crc : Byte) (hc : code ≠ par.cmdStop) {ignored polls : List Byte}
    (hi : ignored.length = 6) (hp : NoResponse polls) (h : s.miso = silence ignored polls rest) :
    (command par code arg crc s).1 = 0xFF ∧
      Ran s (command par code arg crc s).2 (selectEvent s ++ silentEvents par (frameBytes code arg crc) ignored polls) rest ∧
      (command par code arg crc s).2.cs = true ∧ (command par code arg crc s).2.r1 = 0xFF := by
  obtain ⟨hb, hcs⟩ := sendCommand_ran par (s := s) arg crc hc (rest := polls ++ rest) hi (by rw [h]; simp [silence])
  have k := respPoll_silent par hb.miso hcs hp.skipped
  rw [hp.length] at k
  exact ⟨k.1, (hb.trans k.2.1).cast (by simp [silentEvents]) rfl, k.2.2⟩

/-! ### Start token and data packets -/

/-- The start token at once (R293). -/
theorem waitStartBlock_ran (par : Params) (h : s.miso = 0xFE :: rest) :
    ∃ t, waitStartBlock par s = .ok () t ∧ Ran s t [.x par.fill 0xFE] rest ∧ t.cs = s.cs ∧ t.frame = s.frame := by
  have hd := startDeadline_busOnly (par.units P.tStart) s
  have hp := poll_ran par (s := startDeadline (par.units P.tStart) s) (b := 0xFE) (rest := rest) h
  refine ⟨(poll par (startDeadline (par.units P.tStart) s)).2, ?_, ⟨hd.trans hp.2.only, hp.2.trace, hp.2.miso⟩, rfl, rfl⟩
  refine bind_ok (update_ok (startDeadline (par.units P.tStart)) s) (bind_ok (get_ok _) ?_)
  unfold startBlockLoop
  exact bind_ok (bus_ok hp.1) (ite_else (by decide) (ite_then (by decide) rfl))

/-- The loop of the start-token wait on a card that returns 0xFF until the deadline (R293). -/
theorem startBlockLoop_late (par : Params) {early more : List Nat} {last n : Nat}
    (hm : s.miso = List.replicate (early.length + 1) 0xFF ++ rest) (ht : s.ticks = early ++ last :: more)
    (h1 : s.time + early.sum < s.deadline) (h2 : s.deadline ≤ s.time + early.sum + last) (hn : early.length < n) :
    ∃ t, startBlockLoop par n s = .error .startBlock t ∧ t.cs = true ∧ t.ticks = more ∧
      Ran s t (reads par (List.replicate (early.length + 1) 0xFF) ++ if s.cs = true then [] else [Event.cs true]) rest := by
  induction early generalizing s n with
  | nil =>
    obtain ⟨n, rfl⟩ : ∃ k, n = k + 1 := ⟨n - 1, by simp at hn; omega⟩
    have hp := poll_ran par (s := s) (b := 0xFF) (rest := rest) hm
    have hr : Ran s (expired (poll par s).2.deadline (poll par s).2).2 [.x par.fill 0xFF] rest :=
      ⟨hp.2.only.trans (expired_busOnly _ _), hp.2.trace, hp.2.miso⟩
    have hs := setCs_ran true (expired (poll par s).2.deadline (poll par s).2).2
    refine ⟨_, bind_ok (bus_ok hp.1) (ite_then (by decide) (bind_ok (get_ok _) (bind_ok (bus_ok rfl) (ite_then ?_
      (bind_ok (update_ok (setCs true) _) rfl))))), rfl, ?_, (hr.trans hs).cast rfl hr.miso⟩
    · refine decide_eq_true ?_
      show s.deadline ≤ nextTime (poll par s).2
      rw [nextTime_given (show (poll par s).2.ticks = last :: more from ht)]
      show s.deadline ≤ s.time + last
      simpa using h2
    · show s.ticks.tail = _
      rw [ht]; rfl
  | cons d early ih =>
    obtain ⟨n, rfl⟩ : ∃ k, n = k + 1 := ⟨n - 1, by simp at hn; omega⟩
    have hp := poll_ran par (s := s) (b := 0xFF) (rest := List.replicate (early.length + 1) 0xFF ++ rest)
      (hm.trans rfl)
    have hr : Ran s (expired (poll par s).2.deadline (poll par s).2).2 [.x par.fill 0xFF]
        (List.replicate (early.length + 1) 0xFF ++ rest) :=
      ⟨hp.2.only.trans (expired_busOnly _ _), hp.2.trace, hp.2.miso⟩
    have hnow : nextTime (poll par s).2 = s.time + d := nextTime_given (show (poll par s).2.ticks = _ from ht)
    simp only [List.sum_cons] at h1 h2
    obtain ⟨t, e1, e2, e3, e4⟩ := ih (s := (expired (poll par s).2.deadline (poll par s).2).2) (n := n) hr.miso
      (by show s.ticks.tail = _; rw [ht]; rfl)
      (by show nextTime (poll par s).2 + _ < s.deadline; rw [hnow]; omega)
      (by show s.deadline ≤ nextTime (poll par s).2 + _ + _; rw [hnow]; omega) (by simpa using hn)
    refine ⟨t, bind_ok (bus_ok hp.1) (ite_then (by decide) (bind_ok (get_ok _) (bind_ok (bus_ok rfl) (ite_else ?_ e1)))),
      e2, e3, (hr.trans e4).cast ?_ rfl⟩
    · refine ne_true_of_eq_false (decide_eq_false ?_)
      show ¬s.deadline ≤ nextTime (poll par s).2
      rw [hnow]; omega
    · show _ ++ (_ ++ if s.cs = true then [] else [Event.cs true]) = _
      simp [reads, List.replicate_succ]

/-- A byte other than 0xFF and 0xFE in place of the start token (R293). -/
theorem waitStartBlock_wrong (par : Params) {b : Byte} (h : s.miso = b :: rest) (h1 : b ≠ 0xFF) (h2 : b ≠ 0xFE) :
    ∃ t, waitStartBlock par s = .error .startBlock t ∧
      Ran s t ([.x par.fill b] ++ if s.cs = true then [] else [Event.cs true]) rest ∧ t.cs = true := by
  have hd := startDeadline_busOnly (par.units P.tStart) s
  have hp := poll_ran par (s := startDeadline (par.units P.tStart) s) (b := b) (rest := rest) h
  have hs := setCs_ran true (poll par (startDeadline (par.units P.tStart) s)).2
  refine ⟨setCs true (poll par (startDeadline (par.units P.tStart) s)).2, ?_, ⟨hd.trans (hp.2.only.trans hs.only), ?_, hp.2.miso⟩, rfl⟩
  · refine bind_ok (update_ok (startDeadline (par.units P.tStart)) s) (bind_ok (get_ok _) ?_)
    unfold startBlockLoop
    exact bind_ok (bus_ok hp.1) (ite_else h1 (ite_else h2 (bind_ok (update_ok (setCs true) _) rfl)))
  · rw [hs.trace, hp.2.trace]
    show _ ++ ([_] ++ s.trace) = _
    rw [show (poll par (startDeadline (par.units P.tStart) s)).2.cs = s.cs from rfl]
    split <;> rfl

/-- A read command that is accepted, its packet, and the release of chip-select (R300, R331). -/
theorem readPacket_ran (par : Params) {code : BitVec 6} {arg : U32} (hc : code ≠ par.cmdStop) {ignored payload : List Byte} {c1 c2 : Byte}
    (hi : ignored.length = 6) (hm : s.miso = answer ignored 0 (packet payload [c1, c2] ++ rest)) :
    ∃ t, (command par code arg par.crcDummy s).1 = 0 ∧ waitStartBlock par (command par code arg par.crcDummy s).2 = .ok () t ∧
      (xferRead par payload.length t).1 = payload ∧
      Ran s (setCs true (xferRead par 2 (xferRead par payload.length t).2).2)
        (selectEvent s ++ commandEvents par (frameBytes code arg par.crcDummy) ignored 0 ++ reads par (packet payload [c1, c2]) ++
          [.cs true]) rest ∧
      (setCs true (xferRead par 2 (xferRead par payload.length t).2).2).frame = frameBytes code arg par.crcDummy := by
  obtain ⟨k1, k2, k3, -⟩ := command_ran par (code := code) arg par.crcDummy hc hi (r := 0) (by decide) hm
  have kf := (command_spec par code arg par.crcDummy s).2.1
  generalize command par code arg par.crcDummy s = c at *
  obtain ⟨t, w1, w2, w3, w4⟩ := waitStartBlock_ran par (s := c.2) (rest := payload ++ (c1 :: c2 :: rest))
    (by rw [k2.miso]; simp [packet])
  obtain ⟨x1, x2, x3⟩ := xferRead_ran par (s := t) w2.miso
  obtain ⟨-, y1, y2⟩ := xferRead_ran par (bs := [c1, c2]) x2.miso
  have hs := setCs_ran true (xferRead par 2 (xferRead par payload.length t).2).2
  refine ⟨t, k1, w1, x1, ((((k2.trans w2).trans x2).trans y1).trans hs).cast ?_ y1.miso, ?_⟩
  · rw [show (xferRead par 2 (xferRead par payload.length t).2).2.cs = _ from y2, x3, w3, k3]
    simp [reads, packet]
  · show (xferRead par 2 (xferRead par payload.length t).2).2.frame = _
    rw [xferRead_frame par, xferRead_frame par, w4, kf]

/-- A data packet the card accepts and is done with at once (R333). -/
theorem sendDataPacket_ran (par : Params) {token : Byte} {src during : List Byte} {response : Byte} (hl : 512 ≤ src.length)
    (hd : during.length = 515) (hr : response.extractLsb 4 0 = 5#5) (hm : s.miso = during ++ response :: 0xFF :: rest) :
    ∃ t, sendDataPacket par token src s = .ok () t ∧
      Ran s t (exchanges (token :: src.take 512 ++ [par.crcDummy, par.crcDummy]) during ++ reads par [response, 0xFF]) rest ∧
      t.cs = s.cs ∧ t.frame = s.frame := by
  obtain ⟨a, b, c⟩ := xferWrite_ran (out := packetBytes par token src) hm (by simp [packetBytes, P.blockSize, hd]; omega)
  have p := poll_ran par a.miso
  have w := waitNotBusy_ran par (T := par.units P.tWriteBusy) p.2.miso
  have ws := waitNotBusy_spec par (par.units P.tWriteBusy) (poll par (xferWrite (packetBytes par token src) s)).2
  refine ⟨waitNotBusy par (par.units P.tWriteBusy) (poll par (xferWrite (packetBytes par token src) s)).2, ?_, ((a.trans p.2).trans w).cast ?_ rfl,
    ws.2.1.trans b, ws.2.2.trans c⟩
  · exact bind_ok (update_ok (xferWrite (packetBytes par token src)) s)
      (bind_ok (bus_ok p.1) (ite_then (by rw [isAccepted_bits]; simpa using hr) rfl))
  · simp [reads, packetBytes, P.blockSize]

/-- A data packet the card does not accept (R333, D40). -/
theorem sendDataPacket_rejected (par : Params) {token : Byte} {src during : List Byte} {response : Byte} (hl : 512 ≤ src.length)
    (hd : during.length = 515) (hr : response.extractLsb 4 0 ≠ 5#5) (hm : s.miso = during ++ response :: rest) :
    ∃ t, sendDataPacket par token src s = .error .writeDataResp t ∧
      Ran s t (exchanges (token :: src.take 512 ++ [par.crcDummy, par.crcDummy]) during ++ [.x par.fill response] ++
        if s.cs = true then [] else [Event.cs true]) rest ∧ t.cs = true := by
  obtain ⟨a, b, c⟩ := xferWrite_ran (out := packetBytes par token src) hm (by simp [packetBytes, P.blockSize, hd]; omega)
  have p := poll_ran par a.miso
  have hs := setCs_ran true (poll par (xferWrite (packetBytes par token src) s)).2
  refine ⟨_, bind_ok (update_ok (xferWrite (packetBytes par token src)) s) (bind_ok (bus_ok p.1)
    (ite_else (by rw [isAccepted_bits]; simpa using hr) (bind_ok (update_ok (setCs true) _) rfl))),
    ((a.trans p.2).trans hs).cast ?_ p.2.miso, rfl⟩
  rw [show (poll par (xferWrite (packetBytes par token src) s)).2.cs = s.cs from b]
  simp [packetBytes, P.blockSize]

/-- What a run put in front of the trace, from its events. -/
theorem trace_of_events (ht : s.trace <:+ t.trace) (h : eventsBetween s t = es) : t.trace = es.reverse ++ s.trace := by
  obtain ⟨x, hx⟩ := ht
  unfold eventsBetween at h
  rw [← hx] at h ⊢
  simp only [List.length_append, Nat.add_sub_cancel, List.take_left] at h
  rw [← h, List.reverse_reverse]

/-- The end of a multi-block write on a card that is done at once (R336). -/
theorem writeMultiStop_ran (par : Params) {y z : Byte} (h : s.miso = y :: z :: 0xFF :: rest) (hcs : s.cs = false) :
    Ran s (writeMultiStop par s) [.x 0xFD y, .x par.fill z, .x par.fill 0xFF, .cs true] rest := by
  obtain ⟨a, b, -⟩ := xferWrite_ran (s := s) (bs := [y, z]) (out := [P.tokenStop, par.fill]) (rest := 0xFF :: rest) h rfl
  have w := waitNotBusy_ran par (T := par.units par.tStopBusy) a.miso
  have ws := waitNotBusy_spec par (par.units par.tStopBusy) (xferWrite [P.tokenStop, par.fill] s)
  have c := setCs_ran true (waitNotBusy par (par.units par.tStopBusy) (xferWrite [P.tokenStop, par.fill] s))
  refine (a.trans (w.trans c)).cast ?_ w.miso
  rw [ws.2.1, b, hcs]
  rfl

end Sys2Proof.Machine
end

