-- ==== Sys2Proof/Laws/HostOp.lean ====
section
/-! SUPPORT. The wrapper of the bus-using host operations: what entering and completing change, and how a request in
the contract ends given how its body ends (R380, R404). -/

namespace Sys2Proof.Machine

variable {s t : State}

/-! ### enter -/

@[simp] theorem enter_cs (r : Rate) (q : Seq) (s : State) : (enter r q s).cs = s.cs := rfl
@[simp] theorem enter_seq (r : Rate) (q : Seq) (s : State) : (enter r q s).seq = q := rfl
@[simp] theorem enter_rateSel (r : Rate) (q : Seq) (s : State) : (enter r q s).rateSel = r := rfl
@[simp] theorem enter_lockHeld (r : Rate) (q : Seq) (s : State) : (enter r q s).lockHeld = true := rfl
@[simp] theorem enter_err (r : Rate) (q : Seq) (s : State) : (enter r q s).err = none := rfl
@[simp] theorem enter_cardType (r : Rate) (q : Seq) (s : State) : (enter r q s).cardType = s.cardType := rfl
@[simp] theorem enter_buf (r : Rate) (q : Seq) (s : State) : (enter r q s).buf = s.buf := rfl
@[simp] theorem enter_bufLen (r : Rate) (q : Seq) (s : State) : (enter r q s).bufLen = s.bufLen := rfl
@[simp] theorem enter_inbox (r : Rate) (q : Seq) (s : State) : (enter r q s).inbox = s.inbox := rfl
@[simp] theorem enter_miso (r : Rate) (q : Seq) (s : State) : (enter r q s).miso = s.miso := rfl
@[simp] theorem enter_ticks (r : Rate) (q : Seq) (s : State) : (enter r q s).ticks = s.ticks := rfl
@[simp] theorem enter_time (r : Rate) (q : Seq) (s : State) : (enter r q s).time = s.time := rfl
@[simp] theorem enter_cid (r : Rate) (q : Seq) (s : State) : (enter r q s).cid = s.cid := rfl
@[simp] theorem enter_csd (r : Rate) (q : Seq) (s : State) : (enter r q s).csd = s.csd := rfl
@[simp] theorem enter_phase (r : Rate) (q : Seq) (s : State) : (enter r q s).phase = s.phase := rfl
@[simp] theorem enter_trace (r : Rate) (q : Seq) (s : State) : (enter r q s).trace = .rate r :: .lock :: s.trace := rfl

theorem enter_device (r : Rate) (q : Seq) (s : State) : SameDevice s (enter r q s) := ⟨rfl, rfl, rfl, rfl⟩
theorem enter_init (r : Rate) (q : Seq) (s : State) : SameInit s (enter r q s) := ⟨rfl, rfl, rfl, rfl, rfl⟩
theorem enter_transfer (r : Rate) (q : Seq) (s : State) : SameTransfer s (enter r q s) := ⟨rfl, rfl, rfl, rfl, rfl⟩
theorem enter_buffer (r : Rate) (q : Seq) (s : State) : SameBuffer s (enter r q s) := ⟨rfl, fun _ => rfl⟩

theorem enter_onward (r : Rate) (q : Seq) (s : State) : Onward s (enter r q s) :=
  ⟨Nat.le_refl _, (List.suffix_cons _ _).trans (List.suffix_cons _ _), List.suffix_refl _, List.suffix_refl _, rfl⟩

theorem enter_sized (r : Rate) (q : Seq) (h : Sized s) : Sized (enter r q s) := ⟨h.1, h.2, h.3, h.4⟩

/-! ### complete and leaveConfigure -/

theorem complete_device (e : Option ErrCode) (c : Completion) (s : State) : SameDevice s (complete e c s) :=
  ⟨rfl, rfl, rfl, rfl⟩

theorem complete_init (e : Option ErrCode) (c : Completion) (s : State) : SameInit s (complete e c s) :=
  ⟨rfl, rfl, rfl, rfl, rfl⟩

theorem complete_transfer (e : Option ErrCode) (c : Completion) (s : State) : SameTransfer s (complete e c s) :=
  ⟨rfl, rfl, rfl, rfl, rfl⟩

theorem complete_onward (e : Option ErrCode) (c : Completion) (s : State) : Onward s (complete e c s) :=
  ⟨Nat.le_refl _, List.suffix_cons _ _, List.suffix_refl _, List.suffix_refl _, rfl⟩

theorem complete_sized (e : Option ErrCode) (c : Completion) (h : Sized s) : Sized (complete e c s) := ⟨h.1, h.2, h.3, h.4⟩

/-- Everything about the exit of `Configure` (R260, R404). -/
theorem leaveConfigure_spec (par : Params) (e : Option ErrCode) (s : State) :
    ((leaveConfigure par e s).cs = (if e = none then s.cs else (par.csReleaseOnInitFail || s.cs)) ∧
        (leaveConfigure par e s).lockHeld = false ∧ (leaveConfigure par e s).seq = .idle) ∧ (leaveConfigure par e s).err = e ∧ (leaveConfigure par e s).presented = some (.status e) ∧
      (leaveConfigure par e s).phase = (if e = none then .ready else .failed) ∧
      (leaveConfigure par e s).cardType = s.cardType ∧ (leaveConfigure par e s).cid = s.cid ∧
      (leaveConfigure par e s).csd = s.csd ∧ (leaveConfigure par e s).rateSel = s.rateSel ∧ SameInit s (leaveConfigure par e s) ∧
      SameTransfer s (leaveConfigure par e s) ∧ (leaveConfigure par e s).buf = s.buf ∧
      (leaveConfigure par e s).bufLen = s.bufLen ∧ (leaveConfigure par e s).inbox = s.inbox ∧ Onward s (leaveConfigure par e s) ∧
      (Sized s → Sized (leaveConfigure par e s)) ∧ ∃ es : List Event, es.filter Event.isLock = [] ∧
        (leaveConfigure par e s).trace = .unlock :: (es ++ s.trace) := by
  cases e with
  | none =>
    have h := complete_onward none (.status none) s
    exact ⟨⟨rfl, rfl, rfl⟩, rfl, rfl, rfl, rfl, rfl, rfl, rfl, ⟨rfl, rfl, rfl, rfl, rfl⟩, ⟨rfl, rfl, rfl, rfl, rfl⟩, rfl,
      rfl, rfl, ⟨h.1, h.2, h.3, h.4, h.5⟩, fun h => ⟨h.1, h.2, h.3, h.4⟩, [], rfl, rfl⟩
  | some e =>
    unfold leaveConfigure
    cases par.csReleaseOnInitFail with
    | false =>
      have h := complete_onward (some e) (.status (some e)) s
      exact ⟨⟨rfl, rfl, rfl⟩, rfl, rfl, rfl, rfl, rfl, rfl, rfl, ⟨rfl, rfl, rfl, rfl, rfl⟩, ⟨rfl, rfl, rfl, rfl, rfl⟩, rfl,
        rfl, rfl, ⟨h.1, h.2, h.3, h.4, h.5⟩, fun h => ⟨h.1, h.2, h.3, h.4⟩, [], rfl, rfl⟩
    | true =>
      have h := (setCs_busOnly true s).onward.trans (complete_onward (some e) (.status (some e)) (setCs true s))
      refine ⟨⟨rfl, rfl, rfl⟩, rfl, rfl, rfl, rfl, rfl, rfl, rfl, ⟨rfl, rfl, rfl, rfl, rfl⟩, ⟨rfl, rfl, rfl, rfl, rfl⟩, rfl,
        rfl, rfl, ⟨h.1, h.2, h.3, h.4, h.5⟩, fun h => ⟨h.1, h.2, h.3, h.4⟩, if s.cs = true then [] else [.cs true],
          by split <;> rfl, ?_⟩
      change Event.unlock :: (setCs true s).trace = _
      rw [setCs_trace]
      split <;> rfl

/-! ### The wrapper -/

/-- How a wrapped body that stays in the contract ends. -/
theorem ioOp_next {q : Seq} {body : BlockProc Unit} {report : Option ErrCode → State → Completion} {Q : State → Prop}
    (hg : nextGrant s = true)
    (h : Ends body (enter .fast q s) (fun _ t => Q (complete none (report none t) t))
      (fun e t => ∃ c, e = .err c ∧ Q (complete (some c) (report (some c) t) t))) :
    ∃ t, ioOp q body report s = .next t ∧ Q t := by
  unfold ioOp
  rw [if_pos hg]
  unfold Ends at h
  split at h
  · rename_i a t hb
    rw [hb]
    exact ⟨_, rfl, h⟩
  · rename_i e t hb
    rw [hb]
    obtain ⟨c, rfl, hq⟩ := h
    exact ⟨_, rfl, hq⟩

/-- Where a next state of the wrapper comes from. -/
theorem ioOp_cases {q : Seq} {body : BlockProc Unit} {report : Option ErrCode → State → Completion}
    {Q : Unit → State → Prop} {E : Stop → State → Prop} (hb : Ends body (enter .fast q s) Q E)
    (h : ioOp q body report s = .next t) :
    (∃ u, Q () u ∧ t = complete none (report none u) u) ∨
      ∃ c u, E (.err c) u ∧ t = complete (some c) (report (some c) u) u := by
  unfold ioOp at h
  split at h
  · unfold Ends at hb
    split at hb
    · rename_i a u hu
      rw [hu] at h
      exact .inl ⟨u, hb, by simpa using h.symm⟩
    · rename_i e u hu
      rw [hu] at h
      cases e with
      | err c => exact .inr ⟨c, u, hb, by simpa using h.symm⟩
      | refuse r => simp at h
  · simp at h

/-- How a wrapped body that succeeds ends. -/
theorem ioOp_ok {q : Seq} {body : BlockProc Unit} {report : Option ErrCode → State → Completion}
    (hg : nextGrant s = true) (h : body (enter .fast q s) = .ok () t) :
    ioOp q body report s = .next (complete none (report none t) t) := by
  unfold ioOp
  rw [if_pos hg, h]

/-- How a wrapped body that fails ends. -/
theorem ioOp_error {q : Seq} {body : BlockProc Unit} {report : Option ErrCode → State → Completion} {e : ErrCode}
    (hg : nextGrant s = true) (h : body (enter .fast q s) = .error (.err e) t) :
    ioOp q body report s = .next (complete (some e) (report (some e) t) t) := by
  unfold ioOp
  rw [if_pos hg, h]

/-- The events of a wrapped operation are those of its body between LOCK, the fast rate, and UNLOCK (R380). -/
theorem complete_events {q : Seq} {e : Option ErrCode} {c : Completion} {es : List Event}
    (h : t.trace = es.reverse ++ (enter .fast q s).trace) :
    eventsBetween s (complete e c t) = [.lock, .rate .fast] ++ es ++ [.unlock] := by
  apply eventsBetween_of
  show Event.unlock :: t.trace = _
  rw [h]
  simp

/-- How a wrapped body that leaves the contract ends. -/
theorem ioOp_refused {q : Seq} {body : BlockProc Unit} {report : Option ErrCode → State → Completion} {r : Refusal}
    {u : State} (hg : nextGrant s = true) (h : body (enter .fast q s) = .error (.refuse r) u) :
    ioOp q body report s = .refused r := by
  unfold ioOp
  rw [if_pos hg, h]

/-- What a transfer in the contract satisfies (R170, R213, R364). -/
theorem refuseTransfer_none {par : Params} {off n : Nat} (hw : Held par off n) (h0 : n = 0 → off % 512 = 0) (h1 : off / 512 < 2 ^ 32) (h2 : off + n ≤ 2 ^ 41) :
    refuseTransfer par off n = none := by
  unfold refuseTransfer
  rw [if_neg (by simp [Params.holdsOffset, Params.holdsLen, hw.offset, hw.len]), if_neg, if_neg]
  · simp only [P.blockIndexBound, P.blockSize]
    omega
  · rintro ⟨hn, ho⟩
    exact ho (h0 hn)

theorem refuseTransfer_inv {par : Params} {off n : Nat} (h : refuseTransfer par off n = none) :
    Held par off n ∧ (n = 0 → off % 512 = 0) ∧ off / 512 < 2 ^ 32 ∧ off + n ≤ 2 ^ 41 := by
  unfold refuseTransfer at h
  split at h
  · simp at h
  rename_i hw
  simp only [Params.holdsOffset, Params.holdsLen, decide_eq_false_iff_not, not_or, not_not] at hw
  split at h
  · simp at h
  · split at h
    · simp at h
    · rename_i h1 h2
      simp only [P.blockIndexBound, P.blockSize] at h1 h2
      refine ⟨⟨hw.1, hw.2⟩, fun hn => ?_, ?_, ?_⟩ <;> omega

theorem exec_readAt (offset : Nat) (hs : s.seq = .idle) (hp : s.phase = .ready)
    (hr : refuseTransfer s.par offset s.bufLen = none) :
    exec (.readAt offset) s = ioOp .runReadAt (readBody s.par offset s.bufLen) reportCount s := by
  simp only [exec, execReadAt, refuseIo, hs, hp, hr, ne_eq, not_true_eq_false, if_false]

theorem exec_writeAt (offset : Nat) (hs : s.seq = .idle) (hp : s.phase = .ready)
    (hr : refuseTransfer s.par offset s.bufLen = none) :
    exec (.writeAt offset) s = ioOp .runWriteAt (writeBody s.par offset s.bufLen) reportCount s := by
  simp only [exec, execWriteAt, refuseIo, hs, hp, hr, ne_eq, not_true_eq_false, if_false]

theorem exec_eraseBlocks (start : U32) (count : U64) (hs : s.seq = .idle) (hp : s.phase = .ready)
    (hr : refuseErase start count = none) :
    exec (.eraseBlocks start count) s = ioOp .runErase (eraseSession s.par start count.toNat) reportStatus s := by
  simp only [exec, execEraseBlocks, refuseIo, hs, hp, hr, ne_eq, not_true_eq_false, if_false]

theorem exec_configure (hs : s.seq = .idle) (hp : s.phase = .fresh) (hg : nextGrant s = true) :
    exec .configure s = .next (configureEnds s.par (initSequence s.par (enter .slow .s1Prime s))) := by
  simp only [exec, execConfigure, refuseConfigure, hs, hp, hg, ne_eq, not_true_eq_false, if_false, if_true]

/-- How `Configure` ends, from how its sequence ends (R260, R271). -/
theorem configureEnds_of (par : Params) {p : Proc Unit} {Q : State → Prop}
    (h : Ends p s (fun _ t => Q (leaveConfigure par none t)) (fun e t => Q (leaveConfigure par (some e) t))) :
    Q (configureEnds par (p s)) := by
  unfold Ends at h
  generalize p s = res at h ⊢
  cases res with
  | ok a t => exact h
  | error e t => exact h

theorem configure_next {Q : State → Prop} (hs : s.seq = .idle) (hp : s.phase = .fresh) (hg : nextGrant s = true)
    (h : Ends (initSequence s.par) (enter .slow .s1Prime s) (fun _ t => Q (leaveConfigure s.par none t))
      (fun e t => Q (leaveConfigure s.par (some e) t))) :
    ∃ t, exec .configure s = .next t ∧ Q t :=
  ⟨_, exec_configure hs hp hg, configureEnds_of s.par h⟩

/-! A next state of a bus-using operation comes from its wrapper. -/

theorem readAt_inv {offset : Nat} (h : exec (.readAt offset) s = .next t) :
    s.seq = .idle ∧ s.phase = .ready ∧ refuseTransfer s.par offset s.bufLen = none ∧
      ioOp .runReadAt (readBody s.par offset s.bufLen) reportCount s = .next t := by
  simp only [exec, execReadAt, refuseIo] at h
  by_cases hs : s.seq = .idle
  · by_cases hp : s.phase = .ready
    · simp only [hs, hp, ne_eq, not_true_eq_false, if_false] at h
      cases hr : refuseTransfer s.par offset s.bufLen with
      | none => rw [hr] at h; exact ⟨hs, hp, rfl, h⟩
      | some r => rw [hr] at h; simp at h
    · simp [hs, hp] at h
  · simp [hs] at h

theorem writeAt_inv {offset : Nat} (h : exec (.writeAt offset) s = .next t) :
    s.seq = .idle ∧ s.phase = .ready ∧ refuseTransfer s.par offset s.bufLen = none ∧
      ioOp .runWriteAt (writeBody s.par offset s.bufLen) reportCount s = .next t := by
  simp only [exec, execWriteAt, refuseIo] at h
  by_cases hs : s.seq = .idle
  · by_cases hp : s.phase = .ready
    · simp only [hs, hp, ne_eq, not_true_eq_false, if_false] at h
      cases hr : refuseTransfer s.par offset s.bufLen with
      | none => rw [hr] at h; exact ⟨hs, hp, rfl, h⟩
      | some r => rw [hr] at h; simp at h
    · simp [hs, hp] at h
  · simp [hs] at h

theorem eraseBlocks_inv {start : U32} {count : U64} (h : exec (.eraseBlocks start count) s = .next t) :
    s.seq = .idle ∧ s.phase = .ready ∧ refuseErase start count = none ∧
      ioOp .runErase (eraseSession s.par start count.toNat) reportStatus s = .next t := by
  simp only [exec, execEraseBlocks, refuseIo] at h
  by_cases hs : s.seq = .idle
  · by_cases hp : s.phase = .ready
    · simp only [hs, hp, ne_eq, not_true_eq_false, if_false] at h
      cases hr : refuseErase start count with
      | none => rw [hr] at h; exact ⟨hs, hp, rfl, h⟩
      | some r => rw [hr] at h; simp at h
    · simp [hs, hp] at h
  · simp [hs] at h

theorem configure_inv (h : exec .configure s = .next t) :
    s.seq = .idle ∧ s.phase = .fresh ∧ t = configureEnds s.par (initSequence s.par (enter .slow .s1Prime s)) := by
  simp only [exec, execConfigure, refuseConfigure] at h
  by_cases hs : s.seq = .idle
  · by_cases hp : s.phase = .fresh
    · simp only [hs, hp, ne_eq, not_true_eq_false, if_false] at h
      by_cases hg : nextGrant s = true
      · rw [if_pos hg] at h; exact ⟨hs, hp, by simpa using h.symm⟩
      · rw [if_neg hg] at h; simp at h
    · simp [hs, hp] at h
  · simp [hs] at h

/-- What a query of the host changes (R381 to R383). -/
theorem query_inv {i : Instr} (hi : i = .size ∨ i = .writeBlockSize ∨ i = .eraseBlockSize) (h : exec i s = .next t) :
    s.seq = .idle ∧ ∃ c, t = { s with presented := some c } := by
  have hb : s.seq ≠ .idle → refuseBusy s = some .requestWhileRunning := fun hs => if_neg hs
  rcases hi with rfl | rfl | rfl
  · simp only [exec, execSize] at h
    by_cases hs : s.seq = .idle
    · rw [show refuseBusy s = none from if_pos hs] at h
      dsimp only at h
      split at h
      · split at h
        · exact ⟨hs, _, by simpa [present] using h.symm⟩
        · simp at h
      · simp at h
    · simp [hb hs] at h
  · simp only [exec, execWriteBlockSize] at h
    by_cases hs : s.seq = .idle
    · rw [show refuseBusy s = none from if_pos hs] at h
      exact ⟨hs, _, by simpa [present] using h.symm⟩
    · simp [hb hs] at h
  · simp only [exec, execEraseBlockSize] at h
    by_cases hs : s.seq = .idle
    · rw [show refuseBusy s = none from if_pos hs] at h
      exact ⟨hs, _, by simpa [present] using h.symm⟩
    · simp [hb hs] at h

end Sys2Proof.Machine
end

