-- ==== Sys2Proof/Laws/Effect.lean ====
section
/-! SUPPORT. All that a host operation can do, said once for the seven of them: what stays, what it may write, how it
ends, and which events stand at its two ends. -/

namespace Sys2Proof.Machine

variable {s t : State}

theorem host_cases {i : Instr} (hi : i.place = .host) :
    (i = .size ∨ i = .writeBlockSize ∨ i = .eraseBlockSize) ∨ i = .configure ∨ (∃ o, i = .readAt o) ∨
      (∃ o, i = .writeAt o) ∨ ∃ a n, i = .eraseBlocks a n := by
  cases i <;> first | (simp [Instr.place] at hi; done) | simp

/-- What a run put in front of the trace, when it neither took nor gave back the lock. -/
theorem added_unlocked (ho : Onward s t) (hl : lockEvents t = lockEvents s) :
    ∃ es : List Event, es.filter Event.isLock = [] ∧ t.trace = es ++ s.trace := by
  obtain ⟨es, he⟩ := ho.trace
  refine ⟨es, ?_, he.symm⟩
  unfold lockEvents at hl
  rw [← he, List.filter_append] at hl
  exact List.append_left_eq_self.mp hl

theorem LenHeld.of (h : LenHeld s) (hd : t.done = s.done) (hr : t.rem = s.rem) (hb : t.bufLen = s.bufLen)
    (hp : t.par = s.par) : LenHeld t :=
  ⟨by rw [hd, hp]; exact h.done, by rw [hr, hp]; exact h.rem, by rw [hb, hp]; exact h.bufLen⟩

/-- What a host operation does (R380, R404, R401, R270, R125). -/
structure HostEffect (i : Instr) (s t : State) : Prop where
  settled : Settled s → Settled t
  onward : Onward s t
  sized : Sized s → Sized t
  widths : LenHeld s → LenHeld t
  buf : bufferOk s.buf s.bufLen = true → bufferOk t.buf t.bufLen = true
  inbox : t.inbox = s.inbox
  ready : (s.phase = .ready → s.cardType = .sd2 ∨ s.cardType = .sdhc) → t.phase = .ready →
    t.cardType = .sd2 ∨ t.cardType = .sdhc
  fresh : (s.phase = .fresh → s.cardType = .unknown) → t.phase = .fresh → t.cardType = .unknown
  errors : (i = .size ∨ i = .writeBlockSize ∨ i = .eraseBlockSize) ∧ t.err = s.err ∨
    ∀ e, t.err = some e → e ∈ errorsOf i
  device : i ≠ .configure → SameDevice s t
  events : if i = .size ∨ i = .writeBlockSize ∨ i = .eraseBlockSize then eventsBetween s t = []
    else t.lockHeld = false ∧
      ∃ es : List Event, es.filter Event.isLock = [] ∧ t.trace = .unlock :: (es ++ .rate (if i = .configure then .slow else .fast) :: .lock :: s.trace)

/-- The registers of a transfer stay within the width of its length (R109). -/
theorem Reached.widths {o k b : Nat} {q : Seq} {e : Option ErrCode} {c : Completion} {u : State}
    (hu : Reached k b (enter .fast q s) u) (hw : Held s.par o s.bufLen) (hk : k ≤ s.bufLen) : LenHeld (complete e c u) := by
  have hp : (complete e c u).par = s.par := hu.only.onward.par
  refine ⟨?_, ?_, ?_⟩ <;> rw [hp]
  · exact (hu.done.trans_le hk).trans_lt hw.len
  · exact Nat.lt_of_le_of_lt hu.rem hw.len
  · exact hu.only.bufLen.trans_lt hw.len

/-- What every host operation does, in every run that ends in a next state. -/
theorem host_effect {i : Instr} (hi : i.place = .host) (h : exec i s = .next t) : HostEffect i s t := by
  rcases host_cases hi with hq | rfl | ⟨o, rfl⟩ | ⟨o, rfl⟩ | ⟨a, n, rfl⟩
  · obtain ⟨hs, c, rfl⟩ := query_inv hq h
    refine ⟨fun k => ⟨k.1, k.2, k.3⟩, ⟨Nat.le_refl _, List.suffix_refl _, List.suffix_refl _, List.suffix_refl _, rfl⟩, fun
        h => ⟨h.1, h.2, h.3, h.4⟩, fun h => ⟨h.1, h.2, h.3⟩, id, rfl, id, id, .inl ⟨hq, rfl⟩, fun _ => ⟨rfl, rfl, rfl, rfl⟩, ?_⟩
    rw [if_pos hq]; exact eventsBetween_of rfl
  · obtain ⟨hs, hp, rfl⟩ := configure_inv h
    refine configureEnds_of s.par (Q := fun t => HostEffect .configure s t) ((initSequence_spec s.par (enter .slow .s1Prime
        s)).mono ?_ ?_)
    · rintro _ u ⟨hi, hcs, hr, hc, h1, h2, -⟩
      obtain ⟨q, he, hpr, hph, hct, hcid, hcsd, hrs, hin, htr, hb, hbl, hix, hon, hsz, es, hlk, hes⟩ := leaveConfigure_spec s.par
          none u
      refine ⟨fun _ => ⟨.inl (q.1.trans hcs), q.2.1, q.2.2⟩, (enter_onward _ _ s).trans (hi.onward.trans hon), fun h => hsz (hi.sized (enter_sized _ _
          h)), fun h => h.of (htr.done.trans hi.transfer.done) (htr.rem.trans hi.transfer.rem) (hbl.trans hi.bufLen)
          (hon.par.trans hi.onward.par), ?_, hix.trans hi.inbox, ?_, ?_, .inr ?_, ?_, ?_⟩
      · rw [hb, hbl, hi.buf, hi.bufLen]; exact id
      · intro _ _; rw [hct]; exact hc
      · intro _ h'; rw [hph] at h'; simp at h'
      · intro e h'; rw [he] at h'; cases h'
      · intro h'; exact absurd rfl h'
      · rw [if_neg (by simp)]
        obtain ⟨es', hlk', hes'⟩ := added_unlocked hi.onward hi.locks
        exact ⟨q.2.1, es ++ es', by simp [hlk, hlk'], by rw [hes, hes']; simp⟩
    · rintro e u ⟨hi, hr, hc⟩
      obtain ⟨q, he, hpr, hph, hct, hcid, hcsd, hrs, hin, htr, hb, hbl, hix, hon, hsz, es, hlk, hes⟩ := leaveConfigure_spec s.par
          (some e) u
      refine ⟨fun _ => ⟨?_, q.2.1, q.2.2⟩, (enter_onward _ _ s).trans (hi.onward.trans hon), fun h => hsz (hi.sized (enter_sized _ _
          h)), fun h => h.of (htr.done.trans hi.transfer.done) (htr.rem.trans hi.transfer.rem) (hbl.trans hi.bufLen)
          (hon.par.trans hi.onward.par), ?_, hix.trans hi.inbox, ?_, ?_, .inr ?_, ?_, ?_⟩
      · have hpar : (leaveConfigure s.par (some e) u).par = s.par := hon.par.trans hi.onward.par
        rw [hpar, q.1, hph]
        cases s.par.csReleaseOnInitFail <;> simp
      · rw [hb, hbl, hi.buf, hi.bufLen]; exact id
      · intro _ h'; rw [hph] at h'; simp at h'
      · intro _ h'; rw [hph] at h'; simp at h'
      · intro e' h'; rw [he] at h'; cases h'
        cases e <;> simp_all [classAfter, errorsOf]
      · intro h'; exact absurd rfl h'
      · rw [if_neg (by simp)]
        obtain ⟨es', hlk', hes'⟩ := added_unlocked hi.onward hi.locks
        exact ⟨q.2.1, es ++ es', by simp [hlk, hlk'], by rw [hes, hes']; simp⟩
  · obtain ⟨hs, hp, hr, h⟩ := readAt_inv h
    obtain ⟨hw, h0, h1, h2⟩ := refuseTransfer_inv hr
    have key : ∀ (e : Option ErrCode) (c : Completion) (k b : Nat) (u : State), k ≤ s.bufLen → Reached k b (enter .fast .runReadAt s)
        u → Filled k s.bufLen (enter .fast .runReadAt s) u → (∀ x, e = some x → x = .readCmd ∨ x = .startBlock) →
            HostEffect (.readAt o) s (complete e c u) := by
      intro e c k b u hk hu hf he
      have hd := (enter_device .fast .runReadAt s).trans (hu.only.device.trans (complete_device e c u))
      refine ⟨fun k => ⟨.inl (hu.cs (k.released (by simp [hp]))), rfl, rfl⟩, (enter_onward _ _ s).trans (hu.only.onward.trans (complete_onward _ _
          _)), fun h => complete_sized _ _ (hu.sized (enter_sized _ _ h)), fun _ => ?_, ?_, hu.only.inbox, ?_, ?_, .inr ?_, fun _ =>
              hd, ?_⟩
      · exact hu.widths hw hk
      · intro hb
        simp only [bufferOk, Bool.and_eq_true] at hb ⊢
        refine ⟨hf.wf hb.1, ?_⟩
        change Memory.within u.buf u.bufLen = true
        rw [hu.only.bufLen]
        exact hf.within hb.2
      · intro h; rw [hd.phase, hd.cardType]; exact h
      · intro h; rw [hd.phase, hd.cardType]; exact h
      · intro x hx; simpa [errorsOf] using he x hx
      · rw [if_neg (by simp)]
        obtain ⟨es', hlk, hes'⟩ := added_unlocked hu.only.onward hu.only.locks
        exact ⟨rfl, es', hlk, by show _ :: u.trace = _; rw [hes']; simp⟩
    rcases ioOp_cases (readBody_spec s.par o s.bufLen (enter .fast .runReadAt s) (Nat.le_refl _) h0) h with ⟨u,
        ⟨⟨b, hu⟩, hf, -⟩, rfl⟩ | ⟨c, u, ⟨k, hk, hk0, ⟨c', hc, he, -, hu, hf⟩ | ⟨r, he, hr'⟩⟩, rfl⟩
    · exact key _ _ _ _ u (Nat.le_refl _) hu hf (by simp)
    · cases he; exact key _ _ _ _ u hk.le hu hf (by rintro x hx; cases hx; exact hc)
    · cases he
  · obtain ⟨hs, hp, hr, h⟩ := writeAt_inv h
    obtain ⟨hw, h0, h1, h2⟩ := refuseTransfer_inv hr
    have key : ∀ (e : Option ErrCode) (c : Completion) (k b : Nat) (u : State), k ≤ s.bufLen → Reached k b (enter .fast .runWriteAt s)
        u → u.buf = (enter .fast .runWriteAt s).buf → (∀ x, e = some x → x = .readCmd ∨ x = .startBlock ∨ x = .writeCmd
            ∨ x = .writeDataResp) → HostEffect (.writeAt o) s (complete e c u) := by
      intro e c k b u hk hu hf he
      have hd := (enter_device .fast .runWriteAt s).trans (hu.only.device.trans (complete_device e c u))
      refine ⟨fun k => ⟨.inl (hu.cs (k.released (by simp [hp]))), rfl, rfl⟩, (enter_onward _ _ s).trans (hu.only.onward.trans (complete_onward _ _
          _)), fun h => complete_sized _ _ (hu.sized (enter_sized _ _ h)), fun _ => ?_, ?_, hu.only.inbox, ?_, ?_, .inr ?_, fun _ =>
              hd, ?_⟩
      · exact hu.widths hw hk
      · change bufferOk _ _ = true → bufferOk u.buf u.bufLen = true
        rw [hf, hu.only.bufLen]; exact id
      · intro h; rw [hd.phase, hd.cardType]; exact h
      · intro h; rw [hd.phase, hd.cardType]; exact h
      · intro x hx; simpa [errorsOf] using he x hx
      · rw [if_neg (by simp)]
        obtain ⟨es', hlk, hes'⟩ := added_unlocked hu.only.onward hu.only.locks
        exact ⟨rfl, es', hlk, by show _ :: u.trace = _; rw [hes']; simp⟩
    rcases ioOp_cases (writeBody_spec s.par o s.bufLen (enter .fast .runWriteAt s) (Nat.le_refl _) h0) h with ⟨u, ⟨⟨b, hu⟩, hf, -⟩,
        rfl⟩ | ⟨c, u, ⟨k, hk, hk0, ⟨c', hc, he, -, hu, hf⟩ | ⟨r, he, hr'⟩⟩, rfl⟩
    · exact key _ _ _ _ u (Nat.le_refl _) hu hf (by simp)
    · cases he; exact key _ _ _ _ u hk.le hu hf (by rintro x hx; cases hx; exact hc)
    · cases he
  · obtain ⟨hs, hp, hr, h⟩ := eraseBlocks_inv h
    have key : ∀ (e : Option ErrCode) (c : Completion) (u : State), BusOnly (enter .fast .runErase s) u → u.cs = true →
        (∀ x, e = some x → x = .writeMultiCmd ∨ x = .writeDataResp) → HostEffect (.eraseBlocks a n) s (complete e c u)
            := by
      intro e c u hb hcs he
      have hd := (enter_device .fast .runErase s).trans (hb.device.trans (complete_device e c u))
      refine ⟨fun _ => ⟨.inl hcs, rfl, rfl⟩, (enter_onward _ _ s).trans (hb.onward.trans (complete_onward _ _ _)), fun h =>
          ⟨hb.transfer.scratch ▸ h.scratch, hb.frameSize h.frame, hb.init.trail ▸ h.trail, hb.init.regImg ▸ h.regImg⟩,
              fun h => h.of hb.transfer.done hb.transfer.rem hb.bufLen hb.onward.par, ?_, hb.inbox, ?_, ?_, .inr ?_, fun _ => hd, ?_⟩
      · change bufferOk _ _ = true → bufferOk u.buf u.bufLen = true
        rw [hb.buf, hb.bufLen]; exact id
      · intro h; rw [hd.phase, hd.cardType]; exact h
      · intro h; rw [hd.phase, hd.cardType]; exact h
      · intro x hx; simpa [errorsOf] using he x hx
      · rw [if_neg (by simp)]
        obtain ⟨es', hlk, hes'⟩ := added_unlocked hb.onward hb.locks
        exact ⟨rfl, es', hlk, by show _ :: u.trace = _; rw [hes']; simp⟩
    rcases ioOp_cases (eraseSession_spec s.par a n.toNat (enter .fast .runErase s)) h with ⟨u, ⟨hb, hcs⟩, rfl⟩ | ⟨c, u, ⟨hb,
        hcs, he⟩ | ⟨-, r, he, hr'⟩, rfl⟩
    · exact key _ _ u hb hcs (by simp)
    · refine key _ _ u hb hcs ?_
      intro x hx; cases hx
      rcases he with he | he <;> cases he <;> simp
    · cases he

end Sys2Proof.Machine
end

