-- ==== Sys2Proof/Laws/Encode.lean ====
section
/-! SUPPORT. Byte order, both ways, and what can be outside its class. -/

namespace Sys2Proof

@[simp] theorem beBytes_length (n v : Nat) : (beBytes n v).length = n := by
  induction n with
  | zero => rfl
  | succ n ih => simp [beBytes, ih]

theorem ofBe_foldl (bytes : List Byte) (acc : Nat) :
    bytes.foldl (fun acc b => acc * 256 + b.toNat) acc = acc * 256 ^ bytes.length + ofBe bytes := by
  unfold ofBe
  induction bytes generalizing acc with
  | nil => simp
  | cons b bs ih =>
    simp only [List.foldl_cons, List.length_cons]
    rw [ih, ih (0 * 256 + b.toNat)]
    ring

theorem ofBe_cons (b : Byte) (bytes : List Byte) : ofBe (b :: bytes) = b.toNat * 256 ^ bytes.length + ofBe bytes := by
  rw [ofBe, List.foldl_cons, ofBe_foldl]
  simp

/-- A number below `256 ^ n` is what its `n` bytes say. -/
theorem ofBe_beBytes (n v : Nat) : ofBe (beBytes n v) = v % 256 ^ n := by
  induction n with
  | zero => simp [beBytes, ofBe, Nat.mod_one]
  | succ n ih =>
    have h := Nat.mod_mul (a := 256 ^ n) (b := 256) (x := v)
    rw [beBytes, ofBe_cons, beBytes_length, ih, BitVec.toNat_ofNat, show 256 ^ (n + 1) = 256 ^ n * 256 from pow_succ _ _, h, Nat.mul_comm, Nat.add_comm]

theorem ofBe_lt (bytes : List Byte) : ofBe bytes < 256 ^ bytes.length := by
  induction bytes with
  | nil => simp [ofBe]
  | cons b bs ih =>
    rw [ofBe_cons, List.length_cons, pow_succ]
    have hb : b.toNat < 256 := b.isLt
    nlinarith [Nat.mul_le_mul_right (256 ^ bs.length) (Nat.le_of_lt_succ hb)]

/-- The four argument bytes carry the argument (R160). -/
theorem joinArg_argBytes (arg : U32) :
    joinArg (arg.extractLsb 31 24) (arg.extractLsb 23 16) (arg.extractLsb 15 8) (arg.extractLsb 7 0) = arg := by
  apply BitVec.eq_of_getLsbD_eq
  intro i hi
  simp only [joinArg, BitVec.getLsbD_append, BitVec.getLsbD_extractLsb]
  interval_cases i <;> simp

/-- Byte 0 of a frame carries the command index (R190). -/
@[simp] theorem frameByte0_code (code : BitVec 6) : (frameByte0 code).setWidth 6 = code := by
  revert code; decide

@[simp] theorem frameByte0_inj {a b : BitVec 6} : frameByte0 a = frameByte0 b ↔ a = b :=
  ⟨fun e => (frameByte0_code a).symm.trans ((congrArg (BitVec.setWidth 6) e).trans (frameByte0_code b)), congrArg _⟩

/-- A frame is read back field by field (R190). -/
theorem decode_frame (par : Params) (code : BitVec 6) (arg : U32) (crc : Byte) (rest : List Byte) :
    decode par .frame (frameBytes code arg crc ++ rest) =
      match decodeFrame par (frameByte0 code) arg crc with
      | .ok i => .ok (i, rest)
      | .error e => .error e := by
  have h := joinArg_argBytes arg
  unfold frameBytes argBytes
  generalize arg.extractLsb 31 24 = b1 at h ⊢
  generalize arg.extractLsb 23 16 = b2 at h ⊢
  generalize arg.extractLsb 15 8 = b3 at h ⊢
  generalize arg.extractLsb 7 0 = b4 at h ⊢
  subst h
  rfl

/-! ### The other direction -/

/-- Whole multiples of `256 ^ n` do not show in the low `n` bytes. -/
theorem beBytes_add (n q v : Nat) : beBytes n (256 ^ n * q + v) = beBytes n v := by
  induction n generalizing q with
  | zero => rfl
  | succ n ih =>
    have h : 256 ^ (n + 1) * q + v = 256 ^ n * (256 * q) + v := by ring
    rw [h, beBytes, beBytes, ih, Nat.mul_add_div (by positivity)]
    congr 1
    apply BitVec.eq_of_toNat_eq
    simp

/-- The bytes of the number that some bytes are, are those bytes. -/
theorem beBytes_ofBe (bytes : List Byte) : beBytes bytes.length (ofBe bytes) = bytes := by
  induction bytes with
  | nil => rfl
  | cons b bs ih =>
    have h := ofBe_lt bs
    rw [List.length_cons, beBytes, ofBe_cons, Nat.mul_comm, Nat.mul_add_div (by positivity), Nat.div_eq_of_lt h,
      beBytes_add, ih]
    simp

/-- The argument bytes of an argument that four bytes carry are those bytes (R160). -/
theorem argBytes_joinArg (b1 b2 b3 b4 : Byte) : argBytes (joinArg b1 b2 b3 b4) = [b1, b2, b3, b4] := by
  simp only [argBytes, joinArg, List.cons.injEq, and_true]
  refine ⟨?_, ?_, ?_, ?_⟩ <;>
  · apply BitVec.eq_of_getLsbD_eq
    intro i hi
    simp only [BitVec.getLsbD_append, BitVec.getLsbD_extractLsb]
    interval_cases i <;> simp

/-! ### Bytes outside their class -/

/-- An if-then-else neither of whose branches is a value is not that value. -/
theorem ite_ne {c : Prop} [Decidable c] {α : Type} {a b x : α} (ha : a ≠ x) (hb : b ≠ x) : (if c then a else b) ≠ x := by
  split
  · exact ha
  · exact hb

/-- A frame is never a byte outside its class: R209 speaks of received bytes. -/
theorem decodeFrame_inside (par : Params) (b0 : Byte) (arg : U32) (crc : Byte) : decodeFrame par b0 arg crc ≠ .error .outsideClass := by
  have hf : ∀ i a c, fixedFrame i a c arg crc ≠ .error .outsideClass := fun _ _ _ => ite_ne nofun nofun
  have ha : ∀ i, addressedFrame par i arg crc ≠ .error .outsideClass := fun _ => ite_ne nofun nofun
  exact ite_ne (hf _ _ _) (ite_ne (hf _ _ _) (ite_ne (hf _ _ _) (ite_ne (hf _ _ _) (ite_ne nofun (ite_ne (hf _ _ _) (ite_ne (ha _)
    (ite_ne (ha _) (ite_ne (ha _) (ite_ne (hf _ _ _) (ite_ne (hf _ _ _) (ite_ne (ite_ne nofun (ite_ne nofun (ite_ne nofun nofun)))
      nofun)))))))))))

theorem decodeOffset_inside (par : Params) (i : Nat → Instr) (rest : List Byte) :
    decodeOffset par i rest ≠ .error .outsideClass :=
  ite_ne nofun (ite_ne nofun nofun)

theorem decodeHost_inside (par : Params) (op : Byte) (rest : List Byte) : decodeHost par op rest ≠ .error .outsideClass := by
  have h := decodeOffset_inside par
  unfold decodeHost
  repeat' split
  all_goals simp [h]

/-- Only at the places where one class of received bytes is tested is a byte outside its class (R209). -/
theorem decode_outside (par : Params) {p : Place} {w : List Byte} (h : decode par p w = .error .outsideClass) :
    (∃ b more, w = b :: more) ∧
      p ∈ [Place.idleTest, .illegalTest, .readyTest, .echo, .ocr0, .dataResp, .notBusy, .startWait] := by
  have key : ∀ {b : Byte} {more : List Byte}, decodeByte par p b ≠ .error .outsideClass →
      (match (decodeByte par) p b with | .ok i => .ok (i, more) | .error e => .error e : Except Reject (Instr × List Byte)) ≠
        .error .outsideClass := by
    intro b more hb
    cases hd : decodeByte par p b with
    | ok i => nofun
    | error e => rw [hd] at hb; simpa using hb
  match w with
  | [] => cases p <;> simp [decode] at h
  | b :: more =>
    refine ⟨⟨b, more, rfl⟩, ?_⟩
    cases p with
    | host => exact absurd h (decodeHost_inside par b more)
    | frame =>
      match more, h with
      | b1 :: b2 :: b3 :: b4 :: c :: rest, h =>
        have k := decodeFrame_inside par b (joinArg b1 b2 b3 b4) c
        simp only [decode] at h
        cases hd : decodeFrame par b (joinArg b1 b2 b3 b4) c with
        | ok i => rw [hd] at h; cases h
        | error e => rw [hd] at h k; exact absurd (by simpa using h) k
      | [], h => cases h
      | [_], h => cases h
      | [_, _], h => cases h
      | [_, _, _], h => cases h
      | [_, _, _, _], h => cases h
    | send => exact absurd h (key (ite_ne nofun (ite_ne nofun (ite_ne nofun (ite_ne nofun nofun)))))
    | respPoll => exact absurd h (key (ite_ne nofun nofun))
    | csd0 => exact absurd h (key (ite_ne nofun (ite_ne nofun nofun)))
    | idleTest => simp
    | illegalTest => simp
    | readyTest => simp
    | echo => simp
    | ocr0 => simp
    | dataResp => simp
    | notBusy => simp
    | startWait => simp
end Sys2Proof
end

