-- ==== Sys2Proof/Laws/OtherByte.lean ====
section
/-! SUPPORT. All that a received byte outside its class can do: an error exit of the operation that runs, said once, and
the parts the meanings of Machine/OtherByte.lean are made of. -/

namespace Sys2Proof.Machine

variable {s t u : State} {es : List Event} {e : ErrCode}

/-- From `s` to `u` a byte has been received or tested and nothing decided yet: the exchanges `es`, perhaps a reading of the
clock; the response, the trailing bytes and the time are not spoken of. -/
structure Heard (es : List Event) (s u : State) : Prop where
  seq : u.seq = s.seq
  phase : u.phase = s.phase
  cs : u.cs = s.cs
  trace : u.trace = es ++ s.trace
  cardType : u.cardType = s.cardType
  cid : u.cid = s.cid
  csd : u.csd = s.csd
  rateSel : u.rateSel = s.rateSel
  transfer : SameTransfer s u
  buffer : SameBuffer s u
  frame : u.frame = s.frame
  pollCnt : u.pollCnt = s.pollCnt
  deadline : u.deadline = s.deadline
  loopDeadline : u.loopDeadline = s.loopDeadline
  regImg : u.regImg = s.regImg
  cidNew : u.cidNew = s.cidNew
  csdNew : u.csdNew = s.csdNew
  inbox : u.inbox = s.inbox
  miso : u.miso = s.miso
  grants : u.grants = s.grants
  par : u.par = s.par

theorem Heard.refl (s : State) : Heard [] s s :=
  ⟨rfl, rfl, rfl, rfl, rfl, rfl, rfl, rfl, .refl s, .refl s, rfl, rfl, rfl, rfl, rfl, rfl, rfl, rfl, rfl, rfl, rfl⟩

theorem answered_heard (r : Byte) (s : State) : Heard [] s (answered r s) :=
  ⟨rfl, rfl, rfl, rfl, rfl, rfl, rfl, rfl, ⟨rfl, rfl, rfl, rfl, rfl⟩, ⟨rfl, fun _ => rfl⟩, rfl, rfl, rfl, rfl, rfl, rfl,
    rfl, rfl, rfl, rfl, rfl⟩

theorem received_heard (par : Params) (b : Byte) (s : State) : Heard [Event.x par.fill b] s (received par b s) :=
  ⟨rfl, rfl, rfl, rfl, rfl, rfl, rfl, rfl, ⟨rfl, rfl, rfl, rfl, rfl⟩, ⟨rfl, fun _ => rfl⟩, rfl, rfl, rfl, rfl, rfl, rfl,
    rfl, rfl, rfl, rfl, rfl⟩

theorem trailByte_heard (par : Params) (i : Nat) (b : Byte) (s : State) : Heard [Event.x par.fill b] s (trailByte par i b s) :=
  ⟨rfl, rfl, rfl, rfl, rfl, rfl, rfl, rfl, ⟨rfl, rfl, rfl, rfl, rfl⟩, ⟨rfl, fun _ => rfl⟩, rfl, rfl, rfl, rfl, rfl, rfl,
    rfl, rfl, rfl, rfl, rfl⟩

/-- A reading of the clock decides nothing by itself. -/
theorem Heard.expired (h : Heard es s u) (d : Nat) : Heard es s (expired d u).2 :=
  ⟨h.seq, h.phase, h.cs, h.trace, h.cardType, h.cid, h.csd, h.rateSel,
    ⟨h.transfer.1, h.transfer.2, h.transfer.3, h.transfer.4, h.transfer.5⟩, ⟨h.buffer.1, h.buffer.2⟩, h.frame, h.pollCnt,
    h.deadline, h.loopDeadline, h.regImg, h.cidNew, h.csdNew, h.inbox, h.miso, h.grants, h.par⟩

/-- Completing with an error, chip-select released first where that is asked for, is an error exit (R404). -/
theorem Heard.complete (h : Heard es s u) (rel : Bool) (e : ErrCode) (c : Completion) :
    ErrorExit rel e c s.phase es s (complete (some e) c (if rel then setCs true u else u)) := by
  cases rel with
  | false =>
    refine ⟨rfl, rfl, h.phase, h.cs, rfl, rfl, ?_, h.cardType, h.cid, h.csd, h.rateSel,
      ⟨h.transfer.1, h.transfer.2, h.transfer.3, h.transfer.4, h.transfer.5⟩, ⟨h.buffer.1, h.buffer.2⟩, h.frame, h.pollCnt,
      h.deadline, h.loopDeadline, h.regImg, h.cidNew, h.csdNew, h.inbox, h.miso, h.grants, h.par⟩
    show Event.unlock :: u.trace = _
    rw [h.trace]
    rfl
  | true =>
    refine ⟨rfl, rfl, h.phase, rfl, rfl, rfl, ?_, h.cardType, h.cid, h.csd, h.rateSel,
      ⟨h.transfer.1, h.transfer.2, h.transfer.3, h.transfer.4, h.transfer.5⟩, ⟨h.buffer.1, h.buffer.2⟩, h.frame, h.pollCnt,
      h.deadline, h.loopDeadline, h.regImg, h.cidNew, h.csdNew, h.inbox, h.miso, h.grants, h.par⟩
    show Event.unlock :: (setCs true u).trace = _
    rw [setCs_trace, h.cs, h.trace]
    cases s.cs <;> simp

/-- The phase of an error exit is what is written to it. -/
theorem ErrorExit.withPhase {rel : Bool} {c : Completion} {p : Phase} (k : ErrorExit rel e c p es s t) (q : Phase) :
    ErrorExit rel e c q es s { t with phase := q } :=
  ⟨k.err, k.presented, rfl, k.cs, k.lockHeld, k.seq, k.trace, k.cardType, k.cid, k.csd, k.rateSel,
    ⟨k.transfer.1, k.transfer.2, k.transfer.3, k.transfer.4, k.transfer.5⟩, ⟨k.buffer.1, k.buffer.2⟩, k.frame, k.pollCnt,
    k.deadline, k.loopDeadline, k.regImg, k.cidNew, k.csdNew, k.inbox, k.miso, k.grants, k.par⟩

/-- `Configure` leaves by the same exit, in phase FAILED (R260, R404, R408; D15). -/
theorem Heard.leaveConfigure (par : Params) (h : Heard es s u) (e : ErrCode) :
    ErrorExit par.csReleaseOnInitFail e (.status (some e)) .failed es s (leaveConfigure par (some e) u) :=
  (h.complete par.csReleaseOnInitFail e (.status (some e))).withPhase .failed

/-- Where chip-select has been released already, the parameter of D15 makes no difference. -/
theorem leaveConfigure_released (par : Params) (e : ErrCode) (s : State) :
    Machine.leaveConfigure par (some e) (setCs true s) =
      { Machine.complete (some e) (.status (some e)) (setCs true s) with phase := .failed } := by
  have h : setCs true (setCs true s) = setCs true s := setCs_same rfl
  unfold Machine.leaveConfigure
  cases par.csReleaseOnInitFail
  · rfl
  · simp only [if_true, h]

/-- `cs(1); fail E` ends the operation that runs (R404, R406). -/
theorem Heard.releaseAndRaise (par : Params) (h : Heard es s u) (e : ErrCode) (hs : s.seq ≠ .idle) :
    ErrorExit true e (errorReport e s) (phaseAfterError s) es s (releaseAndRaise par e u) := by
  have hi := fun c => h.complete true e c
  have hc := (hi (.status (some e))).withPhase .failed
  have hr : reportCount (some e) (setCs true u) = .count s.done (some e) := by
    show Completion.count u.done _ = _
    rw [h.transfer.done]
  have hq : (setCs true u).seq = s.seq := h.seq
  unfold Machine.releaseAndRaise raiseError errorReport phaseAfterError
  rw [hq, leaveConfigure_released]
  cases hz : s.seq <;> simp only [hz, hr, reduceCtorEq, or_self, or_true, true_or, if_true, if_false, ne_eq,
    not_true_eq_false] at hs ⊢ <;> first | exact hc | exact hi _

theorem releaseAndRaise_idle (par : Params) (e : ErrCode) (hs : s.seq = .idle) : releaseAndRaise par e s = setCs true s := by
  unfold releaseAndRaise raiseError
  rw [show (setCs true s).seq = .idle from hs]

/-- What an error exit does not speak of, kept by both ways out. -/
theorem leaveConfigure_kept (par : Params) (e : ErrCode) (s : State) :
    (leaveConfigure par (some e) s).r1 = s.r1 ∧ (leaveConfigure par (some e) s).resp = s.resp ∧
      (leaveConfigure par (some e) s).trail = s.trail ∧ (leaveConfigure par (some e) s).time = s.time ∧
      (leaveConfigure par (some e) s).ticks = s.ticks := by
  unfold leaveConfigure
  cases par.csReleaseOnInitFail <;> exact ⟨rfl, rfl, rfl, rfl, rfl⟩

theorem releaseAndRaise_kept (par : Params) (e : ErrCode) (s : State) :
    (releaseAndRaise par e s).r1 = s.r1 ∧ (releaseAndRaise par e s).resp = s.resp ∧ (releaseAndRaise par e s).trail = s.trail ∧
      (releaseAndRaise par e s).time = s.time ∧ (releaseAndRaise par e s).ticks = s.ticks := by
  have k := leaveConfigure_kept par e (setCs true s)
  unfold releaseAndRaise raiseError
  split <;> first | exact k | exact ⟨rfl, rfl, rfl, rfl, rfl⟩

theorem answered_kept (r : Byte) (s : State) :
    (answered r s).r1 = r ∧ (answered r s).resp = s.resp ∧ (answered r s).trail = s.trail ∧
      (answered r s).time = s.time ∧ (answered r s).ticks = s.ticks := ⟨rfl, rfl, rfl, rfl, rfl⟩

theorem expired_kept (d : Nat) (s : State) :
    (expired d s).2.r1 = s.r1 ∧ (expired d s).2.resp = s.resp ∧ (expired d s).2.trail = s.trail ∧
      (expired d s).2.time = nextTime s ∧ (expired d s).2.ticks = s.ticks.tail := ⟨rfl, rfl, rfl, rfl, rfl⟩

theorem received_busOnly (par : Params) (b : Byte) (s : State) : BusOnly s (received par b s) :=
  ⟨⟨rfl, rfl, rfl, rfl⟩, ⟨rfl, rfl, rfl, rfl, rfl⟩, ⟨rfl, rfl, rfl, rfl, rfl⟩, ⟨rfl, rfl⟩, rfl, rfl, rfl, rfl, rfl, rfl,
    rfl, ⟨Nat.le_refl _, List.suffix_cons _ _, List.suffix_refl _, List.suffix_refl _, rfl⟩, rfl, id⟩

/-- `if expired(d): …`, by what the one reading shows (R290). -/
theorem ifExpired_late {d : Nat} {late : State → State} (h : d ≤ nextTime s) : ifExpired d late s = late (expired d s).2 :=
  if_pos (decide_eq_true h)

theorem ifExpired_early {d : Nat} {late : State → State} (h : nextTime s < d) : ifExpired d late s = (expired d s).2 :=
  if_neg (ne_true_of_eq_false (decide_eq_false (Nat.not_le.2 h)))

/-! ### Time, events and inputs -/

theorem leaveConfigure_onward (par : Params) (e : ErrCode) (s : State) : Onward s (leaveConfigure par (some e) s) :=
  (leaveConfigure_spec par (some e) s).2.2.2.2.2.2.2.2.2.2.2.2.2.1

theorem releaseAndRaise_onward (par : Params) (e : ErrCode) (s : State) : Onward s (releaseAndRaise par e s) := by
  have h := (setCs_busOnly true s).onward
  unfold releaseAndRaise
  generalize setCs true s = u at *
  unfold raiseError
  split
  · exact h
  iterate 3 exact h.trans (complete_onward _ _ _)
  all_goals exact h.trans (leaveConfigure_onward par _ _)

theorem ifExpired_onward {d : Nat} {late : State → State} (h : ∀ u, Onward u (late u)) (s : State) :
    Onward s (ifExpired d late s) := by
  have k := (expired_busOnly d s).onward
  unfold ifExpired
  split
  · exact k.trans (h _)
  · exact k

end Sys2Proof.Machine
end

