-- ==== Sys2Proof/Laws/Params.lean ====
section
/-! SUPPORT. What a configuration with unambiguous words gives, and the defaults. -/

namespace Sys2Proof

variable {par : Params}

/-- The defaults are unambiguous. -/
theorem Params.spec_legal : Params.spec.Legal := ⟨by decide, by decide, ⟨2, by decide⟩, by decide⟩

/-- With a unit of 1 us a duration is its number of microseconds (D4). -/
theorem Params.units_of_tick (h : par.tick = 1) (us : Nat) : par.units us = us := by
  unfold Params.units
  rw [h, Nat.div_one]
  rfl

@[simp] theorem Params.spec_units (us : Nat) : Params.spec.units us = us := Params.units_of_tick rfl us

/-- No command but the stop-transmission command has its index (R241). -/
theorem Params.Legal.ne_stop (h : par.Legal) :
    par.cmdGoIdle ≠ par.cmdStop ∧ par.cmdIfCond ≠ par.cmdStop ∧ par.cmdSendCsd ≠ par.cmdStop ∧
      par.cmdSendCid ≠ par.cmdStop ∧ par.cmdSetBlockLen ≠ par.cmdStop ∧ par.cmdReadSingle ≠ par.cmdStop ∧
      par.cmdWriteSingle ≠ par.cmdStop ∧ par.cmdWriteMulti ≠ par.cmdStop ∧ par.cmdApp ≠ par.cmdStop ∧
      par.cmdReadOcr ≠ par.cmdStop ∧ P.acmdOpCond ≠ par.cmdStop := by
  have k := h.commands
  simp only [Params.commands, List.nodup_cons, List.mem_cons, not_or] at k
  tauto

/-! ### The illegal-command bit -/

theorem bitIndex_single (k : Fin 8) : bitIndex (1#8 <<< k.val) = k.val := by revert k; decide

theorem and_single (k : Fin 8) (b : Byte) : b &&& 1#8 <<< k.val = 0 ↔ b.getLsbD k.val = false := by
  revert k b; decide +kernel

theorem insertBit_set (k : Fin 8) (rest : BitVec 7) : (insertBit k.val rest).getLsbD k.val = true := by
  revert k rest; decide +kernel

theorem removeBit_insertBit (k : Fin 8) (rest : BitVec 7) : removeBit k.val (insertBit k.val rest) = rest := by
  revert k rest; decide +kernel

theorem insertBit_removeBit (k : Fin 8) (b : Byte) (h : b.getLsbD k.val = true) : insertBit k.val (removeBit k.val b) = b := by
  revert k b; decide +kernel

theorem append_extract (rest : BitVec 7) : rest.extractLsb 6 2 ++ rest.extractLsb 1 0 = rest := by
  revert rest; decide +kernel

theorem extract_append (high : BitVec 5) (low : BitVec 2) :
    (high ++ low).extractLsb 6 2 = high ∧ (high ++ low).extractLsb 1 0 = low := by
  revert high low; decide +kernel

/-- By default an illegal-command response is bits 7:3, a set bit 2, and bits 1:0 (R194). -/
theorem r1IllegalByte_spec (high : BitVec 5) (low : BitVec 2) : r1IllegalByte Params.spec high low = high ++ 1#1 ++ low := by
  revert high low; decide +kernel

/-- An R1.illegal byte has the illegal-command bit set (R194). -/
theorem Params.Legal.illegal_set (h : par.Legal) (high : BitVec 5) (low : BitVec 2) :
    r1IllegalByte par high low &&& par.r1Illegal ≠ 0 := by
  obtain ⟨k, hk⟩ := h.r1Illegal
  unfold r1IllegalByte
  rw [hk, bitIndex_single, Ne, and_single, insertBit_set]
  decide

/-- An R1.illegal byte is read back (R194). -/
theorem Params.Legal.illegal_read (h : par.Legal) (high : BitVec 5) (low : BitVec 2) :
    removeBit (bitIndex par.r1Illegal) (r1IllegalByte par high low) = high ++ low := by
  obtain ⟨k, hk⟩ := h.r1Illegal
  unfold r1IllegalByte
  rw [hk, bitIndex_single, removeBit_insertBit]

/-- A byte with the illegal-command bit set is the R1.illegal byte of its other bits (R194). -/
theorem Params.Legal.illegal_back (h : par.Legal) {b : Byte} (hb : b &&& par.r1Illegal ≠ 0) :
    r1IllegalByte par ((removeBit (bitIndex par.r1Illegal) b).extractLsb 6 2)
      ((removeBit (bitIndex par.r1Illegal) b).extractLsb 1 0) = b := by
  obtain ⟨k, hk⟩ := h.r1Illegal
  rw [hk, Ne, and_single, Bool.not_eq_false] at hb
  unfold r1IllegalByte
  rw [append_extract, hk, bitIndex_single, insertBit_removeBit k b hb]

/-- The sentinel of a silent card passes the illegal-command test (R244). -/
theorem Params.Legal.illegal_sentinel (h : par.Legal) : (0xFF : Byte) &&& par.r1Illegal ≠ 0 := by
  obtain ⟨k, hk⟩ := h.r1Illegal
  rw [hk, Ne, and_single]
  clear hk
  revert k
  decide

end Sys2Proof
end

