-- ==== Sys2Proof/Laws/PerInstr.lean ====
section
/-! SUPPORT. Statements made of every instruction, one lemma for each constructor. -/

namespace Sys2Proof.Laws.EncodeSize

/-- How many bytes an instruction is in a configuration: a frame is "exactly 6 bytes" (R190), a sent or received byte is one, a host
request is its op code and its operands (log 8). -/
def sizeOf (par : Params) : Instr → Nat
  | .readAt _ | .writeAt _ => par.offsetBytes + 1
  | .eraseBlocks _ _ => 13
  | i => if i.place = .frame then 6 else 1

/-- The encoding has the size of its format, in every configuration. -/
def Statement (i : Instr) : Prop := ∀ par : Params, (encode par i).length = sizeOf par i

theorem cmd0 : Statement .cmd0 := fun _ => rfl
theorem cmd8 : Statement .cmd8 := fun _ => rfl
theorem cmd9 : Statement .cmd9 := fun _ => rfl
theorem cmd10 : Statement .cmd10 := fun _ => rfl
theorem cmd12 (arg : U32) (crc : Byte) : Statement (.cmd12 arg crc) := fun _ => rfl
theorem cmd16 : Statement .cmd16 := fun _ => rfl
theorem cmd17 (arg : U32) : Statement (.cmd17 arg) := fun _ => rfl
theorem cmd24 (arg : U32) : Statement (.cmd24 arg) := fun _ => rfl
theorem cmd25 (arg : U32) : Statement (.cmd25 arg) := fun _ => rfl
theorem cmd55 : Statement .cmd55 := fun _ => rfl
theorem cmd58 : Statement .cmd58 := fun _ => rfl
theorem acmd41 (hcs : Bool) : Statement (.acmd41 hcs) := fun _ => rfl
theorem tokenStartTx : Statement .tokenStartTx := fun _ => rfl
theorem tokenStartRx : Statement .tokenStartRx := fun _ => rfl
theorem tokenMulti : Statement .tokenMulti := fun _ => rfl
theorem tokenStop : Statement .tokenStop := fun _ => rfl
theorem fill : Statement .fill := fun _ => rfl
theorem r1Valid (flags : BitVec 7) : Statement (.r1Valid flags) := fun _ => rfl
theorem r1Skip (rest : BitVec 7) : Statement (.r1Skip rest) := fun _ => rfl
theorem r1Idle : Statement .r1Idle := fun _ => rfl
theorem r1Illegal (high : BitVec 5) (low : BitVec 2) : Statement (.r1Illegal high low) := fun _ => rfl
theorem r1Ready : Statement .r1Ready := fun _ => rfl
theorem r7Echo : Statement .r7Echo := fun _ => rfl
theorem r3Ocr0Hc (rest : BitVec 6) : Statement (.r3Ocr0Hc rest) := fun _ => rfl
theorem dataRespAccepted (ignored : BitVec 3) : Statement (.dataRespAccepted ignored) := fun _ => rfl
theorem idleByte : Statement .idleByte := fun _ => rfl
theorem csd0V1 (rest : BitVec 6) : Statement (.csd0V1 rest) := fun _ => rfl
theorem csd0V2 (rest : BitVec 6) : Statement (.csd0V2 rest) := fun _ => rfl
theorem csd0None (rest : BitVec 7) : Statement (.csd0None rest) := fun _ => rfl
theorem configure : Statement .configure := fun _ => rfl
theorem readAt (offset : Nat) : Statement (.readAt offset) := fun _ => by simp [encode, sizeOf]
theorem writeAt (offset : Nat) : Statement (.writeAt offset) := fun _ => by simp [encode, sizeOf]
theorem size : Statement .size := fun _ => rfl
theorem writeBlockSize : Statement .writeBlockSize := fun _ => rfl
theorem eraseBlockSize : Statement .eraseBlockSize := fun _ => rfl
theorem eraseBlocks (start : U32) (count : U64) : Statement (.eraseBlocks start count) := fun _ => by simp [encode, sizeOf]

end Sys2Proof.Laws.EncodeSize
end

