-- ==== Sys2Proof/Laws/Register.lean ====
section
/-! SUPPORT. A register image as one word: its bytes side by side, the first received on top (R302). -/

namespace Sys2Proof.Machine

theorem toNat_append_byte {w : Nat} (x : BitVec w) (b : Byte) : (x ++ b).toNat = x.toNat * 256 + b.toNat := by
  have hb : b.toNat < 2 ^ 8 := b.isLt
  rw [BitVec.toNat_append, Nat.shiftLeft_eq, Nat.mul_comm, ← Nat.two_pow_add_eq_or_of_lt hb]

/-- R302: `REG = img[0] ++ img[1] ++ ... ++ img[15]`. -/
theorem regValue_bytes (b0 b1 b2 b3 b4 b5 b6 b7 b8 b9 b10 b11 b12 b13 b14 b15 : Byte) :
    regValue [b0, b1, b2, b3, b4, b5, b6, b7, b8, b9, b10, b11, b12, b13, b14, b15] =
      b0 ++ b1 ++ b2 ++ b3 ++ b4 ++ b5 ++ b6 ++ b7 ++ b8 ++ b9 ++ b10 ++ b11 ++ b12 ++ b13 ++ b14 ++ b15 := by
  have h : ofBe [b0, b1, b2, b3, b4, b5, b6, b7, b8, b9, b10, b11, b12, b13, b14, b15] < 2 ^ 128 := by
    have h := ofBe_lt [b0, b1, b2, b3, b4, b5, b6, b7, b8, b9, b10, b11, b12, b13, b14, b15]
    simpa using h
  apply BitVec.eq_of_toNat_eq
  simp only [toNat_append_byte]
  rw [regValue, BitVec.toNat_ofNat, Nat.mod_eq_of_lt h]
  simp only [ofBe, List.foldl_cons, List.foldl_nil, Nat.zero_mul, Nat.zero_add]

/-- A list of 16 bytes, byte by byte. -/
theorem image_bytes {img : List Byte} (h : img.length = 16) :
    ∃ b0 b1 b2 b3 b4 b5 b6 b7 b8 b9 b10 b11 b12 b13 b14 b15 : Byte,
      img = [b0, b1, b2, b3, b4, b5, b6, b7, b8, b9, b10, b11, b12, b13, b14, b15] := by
  match img, h with
  | [b0, b1, b2, b3, b4, b5, b6, b7, b8, b9, b10, b11, b12, b13, b14, b15], _ =>
    exact ⟨b0, b1, b2, b3, b4, b5, b6, b7, b8, b9, b10, b11, b12, b13, b14, b15, rfl⟩

end Sys2Proof.Machine
end

