-- ==== Sys2Proof/Laws/Retry.lean ====
section
/-! SUPPORT. The clock readings of a command, and the retry loops of S2 and S4 on a card that never gives a suitable
response (R262, R264). -/

namespace Sys2Proof.Machine

variable {s : State} {rest : List Byte}

/-- On a card that is not busy a command reads the clock once, for the deadline of its pre-wait (R241, R290). -/
theorem command_clock (par : Params) {code : BitVec 6} (arg : U32) (crc : Byte) (hc : code ≠ par.cmdStop)
    (h : s.miso = 0xFF :: rest) {d : Nat} {more : List Nat} (ht : s.ticks = d :: more) :
    (command par code arg crc s).2.ticks = more ∧ (command par code arg crc s).2.time = s.time + d := by
  have hw : preWait par code (setCs false s) = waitNotBusy par (par.units par.tCmdBusy) (setCs false s) := if_neg hc
  have hp := poll_ran par (s := startDeadline (par.units par.tCmdBusy) (setCs false s)) (b := 0xFF) (rest := rest) h
  have he : waitNotBusy par (par.units par.tCmdBusy) (setCs false s) =
      (poll par (startDeadline (par.units par.tCmdBusy) (setCs false s))).2 := by
    unfold waitNotBusy notBusyLoop
    rw [hp.1]
    rfl
  unfold command
  rw [respPoll_ticks, respPoll_time, hw, he]
  unfold sendFrame
  simp only [xferWrite_ticks, xferWrite_time]
  refine ⟨?_, nextTime_given (s := setCs false s) ht⟩
  show s.ticks.tail = _
  rw [ht]; rfl

/-- A retry loop whose attempts all fail ends with the attempt whose reading of the clock reaches the loop deadline
(R262, R264). An attempt makes `k` readings of its own, sends `evs` and receives `script`. -/
theorem retryLoop_late {α : Type} {attempt : State → Byte × State} {good : Byte → Bool} {err : ErrCode} {k : Nat}
    {script : α → List Byte} {evs : α → List Event} {tries : List α}
    (ha : ∀ a ∈ tries, ∀ (u : State) (rest : List Byte) (ds more : List Nat), u.miso = script a ++ rest → ds.length = k →
      u.ticks = ds ++ more → ¬good (attempt u).1 = true ∧ Ran u (attempt u).2 (selectEvent u ++ evs a) rest ∧
        (attempt u).2.cs = false ∧ (attempt u).2.ticks = more ∧ (attempt u).2.time = u.time + ds.sum)
    {early last more : List Nat} {n : Nat} (hl : last.length = k + 1) (he : early.length + (k + 1) = (k + 1) * tries.length)
    (h1 : s.time + early.sum < s.loopDeadline) (h2 : s.loopDeadline ≤ s.time + early.sum + last.sum)
    (hm : s.miso = tries.flatMap script ++ rest) (ht : s.ticks = early ++ last ++ more) (hn : tries.length ≤ n) :
    ∃ t, retryLoop attempt good err n s = .error err t ∧ Ran s t (selectEvent s ++ tries.flatMap evs) rest ∧
      t.ticks = more ∧ t.cs = false := by
  induction tries generalizing s early n with
  | nil => simp at he
  | cons a tries ih =>
    obtain ⟨n, rfl⟩ : ∃ m, n = m + 1 := ⟨n - 1, by simp at hn; omega⟩
    obtain ⟨ds, d, later, hd, hk⟩ : ∃ ds d later, early ++ last ++ more = ds ++ d :: later ∧ ds.length = k := by
      refine ⟨(early ++ last ++ more).take k, (early ++ last ++ more)[k]'(by simp; omega), (early ++ last ++ more).drop (k + 1), ?_, by simp; omega⟩
      rw [List.getElem_cons_drop, List.take_append_drop]
    have hm' : s.miso = script a ++ (tries.flatMap script ++ rest) := by rw [hm]; simp
    obtain ⟨g, r, c, tk, tm⟩ := ha a (List.mem_cons_self ..) s _ ds (d :: later) hm' hk (ht.trans hd)
    have hnow : nextTime (attempt s).2 = s.time + ds.sum + d := by rw [nextTime_given tk, tm]
    have hdl : (attempt s).2.loopDeadline = s.loopDeadline := r.only.init.loopDeadline
    have hr : Ran s (expired (attempt s).2.loopDeadline (attempt s).2).2 (selectEvent s ++ evs a)
        (tries.flatMap script ++ rest) := ⟨r.only.trans (expired_busOnly _ _), r.trace, r.miso⟩
    have htk : (expired (attempt s).2.loopDeadline (attempt s).2).2.ticks = later := by
      show (attempt s).2.ticks.tail = _; rw [tk]; rfl
    cases tries with
    | nil =>
      obtain rfl : early = [] := List.length_eq_zero_iff.1 (by simp at he; exact List.length_eq_zero_iff.2 he)
      have hlast : last = ds ++ [d] ∧ more = later := by
        have e : last ++ more = (ds ++ [d]) ++ later := by simpa using hd
        exact List.append_inj e (by simp [hk, hl])
      obtain ⟨rfl, rfl⟩ := hlast
      refine ⟨_, bind_ok (bus_ok rfl) (ite_else g (bind_ok (get_ok _) (bind_ok (bus_ok rfl) (ite_then ?_ rfl)))), ?_, htk, c⟩
      · refine decide_eq_true ?_
        show (attempt s).2.loopDeadline ≤ nextTime (attempt s).2
        rw [hdl, hnow]; simp at h2; omega
      · exact hr.cast (by simp) (by simp)
    | cons b tries =>
      have hlen : k + 1 ≤ early.length := by
        simp only [List.length_cons] at he
        have e : (k + 1) * (tries.length + 1 + 1) = (k + 1) * tries.length + (k + 1) + (k + 1) := by ring
        omega
      obtain ⟨early', rfl⟩ : ∃ x, early = ds ++ d :: x := by
        refine ⟨early.drop (k + 1), ?_⟩
        have e1 : (early ++ last ++ more).take (k + 1) = early.take (k + 1) := by
          rw [List.append_assoc, List.take_append_of_le_length hlen]
        have e2 : (ds ++ d :: later).take (k + 1) = ds ++ [d] := by
          rw [show ds ++ d :: later = (ds ++ [d]) ++ later by simp, List.take_left' (by simp [hk])]
        rw [hd, e2] at e1
        calc early = early.take (k + 1) ++ early.drop (k + 1) := (List.take_append_drop _ _).symm
          _ = _ := by rw [← e1]; simp
      have hlater : later = early' ++ last ++ more := by
        have e : ds ++ d :: (early' ++ last ++ more) = ds ++ d :: later := by simpa using hd
        simpa using (List.append_cancel_left e).symm
      simp only [List.sum_append, List.sum_cons] at h1 h2
      obtain ⟨t, e1, e2, e3, e4⟩ := ih (s := (expired (attempt s).2.loopDeadline (attempt s).2).2) (early := early') (n := n)
        (fun x hx => ha x (List.mem_cons_of_mem _ hx))
        (by simp only [List.length_append, List.length_cons, Nat.mul_add] at he ⊢; simp at he ⊢; omega)
        (by show nextTime (attempt s).2 + _ < (attempt s).2.loopDeadline; rw [hnow, hdl]; omega)
        (by show (attempt s).2.loopDeadline ≤ nextTime (attempt s).2 + _ + _; rw [hnow, hdl]; omega)
        hr.miso (htk.trans hlater) (by simpa using hn)
      have hs0 : selectEvent (expired (attempt s).2.loopDeadline (attempt s).2).2 = [] := by
        unfold selectEvent; rw [if_neg]; show ¬(attempt s).2.cs = true; rw [c]; decide
      refine ⟨t, bind_ok (bus_ok rfl) (ite_else g (bind_ok (get_ok _) (bind_ok (bus_ok rfl) (ite_else ?_ e1)))), ?_, e3, e4⟩
      · refine ne_true_of_eq_false (decide_eq_false ?_)
        show ¬(attempt s).2.loopDeadline ≤ nextTime (attempt s).2
        rw [hnow, hdl]; omega
      · exact (hr.trans e2).cast (by rw [hs0]; simp) rfl
end Sys2Proof.Machine
end

