-- ==== Sys2Proof/Laws/Update.lean ====
section
/-! SUPPORT. Block updates: the argument that names a block, the bytes of an updated block, what a card returns while it
serves one, and the block primitives of a transfer on a card that serves or fails them (R330, R361, R176, R363). -/

namespace Sys2Proof.Machine

variable {off n b k j m : Nat} {old ignored crc during : List Byte} {response : Byte}

/-- A block at or below an addressable one has the argument `argOf` gives (R330). -/
theorem scale_argOf {card : CardType} {last : Nat} (ha : addressable card last) (hb : b ≤ last) (h32 : last < 2 ^ 32) :
    scale card (BitVec.ofNat 32 b) = .ok (argOf card b) := by
  have hn : (BitVec.ofNat 32 b).toNat = b := by rw [BitVec.toNat_ofNat]; omega
  rcases ha with rfl | ⟨rfl | rfl, h⟩
  · rfl
  all_goals
    unfold scale
    simp only [hn]
    rw [if_pos (show b < P.byteAddressedBound from (by omega : b < 2 ^ 23))]
    simp [argOf, P.blockSize, Nat.mul_comm]

@[simp] theorem blockAfter_length (buf : Memory) (off n b : Nat) (old : List Byte) :
    (blockAfter buf off n b old).length = 512 := by simp [blockAfter]

/-- What the adapter patches into a block read is the updated block: the `m` bytes of the buffer from byte `k` on go to
place `j`, and those are the places of the block that the request covers (R361). -/
theorem patch_blockAfter {buf : Memory} (ho : old.length = 512) (hj : j + m ≤ 512) (he : off + k = 512 * b + j)
    (hin : ∀ i, i < 512 → ((off ≤ 512 * b + i ∧ 512 * b + i < off + n) ↔ (j ≤ i ∧ i < j + m))) :
    patch j (buf.readBytes k m) old = blockAfter buf off n b old := by
  have hr : (buf.readBytes k m).length = m := Memory.length_readBytes
  have hl : (patch j (buf.readBytes k m) old).length = 512 := (patch_length (by rw [hr, ho]; exact hj)).trans ho
  apply List.ext_getElem
  · rw [hl, blockAfter_length]
  · intro i h1 h2
    rw [hl] at h1
    have e := patch_bytes (j := j) (src := buf.readBytes k m) (old := old) (by rw [hr, ho]; exact hj) i
    rw [List.getD_eq_getElem _ _ (by omega)] at e
    rw [e, hr]
    simp only [blockAfter, List.getElem_map, List.getElem_range]
    by_cases hc : j ≤ i ∧ i < j + m
    · rw [if_pos hc, if_pos ((hin i h1).2 hc), Memory.getD_readBytes (by omega)]
      congr 1
      omega
    · rw [if_neg hc, if_neg (fun h => hc ((hin i h1).1 h))]

/-- A block covered whole is the buffer's 512 bytes from byte `k` on (R361). -/
theorem readBytes_blockAfter {buf : Memory} (he : off + k = 512 * b) (hn : k + 512 ≤ n) (old : List Byte) :
    buf.readBytes k 512 = blockAfter buf off n b old := by
  have hr : (buf.readBytes k 512).length = 512 := Memory.length_readBytes
  apply List.ext_getElem
  · rw [hr, blockAfter_length]
  · intro i h1 h2
    rw [hr] at h1
    rw [← List.getD_eq_getElem _ (0 : Byte) (by omega), Memory.getD_readBytes h1]
    simp only [blockAfter, List.getElem_map, List.getElem_range]
    rw [if_pos (by omega)]
    congr 1
    omega

theorem updateAnswer_covered (h : coversBlock off n b) :
    updateAnswer off n b old ignored crc during response = answer ignored 0x00 (during ++ [response, 0xFF]) := by
  unfold updateAnswer
  rw [if_pos h, List.nil_append]

theorem updateAnswer_uncovered (h : ¬coversBlock off n b) (rest : List Byte) :
    updateAnswer off n b old ignored crc during response ++ rest =
      answer ignored 0x00 (packet old crc ++ answer ignored 0x00 (during ++ response :: 0xFF :: rest)) := by
  unfold updateAnswer
  rw [if_neg h]
  simp [answer]

/-! ### Block primitives on a card that serves them, and on one that fails them -/

variable {s t : State} {par : Params} {card : CardType} {rest script : List Byte} {es : List Event} {e : ErrCode}

/-- A block primitive on a script, from chip-select high to chip-select high: nothing but bus traffic, the events `es`,
and `rest` left of the card's bytes. -/
structure Block (es : List Event) (rest : List Byte) (s t : State) : Prop where
  only : BusOnly s t
  cs : t.cs = true
  miso : t.miso = rest
  trace : t.trace = es.reverse ++ s.trace

theorem Ran.block {es' : List Event} (h : Ran s t es rest) (hcs : t.cs = true) (he : es = es') :
    Block es' rest s t := ⟨h.only, hcs, h.miso, he ▸ h.trace⟩

/-- A block index that has an argument (R330). -/
theorem scaled_ok {b arg : U32} (h : scale s.cardType b = .ok arg) : scaled b s = .ok arg s := by
  unfold scaled; rw [h]

/-- A block read that the card serves (R331). -/
theorem readBlock_served (hl : par.Legal) (ha : scale s.cardType s.blk = .ok (argOf card b)) (hcs : s.cs = true)
    (hi : ignored.length = 6) {payload crc : List Byte} (hp : payload.length = 512) (hc : crc.length = 2)
    (hm : s.miso = answer ignored 0x00 (packet payload crc ++ rest)) :
    ∃ t, readBlock par s.blk P.blockSize s = .ok payload t ∧ Block (readEvents par card b payload ignored crc) rest s t := by
  obtain ⟨c1, c2, rfl⟩ : ∃ c1 c2, crc = [c1, c2] := by match crc, hc with | [a, b], _ => exact ⟨a, b, rfl⟩
  obtain ⟨t, k1, k2, k3, k4, -⟩ := readPacket_ran par (code := par.cmdReadSingle) (arg := argOf card b) (c1 := c1) (c2 := c2)
    (rest := rest) (payload := payload) hl.ne_stop.2.2.2.2.2.1 hi hm
  rw [hp] at k3 k4
  refine ⟨_, ite_else (by decide) (bind_ok (scaled_ok ha) (bind_ok (bus_ok k1) (ite_then (by decide) (bind_ok (orFail_ok k2)
    (bind_ok (bus_ok k3) (bind_ok (bus_ok rfl) (bind_ok (update_ok (setCs true) _) rfl))))))), k4.block rfl ?_⟩
  simp [readEvents, selectEvent, hcs]; rfl

/-- A block read that the card fails (R331). -/
theorem readBlock_failed (hl : par.Legal) (ha : scale s.cardType s.blk = .ok (argOf card b)) (hcs : s.cs = true)
    (hi : ignored.length = 6) (hf : ReadFails par card b ignored e script es) (hm : s.miso = script ++ rest) :
    ∃ t, readBlock par s.blk P.blockSize s = .error (.err e) t ∧ Block es rest s t := by
  have hn := hl.ne_stop.2.2.2.2.2.1
  have hsel : selectEvent s = [.cs false] := if_pos hcs
  cases hf with
  | rejected r h7 h0 =>
    obtain ⟨k1, k2, k3, -⟩ := command_ran par (code := par.cmdReadSingle) (argOf card b) par.crcDummy hn hi (r := r) (rest := rest)
      (by rw [isResponse_bit, h7]; rfl) (by rw [hm]; simp [answer])
    have hs := setCs_ran true (command par par.cmdReadSingle (argOf card b) par.crcDummy s).2
    refine ⟨_, ite_else (by decide) (bind_ok (scaled_ok ha) (bind_ok (bus_ok k1) (ite_else (by rw [isReady_eq]; simpa using h0)
      (bind_ok (update_ok (setCs true) _) rfl)))), ((k2.trans hs).cast rfl k2.miso).block rfl ?_⟩
    simp [k3, hsel]; rfl
  | silent polls hp =>
    obtain ⟨k1, k2, k3, -⟩ := command_silent par (code := par.cmdReadSingle) (argOf card b) par.crcDummy hn hi hp (rest := rest)
      (by rw [hm]; simp [silence])
    have hs := setCs_ran true (command par par.cmdReadSingle (argOf card b) par.crcDummy s).2
    refine ⟨_, ite_else (by decide) (bind_ok (scaled_ok ha) (bind_ok (bus_ok k1) (ite_else (by decide)
      (bind_ok (update_ok (setCs true) _) rfl)))), ((k2.trans hs).cast rfl k2.miso).block rfl ?_⟩
    simp [k3, hsel]; rfl
  | noToken r h1 h2 =>
    obtain ⟨k1, k2, k3, -⟩ := command_ran par (code := par.cmdReadSingle) (argOf card b) par.crcDummy hn hi (r := 0)
      (rest := r :: rest) (by decide) (by rw [hm]; simp [answer])
    obtain ⟨u, w1, w2, w3⟩ := waitStartBlock_wrong par k2.miso h1 h2
    refine ⟨u, ite_else (by decide) (bind_ok (scaled_ok ha) (bind_ok (bus_ok k1) (ite_then (by decide)
      (bind_error (orFail_error w1))))), (k2.trans w2).block w3 ?_⟩
    simp [k3, hsel]; rfl

/-- A block write that the card serves (R332). -/
theorem writeBlock_served (hl : par.Legal) (ha : scale s.cardType s.blk = .ok (argOf card b)) (hcs : s.cs = true)
    (hi : ignored.length = 6) {new during : List Byte} {response : Byte} (hp : new.length = 512) (hd : during.length = 515)
    (hr : response.extractLsb 4 0 = 5#5) (hm : s.miso = answer ignored 0x00 (during ++ [response, 0xFF]) ++ rest) :
    ∃ t, writeBlock par s.blk new s = .ok () t ∧
      Block ([Event.cs false] ++ commandEvents par (encode par (.cmd24 (argOf card b))) ignored 0x00 ++
        exchanges (0xFE :: new ++ [par.crcDummy, par.crcDummy]) during ++ reads par [response, 0xFF] ++ [Event.cs true])
        rest s t := by
  have hn := hl.ne_stop.2.2.2.2.2.2.1
  have hsel : selectEvent s = [.cs false] := if_pos hcs
  obtain ⟨k1, k2, k3, -⟩ := command_ran par (code := par.cmdWriteSingle) (argOf card b) par.crcDummy hn hi (r := 0)
      (rest := during ++ response :: 0xFF :: rest) (by decide) (by rw [hm]; simp [answer])
  obtain ⟨u, w1, w2, w3, -⟩ := sendDataPacket_ran par (token := P.tokenStart) (src := new) hp.ge hd hr k2.miso
  have hs := setCs_ran true u
  refine ⟨_, ite_else (by rw [hp]; decide) (bind_ok (scaled_ok ha) (bind_ok (bus_ok k1) (ite_then (by decide)
      (bind_ok (orFail_ok w1) (update_ok (setCs true) _))))), (((k2.trans w2).trans hs).cast rfl w2.miso).block rfl ?_⟩
  rw [List.take_of_length_le hp.le]
  simp [k3, hsel, w3]; rfl

/-- A block write that the card fails (R332). -/
theorem writeBlock_failed {new : List Byte} (hl : par.Legal) (ha : scale s.cardType s.blk = .ok (argOf card b)) (hcs : s.cs = true)
    (hi : ignored.length = 6) (hp : new.length = 512) (hf : WriteFails par card b new ignored e script es) (hm : s.miso = script ++ rest) :
    ∃ t, writeBlock par s.blk new s = .error (.err e) t ∧ Block es rest s t := by
  have hn := hl.ne_stop.2.2.2.2.2.2.1
  have hsel : selectEvent s = [.cs false] := if_pos hcs
  have hlen : ¬new.length < P.blockSize := by rw [hp]; decide
  cases hf with
  | rejected r h7 h0 =>
    obtain ⟨k1, k2, k3, -⟩ := command_ran par (code := par.cmdWriteSingle) (argOf card b) par.crcDummy hn hi (r := r) (rest := rest)
      (by rw [isResponse_bit, h7]; rfl) (by rw [hm]; simp [answer])
    have hs := setCs_ran true (command par par.cmdWriteSingle (argOf card b) par.crcDummy s).2
    refine ⟨_, ite_else hlen (bind_ok (scaled_ok ha) (bind_ok (bus_ok k1) (ite_else (by rw [isReady_eq]; simpa using h0)
      (bind_ok (update_ok (setCs true) _) rfl)))), ((k2.trans hs).cast rfl k2.miso).block rfl ?_⟩
    simp [k3, hsel]; rfl
  | silent polls hp =>
    obtain ⟨k1, k2, k3, -⟩ := command_silent par (code := par.cmdWriteSingle) (argOf card b) par.crcDummy hn hi hp (rest := rest)
      (by rw [hm]; simp [silence])
    have hs := setCs_ran true (command par par.cmdWriteSingle (argOf card b) par.crcDummy s).2
    refine ⟨_, ite_else hlen (bind_ok (scaled_ok ha) (bind_ok (bus_ok k1) (ite_else (by decide)
      (bind_ok (update_ok (setCs true) _) rfl)))), ((k2.trans hs).cast rfl k2.miso).block rfl ?_⟩
    simp [k3, hsel]; rfl
  | notAccepted during r hd hr =>
    obtain ⟨k1, k2, k3, -⟩ := command_ran par (code := par.cmdWriteSingle) (argOf card b) par.crcDummy hn hi (r := 0)
      (rest := during ++ r :: rest) (by decide) (by rw [hm]; simp [answer])
    obtain ⟨u, w1, w2, w3⟩ := sendDataPacket_rejected par (token := P.tokenStart) (src := new) hp.ge hd hr k2.miso
    refine ⟨u, ite_else hlen (bind_ok (scaled_ok ha) (bind_ok (bus_ok k1) (ite_then (by decide)
      (bind_error (orFail_error w1))))), (k2.trans w2).block w3 ?_⟩
    rw [List.take_of_length_le hp.le]
    simp [k3, hsel]; rfl
end Sys2Proof.Machine
end

