-- ==== Sys2Proof/Tests/Slice0.lean ====
section
/-! SUPPORT. Tests. Every expected value is from spec/: the encodings of 30_encoding.md, the vectors V2 to V9 and the
programs P1 to P5 of 95_test_vectors.md, named beside each test. The last part shows, for every obligation with
hypotheses, a concrete state and operands that meet them (clause by clause where there are several). -/

namespace Sys2Proof.Tests

open Sys2Proof Sys2Proof.Machine

/-- The configuration of the defaults, in which all vectors are written. -/
abbrev spec : Params := Params.spec

set_option maxRecDepth 20000
-- The kernel evaluates most tests: one after another, so that no threads pile up behind it.
set_option Elab.async false

/-! ### Helpers -/

/-- A property of the next state. -/
def nextHas (o : Host.Outcome State Fault Refusal) (f : State → Bool) : Bool :=
  match o with
  | .next t => f t
  | _ => false

theorem exists_next {o : Host.Outcome State Fault Refusal} {f : State → Bool} (h : nextHas o f = true) :
    ∃ t, o = .next t ∧ f t = true := by
  cases o with
  | next t => exact ⟨t, rfl, h⟩
  | fault e => cases h
  | refused r => cases h

def ff (n : Nat) : List Byte := List.replicate n 0xFF

/-- The card of part 3: not busy, answers a command after one filler byte. -/
def slowAnswer (r : Byte) (tail : List Byte) : List Byte := ff 8 ++ r :: tail

/-- V6.12. -/
def cidImage : List Byte :=
  [0x03, 0x53, 0x44, 0x53, 0x4C, 0x31, 0x36, 0x47, 0x80, 0x12, 0x34, 0x56, 0x78, 0x01, 0x46, 0x99]

/-- V6.6. -/
def csdImageV2 : List Byte :=
  [0x40, 0x0E, 0x00, 0x32, 0x5B, 0x59, 0x00, 0x00, 0x3B, 0x37, 0x7F, 0x80, 0x0A, 0x40, 0x40, 0xAF]

/-- V6.1. -/
def csdImageV1 : List Byte :=
  [0x00, 0x26, 0x00, 0x32, 0x5F, 0x59, 0x83, 0xA9, 0xED, 0xB7, 0xCF, 0xFF, 0x12, 0x40, 0x00, 0x9D]

/-- Byte j of block i is `(7 i + j) mod 256` (P3). -/
def storeBlock (i : Nat) : List Byte := (List.range 512).map (fun j => BitVec.ofNat 8 (7 * i + j))

/-- A state before the first `Configure`, with a script; the time base advances by 1 at each reading. -/
def fresh (miso : List Byte) : State := { State.reset with miso := miso, grants := [true], ticks := List.replicate 64 1 }

/-- A state after a successful `Configure`, with a script. -/
def ready (card : CardType) (miso : List Byte) : State :=
  { State.reset with phase := .ready, cardType := card, miso := miso, grants := [true], ticks := List.replicate 64 1 }

/-- The same with a buffer of `len` bytes. -/
def readyBuf (card : CardType) (len : Nat) (buf : Memory) (miso : List Byte) : State :=
  { ready card miso with buf := buf, bufLen := len }

/-! ### WellFormed: an ill-formed instruction for each check -/

/-- R170: offset 2^41 has block index 2^32. -/
theorem test_wellFormed_readAt : (Instr.readAt 2199023255552).wellFormed spec = false := by decide
theorem test_wellFormed_writeAt : (Instr.writeAt 2199023255552).wellFormed spec = false := by decide
/-- R109, R213: 512 is no offset of 9 bits, 511 is. -/
theorem test_wellFormed_offsetW : (Instr.readAt 512).wellFormed { spec with offsetW := 9 } = false ∧
    (Instr.readAt 511).wellFormed { spec with offsetW := 9 } = true := by decide
/-- R337, U12: block 2^32 would be touched. -/
theorem test_wellFormed_eraseBlocks : (Instr.eraseBlocks 0xFFFFFFFF 2).wellFormed spec = false := by decide
theorem test_wellFormed_largest : (Instr.readAt 2199023255551).wellFormed spec = true ∧
    (Instr.eraseBlocks 0xFFFFFFFF 1).wellFormed spec = true := by decide

/-! ### Decoding: a word of every row, written out from R200, R205, R209, R213 -/

theorem test_decode_frames :
    decode spec .frame [0x40, 0x00, 0x00, 0x00, 0x00, 0x95] = .ok (.cmd0, []) ∧
    decode spec .frame [0x48, 0x00, 0x00, 0x01, 0xAA, 0x87] = .ok (.cmd8, []) ∧
    decode spec .frame [0x49, 0x00, 0x00, 0x00, 0x00, 0xFF] = .ok (.cmd9, []) ∧
    decode spec .frame [0x4A, 0x00, 0x00, 0x00, 0x00, 0xFF] = .ok (.cmd10, []) ∧
    decode spec .frame [0x4C, 0x00, 0x00, 0x00, 0x00, 0x61] = .ok (.cmd12 0 0x61, []) ∧
    decode spec .frame [0x50, 0x00, 0x00, 0x02, 0x00, 0xFF] = .ok (.cmd16, []) ∧
    decode spec .frame [0x51, 0x00, 0x00, 0x0A, 0x00, 0xFF] = .ok (.cmd17 2560, []) ∧
    decode spec .frame [0x58, 0x12, 0x34, 0x56, 0x78, 0xFF] = .ok (.cmd24 0x12345678, []) ∧
    decode spec .frame [0x59, 0x00, 0x00, 0x06, 0x00, 0xFF] = .ok (.cmd25 1536, []) ∧
    decode spec .frame [0x77, 0x00, 0x00, 0x00, 0x00, 0xFF] = .ok (.cmd55, []) ∧
    decode spec .frame [0x7A, 0x00, 0x00, 0x00, 0x00, 0xFF] = .ok (.cmd58, []) ∧
    decode spec .frame [0x69, 0x40, 0x00, 0x00, 0x00, 0xFF] = .ok (.acmd41 true, []) ∧
    decode spec .frame [0x69, 0x00, 0x00, 0x00, 0x00, 0xFF] = .ok (.acmd41 false, []) :=
  ⟨rfl, rfl, rfl, rfl, rfl, rfl, rfl, rfl, rfl, rfl, rfl, rfl, rfl⟩

theorem test_decode_frames_refused :
    decode spec .frame [0x40, 0x00, 0x00, 0x00, 0x00, 0xFF] = .error .otherFixedBits ∧
    decode spec .frame [0x69, 0x40, 0x00, 0x00, 0x01, 0xFF] = .error .otherFixedBits ∧
    decode spec .frame [0x52, 0x00, 0x00, 0x00, 0x00, 0xFF] = .error .noSuchCommand ∧
    decode spec .frame [0x51, 0x00, 0x00, 0x00, 0x00] = .error .tooShort := ⟨rfl, rfl, rfl, rfl⟩

theorem test_decode_sent :
    decode spec .send [0xFE] = .ok (.tokenStartTx, []) ∧ decode spec .send [0xFC] = .ok (.tokenMulti, []) ∧
    decode spec .send [0xFD] = .ok (.tokenStop, []) ∧ decode spec .send [0xFF] = .ok (.fill, []) ∧
    decode spec .send [0x00] = .error .noSuchToken := ⟨rfl, rfl, rfl, rfl, rfl⟩

theorem test_decode_received :
    decode spec .startWait [0xFE] = .ok (.tokenStartRx, []) ∧
    decode spec .respPoll [0x05] = .ok (.r1Valid 5, []) ∧ decode spec .respPoll [0xFF] = .ok (.r1Skip 0x7F, []) ∧
    decode spec .idleTest [0x01] = .ok (.r1Idle, []) ∧ decode spec .idleTest [0x05] = .error .outsideClass ∧
    decode spec .illegalTest [0x05] = .ok (.r1Illegal 0 1, []) ∧ decode spec .illegalTest [0xFF] = .ok (.r1Illegal 31 3, []) ∧
    decode spec .readyTest [0x00] = .ok (.r1Ready, []) ∧ decode spec .echo [0xAA] = .ok (.r7Echo, []) ∧
    decode spec .echo [0x55] = .error .outsideClass ∧ decode spec .ocr0 [0xE0] = .ok (.r3Ocr0Hc 0x20, []) ∧
    decode spec .ocr0 [0xBF] = .error .outsideClass ∧ decode spec .dataResp [0x45] = .ok (.dataRespAccepted 2, []) ∧
    decode spec .dataResp [0x0B] = .error .outsideClass ∧ decode spec .notBusy [0xFF] = .ok (.idleByte, []) ∧
    decode spec .csd0 [0x26] = .ok (.csd0V1 0x26, []) ∧ decode spec .csd0 [0x40] = .ok (.csd0V2 0, []) ∧
    decode spec .csd0 [0xC0] = .ok (.csd0None 0x40, []) :=
  ⟨rfl, rfl, rfl, rfl, rfl, rfl, rfl, rfl, rfl, rfl, rfl, rfl, rfl, rfl, rfl, rfl, rfl, rfl⟩

/-- The op codes are R213's; the order of the operand bytes is the model's (log 8). -/
theorem test_decode_host :
    decode spec .host [0x00] = .ok (.configure, []) ∧
    decode spec .host [0x01, 0, 0, 0, 0, 0, 0, 0x01, 0xFE] = .ok (.readAt 510, []) ∧
    decode spec .host [0x02, 0, 0, 0, 0, 0, 0, 0x02, 0x00, 0xFF] = .ok (.writeAt 512, [0xFF]) ∧
    decode spec .host [0x03] = .ok (.size, []) ∧ decode spec .host [0x04] = .ok (.writeBlockSize, []) ∧
    decode spec .host [0x05] = .ok (.eraseBlockSize, []) ∧
    decode spec .host [0x06, 0, 0, 0, 3, 0, 0, 0, 0, 0, 0, 0, 2] = .ok (.eraseBlocks 3 2, []) ∧
    decode spec .host [0x07] = .error .noSuchOperation ∧ decode spec .host [0x01] = .error .tooShort :=
  ⟨rfl, rfl, rfl, rfl, rfl, rfl, rfl, rfl, rfl⟩

/-- With the illegal-command mask on bit 3, the row R1.illegal is the bytes with bit 3 set (R108, R194). -/
theorem test_decode_otherMask :
    decode { spec with r1Illegal := 0x08 } .illegalTest [0x09] = .ok (.r1Illegal 0 1, []) ∧
      decode { spec with r1Illegal := 0x08 } .illegalTest [0xFF] = .ok (.r1Illegal 31 3, []) ∧
      decode { spec with r1Illegal := 0x08 } .illegalTest [0x05] = .error .outsideClass := ⟨rfl, rfl, rfl⟩

/-- With P_OFFSET_W = 16 an offset has two bytes; with 9 the number 512 is no offset, and 511 is (R109, R213). -/
theorem test_decode_offsetW :
    decode { spec with offsetW := 16 } .host [0x01, 0x02, 0x10, 0xFF] = .ok (.readAt 528, [0xFF]) ∧
    encode { spec with offsetW := 16 } (.readAt 528) = [0x01, 0x02, 0x10] ∧
    decode { spec with offsetW := 9 } .host [0x02, 0x02, 0x00] = .error .operandTooWide ∧
    decode { spec with offsetW := 9 } .host [0x02, 0x01, 0xFF] = .ok (.writeAt 511, []) := ⟨rfl, rfl, rfl, rfl⟩

theorem test_decodeTableWord :
    decodeTableWord 48 0x51000000_00FF = some (.cmd17 0) ∧ decodeTableWord 8 0x06 = some (.eraseBlocks 0 0) := by decide

/-! ### Memory -/

theorem test_memory_write :
    Memory.write (Memory.write [] 5 0xA0) 3 0x01 = [(3, 0x01), (5, 0xA0)] ∧
      Memory.write [(3, 0x01), (5, 0xA0)] 3 0x00 = [(5, 0xA0)] := by decide

/-! ### The command engine and the waits (V3, V4) -/

/-- V3.1 with another filler and another dummy CRC (R109, D3, D9). -/
theorem test_cmd17_otherParams :
    nextHas (exec (.cmd17 5) { fresh (ff 8 ++ [0x00]) with par := { spec with fill := 0x7E, crcDummy := 0x01 } }) (fun t =>
      t.frame == [0x51, 0, 0, 0, 5, 0x01] && t.trace.drop 8 == [.x 0x7E 0xFF, .cs false] &&
        t.trace.take 1 == [.x 0x7E 0x00]) = true := by decide +kernel

/-- V3.1: 9 exchanges, `r = 0x00`, chip-select low. -/
theorem test_cmd17 :
    nextHas (exec (.cmd17 5) (fresh (ff 8 ++ [0x00]))) (fun t =>
      t.r1 == 0x00 && !t.cs && exchangeCount t.trace == 9 && t.frame == [0x51, 0, 0, 0, 5, 0xFF] &&
        t.trace.drop 8 == [.x 0xFF 0xFF, .cs false]) = true := by decide +kernel

/-- V3.5: the polls skip 80, C1 and FF. -/
theorem test_command_skips :
    nextHas (exec (.cmd17 5) (fresh (ff 7 ++ [0x80, 0xC1, 0xFF, 0x7F]))) (fun t =>
      t.r1 == 0x7F && t.pollCnt == 4 && !t.cs) = true := by decide +kernel

/-- R241: CMD12 makes no pre-wait poll. -/
theorem test_cmd12 :
    nextHas (exec (.cmd12 0 0x61) (fresh (ff 6 ++ [0x00]))) (fun t =>
      t.r1 == 0x00 && exchangeCount t.trace == 7) = true := by decide +kernel

/-- V3.7: `appCommand`, 16 exchanges, the response of the first frame discarded. -/
theorem test_appCommand :
    (appCommand spec 41 0x40000000 (fresh (ff 7 ++ 0x01 :: ff 7 ++ [0x00]))).1 = 0x00 ∧
      exchangeCount (appCommand spec 41 0x40000000 (fresh (ff 7 ++ 0x01 :: ff 7 ++ [0x00]))).2.trace = 16 := by
  decide +kernel

/-- V4.4: tests at t = 1..5, 5 polls. -/
theorem test_waitNotBusy :
    exchangeCount (waitNotBusy spec 5 { State.reset with miso := List.replicate 9 0, ticks := [0, 1, 1, 1, 1, 1, 1] }).trace = 5 := by
  decide +kernel

/-- V4.7: FF 01 is E_START_BLOCK after 2 polls, with CS 1. -/
theorem test_waitStartBlock :
    (match waitStartBlock spec { State.reset with cs := false, miso := [0xFF, 0x01], ticks := [0, 1] } with
      | .error e t => e == .startBlock && t.cs && t.trace == [.cs true, .x 0xFF 0x01, .x 0xFF 0xFF]
      | .ok _ _ => false) = true := by decide +kernel

/-! ### Received bytes -/

/-- R244: poll 65535 skipped: exhaustion. -/
theorem test_r1Skip_exhausts :
    nextHas (exec (.r1Skip 0x7F) { State.reset with cs := false, pollCnt := 65534 }) (fun t =>
      t.cs && t.r1 == 0xFF && t.trace == [.cs true, .x 0xFF 0xFF]) = true := by decide +kernel

/-- R263, V5 row 0x05. -/
theorem test_r1Illegal :
    nextHas (exec (.r1Illegal 0 1) { State.reset with cs := false, seq := .s3Probe, lockHeld := true, rateSel := .slow })
      (fun t => t.r1 == 0x05 && t.cardType == .sd1 && t.err == some .legacyNotImplemented && t.cs && !t.lockHeld &&
        t.phase == .failed && t.rateSel == .slow) = true := by decide +kernel

/-- R264, R266: a zero response moves S4 on and S6 on. -/
theorem test_r1Ready :
    nextHas (exec .r1Ready { State.reset with seq := .s4OpCond }) (fun t => t.seq == .s5Ocr) = true ∧
      nextHas (exec .r1Ready { State.reset with seq := .s6BlockLen }) (fun t => t.seq == .s7Regs) = true := by
  decide +kernel

/-- R263, R265: the classifying bytes. -/
theorem test_trailing :
    nextHas (exec .r7Echo State.reset) (fun t => t.cardType == .sd2 && t.trail == [0, 0, 0, 0xAA]) = true ∧
      nextHas (exec (.r3Ocr0Hc 0) State.reset) (fun t => t.cardType == .sdhc && t.trail == [0xC0, 0, 0, 0]) = true := by
  decide +kernel

/-- R310: structure 3 has no layout. -/
theorem test_csd0None :
    nextHas (exec (.csd0None 0x40) State.reset) (fun t => t.csdNew.structureField == 3 && capacity t.csdNew == none) =
      true := by decide +kernel

/-- A state in which an operation runs, with chip-select low. -/
def running (q : Seq) (miso : List Byte) : State := { State.reset with seq := q, cs := false, lockHeld := true, miso := miso }

/-- A received byte that stands alone, presented to the step. -/
def heard (p : Place) (b : Byte) (s : State) : Host.Outcome State Fault Refusal :=
  step { s with inbox := [⟨p, [b], [], 0⟩] }

/-- R209, V5.1: another 4th trailing byte is the echo mismatch, the class as it was. -/
theorem test_otherEcho :
    nextHas (heard .echo 0x55 (running .s3Probe [])) (fun t =>
      t.err == some .ifCondMismatch && t.cardType == .unknown && t.cs && !t.lockHeld && t.seq == .idle &&
        t.phase == .failed && t.trace == [.unlock, .cs true, .x 0xFF 0x55]) = true := by decide +kernel

/-- R209, V7.4: the data response 0x0B in a WriteAt. -/
theorem test_otherDataResp :
    nextHas (heard .dataResp 0x0B { running .runWriteAt [] with done := 412, phase := .ready }) (fun t =>
      t.presented == some (.count 412 (some .writeDataResp)) && t.phase == .ready &&
        t.trace == [.unlock, .cs true, .x 0xFF 0x0B]) = true := by decide +kernel

/-- R209, V4.7: in the start-token wait 0xFF is skipped before the deadline, 0x01 is the error at once. -/
theorem test_otherStartWait :
    nextHas (heard .startWait 0xFF { running .runReadAt [] with deadline := 5, ticks := [4] }) (fun t =>
      t.err == none && !t.cs && t.time == 4 && t.seq == .runReadAt) = true ∧
    nextHas (heard .startWait 0x01 { running .runReadAt [] with phase := .ready }) (fun t =>
      t.err == some .startBlock && t.cs && t.seq == .idle && t.phase == .ready) = true := by decide +kernel

/-- R262: a response other than 0x01 retries in S2 until the loop deadline. -/
theorem test_otherIdle :
    nextHas (heard .idleTest 0xFF { running .s2Idle [] with loopDeadline := 5, ticks := [4] }) (fun t =>
      t.err == none && t.r1 == 0xFF && t.seq == .s2Idle) = true ∧
    nextHas (heard .idleTest 0x05 { running .s2Idle [] with loopDeadline := 5, ticks := [5] }) (fun t =>
      t.err == some .noCard && t.phase == .failed) = true := by decide +kernel

/-- R209 at a place of another row: no byte of it is refused. -/
theorem test_otherBusy :
    nextHas (heard .notBusy 0x00 (running .runErase [])) (fun t =>
      t.resp == 0x00 && !t.cs && t.trace == [.x 0xFF 0x00]) = true := by decide +kernel

/-! ### Initialization (P1, P2, V5.1) -/

def scriptP1 : List Byte :=
  ff 13 ++ slowAnswer 0x01 (slowAnswer 0x01 [0x00, 0x00, 0x01, 0xAA]) ++
    slowAnswer 0x01 (slowAnswer 0x01 []) ++ slowAnswer 0x01 (slowAnswer 0x01 []) ++ slowAnswer 0x01 (slowAnswer 0x00 []) ++
    slowAnswer 0x00 [0xC0, 0xFF, 0x80, 0x00] ++ slowAnswer 0x00 [] ++
    slowAnswer 0x00 (0xFF :: 0xFF :: packet cidImage [0x12, 0x34]) ++
    slowAnswer 0x00 (0xFF :: 0xFF :: packet csdImageV2 [0x56, 0x78])

/-- P1: 171 exchanges, SDHC, the records of V6.12 and V6.6, ready. -/
theorem test_P1 :
    nextHas (exec .configure (fresh scriptP1)) (fun t =>
      t.err == none && t.cardType == .sdhc && t.cid == decodeCid cidImage && t.csd == decodeCsd csdImageV2 && t.cs &&
        t.rateSel == .fast && !t.lockHeld && t.seq == .idle && t.phase == .ready && t.miso == [] &&
        exchangeCount t.trace == 171) = true := by decide +kernel

def scriptP2 : List Byte := ff 13 ++ slowAnswer 0x01 (slowAnswer 0x05 [])

/-- P2: 31 exchanges, SD1, E_LEGACY_NOT_IMPLEMENTED; chip-select released only at the end. -/
theorem test_P2 :
    nextHas (exec .configure (fresh scriptP2)) (fun t =>
      t.err == some .legacyNotImplemented && t.cardType == .sd1 && t.cs && t.rateSel == .slow && t.phase == .failed &&
        exchangeCount t.trace == 31 && t.trace.length == 36) = true := by decide +kernel

/-- P2 with P_CS_RELEASE_ON_INIT_FAIL false (D15): the same but for chip-select, which stays low. -/
theorem test_P2_keepCs :
    nextHas (exec .configure { fresh scriptP2 with par := { spec with csReleaseOnInitFail := false } }) (fun t =>
      t.err == some .legacyNotImplemented && !t.cs && !t.lockHeld && t.phase == .failed &&
        exchangeCount t.trace == 31 && t.trace.length == 35) = true := by decide +kernel

/-- V5.1: the echo mismatch, 33 exchanges; the class stays as it was. -/
theorem test_V5_1 :
    nextHas (exec .configure (fresh (ff 13 ++ ff 7 ++ 0x01 :: ff 7 ++ [0x01, 0x00, 0x00, 0x01, 0x55]))) (fun t =>
      t.err == some .ifCondMismatch && t.cardType == .unknown && exchangeCount t.trace == 33 && t.cs &&
        t.phase == .failed) = true := by decide +kernel

/-! ### Registers (V6) -/

theorem test_capacity_v1 : capacity (decodeCsd csdImageV1) = some 983564288 := by decide +kernel
theorem test_capacity_v2 : capacity (decodeCsd csdImageV2) = some 7948206080 := by decide +kernel

/-- V6.4 (more than 32 bits) and V6.8 (42 bits). -/
theorem test_capacity_large :
    capacity (decodeCsd
      [0x00, 0x26, 0x00, 0x32, 0x5F, 0x5B, 0x83, 0xFF, 0xED, 0xB7, 0xCF, 0xFF, 0x12, 0xC0, 0x00, 0x1F]) = some 4294967296 ∧
    capacity (decodeCsd
      [0x40, 0x0E, 0x00, 0x32, 0x5B, 0x59, 0x00, 0x3F, 0xFF, 0xFF, 0x7F, 0x80, 0x0A, 0x40, 0x40, 0xF1]) =
      some 2199023255552 := by decide +kernel

/-- V6.12. -/
theorem test_decodeCid :
    decodeCid cidImage = { mid := 0x03, oid := 0x5344, pnm := 0x534C313647, prv := 0x80, psn := 0x12345678, mdt := 0x146 } := by
  decide +kernel

/-! ### Block I/O (V7) -/

/-- V7.1, by the class of the card. -/
theorem test_scale :
    scale .sdhc 0xFFFFFFFF = .ok 0xFFFFFFFF ∧ scale .sd2 5 = .ok 2560 ∧ scale .sd2 8388607 = .ok 0xFFFFFE00 ∧
      scale .sd2 8388608 = .error .blockIndexTooLarge ∧ scale .sd1 5 = .ok 2560 ∧
      scale .unknown 0 = .error .unknownCardType := ⟨rfl, rfl, rfl, rfl, rfl, rfl⟩

/-- V7.3: 527 exchanges. -/
theorem test_writeBlock :
    (match writeBlock spec 2 (storeBlock 0) (ready .sdhc (ff 7 ++ 0x00 :: ff 515 ++ [0xE5, 0x00, 0x00, 0xFF])) with
      | .ok _ t => t.cs && exchangeCount t.trace == 527 && t.frame == [0x58, 0, 0, 0, 2, 0xFF]
      | .error _ _ => false) = true := by decide +kernel

/-- V7.4: 524 exchanges, CS 1 right after the data response. -/
theorem test_writeBlock_rejected :
    (match writeBlock spec 2 (storeBlock 0) (ready .sdhc (ff 7 ++ 0x00 :: ff 515 ++ [0x0B])) with
      | .ok _ _ => false
      | .error e t => e == .err .writeDataResp && exchangeCount t.trace == 524 &&
        t.trace.take 2 == [.cs true, .x 0xFF 0x0B]) = true := by decide +kernel

/-- V7.9: a long buffer is accepted, a short one is E_PARAM with no event. -/
theorem test_readBlock_short :
    (match readBlock spec 0 511 (ready .sdhc []) with
      | .ok _ _ => false
      | .error e t => e == .err .param && t.trace == []) = true := by decide +kernel

/-- P4: EraseBlocks(3, 2) on SD2, 1056 exchanges, CMD25 with argument 1536. -/
theorem test_P4 :
    nextHas (exec (.eraseBlocks 3 2) (ready .sd2
        (slowAnswer 0x00 (0xFF :: (ff 515 ++ [0xE5, 0, 0, 0, 0xFF] ++ ff 515 ++ [0xE5, 0, 0, 0, 0xFF] ++
          [0xFF, 0xFF, 0, 0, 0, 0xFF])))))
      (fun t => t.err == none && t.cs && exchangeCount t.trace == 1056 && t.frame == [0x59, 0, 0, 0x06, 0, 0xFF] &&
        t.miso == []) = true := by decide +kernel

/-- P4, the variant with no block: 16 exchanges. -/
theorem test_P4_none :
    nextHas (exec (.eraseBlocks 7 0) (ready .sd2 (slowAnswer 0x00 (0xFF :: [0xFF, 0xFF, 0, 0, 0, 0xFF])))) (fun t =>
      t.err == none && exchangeCount t.trace == 16 && t.frame == [0x59, 0, 0, 0x0E, 0, 0xFF]) = true := by decide +kernel

/-! ### The adapter (V8, P3, P5) -/

/-- Rows of V8: block, offset in it, head, whole blocks, tail. -/
theorem test_split :
    split 510 10 = ⟨0, 510, 2, 0, 8⟩ ∧ split 100 50 = ⟨0, 100, 50, 0, 0⟩ ∧ split 512 1024 = ⟨1, 0, 0, 2, 0⟩ ∧
      split 1 1535 = ⟨0, 1, 511, 2, 0⟩ ∧ split 1023 514 = ⟨1, 511, 1, 1, 1⟩ ∧ split 100 1100 = ⟨0, 100, 412, 1, 176⟩ := by
  decide

/-- P5 (b), for the first four bytes of block 5: ReadAt on SD2 sends argument 2560; the bytes are those of block 5. -/
theorem test_P5 :
    nextHas (exec (.readAt 2560) (readyBuf .sd2 4 [] (slowAnswer 0x00 (0xFF :: 0xFF :: packet (storeBlock 5) [0xAB, 0xCD]))))
      (fun t => t.err == none && t.done == 4 && t.frame == [0x51, 0, 0, 0x0A, 0, 0xFF] &&
        exchangeCount t.trace == 526 && t.buf == [(0, 0x23), (1, 0x24), (2, 0x25), (3, 0x26)]) = true := by decide +kernel

/-- V8.1: `(412, E_READ_CMD)`. -/
theorem test_V8_1 :
    nextHas (exec (.readAt 100) (readyBuf .sdhc 1100 []
        (slowAnswer 0x00 (0xFF :: 0xFF :: packet (storeBlock 0) [0xAB, 0xCD]) ++ slowAnswer 0x40 [])))
      (fun t => t.err == some .readCmd && t.done == 412 && t.presented == some (.count 412 (some .readCmd)) && t.cs) = true := by decide +kernel

/-- What the card of P3 returns while a block is read, and while one is written. -/
def serveRead (i : Nat) : List Byte := slowAnswer 0x00 (0xFF :: 0xFF :: packet (storeBlock i) [0xAB, 0xCD])
def serveWrite : List Byte := slowAnswer 0x00 (ff 515 ++ [0xE5, 0, 0, 0, 0xFF])

/-- P3, request 1: 2110 exchanges, `(10, no error)`; the last bytes sent of block 1 are 0F 10 .. 06. -/
theorem test_P3 :
    nextHas (exec (.writeAt 510) (readyBuf .sdhc 10
        [(0, 0xA0), (1, 0xA1), (2, 0xA2), (3, 0xA3), (4, 0xA4), (5, 0xA5), (6, 0xA6), (7, 0xA7), (8, 0xA8), (9, 0xA9)]
        (serveRead 0 ++ serveWrite ++ serveRead 1 ++ serveWrite)))
      (fun t => t.err == none && t.done == 10 && exchangeCount t.trace == 2110 && t.miso == [] && t.cs &&
        t.scratch.take 10 == [0xA2, 0xA3, 0xA4, 0xA5, 0xA6, 0xA7, 0xA8, 0xA9, 0x0F, 0x10]) = true := by decide +kernel

/-- V8.3: the read half succeeds, the write is refused: `(0, E_WRITE_CMD)`. -/
theorem test_V8_3 :
    nextHas (exec (.writeAt 100) (readyBuf .sdhc 600 [] (serveRead 0 ++ slowAnswer 0x04 []))) (fun t =>
      t.err == some .writeCmd && t.done == 0 && t.cs && t.frame == [0x58, 0, 0, 0, 0, 0xFF]) = true := by decide +kernel

/-! ### The public surface (V9) and the step -/

theorem test_V9_size :
    nextHas (exec .size { ready .sd2 [] with csd := decodeCsd csdImageV2 }) (fun t =>
      t.presented == some (.value 7948206080) && t.trace == []) = true := by decide +kernel

/-- R381, P_SIZE_W: 33 bits hold that capacity; of 32 bits the value is open, and the operation completes. -/
theorem test_size_width :
    nextHas (exec .size { ready .sd2 [] with csd := decodeCsd csdImageV2, par := { spec with sizeW := 33 } }) (fun t =>
      t.presented == some (.value 7948206080)) = true ∧
    nextHas (exec .size { ready .sd2 [] with csd := decodeCsd csdImageV2, par := { spec with sizeW := 32 } }) (fun t =>
      t.presented.isSome && t.trace == []) = true := by decide +kernel

/-- P_LEN_W: a buffer of 256 bytes has no length of 8 bits; one of 255 bytes has. -/
theorem test_lenW :
    (match exec (.readAt 512) { readyBuf .sdhc 256 [] [] with par := { spec with lenW := 8 } } with
      | .refused r => r == .operandTooWide
      | _ => false) = true ∧
    nextHas (exec (.readAt 512) { readyBuf .sdhc 255 [] (slowAnswer 0x40 []) with par := { spec with lenW := 8 } }) (fun t =>
      t.presented == some (.count 0 (some .readCmd))) = true := by decide +kernel

theorem test_V9_blockSizes :
    nextHas (exec .writeBlockSize State.reset) (fun t => t.presented == some (.value 512)) = true ∧
      nextHas (exec .eraseBlockSize State.reset) (fun t => t.presented == some (.value 512)) = true := by decide +kernel

theorem test_V9_zeroLength :
    nextHas (exec (.readAt 1024) (readyBuf .sdhc 0 [] [])) (fun t =>
      t.presented == some (.count 0 none) && t.trace == [.unlock, .rate .fast, .lock]) = true := by decide +kernel

/-- A presented word is decoded at its place and run. -/
theorem test_step_frame :
    nextHas (step ((fresh (ff 8 ++ [0x00])).withFetchWord 48 0x51000000_05FF)) (fun t =>
      t.r1 == 0x00 && t.frame == [0x51, 0, 0, 0, 5, 0xFF] && t.inbox == []) = true := by decide +kernel

/-- The byte behind the op code is dropped (log 33). -/
theorem test_step_surplus :
    nextHas (step { State.reset with inbox := [⟨.host, [0x04, 0x55], [], 0⟩] }) (fun t =>
      t.presented == some (.value 512) && t.inbox == []) = true := by decide +kernel

theorem test_step_writeBlockSize :
    nextHas (step (State.reset.withFetchWord 8 0x04)) (fun t => t.presented == some (.value 512)) = true := by decide +kernel

/-! ### Witnesses: the hypotheses of each obligation, clause by clause, are met -/

/-- A state between requests whose lock request is not granted. -/
def ungranted (phase : Phase) : State := { State.reset with phase := phase, grants := [false] }

/-- The defaults, and another configuration in which words mean one thing each. -/
theorem test_legal : spec.Legal ∧ State.reset.par.Legal ∧ Params.Legal { spec with r1Illegal := 0x80, fill := 0x00 } :=
  ⟨Params.spec_legal, Params.spec_legal, ⟨by decide, by decide, ⟨7, by decide⟩, by decide⟩⟩

/-- The largest offset, and a configuration in which an offset fills no whole number of bytes. -/
theorem test_witness_DecodeEncode : spec.Legal ∧ (Instr.readAt 0xFFFFFFFFFFFFFFFF).holds spec = true ∧
    Params.Legal { spec with offsetW := 41 } ∧ (Instr.writeAt 0x1FFFFFFFFFF).holds { spec with offsetW := 41 } = true :=
  ⟨Params.spec_legal, by decide, ⟨by decide, by decide, ⟨2, by decide⟩, by decide⟩, by decide⟩

theorem test_witness_DecodedWordIsEncoding : spec.Legal ∧
    decode spec .frame [0x51, 0xFF, 0xFF, 0xFF, 0xFF, 0xFF, 0x00] = .ok (.cmd17 0xFFFFFFFF, [0x00]) ∧
      decode spec .respPoll [0x80] = .ok (.r1Skip 0, []) := ⟨Params.spec_legal, rfl, rfl⟩

theorem test_witness_FrameFields : ∃ s : State, s.miso = [0, 1, 2, 3, 4, 5] ++ [6] :=
  ⟨fresh [0, 1, 2, 3, 4, 5, 6], rfl⟩

theorem test_witness_CommandCompletes : Instr.cmd0.place = .frame ∧ (Instr.cmd12 0 0).place = .frame ∧
    (Instr.acmd41 true).place = .frame := by decide

/-- No byte skipped, and 65534, the most. -/
theorem test_witness_CommandExchanges : ∀ n ∈ [0, 65534],
    ∃ (i : Instr) (s : State) (ignored skipped rest : List Byte) (r : Byte), skipped.length = n ∧ s.par.Legal ∧
      i.place = .frame ∧ (∀ arg crc, i ≠ .cmd12 arg crc) ∧ ignored.length = 6 ∧
      (∀ b ∈ skipped, b.getLsbD 7 = true) ∧ skipped.length < 65535 ∧ r.getLsbD 7 = false ∧
      s.miso = 0xFF :: (ignored ++ skipped ++ r :: rest) := by
  intro n hn
  refine ⟨.cmd17 5, fresh (0xFF :: (ff 6 ++ List.replicate n 0x80 ++ 0x7F :: [])), ff 6, List.replicate n 0x80, [], 0x7F,
    List.length_replicate, Params.spec_legal, rfl, nofun, rfl, fun b hb => ?_, ?_, rfl, rfl⟩
  · rw [List.eq_of_mem_replicate hb]; rfl
  · rw [List.length_replicate]; simp at hn; omega

theorem test_witness_StopCommandExchanges : ∀ n ∈ [0, 65534],
    ∃ (s : State) (ignored skipped rest : List Byte) (r : Byte), skipped.length = n ∧ ignored.length = 6 ∧
      (∀ b ∈ skipped, b.getLsbD 7 = true) ∧ skipped.length < 65535 ∧ r.getLsbD 7 = false ∧
      s.miso = ignored ++ skipped ++ r :: rest := by
  intro n hn
  refine ⟨fresh (ff 6 ++ List.replicate n 0xFF ++ 0x00 :: []), ff 6, List.replicate n 0xFF, [], 0x00,
    List.length_replicate, rfl, fun b hb => ?_, ?_, rfl, rfl⟩
  · rw [List.eq_of_mem_replicate hb]; rfl
  · rw [List.length_replicate]; simp at hn; omega

theorem test_witness_CommandExhaustion : ∃ (i : Instr) (s : State) (ignored polls rest : List Byte), s.par.Legal ∧
    i.place = .frame ∧ (∀ arg crc, i ≠ .cmd12 arg crc) ∧ ignored.length = 6 ∧ (∀ b ∈ polls, b.getLsbD 7 = true) ∧
      polls.length = 65535 ∧ s.miso = 0xFF :: (ignored ++ polls ++ rest) := by
  refine ⟨.cmd0, fresh (0xFF :: (ff 6 ++ ff 65535 ++ [])), ff 6, ff 65535, [], Params.spec_legal, rfl, nofun, rfl,
    fun b hb => ?_, List.length_replicate, rfl⟩
  rw [List.eq_of_mem_replicate hb]; rfl

theorem test_witness_SentByteRows : Instr.tokenStartTx.place = .send ∧ Instr.fill.place = .send ∧
    (∃ s : State, s.miso = 0x12 :: [0x34]) ∧ Instr.tokenStop ≠ .fill := ⟨rfl, rfl, ⟨fresh [0x12, 0x34], rfl⟩, nofun⟩

/-- The last poll but one, and the last. -/
theorem test_witness_ResponsePollRows :
    (∃ s : State, s.pollCnt.toNat = 65533 ∧ s.pollCnt.toNat + 1 < 65535) ∧
    (∃ s : State, s.pollCnt.toNat = 65534 ∧ 65535 ≤ s.pollCnt.toNat + 1) :=
  ⟨⟨{ State.reset with pollCnt := 65533 }, by decide⟩, ⟨{ State.reset with pollCnt := 65534 }, by decide⟩⟩

/-- The first poll and the last, with bit 7 clear and with bit 7 set. -/
theorem test_witness_PollLoopFollowsRows :
    (∃ (s : State) (b : Byte) (bs : List Byte), s.miso = b :: bs ∧ s.pollCnt.toNat + (65534 + 1) = 65535 ∧
      b.getLsbD 7 = false) ∧
    (∃ (s : State) (b : Byte) (bs : List Byte), s.miso = b :: bs ∧ s.pollCnt.toNat + (0 + 1) = 65535 ∧
      b.getLsbD 7 = true) :=
  ⟨⟨{ State.reset with miso := [0x7F] }, 0x7F, [], by decide⟩,
    ⟨{ State.reset with miso := [0x80], pollCnt := 65534 }, 0x80, [], by decide⟩⟩

/-- The reading one tick below the loop deadline, and the reading at it; each state that names an error. -/
theorem test_witness_ResponseTestRows : State.reset.par.Legal ∧
    (∃ s : State, s.seq = .s4OpCond ∧ nextTime s + 1 = s.loopDeadline ∧ nextTime s < s.loopDeadline) ∧
    (∃ s : State, s.seq = .s4OpCond ∧ s.loopDeadline = nextTime s ∧ s.loopDeadline ≤ nextTime s) ∧
    (∃ s : State, s.seq = .s6BlockLen) ∧ (∃ s : State, s.seq ≠ .s4OpCond ∧ s.seq ≠ .s6BlockLen) ∧
    (∃ s : State, s.seq = .s5Ocr) ∧ (∃ s : State, s.seq = .s7Regs) ∧ (∃ s : State, s.seq = .runReadAt) ∧
    (∃ s : State, s.seq = .runWriteAt ∧ s.frame.headD 0 = 0x51) ∧
    (∃ s : State, s.seq = .runWriteAt ∧ s.frame.headD 0 = 0x58) ∧ (∃ s : State, s.seq = .runErase) ∧
    (∃ s : State, s.seq ∈ [Seq.idle, .s1Prime, .s2Idle, .s3Probe, .s8Finish]) ∧
    (0x00 : Byte) ≠ 0x01 ∧ (0xFF : Byte) ≠ 0x01 ∧ (0x01 : Byte) ≠ 0x00 :=
  ⟨Params.spec_legal, ⟨{ running .s4OpCond [] with loopDeadline := 5, ticks := [4] }, by decide⟩,
    ⟨{ running .s4OpCond [] with loopDeadline := 5, ticks := [5] }, by decide⟩, ⟨running .s6BlockLen [], rfl⟩,
    ⟨State.reset, by decide⟩, ⟨running .s5Ocr [], rfl⟩, ⟨running .s7Regs [], rfl⟩, ⟨running .runReadAt [], rfl⟩,
    ⟨{ running .runWriteAt [] with frame := encode spec (.cmd17 0) }, by decide⟩,
    ⟨{ running .runWriteAt [] with frame := encode spec (.cmd24 0) }, by decide⟩, ⟨running .runErase [], rfl⟩,
    ⟨State.reset, by decide⟩, by decide, by decide, by decide⟩

theorem test_witness_IllegalCommandRow : State.reset.par.Legal ∧ spec.r1Illegal = 0x04 ∧
    (0xFB : Byte) &&& spec.r1Illegal = 0 ∧ (0x00 : Byte) &&& spec.r1Illegal = 0 := ⟨Params.spec_legal, by decide⟩

theorem test_witness_TrailingByteRows : (0xAB : Byte) ≠ 0xAA ∧ (0xBF : Byte).extractLsb 7 6 ≠ 3#2 ∧
    (0x7F : Byte).extractLsb 7 6 ≠ 3#2 := by decide

/-- Each row; a busy byte; 0xFF one tick below the deadline and at it; a wrong byte; a rejected data response; while an
operation runs and in IDLE. -/
theorem test_witness_PolledByteRows : (Instr.dataRespAccepted 7).place = .dataResp ∧ Instr.idleByte.place = .notBusy ∧
    Instr.tokenStartRx.place = .startWait ∧ (0xFE : Byte) ≠ 0xFF ∧
    (∃ s : State, nextTime s + 1 = s.deadline ∧ nextTime s < s.deadline) ∧
    (∃ s : State, s.seq ≠ .idle ∧ (0xFF : Byte) ≠ 0xFE ∧ ((0xFF : Byte) = 0xFF → s.deadline ≤ nextTime s) ∧
      s.deadline = nextTime s) ∧
    (∃ s : State, s.seq = .idle ∧ (0xFD : Byte) ≠ 0xFE ∧ ((0xFD : Byte) = 0xFF → s.deadline ≤ nextTime s)) ∧
    (∃ s : State, s.seq ≠ .idle ∧ (0x0B : Byte).extractLsb 4 0 ≠ 5#5) :=
  ⟨rfl, rfl, rfl, by decide, ⟨{ running .runReadAt [] with deadline := 5, ticks := [4] }, by decide⟩,
    ⟨{ running .runReadAt [] with deadline := 5, ticks := [5] }, by decide⟩, ⟨State.reset, by decide⟩,
    ⟨running .runWriteAt [], by decide⟩⟩

theorem test_witness_CsdFirstByteRows : (Instr.csd0V1 0x3F).place = .csd0 ∧ (Instr.csd0V2 0).place = .csd0 ∧
    (Instr.csd0None 0x7F).place = .csd0 ∧ State.reset.regImg.length = 16 := by decide

/-- Readings with which the first try, the third and the second is the last. -/
theorem test_expires : Expires 1 300000 1 [7, 300000] ∧ Expires 1 300000 3 [7, 1, 299998, 1] ∧
    Expires 2 2000000 1 [7, 1, 1999999] ∧ Expires 2 2000000 2 [7, 1, 1999998, 0, 1] ∧
    Expires 3 2000000 2 [7, 1, 1, 1999997, 0, 0, 1] :=
  ⟨⟨7, [], [300000], rfl, rfl, rfl, by decide, by decide⟩, ⟨7, [1, 299998], [1], rfl, rfl, rfl, by decide, by decide⟩,
    ⟨7, [], [1, 1999999], rfl, rfl, rfl, by decide, by decide⟩,
    ⟨7, [1, 1999998], [0, 1], rfl, rfl, rfl, by decide, by decide⟩,
    ⟨7, [1, 1, 1999997], [0, 0, 1], rfl, rfl, rfl, by decide, by decide⟩⟩

/-- Busy until the budget has run out: after one poll, and after three of which the second reading is one tick short. -/
theorem test_busyUntil : BusyUntil 300000 [0x00] [7, 300000] ∧
    BusyUntil 600000 [0x00, 0x7F, 0xFE] [7, 1, 599998, 1] :=
  ⟨⟨by decide, test_expires.1⟩, ⟨by decide, 7, [1, 599998], [1], rfl, rfl, rfl, by decide, by decide⟩⟩

/-- The budgets of the defaults, and one in a unit of 7 microseconds. -/
theorem test_units : spec.units spec.tCmdBusy = 300000 ∧ spec.units spec.tStopBusy = 600000 ∧
    spec.units P.tIdle = 2000000 ∧ Params.units { spec with tick := 7 } 300000 = 42858 :=
  ⟨Params.spec_units _, Params.spec_units _, Params.spec_units _, by decide +kernel⟩

theorem test_witness_WaitNotBusyOutcome :
    (∃ (s : State) (busy rest : List Byte) (ticks more : List Nat), BusyUntil 600000 busy ticks ∧ s.miso = busy ++ rest ∧
      s.ticks = ticks ++ more) ∧
    (∃ (s : State) (busy ignored rest : List Byte) (r : Byte) (ticks more : List Nat), s.par.Legal ∧ Instr.cmd0.place = .frame ∧
      (∀ arg crc, Instr.cmd0 ≠ .cmd12 arg crc) ∧ BusyUntil 300000 busy ticks ∧ ignored.length = 6 ∧
      r.getLsbD 7 = false ∧ s.miso = busy ++ (ignored ++ r :: rest) ∧ s.ticks = ticks ++ more) ∧
    (∃ (src during busy rest : List Byte) (response : Byte) (s : State) (ticks more : List Nat), 512 ≤ src.length ∧
      during.length = 515 ∧ response.extractLsb 4 0 = 5#5 ∧ BusyUntil 600000 busy ticks ∧
      s.miso = during ++ response :: (busy ++ rest) ∧ s.ticks = ticks ++ more) ∧
    (∃ (busy rest : List Byte) (y z : Byte) (s : State) (ticks more : List Nat), BusyUntil 600000 busy ticks ∧
      s.miso = y :: z :: (busy ++ rest) ∧ s.ticks = ticks ++ more ∧ s.cs = false) :=
  ⟨⟨{ fresh ([0x00, 0x7F, 0xFE] ++ []) with ticks := [7, 1, 599998, 1] ++ [] }, _, [], _, [], test_busyUntil.2, rfl, rfl⟩,
    ⟨{ fresh ([0x00] ++ (ff 6 ++ 0x01 :: [])) with ticks := [7, 300000] ++ [] }, _, ff 6, [], 0x01, _, [], Params.spec_legal, rfl,
      nofun, test_busyUntil.1, rfl, rfl, rfl, rfl⟩,
    ⟨ff 512, ff 515, _, [], 0xE5, { fresh (ff 515 ++ 0xE5 :: ([0x00, 0x7F, 0xFE] ++ [])) with ticks := [7, 1, 599998, 1] ++ [] },
      _, [], by simp [ff], by simp [ff], by decide, test_busyUntil.2, rfl, rfl⟩,
    ⟨_, [], 0, 0, { fresh (0 :: 0 :: ([0x00, 0x7F, 0xFE] ++ [])) with ticks := [7, 1, 599998, 1] ++ [], cs := false }, _, [],
      test_busyUntil.2, rfl, rfl, rfl⟩⟩

/-- Two states with the same inputs that differ in everything a wait might look at besides. -/
theorem test_witness_WaitNotBusyBound_inputs : ∃ s s' : State, s'.miso = s.miso ∧ s'.ticks = s.ticks ∧
    s'.draws = s.draws ∧ s'.time ≠ s.time ∧ s'.deadline ≠ s.deadline :=
  ⟨State.reset, { State.reset with time := 9, deadline := 5 }, rfl, rfl, rfl, by decide, by decide⟩

/-- The two readings between the polls fill the budget but for one tick. -/
theorem test_witness_WaitNotBusyBound :
    ∃ (budget first second third : Nat) (s : State) (rest : List Byte) (more : List Nat),
      s.miso = 0x00 :: 0x00 :: 0xFF :: rest ∧ s.ticks = first :: second :: third :: more ∧ second + third + 1 = budget ∧
        second + third < budget :=
  ⟨3, 1, 1, 1, fresh [0x00, 0x00, 0xFF], [], List.replicate 61 1, by decide⟩

/-- No byte before the token; and one, with the reading after it one tick below the deadline. -/
theorem test_witness_TokenBeatsClock : ∀ readings ∈ [[], [299999]],
    ∃ (s : State) (n : Nat) (rest : List Byte) (first : Nat) (more : List Nat),
      s.miso = List.replicate n 0xFF ++ 0xFE :: rest ∧ s.ticks = first :: (readings ++ more) ∧ readings.length = n ∧
        readings.sum < 300000 := by
  intro readings h
  refine ⟨{ State.reset with miso := List.replicate readings.length 0xFF ++ 0xFE :: [], ticks := 7 :: (readings ++ []) },
    readings.length, [], 7, [], rfl, rfl, rfl, ?_⟩
  simp at h; rcases h with rfl | rfl <;> decide

/-- 0xFF until the deadline: one poll, and three. -/
theorem test_witness_WaitStartBlockOutcome : ∀ c ∈ [(1, [7, 300000]), (3, [7, 1, 299998, 1])],
    ∃ (s : State) (rest : List Byte) (more : List Nat), Expires 1 (spec.units 300000) c.1 c.2 ∧
      s.miso = List.replicate c.1 0xFF ++ rest ∧ s.ticks = c.2 ++ more := by
  intro c h
  refine ⟨{ State.reset with miso := List.replicate c.1 0xFF ++ [], ticks := c.2 ++ [] }, [], [], ?_, rfl, rfl⟩
  rw [Params.spec_units]
  simp at h; rcases h with rfl | rfl
  · exact test_expires.1
  · exact test_expires.2.1

/-- Two attempts that fail, the second one too late, in S2 and in S4. -/
theorem test_witness_RetryLoopOutcomes :
    (∃ (s : State) (responses ignored rest : List Byte) (ticks more : List Nat), spec.Legal ∧ ignored.length = 6 ∧
      (∀ r ∈ responses, r.getLsbD 7 = false ∧ r ≠ spec.r1Idle) ∧
      Expires 2 (spec.units 2000000) responses.length ticks ∧ s.ticks = ticks ++ more ∧
      s.miso = responses.flatMap (fun r => answer ignored r []) ++ rest) ∧
    (∃ (s : State) (responses ignored rest : List Byte) (prefixResponse : Byte) (ticks more : List Nat), spec.Legal ∧
      ignored.length = 6 ∧ prefixResponse.getLsbD 7 = false ∧ (∀ r ∈ responses, r.getLsbD 7 = false ∧ r ≠ 0x00) ∧
      Expires 3 (spec.units 2000000) responses.length ticks ∧ s.ticks = ticks ++ more ∧
      s.miso = responses.flatMap (fun r => answer ignored prefixResponse (answer ignored r [])) ++ rest) := by
  simp only [Params.spec_units]
  exact ⟨⟨{ State.reset with
      miso := [(0x00 : Byte), 0x03].flatMap (fun r => answer (ff 6) r []) ++ []
      ticks := [7, 1, 1999998, 0, 1] ++ [] }, [0x00, 0x03], ff 6, [], [7, 1, 1999998, 0, 1], [],
      Params.spec_legal, rfl, by decide, test_expires.2.2.2.1, rfl, rfl⟩,
    ⟨{ State.reset with
      miso := [(0x01 : Byte), 0x7F].flatMap (fun r => answer (ff 6) 0x01 (answer (ff 6) r [])) ++ []
      ticks := [7, 1, 1, 1999997, 0, 0, 1] ++ [] }, [0x01, 0x7F], ff 6, [], 0x01, [7, 1, 1, 1999997, 0, 0, 1], [],
      Params.spec_legal, rfl, rfl, by decide, test_expires.2.2.2.2, rfl, rfl⟩⟩

/-- A card that does not answer. -/
theorem test_noResponse : NoResponse (ff 65535) :=
  ⟨List.length_replicate, fun b hb => by rw [List.eq_of_mem_replicate hb]; rfl⟩

/-- A silent card, as the witnesses below use it. -/
theorem test_silent (s : State) : ∃ (ignored polls rest : List Byte), ignored.length = 6 ∧ NoResponse polls ∧
    ({ s with miso := silence (ff 6) (ff 65535) [] } : State).miso = silence ignored polls rest :=
  ⟨ff 6, ff 65535, [], rfl, test_noResponse, rfl⟩

theorem test_witness_VersionProbe : spec.Legal ∧
    (∃ (s : State) (ignored rest : List Byte) (r : Byte), ignored.length = 6 ∧ r.getLsbD 7 = false ∧
      r &&& spec.r1Illegal ≠ 0 ∧ s.miso = answer ignored r rest) ∧
    (∀ d ∈ [0xAA, 0x55], ∃ (s : State) (ignored rest : List Byte) (r a b c : Byte), ignored.length = 6 ∧
      r.getLsbD 7 = false ∧ r &&& spec.r1Illegal = 0 ∧ s.miso = answer ignored r (a :: b :: c :: d :: rest)) ∧
    (∃ (s : State) (ignored polls rest : List Byte), ignored.length = 6 ∧ NoResponse polls ∧
      s.miso = silence ignored polls rest) :=
  ⟨Params.spec_legal, ⟨fresh (answer (ff 6) 0x04 []), ff 6, [], 0x04, by decide⟩,
    fun d _ => ⟨fresh (answer (ff 6) 0x7B [0, 0, 1, d]), ff 6, [], 0x7B, 0, 0, 1, rfl, rfl, rfl, rfl⟩,
    ⟨_, test_silent State.reset⟩⟩

theorem test_witness_CapacityClassAndBlockLength : spec.Legal ∧
    (∃ (s : State) (ignored rest : List Byte), ignored.length = 6 ∧ s.miso = answer ignored 0x00 rest) ∧
    (∀ r ∈ [(0x01 : Byte), 0x7F], ∃ (s : State) (ignored rest : List Byte), ignored.length = 6 ∧
      r.getLsbD 7 = false ∧ r ≠ 0 ∧ s.miso = answer ignored r rest) ∧
    (∃ (s : State) (ignored polls rest : List Byte), ignored.length = 6 ∧ NoResponse polls ∧
      s.miso = silence ignored polls rest) ∧
    (∃ (s : State) (ignored rest : List Byte) (r : Byte), ignored.length = 6 ∧ s.cardType = .sd2 ∧
      r.getLsbD 7 = false ∧ r ≠ 0 ∧ s.miso = answer ignored r rest) ∧
    (∀ a ∈ [0xC0, 0x80], ∃ (s : State) (ignored rest : List Byte) (b c d : Byte), ignored.length = 6 ∧
      s.cardType = .sd2 ∧ s.miso = answer ignored 0x00 (a :: b :: c :: d :: rest)) ∧
    (∃ s : State, s.cardType = .sd2 ∧ ∃ (ignored polls rest : List Byte), ignored.length = 6 ∧ NoResponse polls ∧
      s.miso = silence ignored polls rest) :=
  ⟨Params.spec_legal, ⟨ready .sdhc (answer (ff 6) 0x00 []), ff 6, [], rfl, rfl⟩,
    fun r h => ⟨ready .sdhc (answer (ff 6) r []), ff 6, [], rfl, by revert r; decide, by revert r; decide, rfl⟩,
    ⟨_, test_silent (ready .sdhc [])⟩,
    ⟨ready .sd2 (answer (ff 6) 0x01 []), ff 6, [], 0x01, by decide⟩,
    fun a _ => ⟨ready .sd2 (answer (ff 6) 0x00 [a, 0xFF, 0x80, 0]), ff 6, [], 0xFF, 0x80, 0, rfl, rfl, rfl⟩,
    ⟨_, rfl, test_silent (ready .sd2 [])⟩⟩

theorem test_witness_ConfigureCompletes : ∃ s : State, s.seq = .idle ∧ s.phase = .fresh ∧ nextGrant s = true :=
  ⟨fresh [], by decide⟩

/-- With an OCR byte of either class. -/
theorem test_witness_ConfigureOnScript : ∀ ocr ∈ [0xC0, 0x80],
    ∃ (s : State) (primed ignored cidImg csdImg rest : List Byte), s.par = Params.spec ∧ s.seq = .idle ∧
      s.phase = .fresh ∧ nextGrant s = true ∧ primed.length = 13 ∧ ignored.length = 6 ∧ cidImg.length = 16 ∧ csdImg.length = 16 ∧
      s.miso = primed ++ answer ignored 0x01 (answer ignored 0x01 (0x00 :: 0x00 :: 0x01 :: 0xAA ::
        answer ignored 0x01 (answer ignored 0x00 (answer ignored 0x00 (ocr :: 0xFF :: 0x80 :: 0x00 ::
        answer ignored 0x00 (answer ignored 0x00 (packet cidImg [0x12, 0x34] ++
        answer ignored 0x00 (packet csdImg [0x56, 0x78] ++ rest)))))))) :=
  fun ocr _ => ⟨fresh (ff 13 ++ answer (ff 6) 0x01 (answer (ff 6) 0x01 (0x00 :: 0x00 :: 0x01 :: 0xAA ::
    answer (ff 6) 0x01 (answer (ff 6) 0x00 (answer (ff 6) 0x00 (ocr :: 0xFF :: 0x80 :: 0x00 ::
    answer (ff 6) 0x00 (answer (ff 6) 0x00 (packet cidImage [0x12, 0x34] ++
    answer (ff 6) 0x00 (packet csdImageV2 [0x56, 0x78] ++ []))))))))),
    ff 13, ff 6, cidImage, csdImageV2, [], rfl, rfl, rfl, rfl, rfl, rfl, rfl, rfl, rfl⟩

theorem test_witness_ReadRegisterOnScript :
    (∃ (s : State) (code : BitVec 6) (ignored img rest : List Byte) (c1 c2 : Byte), code ≠ spec.cmdStop ∧
      ignored.length = 6 ∧ img.length = 16 ∧ s.miso = answer ignored 0x00 (packet img [c1, c2] ++ rest)) ∧
    (∃ (s : State) (code : BitVec 6) (ignored rest : List Byte) (r : Byte), code ≠ spec.cmdStop ∧
      ignored.length = 6 ∧ r.getLsbD 7 = false ∧ r ≠ 0 ∧ s.miso = answer ignored r rest) ∧
    (∃ (s : State) (ignored polls rest : List Byte), ignored.length = 6 ∧ NoResponse polls ∧
      s.miso = silence ignored polls rest) ∧
    (∀ r ∈ [(0x00 : Byte), 0xFD], ∃ (s : State) (ignored rest : List Byte), ignored.length = 6 ∧ r ≠ 0xFF ∧ r ≠ 0xFE ∧
      s.miso = answer ignored 0x00 (r :: rest)) ∧
    (∃ (s : State) (ignored rest : List Byte) (n first : Nat) (ticks more : List Nat), ignored.length = 6 ∧
      Expires 1 (spec.units 300000) n ticks ∧ s.miso = answer ignored 0x00 (List.replicate n 0xFF ++ rest) ∧
      s.ticks = first :: (ticks ++ more)) := by
  refine ⟨⟨fresh (answer (ff 6) 0 (packet cidImage [0x12, 0x34] ++ [])), spec.cmdSendCid, ff 6, cidImage, [], 0x12, 0x34, by decide⟩,
    ⟨fresh (answer (ff 6) 0x20 []), spec.cmdSendCsd, ff 6, [], 0x20, by decide⟩, ⟨_, test_silent State.reset⟩,
    fun r h => ⟨fresh (answer (ff 6) 0x00 (r :: [])), ff 6, [], rfl, ?_, ?_, rfl⟩,
    ⟨{ fresh (answer (ff 6) 0x00 (List.replicate 3 0xFF ++ [])) with ticks := 5 :: ([7, 1, 299998, 1] ++ []) }, ff 6, [], 3, 5,
      [7, 1, 299998, 1], [], rfl, by rw [Params.spec_units]; exact test_expires.2.1, rfl, rfl⟩⟩ <;>
  · simp at h; rcases h with rfl | rfl <;> decide

theorem test_witness_DecodeCsdV1Fields : (0x3F : Byte).extractLsb 7 6 = 0#2 := by decide
theorem test_witness_DecodeCsdV2Fields : (0x7F : Byte).extractLsb 7 6 = 1#2 := by decide
theorem test_witness_CsdStructureSelects : csdImageV1.tail.length = 15 := by decide

theorem test_witness_SizeCompletes :
    (∃ (s : State) (n : Nat), s.seq = .idle ∧ s.phase = .ready ∧ capacity s.csd = some n ∧ n < 2 ^ s.par.sizeW) ∧
    (∃ (s : State) (n : Nat), s.seq = .idle ∧ s.phase = .ready ∧ capacity s.csd = some n ∧ s.par.sizeW = 41 ∧
      2 ^ s.par.sizeW ≤ n) ∧
    (∃ (s : State) (n : Nat), s.seq = .idle ∧ s.phase = .ready ∧ capacity s.csd = some n ∧ 42 ≤ s.par.sizeW ∧
      s.par.sizeW = 42) ∧
    (∃ s : State, s.seq = .idle ∧ s.phase = .ready ∧ capacity s.csd = none) ∧
    (∃ s : State, s.seq = .idle ∧ s.phase ≠ .ready) :=
  ⟨⟨{ ready .sdhc [] with csd := .v2 { common := CsdCommon.zero, cSize := 0x3FFFFF } }, 2199023255552, by decide⟩,
    ⟨{ ready .sdhc [] with csd := .v2 { common := CsdCommon.zero, cSize := 0x3FFFFF }, par := { spec with sizeW := 41 } },
      2199023255552, by decide⟩,
    ⟨{ ready .sdhc [] with csd := .v2 { common := CsdCommon.zero, cSize := 0x3FFFFF }, par := { spec with sizeW := 42 } },
      2199023255552, by decide⟩,
    ⟨{ ready .sd2 [] with csd := .noLayout 1 }, by decide⟩, ⟨{ State.reset with phase := .failed }, by decide⟩⟩

theorem test_witness_BlockSizeQueries : State.reset.seq = .idle := rfl

/-- The largest index with an argument, and the smallest without. -/
theorem test_witness_ScaleRule : (0x7FFFFF : U32).toNat < 2 ^ 23 ∧ 2 ^ 23 ≤ (0x800000 : U32).toNat := by decide

theorem test_witness_ReadBlockOnScript : spec.Legal ∧
    ∃ (s : State) (b arg : U32) (len : Nat) (ignored payload rest : List Byte) (c1 c2 : Byte),
      512 ≤ len ∧ scale s.cardType b = .ok arg ∧ ignored.length = 6 ∧ payload.length = 512 ∧
      s.miso = answer ignored 0x00 (packet payload [c1, c2] ++ rest) :=
  ⟨Params.spec_legal, ready .sd2 (answer (ff 6) 0x00 (packet (storeBlock 5) [0xAB, 0xCD] ++ [])), 0x7FFFFF, 0xFFFFFE00, 512, ff 6,
    storeBlock 5, [], 0xAB, 0xCD, Nat.le_refl _, rfl, rfl, by simp [storeBlock], rfl⟩

theorem test_witness_ReadBlockFailures : spec.Legal ∧
    (∃ (s : State) (b arg : U32) (len : Nat) (ignored rest : List Byte) (r : Byte), 512 ≤ len ∧
      scale s.cardType b = .ok arg ∧ ignored.length = 6 ∧ r.getLsbD 7 = false ∧ r ≠ 0 ∧
      s.miso = answer ignored r rest) ∧
    (∃ (s : State) (b arg : U32), scale s.cardType b = .ok arg ∧ ∃ (ignored polls rest : List Byte),
      ignored.length = 6 ∧ NoResponse polls ∧ s.miso = silence ignored polls rest) ∧
    (∃ (s : State) (b arg : U32) (len : Nat) (ignored rest : List Byte) (r : Byte), 512 ≤ len ∧
      scale s.cardType b = .ok arg ∧ ignored.length = 6 ∧ r ≠ 0xFF ∧ r ≠ 0xFE ∧
      s.miso = answer ignored 0x00 (r :: rest)) :=
  ⟨Params.spec_legal, ⟨ready .sdhc (answer (ff 6) 0x7F []), 0, 0, 512, ff 6, [], 0x7F, Nat.le_refl _, rfl, rfl, rfl, by decide, rfl⟩,
    ⟨_, 0, 0, rfl, test_silent (ready .sdhc [])⟩,
    ⟨ready .sdhc (answer (ff 6) 0x00 [0xFD]), 0, 0, 513, ff 6, [], 0xFD, by decide, rfl, rfl, by decide, by decide, rfl⟩⟩

theorem test_witness_WriteBlockOnScript : spec.Legal ∧
    ∃ (s : State) (b arg : U32) (src ignored during rest : List Byte) (response : Byte), 512 ≤ src.length ∧
      scale s.cardType b = .ok arg ∧ ignored.length = 6 ∧ during.length = 515 ∧ response.extractLsb 4 0 = 5#5 ∧
      s.miso = answer ignored 0x00 (during ++ response :: 0xFF :: rest) :=
  ⟨Params.spec_legal, ready .sdhc (answer (ff 6) 0x00 (ff 515 ++ 0xE5 :: 0xFF :: [])), 0xFFFFFFFF, 0xFFFFFFFF, ff 512, ff 6, ff 515, [],
    0xE5, by simp [ff], rfl, rfl, by simp [ff], by decide, rfl⟩

theorem test_witness_WriteBlockFailures : spec.Legal ∧
    (∃ (s : State) (b arg : U32) (src ignored rest : List Byte) (r : Byte), 512 ≤ src.length ∧
      scale s.cardType b = .ok arg ∧ ignored.length = 6 ∧ r.getLsbD 7 = false ∧ r ≠ 0 ∧
      s.miso = answer ignored r rest) ∧
    (∃ (s : State) (b arg : U32), scale s.cardType b = .ok arg ∧ ∃ (ignored polls rest : List Byte),
      ignored.length = 6 ∧ NoResponse polls ∧ s.miso = silence ignored polls rest) ∧
    (∃ (s : State) (b arg : U32) (src ignored during rest : List Byte) (r : Byte), 512 ≤ src.length ∧
      scale s.cardType b = .ok arg ∧ ignored.length = 6 ∧ during.length = 515 ∧ r.extractLsb 4 0 ≠ 5#5 ∧
      s.miso = answer ignored 0x00 (during ++ r :: rest)) :=
  ⟨Params.spec_legal, ⟨ready .sdhc (answer (ff 6) 0x04 []), 2, 2, ff 512, ff 6, [], 0x04, by simp [ff], rfl, rfl, rfl, by decide, rfl⟩,
    ⟨_, 2, 2, rfl, test_silent (ready .sdhc [])⟩,
    ⟨ready .sdhc (answer (ff 6) 0x00 (ff 515 ++ 0x0B :: [])), 2, 2, ff 512, ff 6, ff 515, [], 0x0B, by simp [ff], rfl,
      rfl, by simp [ff], by decide, rfl⟩⟩

theorem test_witness_ShortBuffer : ∃ (len : Nat) (src : List Byte), len = 511 ∧ len < 512 ∧ src.length < 512 :=
  ⟨511, ff 511, rfl, by decide, by simp [ff]⟩

/-- The last block of all on SDHC, and the last that a byte-addressed card has. -/
theorem test_witness_EraseBlocksCompletes :
    (∃ s : State, s.seq = .idle ∧ s.phase = .ready ∧ nextGrant s = true ∧
      (0xFFFFFFFF : U32).toNat + (1 : U64).toNat ≤ 2 ^ 32 ∧ addressable s.cardType (0xFFFFFFFF : U32).toNat) ∧
    (∃ s : State, s.seq = .idle ∧ s.phase = .ready ∧ nextGrant s = true ∧
      (0x7FFFFF : U32).toNat + (2 : U64).toNat ≤ 2 ^ 32 ∧ addressable s.cardType (0x7FFFFF : U32).toNat) :=
  ⟨⟨ready .sdhc [], rfl, rfl, rfl, by decide, .inl rfl⟩,
    ⟨ready .sd2 [], rfl, rfl, rfl, by decide, .inr ⟨.inr rfl, by decide⟩⟩⟩

/-- No block, and two. -/
theorem test_witness_EraseOnScript : ∀ count ∈ [(0 : U64), 2],
    ∃ (start arg : U32) (s : State) (ignored during rest : List Byte) (x y z response : Byte),
      s.par.Legal ∧ s.seq = .idle ∧ s.phase = .ready ∧ nextGrant s = true ∧ start.toNat + count.toNat ≤ 2 ^ 32 ∧
      s.cs = true ∧
      scale s.cardType start = .ok arg ∧ ignored.length = 6 ∧ during.length = 515 ∧ response.extractLsb 4 0 = 5#5 ∧
      s.miso = answer ignored 0x00 (x :: ((List.replicate count.toNat (during ++ [response, 0xFF])).flatten ++
        y :: z :: 0xFF :: rest)) := by
  intro count h
  refine ⟨3, 1536, ready .sd2 (answer (ff 6) 0x00 (0xFF :: ((List.replicate count.toNat (ff 515 ++ [0xE5, 0xFF])).flatten ++
    0 :: 0 :: 0xFF :: []))), ff 6, ff 515, [], 0xFF, 0, 0, 0xE5, Params.spec_legal, rfl, rfl, rfl, ?_, rfl, rfl, rfl, by simp [ff], by decide,
    rfl⟩
  simp at h; rcases h with rfl | rfl <;> decide

/-- A rejected CMD25 and a silent card, with no chunk asked for and with the most an erase can have; then the only chunk
fails, and the last of two. -/
theorem test_witness_EraseFailures :
    (∀ count ∈ [(0 : U64), 4294967293], ∃ (start arg : U32) (s : State) (ignored rest : List Byte) (r : Byte),
      s.par.Legal ∧ s.seq = .idle ∧ s.phase = .ready ∧ nextGrant s = true ∧ start.toNat + count.toNat ≤ 2 ^ 32 ∧
      s.cs = true ∧ scale s.cardType start = .ok arg ∧ ignored.length = 6 ∧ r.getLsbD 7 = false ∧ r ≠ 0 ∧
      s.miso = answer ignored r rest) ∧
    (∃ (start arg : U32) (count : U64) (s : State), s.par.Legal ∧ s.seq = .idle ∧ s.phase = .ready ∧
      nextGrant s = true ∧ start.toNat + count.toNat ≤ 2 ^ 32 ∧ s.cs = true ∧ scale s.cardType start = .ok arg ∧
      ∃ (ignored polls rest : List Byte), ignored.length = 6 ∧ NoResponse polls ∧
        s.miso = silence ignored polls rest) ∧
    (∀ count ∈ [(1 : U64), 2],
    ∃ (start arg : U32) (s : State) (k : Nat) (ignored during rest : List Byte) (x response bad : Byte),
      s.par.Legal ∧ s.seq = .idle ∧ s.phase = .ready ∧ nextGrant s = true ∧ start.toNat + count.toNat ≤ 2 ^ 32 ∧
      s.cs = true ∧
      scale s.cardType start = .ok arg ∧ ignored.length = 6 ∧ during.length = 515 ∧ response.extractLsb 4 0 = 5#5 ∧
      bad.extractLsb 4 0 ≠ 5#5 ∧ k < count.toNat ∧
      s.miso = answer ignored 0x00 (x :: ((List.replicate k (during ++ [response, 0xFF])).flatten ++
        (during ++ bad :: rest)))) := by
  refine ⟨fun count h => ⟨3, 1536, ready .sd2 (answer (ff 6) 0x04 []), ff 6, [], 0x04, Params.spec_legal, rfl, rfl, rfl,
      ?_, rfl, rfl, rfl, rfl, by decide, rfl⟩,
    ⟨3, 3, 2, _, Params.spec_legal, rfl, rfl, rfl, by decide, rfl, rfl, test_silent (ready .sdhc [])⟩,
    fun count h => ⟨3, 1536, ready .sd2 (answer (ff 6) 0x00 (0xFF ::
      ((List.replicate (count.toNat - 1) (ff 515 ++ [0xE5, 0xFF])).flatten ++ (ff 515 ++ 0x0B :: [])))), count.toNat - 1,
      ff 6, ff 515, [], 0xFF, 0xE5, 0x0B, Params.spec_legal, rfl, rfl, rfl, ?_, rfl, rfl, rfl, by simp [ff], by decide,
      by decide, ?_, rfl⟩⟩ <;>
  · simp at h; rcases h with rfl | rfl <;> decide

/-- The last byte of the last block on SDHC, and a zero length on a byte-addressed card. -/
theorem test_witness_ReadAtCompletes : ∀ c ∈ [(CardType.sdhc, 2199023255551, 1), (.sd2, 512, 0)], ∃ s : State,
    s.cardType = c.1 ∧ Quiet s ∧ s.phase = .ready ∧ nextGrant s = true ∧ Held s.par c.2.1 s.bufLen ∧ (s.bufLen = 0 → c.2.1 % 512 = 0) ∧
      c.2.1 / 512 < 2 ^ 32 ∧ c.2.1 + s.bufLen ≤ 2 ^ 41 ∧
      addressable s.cardType ((c.2.1 + s.bufLen - 1) / 512) ∧ s.buf.wf = true := by
  intro c h
  refine ⟨readyBuf c.1 c.2.2 [] [], rfl, ⟨rfl, rfl, rfl⟩, rfl, rfl, ?_⟩
  simp at h
  rcases h with rfl | rfl
  · exact ⟨⟨by decide, by decide⟩, by decide, by decide, by decide, .inl rfl, rfl⟩
  · exact ⟨⟨by decide, by decide⟩, by decide, by decide, by decide, .inr ⟨.inr rfl, by decide⟩, rfl⟩

/-- Each way a card fails a block, with both kinds of response and of byte in place of the start token. -/
theorem test_readFails (block : Nat) :
    (∀ r ∈ [(0x01 : Byte), 0x7F], ∃ script events, ReadFails spec .sd2 block (ff 6) .readCmd script events ∧
      script = answer (ff 6) r []) ∧
    (∃ script events, ReadFails spec .sd2 block (ff 6) .readCmd script events ∧ script = silence (ff 6) (ff 65535) []) ∧
    (∀ r ∈ [(0x00 : Byte), 0xFD], ∃ script events, ReadFails spec .sd2 block (ff 6) .startBlock script events ∧
      script = answer (ff 6) 0x00 [r]) := by
  refine ⟨fun r h => ⟨_, _, .rejected r ?_ ?_, rfl⟩, ⟨_, _, .silent _ test_noResponse, rfl⟩,
    fun r h => ⟨_, _, .noToken r ?_ ?_, rfl⟩⟩ <;>
  · simp at h; rcases h with rfl | rfl <;> decide

/-- A head, one whole block and a tail (V8): the first, the second and the third block fails, in each way a card can. -/
theorem test_witness_ReadAtCompletes_failures : ∀ j ∈ [0, 1, 2], ∀ (script : List Byte) (events : List Event) (e : ErrCode),
    ReadFails spec .sd2 (1023 / 512 + j) (ff 6) e script events →
    ∃ (s : State) (store : Nat → List Byte) (crc rest : List Byte), s.par = spec ∧ s.cardType = .sd2 ∧ s.bufLen = 514 ∧
      s.par.Legal ∧ Quiet s ∧ s.phase = .ready ∧ nextGrant s = true ∧ Held s.par 1023 s.bufLen ∧
      1023 + s.bufLen ≤ 2 ^ 41 ∧ addressable s.cardType ((1023 + s.bufLen - 1) / 512) ∧ s.buf.wf = true ∧
      (ff 6).length = 6 ∧ crc.length = 2 ∧ (∀ b, (store b).length = 512) ∧ 0 < s.bufLen ∧
      1023 / 512 + j ≤ (1023 + s.bufLen - 1) / 512 ∧
      s.miso = (List.range j).flatMap (fun i =>
        answer (ff 6) 0x00 (packet (store (1023 / 512 + i)) crc)) ++ (script ++ rest) := by
  intro j hj script events e _
  refine ⟨readyBuf .sd2 514 [] ((List.range j).flatMap (fun i =>
      answer (ff 6) 0x00 (packet (storeBlock (1023 / 512 + i)) [0xAB, 0xCD])) ++ (script ++ [])), storeBlock, [0xAB, 0xCD],
    [], rfl, rfl, rfl, Params.spec_legal, ⟨rfl, rfl, rfl⟩, rfl, rfl, ⟨show (1023 : Nat) < 2 ^ 64 by decide, show (514 : Nat) < 2 ^ 64 by decide⟩,
    show 1023 + 514 ≤ 2 ^ 41 by decide, .inr ⟨.inr rfl, show (1023 + 514 - 1) / 512 < 2 ^ 23 by decide⟩, rfl, rfl, rfl,
    fun b => by simp [storeBlock], show 0 < 514 by decide, ?_, rfl⟩
  show 1023 / 512 + j ≤ (1023 + 514 - 1) / 512
  simp at hj; rcases hj with rfl | rfl | rfl <;> decide

/-- Ten bytes over a block boundary (P3). -/
theorem test_witness_ReadAtOnScript :
    ∃ (offset : Nat) (s : State) (store : Nat → List Byte) (ignored crc rest : List Byte) (blocks : Nat),
      s.par.Legal ∧ Quiet s ∧ s.phase = .ready ∧ nextGrant s = true ∧ Held s.par offset s.bufLen ∧ 0 < s.bufLen ∧ offset + s.bufLen ≤ 2 ^ 41 ∧
      addressable s.cardType ((offset + s.bufLen - 1) / 512) ∧ s.buf.wf = true ∧ ignored.length = 6 ∧
      crc.length = 2 ∧ (∀ b, (store b).length = 512) ∧
      blocks = (offset + s.bufLen - 1) / 512 - offset / 512 + 1 ∧
      s.miso = (List.range blocks).flatMap (fun j =>
        answer ignored 0x00 (packet (store (offset / 512 + j)) crc)) ++ rest :=
  ⟨510, readyBuf .sd2 10 [] ((List.range 2).flatMap (fun j =>
    answer (ff 6) 0x00 (packet (storeBlock (510 / 512 + j)) [0xAB, 0xCD])) ++ []), storeBlock, ff 6,
    [0xAB, 0xCD], [], 2, Params.spec_legal, ⟨rfl, rfl, rfl⟩, rfl, rfl, ⟨by decide, by decide⟩, by decide, by decide, .inr ⟨.inr rfl, by decide⟩, rfl, rfl, rfl,
    fun b => by simp [storeBlock], by decide, rfl⟩

theorem test_witness_WriteAtCompletes : ∀ c ∈ [(CardType.sdhc, 2199023255551, 1), (.sd2, 512, 0)], ∃ s : State,
    s.cardType = c.1 ∧ Quiet s ∧ s.phase = .ready ∧ nextGrant s = true ∧ Held s.par c.2.1 s.bufLen ∧ (s.bufLen = 0 → c.2.1 % 512 = 0) ∧
      c.2.1 / 512 < 2 ^ 32 ∧ c.2.1 + s.bufLen ≤ 2 ^ 41 ∧
      addressable s.cardType ((c.2.1 + s.bufLen - 1) / 512) := by
  intro c h
  obtain ⟨s, h1, h2, h3, h4, h5, h6, h7, h8, h9, -⟩ := test_witness_ReadAtCompletes c h
  exact ⟨s, h1, h2, h3, h4, h5, h6, h7, h8, h9⟩

/-- In the request of V8, 514 bytes from the last byte of block 1 on, only block 2 is covered whole. -/
theorem test_coversBlock : ¬coversBlock 1023 514 1 ∧ coversBlock 1023 514 2 ∧ ¬coversBlock 1023 514 3 := by decide

/-- Each way a card fails an update: the read of a block that is not covered whole, and the write of one that is and of
one that is not. -/
theorem test_updateFails (buf : Memory) (old : List Byte) :
    (∃ script events, UpdateFails spec .sd2 buf 1023 514 1 old (ff 6) [0xAB, 0xCD] .readCmd script events) ∧
    (∃ script events, UpdateFails spec .sd2 buf 1023 514 3 old (ff 6) [0xAB, 0xCD] .startBlock script events) ∧
    (∀ block ∈ [2, 3], (∃ script events, UpdateFails spec .sd2 buf 1023 514 block old (ff 6) [0xAB, 0xCD] .writeCmd
        script events) ∧
      ∃ script events, UpdateFails spec .sd2 buf 1023 514 block old (ff 6) [0xAB, 0xCD] .writeDataResp script events) :=
  ⟨⟨_, _, .read test_coversBlock.1 (.rejected 0x01 rfl (by decide))⟩,
    ⟨_, _, .read test_coversBlock.2.2 (.noToken 0x00 (by decide) (by decide))⟩,
    fun _ _ => ⟨⟨_, _, .write (.silent (ff 65535) test_noResponse)⟩,
      ⟨_, _, .write (.notAccepted (ff 515) 0x0B (by simp [ff]) (by decide))⟩⟩⟩

/-- In the same request the first, the second and the third block fails, in each way a card can. -/
theorem test_witness_WriteAtCompletes_failures : ∀ j ∈ [0, 1, 2], ∀ (script : List Byte) (events : List Event) (e : ErrCode),
    UpdateFails spec .sd2 [(0, 0xAA)] 1023 514 (1023 / 512 + j) (storeBlock (1023 / 512 + j)) (ff 6) [0xAB, 0xCD] e script
      events →
    ∃ (s : State) (old : Nat → List Byte) (crc during rest : List Byte) (response : Byte), s.par = spec ∧ s.cardType = .sd2 ∧
      s.buf = [(0, 0xAA)] ∧ old = storeBlock ∧ crc = [0xAB, 0xCD] ∧ s.bufLen = 514 ∧
      s.par.Legal ∧ Quiet s ∧ s.phase = .ready ∧ nextGrant s = true ∧ Held s.par 1023 s.bufLen ∧
      1023 + s.bufLen ≤ 2 ^ 41 ∧ addressable s.cardType ((1023 + s.bufLen - 1) / 512) ∧
      (ff 6).length = 6 ∧ crc.length = 2 ∧ during.length = 515 ∧ response.extractLsb 4 0 = 5#5 ∧
      (∀ b, (old b).length = 512) ∧ 0 < s.bufLen ∧ 1023 / 512 + j ≤ (1023 + s.bufLen - 1) / 512 ∧
      s.miso = (List.range j).flatMap (fun i => updateAnswer 1023 s.bufLen (1023 / 512 + i)
        (old (1023 / 512 + i)) (ff 6) crc during response) ++ (script ++ rest) := by
  intro j hj script events e _
  refine ⟨readyBuf .sd2 514 [(0, 0xAA)] ((List.range j).flatMap (fun i => updateAnswer 1023 514 (1023 / 512 + i)
      (storeBlock (1023 / 512 + i)) (ff 6) [0xAB, 0xCD] (ff 515) 0xE5) ++ (script ++ [])), storeBlock, [0xAB, 0xCD], ff 515,
    [], 0xE5, rfl, rfl, rfl, rfl, rfl, rfl, Params.spec_legal, ⟨rfl, rfl, rfl⟩, rfl, rfl, ⟨show (1023 : Nat) < 2 ^ 64 by decide, show (514 : Nat) < 2 ^ 64 by decide⟩,
    show 1023 + 514 ≤ 2 ^ 41 by decide, .inr ⟨.inr rfl, show (1023 + 514 - 1) / 512 < 2 ^ 23 by decide⟩, rfl, rfl,
    by simp [ff], by decide, fun b => by simp [storeBlock], show 0 < 514 by decide, ?_, rfl⟩
  show 1023 / 512 + j ≤ (1023 + 514 - 1) / 512
  simp at hj; rcases hj with rfl | rfl | rfl <;> decide

/-- Five bytes that end at the block boundary. -/
theorem test_witness_WriteAtPartialBlock :
    ∃ (offset : Nat) (s : State) (arg : U32) (ignored old crc during rest : List Byte) (response : Byte),
      s.par.Legal ∧ Quiet s ∧ s.phase = .ready ∧ nextGrant s = true ∧ Held s.par offset s.bufLen ∧ 0 < s.bufLen ∧ s.bufLen < 512 ∧
      offset % 512 + s.bufLen ≤ 512 ∧ offset / 512 < 2 ^ 32 ∧
      scale s.cardType (BitVec.ofNat 32 (offset / 512)) = .ok arg ∧ ignored.length = 6 ∧ old.length = 512 ∧
      crc.length = 2 ∧ during.length = 515 ∧ response.extractLsb 4 0 = 5#5 ∧
      s.miso = answer ignored 0x00 (packet old crc ++ answer ignored 0x00 (during ++ response :: 0xFF :: rest)) :=
  ⟨1019, readyBuf .sd2 5 [] (answer (ff 6) 0x00 (packet (storeBlock 1) [0xAB, 0xCD] ++
    answer (ff 6) 0x00 (ff 515 ++ 0xE5 :: 0xFF :: []))), 512, ff 6, storeBlock 1, [0xAB, 0xCD], ff 515, [], 0xE5,
    Params.spec_legal, ⟨rfl, rfl, rfl⟩, rfl, rfl, ⟨by decide, by decide⟩, by decide, by decide, by decide, by decide, rfl, rfl, by simp [storeBlock], rfl,
    by simp [ff], by decide, rfl⟩

/-- A head, one whole block and a tail: 514 bytes from the last byte of block 1 to the first of block 3 (V8). -/
theorem test_witness_WriteAtOnScript :
    ∃ (offset : Nat) (s : State) (old : Nat → List Byte) (ignored crc during rest : List Byte) (response : Byte)
      (blocks : Nat), offset = 1023 ∧ s.bufLen = 514 ∧
      s.par.Legal ∧ Quiet s ∧ s.phase = .ready ∧ nextGrant s = true ∧ Held s.par offset s.bufLen ∧ 0 < s.bufLen ∧
      offset + s.bufLen ≤ 2 ^ 41 ∧
      addressable s.cardType ((offset + s.bufLen - 1) / 512) ∧ ignored.length = 6 ∧ crc.length = 2 ∧
      during.length = 515 ∧ response.extractLsb 4 0 = 5#5 ∧ (∀ b, (old b).length = 512) ∧
      blocks = (offset + s.bufLen - 1) / 512 - offset / 512 + 1 ∧
      s.miso = (List.range blocks).flatMap (fun j => updateAnswer offset s.bufLen (offset / 512 + j)
        (old (offset / 512 + j)) ignored crc during response) ++ rest :=
  ⟨1023, readyBuf .sd2 514 [(0, 0xAA)] ((List.range 3).flatMap (fun j => updateAnswer 1023 514
    (1023 / 512 + j) (storeBlock (1023 / 512 + j)) (ff 6) [0xAB, 0xCD] (ff 515) 0xE5) ++ []),
    storeBlock, ff 6, [0xAB, 0xCD], ff 515, [], 0xE5, 3, rfl, rfl, Params.spec_legal, ⟨rfl, rfl, rfl⟩, rfl, rfl, ⟨by decide, by decide⟩, by decide, by decide,
    .inr ⟨.inr rfl, by decide⟩, rfl, rfl, by simp [ff], by decide, fun b => by simp [storeBlock], by decide, rfl⟩

/-- V8: a byte of the head, the first byte of the whole block, and the one byte of the tail. -/
theorem test_witness_SplitArithmetic : (0 : Nat) < (split 1023 514).head ∧
    ((split 1023 514).head ≤ 1 ∧ 1 < 514) ∧ (split 1023 514).head ≤ 513 ∧ 513 < 514 ∧
    (513 - (split 1023 514).head) / 512 = (split 1023 514).full := by decide

theorem test_witness_ZeroLength : ∃ s : State, s.seq = .idle ∧ s.phase = .ready ∧ nextGrant s = true ∧
    Held s.par 512 s.bufLen ∧ Held s.par 513 s.bufLen ∧ s.bufLen = 0 ∧
    512 / 512 < 2 ^ 32 ∧ 512 % 512 = 0 ∧ 513 / 512 < 2 ^ 32 ∧
    513 % 512 ≠ 0 :=
  ⟨readyBuf .sdhc 0 [] [], rfl, rfl, rfl, ⟨by decide, by decide⟩, ⟨by decide, by decide⟩, by decide⟩

/-- A presented word of a row, a received byte outside its class, a word of no row, and nothing presented. -/
theorem test_witness_StepRunsDecoded :
    (∃ (s : State) (r : Request), s.inbox = r :: [] ∧ decode s.par r.place r.word = .ok (.readAt 510, [])) ∧
    (∃ (s : State) (r : Request), s.inbox = r :: [] ∧ decode s.par r.place r.word = .ok (.size, [0x55])) ∧
    (∃ (s : State) (r : Request), s.inbox = r :: [] ∧ decode s.par r.place r.word = .error .outsideClass) ∧
    (∃ (s : State) (r : Request), s.inbox = r :: [] ∧ decode s.par r.place r.word = .error .noSuchOperation ∧
      Reject.noSuchOperation ≠ .outsideClass) ∧
    State.reset.inbox = [] :=
  ⟨⟨{ State.reset with inbox := [⟨.host, [1, 0, 0, 0, 0, 0, 0, 0x01, 0xFE], [(3, 7)], 4⟩] }, _, rfl, rfl⟩,
    ⟨{ State.reset with inbox := [⟨.host, [3, 0x55], [], 0⟩] }, _, rfl, rfl⟩,
    ⟨{ State.reset with inbox := [⟨.echo, [0xAB], [], 0⟩] }, _, rfl, rfl⟩,
    ⟨{ State.reset with inbox := [⟨.host, [7], [], 0⟩] }, _, rfl, rfl, nofun⟩, rfl⟩

theorem test_witness_StepKeepsInv : ∃ s t : State, Inv s ∧ step s = .next t ∧ s.inbox ≠ [] :=
  ⟨{ State.reset with inbox := [⟨.host, [4], [(3, 7)], 4⟩] },
    { State.reset with buf := [(3, 7)], bufLen := 4, presented := some (.value 512) },
    ⟨⟨.inl rfl, rfl, rfl⟩, ⟨rfl, rfl, rfl, rfl⟩, rfl, ⟨by decide, by decide, by decide⟩, by simp [Request.fromHost]; decide, nofun, fun _ => rfl, nofun, nofun⟩,
    rfl, nofun⟩

theorem test_witness_OnlyConfigureWritesDevice :
    (∃ s t : State, exec .eraseBlockSize s = .next t) ∧ (∃ s t : State, exec .cmd58 s = .next t) ∧
      (∃ s t : State, exec .fill s = .next t) ∧ Instr.eraseBlockSize.place = .host ∧ Instr.cmd58.place = .frame ∧
      Instr.fill.place = .send :=
  ⟨⟨State.reset, _, rfl⟩, ⟨State.reset, _, rfl⟩, ⟨State.reset, _, rfl⟩, rfl, rfl, rfl⟩

/-- An error of each of the four operations, and a query. -/
theorem test_witness_ErrorTable :
    (∃ s t : State, Quiet s ∧ exec .configure s = .next t ∧ t.err = some .legacyNotImplemented) ∧
    (∃ s t : State, Quiet s ∧ exec (.readAt 100) s = .next t ∧ t.err = some .readCmd) ∧
    (∃ s t : State, Quiet s ∧ exec (.writeAt 100) s = .next t ∧ t.err = some .writeCmd) ∧
    (∃ s t : State, Quiet s ∧ exec (.eraseBlocks 0 1) s = .next t ∧ t.err = some .writeMultiCmd) ∧
    (∃ s t : State, Quiet s ∧ exec .writeBlockSize s = .next t) := by
  refine ⟨⟨fresh scriptP2, ?_⟩, ⟨readyBuf .sdhc 5 [] (slowAnswer 0x40 []), ?_⟩,
    ⟨readyBuf .sdhc 600 [] (serveRead 0 ++ slowAnswer 0x04 []), ?_⟩, ⟨ready .sdhc (slowAnswer 0x04 []), ?_⟩,
    ⟨State.reset, _, ⟨rfl, rfl, rfl⟩, rfl⟩⟩
  · obtain ⟨t, h, e⟩ := exists_next (f := fun t => t.err == some .legacyNotImplemented) (o := exec .configure (fresh scriptP2))
      (by decide +kernel)
    exact ⟨t, ⟨rfl, rfl, rfl⟩, h, eq_of_beq e⟩
  · obtain ⟨t, h, e⟩ := exists_next (f := fun t => t.err == some .readCmd)
      (o := exec (.readAt 100) (readyBuf .sdhc 5 [] (slowAnswer 0x40 []))) (by decide +kernel)
    exact ⟨t, ⟨rfl, rfl, rfl⟩, h, eq_of_beq e⟩
  · obtain ⟨t, h, e⟩ := exists_next (f := fun t => t.err == some .writeCmd)
      (o := exec (.writeAt 100) (readyBuf .sdhc 600 [] (serveRead 0 ++ slowAnswer 0x04 []))) (by decide +kernel)
    exact ⟨t, ⟨rfl, rfl, rfl⟩, h, eq_of_beq e⟩
  · obtain ⟨t, h, e⟩ := exists_next (f := fun t => t.err == some .writeMultiCmd)
      (o := exec (.eraseBlocks 0 1) (ready .sdhc (slowAnswer 0x04 []))) (by decide +kernel)
    exact ⟨t, ⟨rfl, rfl, rfl⟩, h, eq_of_beq e⟩

/-- A query, and an operation that uses the bus. -/
theorem test_witness_WrapperEvents :
    (∃ s t : State, exec .writeBlockSize s = .next t ∧ Instr.writeBlockSize.place = .host) ∧
    (∃ s t : State, exec .configure s = .next t ∧ Instr.configure.place = .host) := by
  refine ⟨⟨State.reset, _, rfl, rfl⟩, ⟨fresh scriptP2, ?_⟩⟩
  obtain ⟨t, h, -⟩ := exists_next (f := fun _ => true) (o := exec .configure (fresh scriptP2)) (by decide +kernel)
  exact ⟨t, h, rfl⟩

theorem test_witness_OnwardAlways : ∃ s t : State, exec .idleByte s = .next t := ⟨State.reset, _, rfl⟩

/-- Each clause of `OutsideContract`, at the first value outside. -/
theorem test_witness_OutsideContract :
    (∃ s : State, s.seq ≠ .idle) ∧ (∃ s : State, s.seq = .idle ∧ s.phase ≠ .fresh) ∧
    (∃ s : State, s.seq = .idle ∧ s.phase ≠ .ready) ∧
    (∃ s : State, s.seq = .idle ∧ s.phase = .ready ∧ s.csd.structureField = 2) ∧
    (∃ s : State, s.seq = .idle ∧ s.phase = .ready ∧ s.csd.structureField = 3) ∧
    2 ^ 32 < (0xFFFFFFFF : U32).toNat + (2 : U64).toNat ∧
    (∃ s : State, s.seq = .idle ∧ s.phase = .ready ∧ s.par.offsetW = 64 ∧ ¬Held s.par 18446744073709551616 s.bufLen) ∧
    (∃ s : State, s.seq = .idle ∧ s.phase = .ready ∧ s.par.lenW = 4 ∧ ¬Held s.par 0 s.bufLen) ∧
    (∃ s : State, s.seq = .idle ∧ s.phase = .ready ∧ s.bufLen = 0 ∧ 2199023255553 % 512 ≠ 0) ∧
    (∃ s : State, s.seq = .idle ∧ s.phase = .ready ∧ (s.bufLen = 0 → 2199023255551 % 512 = 0) ∧
      2 ^ 41 < 2199023255551 + s.bufLen) ∧
    (∃ s : State, s.seq = .idle ∧ s.phase = .ready ∧ s.bufLen = 0 ∧ 2199023255552 % 512 = 0 ∧
      2 ^ 41 = 2199023255552) ∧
    (∃ s : State, s.seq = .idle ∧ s.phase = .ready ∧ nextGrant s = true ∧ s.cardType = .sd2 ∧
      2 ^ 23 ≤ (0x800000 : U32).toNat ∧ (0x800000 : U32).toNat + (0 : U64).toNat ≤ 2 ^ 32 ∧
      2 ^ 23 ≤ 4294967296 / 512 ∧ 0 < s.bufLen ∧
      4294967296 + s.bufLen ≤ 2 ^ 41) ∧
    (∃ s : State, s.seq = .idle ∧ s.phase = .ready ∧ nextGrant s = true ∧ s.cardType = .sd1 ∧
      4294967295 / 512 < 2 ^ 23 ∧ 2 ^ 23 ≤ (4294967295 + s.bufLen - 1) / 512 ∧
      0 < s.bufLen ∧ 4294967295 + s.bufLen ≤ 2 ^ 41) ∧
    (∃ s : State, s.seq = .idle ∧ s.phase = .ready ∧ nextGrant s = true ∧ s.cardType = .unknown ∧
      (0 : U32).toNat + (0 : U64).toNat ≤ 2 ^ 32 ∧ 0 < s.bufLen ∧ 0 + s.bufLen ≤ 2 ^ 41) :=
  ⟨⟨{ State.reset with seq := .s1Prime }, by decide⟩, ⟨ready .sdhc [], by decide⟩, ⟨State.reset, by decide⟩,
    ⟨{ ready .sd2 [] with csd := .noLayout 0 }, by decide⟩, ⟨{ ready .sd2 [] with csd := .noLayout 1 }, by decide⟩,
    by decide, ⟨ready .sdhc [], rfl, rfl, rfl, fun h => absurd h.offset (by decide)⟩,
    ⟨{ readyBuf .sdhc 16 [] [] with par := { spec with lenW := 4 } }, rfl, rfl, rfl, fun h => absurd h.len (by decide)⟩,
    ⟨ready .sdhc [], by decide⟩, ⟨readyBuf .sdhc 2 [] [], by decide⟩, ⟨ready .sdhc [], by decide⟩,
    ⟨readyBuf .sd2 1 [] [], by decide⟩, ⟨readyBuf .sd1 2 [] [], by decide⟩,
    ⟨readyBuf .unknown 1 [] [], by decide⟩⟩

/-- All offsets and lengths of those clauses have the widths of the defaults. -/
theorem test_held : ∀ o ∈ [0, 513, 4294967295, 4294967296, 2199023255551, 2199023255552, 2199023255553],
    ∀ n ∈ [0, 1, 2], Held spec o n := by
  intro o ho n hn
  simp at ho hn
  refine ⟨?_, ?_⟩ <;> show _ < 2 ^ 64 <;> omega

theorem test_witness_LockNeverGranted :
    (∃ s : State, s.seq = .idle ∧ nextGrant s = false ∧ s.phase = .fresh) ∧
    (∃ s : State, s.seq = .idle ∧ nextGrant s = false ∧ s.phase = .ready ∧
      (0xFFFFFFFF : U32).toNat + (1 : U64).toNat ≤ 2 ^ 32 ∧ Held s.par 0 s.bufLen ∧ (s.bufLen = 0 → 0 % 512 = 0) ∧
      0 / 512 < 2 ^ 32 ∧ 0 + s.bufLen ≤ 2 ^ 41) :=
  ⟨⟨ungranted .fresh, by decide⟩, ⟨ungranted .ready, rfl, rfl, rfl, by decide, ⟨by decide, by decide⟩, by decide⟩⟩

end Sys2Proof.Tests
end

/-! PROOFS. The family of the state: what a step of every kind keeps, and the values at reset (10_state.md). -/

namespace Sys2Proof.Machine

variable {i : Instr} {s t : State}

/-! ### Frames and sent bytes only talk on the bus -/

/-- Every frame row is one run of `command` (R240, R249). -/
theorem exec_frame_eq_command (hi : i.place = .frame) (s : State) :
    ∃ code arg crc, exec i s = .next (command s.par code arg crc s).2 := by
  cases i with
  | cmd0 | cmd8 | cmd9 | cmd10 | cmd12 | cmd16 | cmd17 | cmd24 | cmd25 | cmd55 | cmd58 | acmd41 =>
    exact ⟨_, _, _, rfl⟩
  | _ => cases hi

theorem exec_frame_busOnly (hi : i.place = .frame) (h : exec i s = .next t) : BusOnly s t := by
  obtain ⟨code, arg, crc, he⟩ := exec_frame_eq_command hi s
  cases he.symm.trans h
  exact (command_spec s.par code arg crc s).1

/-- A sent byte is one exchange, and only the filler's answer is kept (R205, log 34). -/
theorem exec_send_busOnly (hi : i.place = .send) (h : exec i s = .next t) : BusOnly s t := by
  cases i with
  | tokenStartTx | tokenMulti | tokenStop => cases h; exact xfer_busOnly _ s
  | fill => cases h; exact poll_busOnly s.par s
  | _ => cases hi

/-- Settles O55: a frame or a sent byte stays on the bus, and of the host operations all but `Configure` keep the
device. -/
theorem onlyConfigureWritesDevice : Obligations.OnlyConfigureWritesDevice := by
  unfold Obligations.OnlyConfigureWritesDevice
  rintro i s t hne (hi | hi | hi) h
  · exact (host_effect hi h).device hne
  · exact (exec_frame_busOnly hi h).device
  · exact (exec_send_busOnly hi h).device

/-! ### Time, events and inputs: the parts of the received-byte rows -/

/-- Whatever leaves the five parts `Onward` speaks of as they are goes onward. -/
theorem Onward.of_eq (time : t.time = s.time) (trace : t.trace = s.trace) (ticks : t.ticks = s.ticks)
    (miso : t.miso = s.miso) (par : t.par = s.par) : Onward s t :=
  ⟨time.ge, trace ▸ List.suffix_refl _, ticks ▸ List.suffix_refl _, miso ▸ List.suffix_refl _, par⟩

theorem answered_onward (r : Byte) (s : State) : Onward s (answered r s) := .of_eq rfl rfl rfl rfl rfl

theorem countPoll_onward (s : State) : Onward s (countPoll s) := .of_eq rfl rfl rfl rfl rfl

theorem exhausted_onward (s : State) : Onward s (exhausted s) :=
  (setCs_busOnly true s).onward.trans (answered_onward P.noResponse _)

theorem setSeq_onward (q : Seq) (s : State) : Onward s (setSeq q s) := (setSeq_init q s).1.onward

theorem setCardType_onward (v : CardType) (s : State) : Onward s (setCardType v s) := (setCardType_init v s).onward

theorem classifyOcr_onward (b : Byte) (s : State) : Onward s (classifyOcr b s) := by
  unfold classifyOcr
  split
  · exact setCardType_onward _ s
  · exact .refl s

theorem received_onward (par : Params) (b : Byte) (s : State) : Onward s (received par b s) :=
  (received_busOnly par b s).onward

theorem trailByte_onward (par : Params) (place : Nat) (b : Byte) (s : State) : Onward s (trailByte par place b s) :=
  ⟨Nat.le_refl _, List.suffix_cons _ _, List.suffix_refl _, List.suffix_refl _, rfl⟩

/-! ### Received bytes -/

/-- A row of received bytes goes onward: the byte of such a row is in the instruction, so no input is used (R209). -/
theorem exec_received_onward (hhost : i.place ≠ .host) (hframe : i.place ≠ .frame) (hsend : i.place ≠ .send)
    (h : exec i s = .next t) : Onward s t := by
  cases i with
  | r1Valid =>
    cases h
    exact ((received_onward _ _ s).trans (countPoll_onward _)).trans (answered_onward _ _)
  | r1Skip rest =>
    cases h
    have hpoll := (received_onward s.par (r1SkipByte rest) s).trans (countPoll_onward _)
    split
    · exact hpoll
    · exact hpoll.trans (exhausted_onward _)
  | r1Idle | r1Ready =>
    cases h
    exact (answered_onward _ s).trans (setSeq_onward _ _)
  | r1Illegal =>
    cases h
    exact ((answered_onward _ s).trans (setCardType_onward _ _)).trans (leaveConfigure_onward _ _ _)
  | r7Echo =>
    cases h
    exact ((trailByte_onward _ 3 _ s).trans (setCardType_onward _ _)).trans (setSeq_onward _ _)
  | r3Ocr0Hc =>
    cases h
    exact (trailByte_onward _ 0 _ s).trans (classifyOcr_onward _ _)
  | dataRespAccepted | idleByte | tokenStartRx =>
    cases h
    exact received_onward _ _ s
  | csd0V1 | csd0V2 | csd0None =>
    cases h
    exact .of_eq rfl rfl rfl rfl rfl
  | cmd0 | cmd8 | cmd9 | cmd10 | cmd12 | cmd16 | cmd17 | cmd24 | cmd25 | cmd55 | cmd58 | acmd41 => exact absurd rfl hframe
  | tokenStartTx | tokenMulti | tokenStop | fill => exact absurd rfl hsend
  | configure | readAt | writeAt | size | writeBlockSize | eraseBlockSize | eraseBlocks => exact absurd rfl hhost

/-- A non-zero response where a zero one is asked for: kept, retried, timed out or raised (R264 to R266, R300, R331). -/
theorem otherReady_onward (par : Params) (r : Byte) (s : State) : Onward s (otherReady par r s) := by
  have hr := answered_onward r s
  unfold otherReady
  cases s.seq with
  | s4OpCond => exact hr.trans (ifExpired_onward (leaveConfigure_onward par _) _)
  | s5Ocr | s6BlockLen => exact hr.trans (leaveConfigure_onward par _ _)
  | s7Regs | runReadAt | runWriteAt | runErase => exact hr.trans (releaseAndRaise_onward par _ _)
  | idle | s1Prime | s2Idle | s3Probe | s8Finish => exact hr

theorem otherStartWait_onward (par : Params) (b : Byte) (s : State) : Onward s (otherStartWait par b s) := by
  have hr := received_onward par b s
  unfold otherStartWait
  split
  · exact hr.trans (ifExpired_onward (releaseAndRaise_onward par _) _)
  · exact hr.trans (releaseAndRaise_onward par _ _)

/-- A received byte outside the class its place tests goes onward (R209). -/
theorem otherByte_onward (p : Place) (b : Byte) (s : State) : Onward s (otherByte p b s) := by
  cases p with
  | idleTest => exact (answered_onward b s).trans (ifExpired_onward (leaveConfigure_onward s.par _) _)
  | illegalTest => exact answered_onward b s
  | readyTest => exact otherReady_onward s.par b s
  | echo => exact (trailByte_onward s.par 3 b s).trans (leaveConfigure_onward s.par _ _)
  | ocr0 => exact trailByte_onward s.par 0 b s
  | dataResp => exact (received_onward s.par b s).trans (releaseAndRaise_onward s.par _ _)
  | notBusy => exact (received_onward s.par b s).trans (expired_busOnly _ _).onward
  | startWait => exact otherStartWait_onward s.par b s
  | host | frame | send | respPoll | csd0 => exact .refl s

/-- Every instruction goes onward: by its effect for a host operation, by its bus frame for a frame or a sent byte. -/
theorem exec_onward (h : exec i s = .next t) : Onward s t := by
  by_cases hhost : i.place = .host
  · exact (host_effect hhost h).onward
  by_cases hframe : i.place = .frame
  · exact (exec_frame_busOnly hframe h).onward
  by_cases hsend : i.place = .send
  · exact (exec_send_busOnly hsend h).onward
  exact exec_received_onward hhost hframe hsend h

/-- Settles O58: host operations, frames, sent bytes and received rows one kind at a time, then the bytes of no row. -/
theorem onwardAlways : Obligations.OnwardAlways := by
  unfold Obligations.OnwardAlways
  exact ⟨fun _ _ _ => exec_onward, otherByte_onward⟩

/-! ### Reset -/

/-- Settles O52: each value is the one `State.reset` and the parameter definitions name, and the zero block is 512
zeros. -/
theorem resetValues : Obligations.ResetValues := by
  unfold Obligations.ResetValues
  exact ⟨rfl, rfl, rfl, rfl, rfl, rfl, rfl, rfl, rfl, zeroBlock_length, fun _ => List.eq_of_mem_replicate, rfl⟩

theorem reset_settled : Settled State.reset := ⟨.inl rfl, rfl, rfl⟩

theorem reset_sized : Sized State.reset :=
  ⟨List.length_replicate, List.length_replicate, List.length_replicate, List.length_replicate⟩

theorem reset_lenHeld : LenHeld State.reset := ⟨Nat.two_pow_pos _, Nat.two_pow_pos _, Nat.two_pow_pos _⟩

/-- Settles O53: quiet, arrays of their size, an empty buffer and inbox, and a fresh phase with no card classified. -/
theorem resetInv : Obligations.ResetInv := by
  unfold Obligations.ResetInv
  exact {
    settled := reset_settled
    sized := reset_sized
    buffer := rfl
    widths := reset_lenHeld
    inbox := nofun
    ready := nofun
    fresh := fun _ => rfl
    err := ⟨nofun, nofun⟩ }

/-! ### The lock that is never granted -/

/-- The wrapper asks for the lock before anything else (R140, R380). -/
theorem ioOp_ungranted {q : Seq} {body : BlockProc Unit} {report : Option ErrCode → State → Completion}
    (hg : nextGrant s = false) : ioOp q body report s = .fault .lockNeverGranted := by
  unfold ioOp
  rw [if_neg (ne_true_of_eq_false hg)]

theorem exec_configure_ungranted (hs : s.seq = .idle) (hp : s.phase = .fresh) (hg : nextGrant s = false) :
    exec .configure s = .fault .lockNeverGranted := by
  simp [exec, execConfigure, refuseConfigure, hs, hp, hg]

theorem refuseErase_none {start : U32} {count : U64} (h : start.toNat + count.toNat ≤ 2 ^ 32) :
    refuseErase start count = none := if_pos h

/-- Settles O60: a request in the contract gets as far as its `lock()`, and there it is stuck. -/
theorem lockNeverGranted : Obligations.LockNeverGranted := by
  unfold Obligations.LockNeverGranted
  intro s start count offset hs hg
  refine ⟨fun hp => exec_configure_ungranted hs hp hg, fun hp => ⟨fun hc => ?_, fun hw h0 h1 h2 => ?_⟩⟩
  · rw [exec_eraseBlocks start count hs hp (refuseErase_none hc)]
    exact ioOp_ungranted hg
  · have hr := refuseTransfer_none hw h0 h1 h2
    rw [exec_readAt offset hs hp hr, exec_writeAt offset hs hp hr]
    exact ⟨ioOp_ungranted hg, ioOp_ungranted hg⟩

end Sys2Proof.Machine

/-! PROOFS. The family of the memory: the buffers a request names (20_memory.md). -/

namespace Sys2Proof.Machine

variable {src : List Byte}

/-! ### The length check comes first (R164, R403 item 1) -/

theorem readBlock_short (par : Params) (b : U32) {len : Nat} (h : len < P.blockSize) (s : State) :
    readBlock par b len s = .error (.err .param) s := ite_then h rfl

theorem writeBlock_short (par : Params) (b : U32) (h : src.length < P.blockSize) (s : State) :
    writeBlock par b src s = .error (.err .param) s := ite_then h rfl

theorem writeMulti_short (par : Params) (h : src.length < P.blockSize) (s : State) :
    writeMulti par src s = .error .param s := ite_then h rfl

/-- Settles O40: each primitive tests the length before it scales an index or sends a byte, and throws in the state it
was given. -/
theorem shortBuffer : Obligations.ShortBuffer := by
  unfold Obligations.ShortBuffer
  intro par s b len src hlen hsrc
  exact ⟨readBlock_short par b hlen s, writeBlock_short par b hsrc s, writeMulti_short par hsrc s⟩

end Sys2Proof.Machine

/-! PROOFS. The family of the encoding (30_encoding.md): decoding and encoding agree in both directions, the rows of
sent and polled bytes, and what a step makes of a presented word. -/

namespace Sys2Proof

variable {par : Params} {i j : Instr} {arg gotArg : U32} {b b0 crc gotCrc : Byte} {bytes rest : List Byte}

/-- The outcome of a test comes from the branch that was taken. -/
theorem ite_cases {α : Type} {c goal : Prop} [Decidable c] {a x v : α} (h : (if c then a else x) = v)
    (hthen : c → a = v → goal) (helse : x = v → goal) : goal := by
  obtain ⟨hc, h⟩ | ⟨-, h⟩ := ite_eq_iff.1 h
  · exact hthen hc h
  · exact helse h

/-- A test that reads as a row has held for that row, or has failed. -/
theorem ite_ok {ε α : Type} {c : Prop} [Decidable c] {a v : α} {x : Except ε α}
    (h : (if c then .ok a else x) = .ok v) : c ∧ v = a ∨ ¬c ∧ x = .ok v := by
  split at h
  · cases h
    exact .inl ⟨‹_›, rfl⟩
  · exact .inr ⟨‹_›, h⟩

/-! ### Frames (R190, R200) -/

/-- The two arguments of ACMD41 are read back: P_HCS is not zero (R207). -/
theorem opCondFrame_opCondArg (h : par.Legal) (hcs : Bool) :
    opCondFrame par (opCondArg par hcs) par.crcDummy = .ok (.acmd41 hcs) := by
  have h0 : ¬0#32 = par.hcs := Ne.symm h.hcs
  cases hcs <;> simp [opCondFrame, opCondArg, h0]

/-- A frame row is a frame, and its fields are read back as the row: the indices differ, so every earlier test fails. -/
theorem decodeFrame_encode (h : par.Legal) (hi : i.place = .frame) :
    ∃ code arg crc, encode par i = frameBytes code arg crc ∧ decodeFrame par (frameByte0 code) arg crc = .ok i := by
  have hne := List.nodup_reverse.2 h.commands
  simp only [Params.commands, List.reverse_cons, List.reverse_nil, List.nil_append, List.cons_append, List.nodup_cons,
    List.mem_cons, not_or] at hne
  cases i with
  | cmd0 | cmd8 | cmd9 | cmd10 | cmd12 | cmd16 | cmd55 | cmd58 =>
    exact ⟨_, _, _, rfl, by simp [decodeFrame, fixedFrame, hne]⟩
  | cmd17 | cmd24 | cmd25 => exact ⟨_, _, _, rfl, by simp [decodeFrame, addressedFrame, hne]⟩
  | acmd41 hcs => exact ⟨_, _, _, rfl, by simp [decodeFrame, opCondFrame_opCondArg h, hne]⟩
  | _ => cases hi

/-- A frame that reads as a row with a fixed argument and CRC byte has those of the row. -/
theorem fixedFrame_ok {code : BitVec 6} (hi : i.place = .frame) (he : encode par i = frameBytes code arg crc)
    (hb : b0 = frameByte0 code) (h : fixedFrame i arg crc gotArg gotCrc = .ok j) :
    j.place = .frame ∧ encode par j = b0 :: argBytes gotArg ++ [gotCrc] := by
  obtain ⟨⟨rfl, rfl⟩, rfl⟩ | ⟨-, h⟩ := ite_ok h
  · exact ⟨hi, he.trans (hb ▸ rfl)⟩
  · cases h

/-- A frame that reads as a row with an argument for its operand has the row's CRC byte. -/
theorem addressedFrame_ok {code : BitVec 6} {row : U32 → Instr} (hi : ∀ arg, (row arg).place = .frame)
    (he : ∀ arg, encode par (row arg) = frameBytes code arg par.crcDummy) (hb : b0 = frameByte0 code)
    (h : addressedFrame par row gotArg gotCrc = .ok j) :
    j.place = .frame ∧ encode par j = b0 :: argBytes gotArg ++ [gotCrc] := by
  obtain ⟨rfl, rfl⟩ | ⟨-, h⟩ := ite_ok h
  · exact ⟨hi _, (he _).trans (hb ▸ rfl)⟩
  · cases h

/-- A frame that reads as ACMD41 has one of the two arguments of R207. -/
theorem opCondFrame_ok (hb : b0 = frameByte0 P.acmdOpCond) (h : opCondFrame par gotArg gotCrc = .ok j) :
    j.place = .frame ∧ encode par j = b0 :: argBytes gotArg ++ [gotCrc] := by
  obtain ⟨-, h⟩ | ⟨hcrc, h⟩ := ite_eq_iff.1 h
  · cases h
  obtain ⟨harg, rfl⟩ | ⟨-, h⟩ := ite_ok h
  · exact ⟨rfl, by rw [hb, harg, not_not.1 hcrc]; rfl⟩
  obtain ⟨harg, rfl⟩ | ⟨-, h⟩ := ite_ok h
  · exact ⟨rfl, by rw [hb, harg, not_not.1 hcrc]; rfl⟩
  · cases h

/-- A frame that reads as a row is the frame of that row. -/
theorem decodeFrame_ok (h : decodeFrame par b0 arg crc = .ok i) :
    i.place = .frame ∧ encode par i = b0 :: argBytes arg ++ [crc] := by
  unfold decodeFrame at h
  refine ite_cases h (fixedFrame_ok (i := .cmd0) rfl rfl) fun h => ?_
  refine ite_cases h (fixedFrame_ok (i := .cmd8) rfl rfl) fun h => ?_
  refine ite_cases h (fixedFrame_ok (i := .cmd9) rfl rfl) fun h => ?_
  refine ite_cases h (fixedFrame_ok (i := .cmd10) rfl rfl) fun h => ?_
  refine ite_cases h (fun hb h => by cases h; exact ⟨rfl, hb ▸ rfl⟩) fun h => ?_
  refine ite_cases h (fixedFrame_ok (i := .cmd16) rfl rfl) fun h => ?_
  refine ite_cases h (addressedFrame_ok (row := .cmd17) (fun _ => rfl) fun _ => rfl) fun h => ?_
  refine ite_cases h (addressedFrame_ok (row := .cmd24) (fun _ => rfl) fun _ => rfl) fun h => ?_
  refine ite_cases h (addressedFrame_ok (row := .cmd25) (fun _ => rfl) fun _ => rfl) fun h => ?_
  refine ite_cases h (fixedFrame_ok (i := .cmd55) rfl rfl) fun h => ?_
  refine ite_cases h (fixedFrame_ok (i := .cmd58) rfl rfl) fun h => ?_
  refine ite_cases h opCondFrame_ok fun h => ?_
  cases h

/-- Bytes that read as a frame are six, with the fields that `decodeFrame` is given, and those that follow. -/
theorem decode_frame_ok (h : decode par .frame bytes = .ok (i, rest)) :
    ∃ b0 arg crc, decodeFrame par b0 arg crc = .ok i ∧ bytes = b0 :: argBytes arg ++ [crc] ++ rest := by
  match bytes, h with
  | b0 :: b1 :: b2 :: b3 :: b4 :: crc :: more, h =>
    refine ⟨b0, joinArg b1 b2 b3 b4, crc, ?_⟩
    rw [argBytes_joinArg]
    simp only [decode] at h
    cases hd : decodeFrame par b0 (joinArg b1 b2 b3 b4) crc with
    | ok k => rw [hd] at h; cases h; exact ⟨rfl, rfl⟩
    | error e => rw [hd] at h; cases h

/-! ### Bytes that are a whole word (R205, R209) -/

theorem r1ValidByte_flags (flags : BitVec 7) :
    (r1ValidByte flags).extractLsb 7 7 = 0#1 ∧ (r1ValidByte flags).extractLsb 6 0 = flags := by
  revert flags; decide

theorem r1SkipByte_rest (rest : BitVec 7) :
    (r1SkipByte rest).extractLsb 7 7 ≠ 0#1 ∧ (r1SkipByte rest).extractLsb 6 0 = rest := by
  revert rest; decide

theorem r1ValidByte_extract : ∀ b : Byte, b.extractLsb 7 7 = 0#1 → r1ValidByte (b.extractLsb 6 0) = b := by decide

theorem r1SkipByte_extract : ∀ b : Byte, b.extractLsb 7 7 ≠ 0#1 → r1SkipByte (b.extractLsb 6 0) = b := by decide

theorem ocr0HcByte_rest (rest : BitVec 6) :
    ocr0HcByte rest &&& P.ocrCapMask = P.ocrCapMask ∧ (ocr0HcByte rest).extractLsb 5 0 = rest := by
  revert rest; decide

theorem ocr0HcByte_extract :
    ∀ b : Byte, b &&& P.ocrCapMask = P.ocrCapMask → ocr0HcByte (b.extractLsb 5 0) = b := by decide

theorem acceptedByte_ignored (ignored : BitVec 3) :
    acceptedByte ignored &&& P.drespMask = P.drespAccepted ∧ (acceptedByte ignored).extractLsb 7 5 = ignored := by
  revert ignored; decide

theorem acceptedByte_extract :
    ∀ b : Byte, b &&& P.drespMask = P.drespAccepted → acceptedByte (b.extractLsb 7 5) = b := by decide

theorem csdV1Byte_rest (rest : BitVec 6) :
    (csdV1Byte rest).extractLsb 7 6 = 0#2 ∧ (csdV1Byte rest).extractLsb 5 0 = rest := by
  revert rest; decide

theorem csdV2Byte_rest (rest : BitVec 6) :
    (csdV2Byte rest).extractLsb 7 6 = 1#2 ∧ (csdV2Byte rest).extractLsb 5 0 = rest := by
  revert rest; decide

theorem csdNoneByte_rest (rest : BitVec 7) :
    (csdNoneByte rest).extractLsb 7 6 ≠ 0#2 ∧ (csdNoneByte rest).extractLsb 7 6 ≠ 1#2 ∧
      (csdNoneByte rest).extractLsb 6 0 = rest := by
  revert rest; decide

theorem csdV1Byte_extract : ∀ b : Byte, b.extractLsb 7 6 = 0#2 → csdV1Byte (b.extractLsb 5 0) = b := by decide

theorem csdV2Byte_extract : ∀ b : Byte, b.extractLsb 7 6 = 1#2 → csdV2Byte (b.extractLsb 5 0) = b := by decide

theorem csdNoneByte_extract :
    ∀ b : Byte, b.extractLsb 7 6 ≠ 0#2 → b.extractLsb 7 6 ≠ 1#2 → csdNoneByte (b.extractLsb 6 0) = b := by decide

/-- A sent byte is read back: the filler is no token (R205). -/
theorem decodeSend_encode (h : par.Legal) (hi : i.place = .send) :
    ∃ b, encode par i = [b] ∧ decodeSend par b = .ok i := by
  obtain ⟨hstart, hmulti, hstop⟩ := h.fill
  cases i with
  | tokenStartTx | tokenMulti | tokenStop => exact ⟨_, rfl, rfl⟩
  | fill => exact ⟨_, rfl, by simp [decodeSend, hstart, hmulti, hstop]⟩
  | _ => cases hi

/-- A row whose word is one byte is read back at its place. -/
theorem decodeByte_encode (h : par.Legal) (hhost : i.place ≠ .host) (hframe : i.place ≠ .frame) :
    ∃ b, encode par i = [b] ∧ decodeByte par i.place b = .ok i := by
  cases i with
  | tokenStartTx | tokenMulti | tokenStop | fill => exact decodeSend_encode h rfl
  | r1Valid => exact ⟨_, rfl, by simp [Instr.place, decodeByte, decodeRespPoll, r1ValidByte_flags]⟩
  | r1Skip => exact ⟨_, rfl, by simp [Instr.place, decodeByte, decodeRespPoll, r1SkipByte_rest]⟩
  | r1Illegal high low =>
    have hset : r1IllegalByte par high low &&& par.r1Illegal ≠ 0#8 := h.illegal_set high low
    exact ⟨_, rfl, by simp [Instr.place, decodeByte, hset, h.illegal_read, illegalBits, extract_append]⟩
  | r3Ocr0Hc => exact ⟨_, rfl, by simp [Instr.place, decodeByte, ocr0HcByte_rest]⟩
  | dataRespAccepted => exact ⟨_, rfl, by simp [Instr.place, decodeByte, acceptedByte_ignored]⟩
  | csd0V1 => exact ⟨_, rfl, by simp [Instr.place, decodeByte, decodeCsd0, csdV1Byte_rest]⟩
  | csd0V2 => exact ⟨_, rfl, by simp [Instr.place, decodeByte, decodeCsd0, csdV2Byte_rest]⟩
  | csd0None => exact ⟨_, rfl, by simp [Instr.place, decodeByte, decodeCsd0, csdNoneByte_rest]⟩
  | tokenStartRx | r1Idle | r1Ready | r7Echo | idleByte =>
    exact ⟨_, rfl, by simp [Instr.place, decodeByte, decodeExact]⟩
  | cmd0 | cmd8 | cmd9 | cmd10 | cmd12 | cmd16 | cmd17 | cmd24 | cmd25 | cmd55 | cmd58 | acmd41 => exact absurd rfl hframe
  | configure | readAt | writeAt | size | writeBlockSize | eraseBlockSize | eraseBlocks => exact absurd rfl hhost

/-- A byte that is a sent row is the word of that row. -/
theorem decodeSend_ok (h : decodeSend par b = .ok i) : i.place = .send ∧ encode par i = [b] := by
  unfold decodeSend at h
  obtain ⟨rfl, rfl⟩ | ⟨-, h⟩ := ite_ok h
  · exact ⟨rfl, rfl⟩
  obtain ⟨rfl, rfl⟩ | ⟨-, h⟩ := ite_ok h
  · exact ⟨rfl, rfl⟩
  obtain ⟨rfl, rfl⟩ | ⟨-, h⟩ := ite_ok h
  · exact ⟨rfl, rfl⟩
  obtain ⟨rfl, rfl⟩ | ⟨-, h⟩ := ite_ok h
  · exact ⟨rfl, rfl⟩
  · cases h

theorem decodeRespPoll_ok (h : decodeRespPoll b = .ok i) : i.place = .respPoll ∧ encode par i = [b] := by
  unfold decodeRespPoll at h
  obtain ⟨hclass, rfl⟩ | ⟨hclass, h⟩ := ite_ok h
  · exact ⟨rfl, congrArg ([·]) (r1ValidByte_extract b hclass)⟩
  · cases h
    exact ⟨rfl, congrArg ([·]) (r1SkipByte_extract b hclass)⟩

theorem decodeCsd0_ok (h : decodeCsd0 b = .ok i) : i.place = .csd0 ∧ encode par i = [b] := by
  unfold decodeCsd0 at h
  obtain ⟨hclass, rfl⟩ | ⟨hv1, h⟩ := ite_ok h
  · exact ⟨rfl, congrArg ([·]) (csdV1Byte_extract b hclass)⟩
  obtain ⟨hclass, rfl⟩ | ⟨hv2, h⟩ := ite_ok h
  · exact ⟨rfl, congrArg ([·]) (csdV2Byte_extract b hclass)⟩
  · cases h
    exact ⟨rfl, congrArg ([·]) (csdNoneByte_extract b hv1 hv2)⟩

/-- A class that one test decides: the row of a byte in it has the byte for its word. -/
theorem ite_outside_ok {c : Prop} [Decidable c] {p : Place}
    (h : (if c then .ok j else .error .outsideClass) = Except.ok (ε := Reject) i)
    (hrow : c → j.place = p ∧ encode par j = [b]) : i.place = p ∧ encode par i = [b] := by
  obtain ⟨hc, rfl⟩ | ⟨-, h⟩ := ite_ok h
  · exact hrow hc
  · cases h

/-- A byte that is a row at its place is the word of that row. -/
theorem decodeByte_ok {p : Place} (h : par.Legal) (hd : decodeByte par p b = .ok i) :
    i.place = p ∧ encode par i = [b] := by
  cases p with
  | send => exact decodeSend_ok hd
  | respPoll => exact decodeRespPoll_ok hd
  | csd0 => exact decodeCsd0_ok hd
  | illegalTest => exact ite_outside_ok hd fun hc => ⟨rfl, congrArg ([·]) (h.illegal_back hc)⟩
  | ocr0 => exact ite_outside_ok hd fun hc => ⟨rfl, congrArg ([·]) (ocr0HcByte_extract b hc)⟩
  | dataResp => exact ite_outside_ok hd fun hc => ⟨rfl, congrArg ([·]) (acceptedByte_extract b hc)⟩
  | idleTest | readyTest | echo | notBusy | startWait => exact ite_outside_ok hd fun hc => ⟨rfl, hc ▸ rfl⟩
  | host | frame => cases hd

/-- At the places where one byte is the word, decoding reads that byte and leaves the others. -/
theorem decode_byte {p : Place} (hhost : p ≠ .host) (hframe : p ≠ .frame) :
    decode par p (b :: rest) = (decodeByte par p b).map (·, rest) := by
  cases p with
  | host => exact absurd rfl hhost
  | frame => exact absurd rfl hframe
  | _ => simp only [decode]; cases decodeByte par _ b <;> rfl

/-! ### Host requests (R213; log 8) -/

/-- The whole bytes of an offset hold P_OFFSET_W bits. -/
theorem offsetW_le (par : Params) : 2 ^ par.offsetW ≤ 256 ^ par.offsetBytes := by
  rw [show 256 = 2 ^ 8 from rfl, ← pow_mul]
  exact Nat.pow_le_pow_right (by decide) (by unfold Params.offsetBytes; omega)

/-- An offset of P_OFFSET_W bits is read back. -/
theorem decodeOffset_beBytes {offset : Nat} (row : Nat → Instr) (rest : List Byte) (h : par.holdsOffset offset = true) :
    decodeOffset par row (beBytes par.offsetBytes offset ++ rest) = .ok (row offset, rest) := by
  have hv : ofBe (beBytes par.offsetBytes offset) = offset := by
    rw [ofBe_beBytes, Nat.mod_eq_of_lt ((of_decide_eq_true h).trans_le (offsetW_le par))]
  simp [decodeOffset, hv, h, List.take_left', List.drop_left']

/-- A request that reads as one with an offset has the bytes of that offset, and the offset P_OFFSET_W bits. -/
theorem decodeOffset_ok {row : Nat → Instr} (h : decodeOffset par row bytes = .ok (i, rest)) :
    ∃ offset, i = row offset ∧ bytes = beBytes par.offsetBytes offset ++ rest ∧ par.holdsOffset offset = true := by
  obtain ⟨-, h⟩ | ⟨hl, h⟩ := ite_eq_iff.1 h
  · cases h
  obtain ⟨hw, h⟩ | ⟨-, h⟩ := ite_eq_iff.1 h
  · cases h
    have hb := beBytes_ofBe (bytes.take par.offsetBytes)
    rw [List.length_take, Nat.min_eq_left (Nat.le_of_not_lt hl)] at hb
    exact ⟨_, rfl, by rw [hb, List.take_append_drop], hw⟩
  · cases h

/-- A word of whole bytes is read back from them. -/
theorem ofBe_beBytes_toNat {n w : Nat} (hw : 2 ^ w = 256 ^ n) (v : BitVec w) :
    BitVec.ofNat w (ofBe (beBytes n v.toNat)) = v := by
  rw [ofBe_beBytes, ← hw, Nat.mod_eq_of_lt v.isLt, BitVec.ofNat_toNat, BitVec.setWidth_eq]

theorem beBytes_ofNat_ofBe {n w : Nat} (hw : 2 ^ w = 256 ^ n) (hl : bytes.length = n) :
    beBytes n (BitVec.ofNat w (ofBe bytes)).toNat = bytes := by
  rw [BitVec.toNat_ofNat, hw, ← hl, Nat.mod_eq_of_lt (ofBe_lt bytes), beBytes_ofBe]

/-- The twelve operand bytes of an erase are those of its start block and its count (R337; log 37). -/
theorem eraseOperands_bytes (hl : ¬bytes.length < 12) :
    beBytes 4 (BitVec.ofNat 32 (ofBe (bytes.take 4))).toNat ++
      beBytes 8 (BitVec.ofNat 64 (ofBe ((bytes.drop 4).take 8))).toNat ++ bytes.drop 12 = bytes := by
  have hstart := beBytes_ofNat_ofBe (bytes := bytes.take 4) (n := 4) (w := 32) rfl (by simp; omega)
  have hcount := beBytes_ofNat_ofBe (bytes := (bytes.drop 4).take 8) (n := 8) (w := 64) rfl (by simp; omega)
  have hrest : bytes.drop 12 = (bytes.drop 4).drop 8 := by rw [List.drop_drop]
  rw [hstart, hcount, hrest, List.append_assoc, List.take_append_drop, List.take_append_drop]

/-- A host request is read back, operands and all. -/
theorem decode_host_encode (hi : i.place = .host) (hw : i.holds par = true) :
    decode par .host (encode par i ++ rest) = .ok (i, rest) := by
  cases i with
  | configure | size | writeBlockSize | eraseBlockSize => rfl
  | readAt offset => exact decodeOffset_beBytes .readAt rest hw
  | writeAt offset => exact decodeOffset_beBytes .writeAt rest hw
  | eraseBlocks start count =>
    have hstart := ofBe_beBytes_toNat (n := 4) rfl start
    have hcount := ofBe_beBytes_toNat (n := 8) rfl count
    have hlen : ¬4 + (8 + rest.length) < 12 := by omega
    have hrest : (beBytes 4 start.toNat ++ (beBytes 8 count.toNat ++ rest)).drop 12 = rest := by
      rw [← List.append_assoc]
      exact List.drop_left' (by simp)
    simp [encode, hostOp, decode, decodeHost, List.take_left', List.drop_left', hstart, hcount, hlen, hrest]
  | _ => cases hi

/-- Bytes that read as a host request are the bytes of that request, and its operands have their widths. -/
theorem decodeHost_ok {op : Byte} (h : decodeHost par op bytes = .ok (i, rest)) :
    i.place = .host ∧ op :: bytes = encode par i ++ rest ∧ i.holds par = true := by
  have hop : ∀ k, op.toNat = k → op = BitVec.ofNat 8 k := by
    rintro k rfl
    rw [BitVec.ofNat_toNat, BitVec.setWidth_eq]
  unfold decodeHost at h
  split at h
  · cases h
    exact ⟨rfl, by rw [hop _ ‹_›]; rfl, rfl⟩
  · obtain ⟨offset, rfl, rfl, hw⟩ := decodeOffset_ok h
    exact ⟨rfl, by rw [hop _ ‹_›]; rfl, hw⟩
  · obtain ⟨offset, rfl, rfl, hw⟩ := decodeOffset_ok h
    exact ⟨rfl, by rw [hop _ ‹_›]; rfl, hw⟩
  · cases h
    exact ⟨rfl, by rw [hop _ ‹_›]; rfl, rfl⟩
  · cases h
    exact ⟨rfl, by rw [hop _ ‹_›]; rfl, rfl⟩
  · cases h
    exact ⟨rfl, by rw [hop _ ‹_›]; rfl, rfl⟩
  · obtain ⟨-, h⟩ | ⟨hl, h⟩ := ite_eq_iff.1 h
    · cases h
    cases h
    exact ⟨rfl, by rw [hop _ ‹_›]; exact congrArg _ (eraseOperands_bytes hl).symm, rfl⟩
  · cases h

/-- Only a host request has operands that their types do not confine. -/
theorem holds_of_place (hi : i.place ≠ .host) : i.holds par = true := by
  cases i with
  | readAt | writeAt => exact absurd rfl hi
  | _ => rfl

/-! ### Both directions -/

/-- Settles O1: a host request, a frame or a single byte, each read back at its place. -/
theorem decodeEncode : Obligations.DecodeEncode := by
  unfold Obligations.DecodeEncode
  intro par i rest hlegal hw
  by_cases hhost : i.place = .host
  · rw [hhost]
    exact decode_host_encode hhost hw
  by_cases hframe : i.place = .frame
  · obtain ⟨code, arg, crc, he, hd⟩ := decodeFrame_encode hlegal hframe
    rw [hframe, he, decode_frame, hd]
  · obtain ⟨b, he, hd⟩ := decodeByte_encode hlegal hhost hframe
    rw [he, List.singleton_append, decode_byte hhost hframe, hd]
    rfl

/-- Settles O2: bytes that decode are a host request, a frame or a single byte, each the word of its row. -/
theorem decodedWordIsEncoding : Obligations.DecodedWordIsEncoding := by
  unfold Obligations.DecodedWordIsEncoding
  intro par p bytes i rest hlegal h
  by_cases hhost : p = .host
  · subst hhost
    cases bytes with
    | nil => cases h
    | cons op bytes => exact decodeHost_ok h
  by_cases hframe : p = .frame
  · subst hframe
    obtain ⟨b0, arg, crc, hd, rfl⟩ := decode_frame_ok h
    obtain ⟨hplace, he⟩ := decodeFrame_ok hd
    exact ⟨hplace, by rw [he], holds_of_place (hplace ▸ hhost)⟩
  · cases bytes with
    | nil => cases p <;> cases h
    | cons b bytes =>
      rw [decode_byte hhost hframe] at h
      cases hd : decodeByte par p b with
      | error e => rw [hd] at h; cases h
      | ok k =>
        rw [hd] at h
        cases h
        obtain ⟨hplace, he⟩ := decodeByte_ok hlegal hd
        exact ⟨hplace, by rw [he]; rfl, holds_of_place (hplace ▸ hhost)⟩

end Sys2Proof

namespace Sys2Proof.Machine

variable {i : Instr} {s u : State} {b : Byte} {bs : List Byte} {es : List Event} {r : Request}
  {rs : List Request}

/-! ### Words written out from the spec -/

/-- Settles O3: each word is closed, and reading it is computation. -/
theorem specWordsDecode : Obligations.SpecWordsDecode := by
  unfold Obligations.SpecWordsDecode
  refine ⟨?_, ?_, ?_, ?_, ?_, ?_, ?_, ?_, ?_, ?_, ?_, ?_, ?_, ?_, ?_, ?_, ?_, ?_⟩ <;> decide

/-- Byte 0 of a frame: start bit 0, transmission bit 1, command index (R190). -/
theorem frameByte0_bits (code : BitVec 6) : (frameByte0 code).getLsbD 7 = false ∧ (frameByte0 code).getLsbD 6 = true ∧
    (frameByte0 code).extractLsb 5 0 = code := by
  revert code; decide

/-- A frame is sent byte by byte, whatever the card returns meanwhile (R242). -/
theorem sendFrame_events {frame miso rest : List Byte} (hl : frame.length = miso.length) (h : s.miso = miso ++ rest) :
    eventsBetween s (sendFrame frame s) = exchanges frame miso :=
  eventsBetween_of (xferWrite_ran (s := { s with frame := frame }) h hl).1.trace

/-- Settles O4: the bits of byte 0, the bytes of the argument, and the frame sent in order. -/
theorem frameFields : Obligations.FrameFields := by
  unfold Obligations.FrameFields
  intro code arg crc
  obtain ⟨hstart, htransmit, hindex⟩ := frameByte0_bits code
  refine ⟨_, _, _, _, _, _, rfl, hstart, htransmit, hindex, rfl, rfl, rfl, rfl, rfl, ?_⟩
  intro s m0 m1 m2 m3 m4 m5 rest h
  exact sendFrame_events (frame := frameBytes code arg crc) (miso := [m0, m1, m2, m3, m4, m5]) rfl h

/-! ### Sent bytes (R205) -/

/-- The card's next byte, where one is given. -/
theorem nextByte_given (h : s.miso = b :: bs) : nextByte s = b := by
  unfold nextByte
  rw [h]

/-- Settles O10: a token is one exchange whose answer is ignored, the filler one whose answer is kept. -/
theorem sentByteRows : Obligations.SentByteRows := by
  unfold Obligations.SentByteRows
  intro i s hi
  have hnext : ∀ b bs, s.miso = b :: bs → nextByte s = b := fun _ _ => nextByte_given
  cases i with
  | tokenStartTx | tokenMulti | tokenStop =>
    exact ⟨_, _, nextByte s, rfl, rfl, rfl, rfl, hnext, nofun, fun _ => rfl, xfer_busOnly _ s, rfl, rfl, rfl, rfl, rfl,
      rfl, rfl⟩
  | fill =>
    exact ⟨_, _, nextByte s, rfl, rfl, rfl, rfl, hnext, fun _ => rfl, absurd rfl, poll_busOnly s.par s, rfl, rfl, rfl,
      rfl, rfl, rfl, rfl⟩
  | _ => cases hi

/-! ### The response poll (R243) -/

/-- With bytes given, a poll receives the first of them. -/
theorem poll_given (par : Params) (h : s.miso = b :: bs) : poll par s = (b, received par b { s with miso := bs }) := by
  unfold poll
  rw [xfer_given h]
  rfl

/-- With bytes given, the response poll takes the first of them or counts it and goes on. -/
theorem respPoll_given (par : Params) (n : Nat) (h : s.miso = b :: bs) :
    respPoll par (n + 1) s =
      if isResponse b then (b, answered b (countPoll (received par b { s with miso := bs })))
      else respPoll par n (countPoll (received par b { s with miso := bs })) := by
  rw [respPoll, poll_given par h]

/-- The row R1.valid, by the byte of the class. -/
theorem exec_r1Valid_extract (hb : isResponse b = true) (s : State) :
    exec (.r1Valid (b.extractLsb 6 0)) s = .next (answered b (countPoll (received s.par b s))) := by
  rw [exec, execR1Valid, r1ValidByte_extract b (eq_of_beq hb)]

/-- The row R1.skip, by the byte of the class. -/
theorem exec_r1Skip_extract (hb : isResponse b = false) (s : State) :
    exec (.r1Skip (b.extractLsb 6 0)) s = .next (if (countPoll (received s.par b s)).pollCnt.toNat < P.nRespPoll
      then countPoll (received s.par b s) else exhausted (countPoll (received s.par b s))) := by
  rw [exec, execR1Skip, r1SkipByte_extract b (ne_of_beq_false hb)]

/-- Settles O12: the loop and the rows make the same poll and the same test; the last poll is the one that brings the
counter to 65535. -/
theorem pollLoopFollowsRows : Obligations.PollLoopFollowsRows := by
  unfold Obligations.PollLoopFollowsRows
  intro s n b bs hm hcount
  rw [respPoll_given s.par n hm]
  refine ⟨fun hb => ?_, fun hb => ?_⟩
  · have hr : isResponse b = true := by rw [isResponse_bit, hb]; rfl
    rw [if_pos hr]
    exact ⟨exec_r1Valid_extract hr _, rfl⟩
  · have hr : isResponse b = false := by rw [isResponse_bit, hb]; rfl
    refine ⟨_, exec_r1Skip_extract hr _, ?_⟩
    have hpolls : (countPoll (received s.par b { s with miso := bs })).pollCnt.toNat = min (s.pollCnt.toNat + 1) 65535 :=
      countPoll_toNat _
    have hlast : (countPoll (received s.par b { s with miso := bs })).pollCnt.toNat < P.nRespPoll ↔ n ≠ 0 := by
      rw [hpolls, P.nRespPoll]
      omega
    rw [if_neg (ne_true_of_eq_false hr)]
    by_cases hn : n = 0
    · subst hn
      rw [if_pos rfl, if_neg (by simpa using hlast)]
      rfl
    · rw [if_neg hn, if_pos (hlast.2 hn)]

/-! ### Polled bytes (R201, R291, R293) -/

/-- An accepted data response, the idle byte and the start token are each one poll. -/
theorem exec_polled (hi : i.place = .dataResp ∨ i.place = .notBusy ∨ i.place = .startWait) (s : State) :
    ∃ b, exec i s = .next (received s.par b s) ∧ encode s.par i = [b] := by
  cases i with
  | dataRespAccepted | idleByte | tokenStartRx => exact ⟨_, rfl, rfl⟩
  | _ => rcases hi with hi | hi | hi <;> cases hi

theorem received_rowFrame (par : Params) (b : Byte) (s : State) : RowFrame s (received par b s) :=
  ⟨rfl, rfl, rfl, ⟨rfl, rfl, rfl, rfl, rfl⟩, ⟨rfl, rfl⟩, rfl, rfl, rfl, rfl, rfl, rfl, ⟨rfl, fun _ => rfl⟩, rfl, rfl, rfl,
    rfl, rfl, rfl⟩

/-- A poll and one reading behind it. -/
theorem received_clockRead (par : Params) (d : Nat) (b : Byte) (s : State) :
    ClockRead [Event.x par.fill b] s (expired d (received par b s)).2 :=
  ⟨(received_busOnly par b s).trans (expired_busOnly d _), rfl, rfl, rfl, rfl, rfl, rfl, rfl, rfl⟩

/-- The start-token wait skips 0xFF until the deadline (R293). -/
theorem otherStartWait_early (par : Params) (h : nextTime s < s.deadline) :
    otherStartWait par 0xFF s = (expired s.deadline (received par 0xFF s)).2 :=
  (if_pos rfl).trans (ifExpired_early (s := received par 0xFF s) h)

theorem otherStartWait_late (par : Params) (h : s.deadline ≤ nextTime s) :
    otherStartWait par 0xFF s = releaseAndRaise par .startBlock (expired s.deadline (received par 0xFF s)).2 :=
  (if_pos rfl).trans (ifExpired_late (s := received par 0xFF s) h)

theorem otherStartWait_wrong (par : Params) (h : b ≠ 0xFF) :
    otherStartWait par b s = releaseAndRaise par .startBlock (received par b s) := if_neg h

/-- What a polled byte that is an error leaves to the error exit: one poll, and one reading of the clock where the byte
is the 0xFF of the start-token wait (R290, R293, R333). -/
theorem otherByte_polled_error {p : Place} {e : ErrCode}
    (h : (p = .dataResp ∧ e = .writeDataResp) ∨ (p = .startWait ∧ (b = 0xFF → s.deadline ≤ nextTime s) ∧ e = .startBlock)) :
    ∃ u, otherByte p b s = releaseAndRaise s.par e u ∧ Heard [Event.x s.par.fill b] s u ∧ BusOnly s u ∧ u.resp = b ∧
      u.r1 = s.r1 ∧ u.trail = s.trail ∧ u.time = (if b = 0xFF ∧ p = .startWait then nextTime s else s.time) ∧
      u.ticks = (if b = 0xFF ∧ p = .startWait then s.ticks.tail else s.ticks) := by
  have hheard := received_heard s.par b s
  have hbus := received_busOnly s.par b s
  obtain ⟨rfl, rfl⟩ | ⟨rfl, hlate, rfl⟩ := h
  · have hp : ¬(b = 0xFF ∧ Place.dataResp = .startWait) := nofun
    exact ⟨_, rfl, hheard, hbus, rfl, rfl, rfl, (if_neg hp).symm, (if_neg hp).symm⟩
  by_cases hb : b = 0xFF
  · subst hb
    exact ⟨_, otherStartWait_late s.par (hlate rfl), hheard.expired s.deadline, (received_clockRead _ _ _ s).only, rfl,
      rfl, rfl, rfl, rfl⟩
  · have hp : ¬(b = 0xFF ∧ Place.startWait = .startWait) := fun h => hb h.1
    exact ⟨_, otherStartWait_wrong s.par hb, hheard, hbus, rfl, rfl, rfl, (if_neg hp).symm, (if_neg hp).symm⟩

/-- With no operation to end, an error behind some bus traffic is the release of chip-select alone. -/
theorem releaseAndRaise_bus (par : Params) (e : ErrCode) (h : Heard es s u) (hbus : BusOnly s u) (hs : s.seq = .idle) :
    BusOnly s (releaseAndRaise par e u) ∧ (releaseAndRaise par e u).cs = true ∧
      (releaseAndRaise par e u).frame = s.frame ∧ (releaseAndRaise par e u).pollCnt = s.pollCnt ∧
      (releaseAndRaise par e u).deadline = s.deadline ∧ (releaseAndRaise par e u).miso = s.miso ∧
      (releaseAndRaise par e u).trace = (if s.cs = true then [] else [Event.cs true]) ++ (es ++ s.trace) := by
  rw [releaseAndRaise_idle par e (h.seq.trans hs)]
  refine ⟨hbus.trans (setCs_busOnly true u), rfl, h.frame, h.pollCnt, h.deadline, h.miso, ?_⟩
  rw [setCs_trace, h.cs, h.trace]
  split <;> rfl

/-- Settles O16: a polled row is one poll; any other byte is one poll, perhaps one reading of the clock, and the error
exit where the place asks for it. -/
theorem polledByteRows : Obligations.PolledByteRows := by
  unfold Obligations.PolledByteRows
  refine ⟨fun i s hi => ?_, fun b s _ => ?_, fun s hearly => ?_, fun p b e s herror => ?_⟩
  · obtain ⟨b, hexec, hencode⟩ := exec_polled hi s
    exact ⟨_, b, hexec, hencode, rfl, rfl, rfl, received_rowFrame _ b s, rfl, rfl, rfl, rfl, rfl, rfl, rfl⟩
  · exact ⟨_, rfl, rfl, rfl, received_clockRead _ _ b s⟩
  · exact ⟨_, otherStartWait_early s.par hearly, rfl, rfl, received_clockRead _ _ 0xFF s⟩
  · obtain ⟨u, hother, hheard, hbus, hresp, hr1, htrail, htime, hticks⟩ := otherByte_polled_error (p := p) (b := b) (e := e)
      (s := s) (herror.imp (fun h => ⟨h.1, h.2.2⟩) fun h => ⟨h.1, h.2.2⟩)
    obtain ⟨kr1, kresp, ktrail, ktime, kticks⟩ := releaseAndRaise_kept s.par e u
    exact ⟨_, hother, kresp.trans hresp, kr1.trans hr1, ktrail.trans htrail, ktime.trans htime, kticks.trans hticks,
      hheard.releaseAndRaise s.par e, releaseAndRaise_bus s.par e hheard hbus⟩

/-! ### Steps -/

/-- A presented word is no longer waiting when it executes (R144). -/
theorem accept_of_inbox (h : s.inbox = r :: rs) :
    accept r s = { s with
      inbox := rs
      buf := if r.place = .host then r.buf else s.buf
      bufLen := if r.place = .host then r.bufLen else s.bufLen } := by
  rw [accept, h, List.tail_cons]

theorem step_decoded {rest : List Byte} (h : s.inbox = r :: rs) (hd : decode s.par r.place r.word = .ok (i, rest)) :
    step s = exec i (accept r s) := by
  unfold step
  rw [h]
  simp only [hd]

theorem step_outside (h : s.inbox = r :: rs) (hd : decode s.par r.place r.word = .error .outsideClass) :
    step s = .next (otherByte r.place (r.word.headD 0) (accept r s)) := by
  unfold step
  rw [h]
  simp only [hd]

theorem step_refused {why : Reject} (h : s.inbox = r :: rs) (hd : decode s.par r.place r.word = .error why)
    (hwhy : why ≠ .outsideClass) : step s = .refused (.noInstruction why) := by
  unfold step
  rw [h]
  simp only [hd]

/-- Settles O51: one clause for each outcome of decoding, and the idle step. -/
theorem stepRunsDecoded : Obligations.StepRunsDecoded := by
  unfold Obligations.StepRunsDecoded
  refine fun s => ⟨fun r rs i rest h hd => ?_, fun r rs h hd => ?_, fun r rs why h hd hwhy => ?_, fun h => ?_⟩
  · rw [step_decoded h hd, accept_of_inbox h]
  · obtain ⟨⟨b, more, hword⟩, hplace⟩ := decode_outside s.par hd
    have hhost : r.place ≠ .host := fun hp => by simp [hp] at hplace
    refine ⟨⟨b, more, hword, ?_⟩, hplace⟩
    rw [step_outside h hd, accept_of_inbox h, if_neg hhost, if_neg hhost, hword]
    rfl
  · exact step_refused h hd hwhy
  · unfold step
    rw [h]

end Sys2Proof.Machine

/-! PROOFS. The family of the command engine (40_command_response.md): the frames as runs of `command`, their exchanges
and the polls they count. -/

namespace Sys2Proof.Machine

variable {par : Params} {i : Instr} {s t : State} {code : BitVec 6} {arg : U32} {crc b r : Byte}
  {ignored skipped polls rest : List Byte} {es : List Event}

/-! ### A frame is one run of `command` -/

/-- The fields of a frame row: the frame is the row's word, and only CMD12 has the index of the stop-transmission
command (R200, R241). -/
theorem exec_frame_command (hi : i.place = .frame) (s : State) :
    ∃ code arg crc, exec i s = .next (command s.par code arg crc s).2 ∧ encode s.par i = frameBytes code arg crc ∧
      (s.par.Legal → (∀ arg crc, i ≠ .cmd12 arg crc) → code ≠ s.par.cmdStop) := by
  cases i with
  | cmd12 arg crc => exact ⟨_, _, _, rfl, rfl, fun _ hne => absurd rfl (hne arg crc)⟩
  | cmd0 | cmd8 | cmd9 | cmd10 | cmd16 | cmd17 | cmd24 | cmd25 | cmd55 | cmd58 | acmd41 =>
    exact ⟨_, _, _, rfl, rfl, fun hlegal _ => by simp [hlegal.ne_stop]⟩
  | _ => cases hi

/-- Settles O5: each row is a run of `command`, and `command_spec` holds of every run. -/
theorem commandCompletes : Obligations.CommandCompletes := by
  unfold Obligations.CommandCompletes
  intro i s hi
  obtain ⟨code, arg, crc, hexec, hencode, -⟩ := exec_frame_command hi s
  obtain ⟨hbus, hframe, hanswered⟩ := command_spec s.par code arg crc s
  exact ⟨_, _, hexec, hbus, hframe.trans hencode.symm, hanswered⟩

/-- The result of a command is the response it keeps (R240). -/
theorem Answered.r1_eq (h : Answered r t) : t.r1 = r := by
  obtain ⟨-, -, hr1, -⟩ | ⟨hr, -, hr1⟩ := h
  · exact hr1
  · exact hr1.trans hr.symm

/-- Settles O9: CMD55 leaves the configuration as it is, so the second frame is the row ACMD41 itself. -/
theorem appCommandIsTwoFrames : Obligations.AppCommandIsTwoFrames := by
  unfold Obligations.AppCommandIsTwoFrames
  intro hcs s
  obtain ⟨hbus, -, -⟩ := command_spec s.par s.par.cmdApp 0 s.par.crcDummy s
  obtain ⟨-, -, hanswered⟩ := appCommand_spec s.par P.acmdOpCond (opCondArg s.par hcs) s
  refine ⟨_, _, rfl, ?_, Prod.ext hanswered.r1_eq.symm rfl⟩
  rw [exec, execAcmd41, hbus.onward.par]
  rfl

/-! ### The poll counter (R243) -/

theorem isResponse_of_clear (h : b.getLsbD 7 = false) : isResponse b = true := by rw [isResponse_bit, h]; rfl

theorem isResponse_of_set (h : b.getLsbD 7 = true) : isResponse b = false := by rw [isResponse_bit, h]; rfl

/-- A received byte "counts as one poll" (R209). -/
theorem countPoll_received_toNat (par : Params) (b : Byte) (s : State) :
    (countPoll (received par b s)).pollCnt.toNat = min (s.pollCnt.toNat + 1) 65535 := countPoll_toNat _

/-- Bytes with bit 7 set take as many polls out of the response poll, and the counter counts each. -/
theorem respPoll_skips (par : Params) (n : Nat) (hm : s.miso = skipped ++ rest) (hs : ∀ b ∈ skipped, b.getLsbD 7 = true) :
    ∃ u, respPoll par (skipped.length + n) s = respPoll par n u ∧ u.miso = rest ∧
      (s.pollCnt.toNat + skipped.length ≤ 65535 → u.pollCnt.toNat = s.pollCnt.toNat + skipped.length) := by
  induction skipped generalizing s with
  | nil => exact ⟨s, by rw [List.length_nil, Nat.zero_add], hm, fun _ => rfl⟩
  | cons b skipped ih =>
    rw [List.cons_append] at hm
    have hb : ¬isResponse b = true := by rw [isResponse_of_set (hs b (List.mem_cons_self ..))]; decide
    obtain ⟨u, hrun, hmiso, hcount⟩ := ih (s := countPoll (received par b { s with miso := skipped ++ rest })) rfl
      fun x hx => hs x (List.mem_cons_of_mem _ hx)
    have hpoll : (countPoll (received par b { s with miso := skipped ++ rest })).pollCnt.toNat =
        min (s.pollCnt.toNat + 1) 65535 := countPoll_received_toNat ..
    refine ⟨u, ?_, hmiso, fun hle => ?_⟩
    · rw [List.length_cons, Nat.add_right_comm, respPoll_given par _ hm, if_neg hb, hrun]
    · rw [List.length_cons] at hle ⊢
      rw [hcount (by omega), hpoll]
      omega

/-- The response itself "counts as one poll". -/
theorem respPoll_pollCnt_answered (par : Params) {n : Nat} (hm : s.miso = skipped ++ r :: rest)
    (hs : ∀ b ∈ skipped, b.getLsbD 7 = true) (hr : r.getLsbD 7 = false) (hn : skipped.length < n)
    (hle : s.pollCnt.toNat + skipped.length < 65535) :
    (respPoll par n s).2.pollCnt.toNat = s.pollCnt.toNat + skipped.length + 1 := by
  obtain ⟨k, rfl⟩ : ∃ k, n = skipped.length + (k + 1) := ⟨n - skipped.length - 1, by omega⟩
  obtain ⟨u, hrun, hmiso, hcount⟩ := respPoll_skips par (k + 1) hm hs
  have hpoll : (countPoll (received par r { u with miso := rest })).pollCnt.toNat = min (u.pollCnt.toNat + 1) 65535 :=
    countPoll_received_toNat ..
  rw [hrun, respPoll_given par k hmiso, if_pos (isResponse_of_clear hr)]
  refine hpoll.trans ?_
  rw [hcount (by omega)]
  omega

/-- An exhausted response poll has counted every poll (R244). -/
theorem respPoll_pollCnt_silent (par : Params) (hm : s.miso = polls ++ rest) (hs : ∀ b ∈ polls, b.getLsbD 7 = true)
    (hle : s.pollCnt.toNat + polls.length ≤ 65535) :
    (respPoll par polls.length s).2.pollCnt.toNat = s.pollCnt.toNat + polls.length := by
  obtain ⟨u, hrun, -, hcount⟩ := respPoll_skips par 0 hm hs
  rw [Nat.add_zero] at hrun
  rw [hrun]
  exact hcount hle

/-! ### What a command exchanges (R240 to R245) -/

/-- The state in which the response poll of a command begins: selected, waited, the frame sent (R241, R242). -/
def frameSent (par : Params) (code : BitVec 6) (arg : U32) (crc : Byte) (s : State) : State :=
  { sendFrame (frameBytes code arg crc) (preWait par code (setCs false s)) with pollCnt := 0 }

theorem command_eq_respPoll (par : Params) (code : BitVec 6) (arg : U32) (crc : Byte) (s : State) :
    command par code arg crc s = respPoll par P.nRespPoll (frameSent par code arg crc s) := rfl

theorem frameSent_cs (par : Params) (code : BitVec 6) (arg : U32) (crc : Byte) (s : State) :
    (frameSent par code arg crc s).cs = false := by
  obtain ⟨-, hwait⟩ := preWait_spec par code (setCs false s)
  obtain ⟨-, hsend, -⟩ := sendFrame_spec (frameBytes_length code arg crc) (preWait par code (setCs false s))
  rw [frameSent]
  exact hsend.trans hwait

/-- On a card that is not busy the pre-wait is one poll (R241). -/
theorem frameSent_ran (par : Params) (arg : U32) (crc : Byte) (hcode : code ≠ par.cmdStop) (hi : ignored.length = 6)
    (hm : s.miso = 0xFF :: (ignored ++ rest)) :
    Ran s (frameSent par code arg crc s)
      (selectEvent s ++ [.x par.fill 0xFF] ++ exchanges (frameBytes code arg crc) ignored) rest := by
  obtain ⟨hran, -⟩ := sendCommand_ran par arg crc hcode hi hm
  rw [frameSent]
  exact hran.cast (by simp) rfl

theorem preWait_stop (par : Params) (s : State) : preWait par par.cmdStop s = s := if_pos rfl

/-- The stop-transmission command has no pre-wait (R241). -/
theorem frameSent_stop_ran (par : Params) (arg : U32) (crc : Byte) (hi : ignored.length = 6) (hm : s.miso = ignored ++ rest) :
    Ran s (frameSent par par.cmdStop arg crc s)
      (selectEvent s ++ exchanges (frameBytes par.cmdStop arg crc) ignored) rest := by
  have hselect := setCs_ran false s
  have hload := BusOnly.load (frameBytes_length par.cmdStop arg crc) (setCs false s)
  obtain ⟨hsent, -, -⟩ := xferWrite_ran (s := { setCs false s with frame := frameBytes par.cmdStop arg crc })
    (out := frameBytes par.cmdStop arg crc) hm hi.symm
  have hframe : Ran (setCs false s) (frameSent par par.cmdStop arg crc s)
      (exchanges (frameBytes par.cmdStop arg crc) ignored) rest := by
    rw [frameSent, preWait_stop]
    exact ⟨(hload.trans hsent.only).engine _ _ 0 _, hsent.trace, hsent.miso⟩
  exact (hselect.trans hframe).cast (by cases hcs : s.cs <;> simp [selectEvent, hcs]) rfl

/-- "This wait reads no clock" (R243), and without a pre-wait nothing else does. -/
theorem command_stop_clock (par : Params) (arg : U32) (crc : Byte) (s : State) :
    (command par par.cmdStop arg crc s).2.time = s.time ∧ (command par par.cmdStop arg crc s).2.ticks = s.ticks := by
  rw [command_eq_respPoll, respPoll_time, respPoll_ticks, frameSent, preWait_stop, sendFrame]
  exact ⟨xferWrite_time _ _, xferWrite_ticks _ _⟩

/-- The response poll of a command on a card that answers, however the frame was sent (R243, R245). -/
theorem command_answered (h : Ran s (frameSent par code arg crc s) es (skipped ++ r :: rest))
    (hs : ∀ b ∈ skipped, b.getLsbD 7 = true) (hl : skipped.length < 65535) (hr : r.getLsbD 7 = false) :
    Ran s (command par code arg crc s).2 (es ++ reads par (skipped ++ [r])) rest ∧
      (command par code arg crc s).2.cs = false ∧ (command par code arg crc s).2.resp = r ∧
      (command par code arg crc s).2.r1 = r ∧ (command par code arg crc s).2.pollCnt.toNat = skipped.length + 1 := by
  have hzero : (frameSent par code arg crc s).pollCnt.toNat = 0 := rfl
  have hcount := respPoll_pollCnt_answered par (n := P.nRespPoll) h.miso hs hr hl (by omega)
  obtain ⟨-, hpoll, hcs, hresp, hr1, -⟩ := respPoll_ran par (n := P.nRespPoll) h.miso
    (fun b hb => isResponse_of_set (hs b hb)) (isResponse_of_clear hr) hl
  rw [command_eq_respPoll]
  refine ⟨h.trans hpoll, hcs.trans (frameSent_cs ..), hresp, hr1, ?_⟩
  rw [hcount, hzero, Nat.zero_add]

/-- The response poll of a command on a card that does not answer, however the frame was sent (R244). -/
theorem command_exhausted (h : Ran s (frameSent par code arg crc s) es (polls ++ rest))
    (hs : ∀ b ∈ polls, b.getLsbD 7 = true) (hl : polls.length = 65535) :
    Ran s (command par code arg crc s).2 (es ++ (reads par polls ++ [.cs true])) rest ∧
      (command par code arg crc s).2.cs = true ∧ (command par code arg crc s).2.r1 = 0xFF ∧
      (command par code arg crc s).2.pollCnt.toNat = 65535 := by
  have hzero : (frameSent par code arg crc s).pollCnt.toNat = 0 := rfl
  have hcount := respPoll_pollCnt_silent par h.miso hs (by omega)
  obtain ⟨-, hpoll, hcs, hr1⟩ := respPoll_silent par h.miso (frameSent_cs ..) hs
  rw [command_eq_respPoll, P.nRespPoll, ← hl]
  refine ⟨h.trans hpoll, hcs, hr1, ?_⟩
  rw [hcount, hzero, Nat.zero_add]

/-- Settles O6: the frame sent after one poll, then the response poll. -/
theorem commandExchanges : Obligations.CommandExchanges := by
  unfold Obligations.CommandExchanges
  intro i s ignored skipped rest r hlegal hi hne hignored hs hl hr hm
  obtain ⟨code, arg, crc, hexec, hencode, hcode⟩ := exec_frame_command hi s
  have hsent := frameSent_ran s.par arg crc (hcode hlegal hne) hignored (rest := skipped ++ r :: rest)
    (by rw [hm, List.append_assoc])
  obtain ⟨hran, hcs, hresp, hr1, hcount⟩ := command_answered hsent hs hl hr
  exact ⟨_, hexec, hr1, hresp, hcs, hcount, hran.miso, hencode ▸ hran.events⟩

/-- Settles O7: the frame sent at once, then the response poll. -/
theorem stopCommandExchanges : Obligations.StopCommandExchanges := by
  unfold Obligations.StopCommandExchanges
  intro arg crc s ignored skipped rest r hignored hs hl hr hm
  have hsent := frameSent_stop_ran s.par arg crc hignored (rest := skipped ++ r :: rest) (by rw [hm, List.append_assoc])
  obtain ⟨hran, hcs, -, hr1, -⟩ := command_answered hsent hs hl hr
  obtain ⟨htime, hticks⟩ := command_stop_clock s.par arg crc s
  exact ⟨_, rfl, hr1, hcs, hran.miso, htime, hticks, hran.events⟩

/-- Settles O8: the frame sent after one poll, then a response poll that skips every byte. -/
theorem commandExhaustion : Obligations.CommandExhaustion := by
  unfold Obligations.CommandExhaustion
  intro i s ignored polls rest hlegal hi hne hignored hs hl hm
  obtain ⟨code, arg, crc, hexec, hencode, hcode⟩ := exec_frame_command hi s
  have hsent := frameSent_ran s.par arg crc (hcode hlegal hne) hignored (rest := polls ++ rest)
    (by rw [hm, List.append_assoc])
  obtain ⟨hran, hcs, hr1, hcount⟩ := command_exhausted hsent hs hl
  refine ⟨_, hexec, hr1, hcs, hcount, hran.miso, ?_⟩
  rw [hran.events, hencode, List.append_assoc _ (reads s.par polls)]

/-! ### The rows of the response poll (R209, R243) -/

/-- What a row of the response poll leaves alone: what every row does, the card's class, the sequencer and the registers
of initialization. -/
structure PollRowFrame (s t : State) : Prop where
  row : RowFrame s t
  cardType : t.cardType = s.cardType
  seq : t.seq = s.seq
  trail : t.trail = s.trail
  regImg : t.regImg = s.regImg
  csdNew : t.csdNew = s.csdNew

/-- Within it are chip-select, the events, the response, the poll and its counter. -/
theorem PollRowFrame.polled (h : PollRowFrame s t) (resp r1 : Byte) (pollCnt : U16) (cs : Bool) (trace : List Event) :
    PollRowFrame s { t with resp := resp, r1 := r1, pollCnt := pollCnt, cs := cs, trace := trace } :=
  { h with
    row := { h.row with
      transfer := { h.row.transfer with }
      results := { h.row.results with }
      buffer := { h.row.buffer with } } }

theorem received_pollRowFrame (par : Params) (b : Byte) (s : State) : PollRowFrame s (received par b s) :=
  ⟨received_rowFrame par b s, rfl, rfl, rfl, rfl, rfl⟩

theorem PollRowFrame.countPoll (h : PollRowFrame s t) : PollRowFrame s (countPoll t) := h.polled _ _ _ _ _

theorem PollRowFrame.answered (r : Byte) (h : PollRowFrame s t) : PollRowFrame s (answered r t) := h.polled _ _ _ _ _

theorem PollRowFrame.exhausted (h : PollRowFrame s t) : PollRowFrame s (exhausted t) := h.polled _ _ _ _ _

/-- Exhaustion releases chip-select, an event if it was low (R244, D33). -/
theorem exhausted_trace (s : State) :
    (exhausted s).trace = (if s.cs = true then [] else [Event.cs true]) ++ s.trace := by
  rw [exhausted, setCs_trace]
  split <;> rfl

theorem getLsbD_r1ValidByte (flags : BitVec 7) : (r1ValidByte flags).getLsbD 7 = false := by revert flags; decide

theorem getLsbD_r1SkipByte (rest : BitVec 7) : (r1SkipByte rest).getLsbD 7 = true := by revert rest; decide

/-- Before poll 65535 a skipped byte leads to the next poll (R243). -/
theorem exec_r1Skip_early (bits : BitVec 7) (h : s.pollCnt.toNat + 1 < 65535) :
    exec (.r1Skip bits) s = .next (countPoll (received s.par (r1SkipByte bits) s)) := by
  rw [exec, execR1Skip, if_pos]
  rw [countPoll_received_toNat, P.nRespPoll]
  omega

/-- A skipped byte that is poll 65535 exhausts the poll (R244). -/
theorem exec_r1Skip_last (bits : BitVec 7) (h : 65535 ≤ s.pollCnt.toNat + 1) :
    exec (.r1Skip bits) s = .next (exhausted (countPoll (received s.par (r1SkipByte bits) s))) := by
  rw [exec, execR1Skip, if_neg]
  rw [countPoll_received_toNat, P.nRespPoll]
  omega

/-- Settles O11: a response is taken as it is; a skipped byte is counted, and the last one exhausts the poll. -/
theorem responsePollRows : Obligations.ResponsePollRows := by
  unfold Obligations.ResponsePollRows
  intro bits s
  refine ⟨?_, ?_⟩
  · have hframe := ((received_pollRowFrame s.par (r1ValidByte bits) s).countPoll).answered (r1ValidByte bits)
    exact ⟨_, rfl, getLsbD_r1ValidByte bits, (r1ValidByte_flags bits).2, rfl, rfl, countPoll_received_toNat .., rfl,
      hframe.row, hframe.cardType, hframe.seq, hframe.trail, hframe.regImg, hframe.csdNew⟩
  have hcount := countPoll_received_toNat s.par (r1SkipByte bits) s
  have hframe := (received_pollRowFrame s.par (r1SkipByte bits) s).countPoll
  by_cases h : s.pollCnt.toNat + 1 < 65535
  · exact ⟨_, exec_r1Skip_early bits h, getLsbD_r1SkipByte bits, (r1SkipByte_rest bits).2, hcount,
      fun _ => ⟨rfl, rfl, rfl⟩, fun hlast => absurd h (Nat.not_lt.2 hlast), hframe.row, hframe.cardType, hframe.seq,
      hframe.trail, hframe.regImg, hframe.csdNew⟩
  · have hframe := hframe.exhausted
    exact ⟨_, exec_r1Skip_last bits (Nat.not_lt.1 h), getLsbD_r1SkipByte bits, (r1SkipByte_rest bits).2, hcount,
      fun hearly => absurd hearly h, fun _ => ⟨rfl, rfl, exhausted_trace _⟩, hframe.row, hframe.cardType, hframe.seq,
      hframe.trail, hframe.regImg, hframe.csdNew⟩

end Sys2Proof.Machine

/-! PROOFS. The family of the initialization (41_initialization.md): the tests of a response and of the bytes behind it,
the retry loops, the version probe and the capacity class, and whole runs of `Configure`. -/

namespace Sys2Proof.Machine

variable {s : State} {e : ErrCode}

/-! ### The tests of a response (R262, R264, R209) -/

/-- A row of `Configure` writes no more than the card's class, the sequencer, the trailing bytes, the response and the
events. -/
theorem rowFrame_of_writes (s : State) (cardType : CardType) (seq : Seq) (trail : List Byte) (r1 : Byte)
    (trace : List Event) :
    RowFrame s { s with cardType := cardType, seq := seq, trail := trail, r1 := r1, trace := trace } :=
  ⟨rfl, rfl, rfl, ⟨rfl, rfl, rfl, rfl, rfl⟩, ⟨rfl, rfl⟩, rfl, rfl, rfl, rfl, rfl, rfl, ⟨rfl, fun _ => rfl⟩, rfl, rfl, rfl,
    rfl, rfl, rfl⟩

theorem answered_busOnly (r : Byte) (s : State) : BusOnly s (answered r s) := (BusOnly.refl s).engine _ _ _ _

/-- What S2 and S4 do with an unsuitable response: one reading of the clock, then a retry or the error (R262, R264). -/
def retryTest (par : Params) (e : ErrCode) (r : Byte) (s : State) : State :=
  ifExpired s.loopDeadline (leaveConfigure par (some e)) (answered r s)

theorem otherByte_idleTest (r : Byte) (s : State) : otherByte .idleTest r s = retryTest s.par .noCard r s := rfl

theorem retryTest_of_early (par : Params) (e : ErrCode) (r : Byte) (h : nextTime s < s.loopDeadline) :
    retryTest par e r s = (expired s.loopDeadline (answered r s)).2 := ifExpired_early (s := answered r s) h

theorem retryTest_of_late (par : Params) (e : ErrCode) (r : Byte) (h : s.loopDeadline ≤ nextTime s) :
    retryTest par e r s = leaveConfigure par (some e) (expired s.loopDeadline (answered r s)).2 :=
  ifExpired_late (s := answered r s) h

theorem retryTest_kept (par : Params) (e : ErrCode) (r : Byte) (s : State) :
    (retryTest par e r s).r1 = r ∧ (retryTest par e r s).resp = s.resp ∧ (retryTest par e r s).trail = s.trail ∧
      (retryTest par e r s).time = nextTime s ∧ (retryTest par e r s).ticks = s.ticks.tail := by
  by_cases h : nextTime s < s.loopDeadline
  · rw [retryTest_of_early par e r h]
    exact ⟨rfl, rfl, rfl, rfl, rfl⟩
  · rw [retryTest_of_late par e r (Nat.not_lt.1 h)]
    exact leaveConfigure_kept par e _

/-- Before the loop deadline the reading is all that happens (R262, R264). -/
theorem retryTest_clockRead (par : Params) (e : ErrCode) (r : Byte) (h : nextTime s < s.loopDeadline) :
    ClockRead [] s (retryTest par e r s) := by
  rw [retryTest_of_early par e r h]
  exact ⟨(answered_busOnly r s).trans (expired_busOnly _ _), rfl, rfl, rfl, rfl, rfl, rfl, rfl, rfl⟩

/-- From the loop deadline on the response is the error. -/
theorem retryTest_errorExit (par : Params) (e : ErrCode) (r : Byte) (h : s.loopDeadline ≤ nextTime s) :
    ErrorExit par.csReleaseOnInitFail e (.status (some e)) .failed [] s (retryTest par e r s) := by
  rw [retryTest_of_late par e r h]
  exact ((answered_heard r s).expired _).leaveConfigure par e

/-- Which error a non-zero response is, by the state of the sequencer and, in WriteAt, the command just sent (R265, R266,
R300, R331, R332, R334). -/
def ReadyError (s : State) (e : ErrCode) : Prop :=
  (s.seq = .s5Ocr ∧ e = .ocrCmd) ∨ (s.seq = .s6BlockLen ∧ e = .blockLenCmd) ∨ (s.seq = .s7Regs ∧ e = .regCmd) ∨
    (s.seq = .runReadAt ∧ e = .readCmd) ∨
    (s.seq = .runWriteAt ∧ s.frame.headD 0 = frameByte0 s.par.cmdReadSingle ∧ e = .readCmd) ∨
    (s.seq = .runWriteAt ∧ s.frame.headD 0 = frameByte0 s.par.cmdWriteSingle ∧ e = .writeCmd) ∨
    (s.seq = .runErase ∧ e = .writeMultiCmd)

theorem cmdReadSingle_ne_cmdWriteSingle {par : Params} (h : par.Legal) : par.cmdReadSingle ≠ par.cmdWriteSingle := by
  have k := h.commands
  simp only [Params.commands, List.nodup_cons, List.mem_cons, not_or] at k
  tauto

/-- The response test of WriteAt tells its two commands apart (R361). -/
theorem writeAtError_read (h : s.par.Legal) (hf : s.frame.headD 0 = frameByte0 s.par.cmdReadSingle) :
    writeAtError s.par s = .readCmd :=
  if_neg fun hw => cmdReadSingle_ne_cmdWriteSingle h (frameByte0_inj.1 (hf.symm.trans hw))

theorem writeAtError_write (hf : s.frame.headD 0 = frameByte0 s.par.cmdWriteSingle) :
    writeAtError s.par s = .writeCmd := if_pos hf

theorem otherReady_of_opCond (par : Params) (r : Byte) (h : s.seq = .s4OpCond) :
    otherReady par r s = retryTest par .opCondTimeout r s := by
  unfold otherReady
  rw [h]
  rfl

/-- Where no response is tested for zero, it is kept and nothing else happens. -/
theorem otherReady_of_untested (par : Params) (r : Byte)
    (h : s.seq ∈ [Seq.idle, .s1Prime, .s2Idle, .s3Probe, .s8Finish]) : otherReady par r s = answered r s := by
  simp only [List.mem_cons, List.not_mem_nil, or_false] at h
  unfold otherReady
  rcases h with h | h | h | h | h <;> rw [h]

/-- Where a non-zero response is an error, the states of `Configure` leave it as it is and a primitive releases
chip-select first. -/
theorem otherReady_of_error (hlegal : s.par.Legal) (r : Byte) (h : ReadyError s e) :
    otherReady s.par r s = if e = .ocrCmd ∨ e = .blockLenCmd then leaveConfigure s.par (some e) (answered r s)
      else releaseAndRaise s.par e (answered r s) := by
  unfold otherReady
  obtain ⟨hq, rfl⟩ | ⟨hq, rfl⟩ | ⟨hq, rfl⟩ | ⟨hq, rfl⟩ | ⟨hq, hf, rfl⟩ | ⟨hq, hf, rfl⟩ | ⟨hq, rfl⟩ := h <;> rw [hq]
  · rfl
  · rfl
  · rfl
  · rfl
  · rw [writeAtError_read hlegal hf]; rfl
  · rw [writeAtError_write hf]; rfl
  · rfl

theorem otherReady_kept (par : Params) (r : Byte) (s : State) :
    (otherReady par r s).r1 = r ∧ (otherReady par r s).resp = s.resp ∧ (otherReady par r s).trail = s.trail := by
  unfold otherReady
  cases s.seq with
  | s4OpCond =>
    obtain ⟨hr1, hresp, htrail, -, -⟩ := retryTest_kept par .opCondTimeout r s
    exact ⟨hr1, hresp, htrail⟩
  | s5Ocr | s6BlockLen =>
    obtain ⟨hr1, hresp, htrail, -, -⟩ := leaveConfigure_kept par _ (answered r s)
    exact ⟨hr1, hresp, htrail⟩
  | s7Regs | runReadAt | runWriteAt | runErase =>
    obtain ⟨hr1, hresp, htrail, -, -⟩ := releaseAndRaise_kept par _ (answered r s)
    exact ⟨hr1, hresp, htrail⟩
  | idle | s1Prime | s2Idle | s3Probe | s8Finish => exact ⟨rfl, rfl, rfl⟩

/-- In each of the named states a non-zero response ends the operation, and no clock is read. -/
theorem otherReady_errorExit (hlegal : s.par.Legal) (r : Byte) (h : ReadyError s e) :
    ErrorExit (if e = .ocrCmd ∨ e = .blockLenCmd then s.par.csReleaseOnInitFail else true) e (errorReport e s)
        (phaseAfterError s) [] s (otherReady s.par r s) ∧
      (otherReady s.par r s).time = s.time ∧ (otherReady s.par r s).ticks = s.ticks := by
  have hheard := answered_heard r s
  rw [otherReady_of_error hlegal r h]
  by_cases hinit : e = .ocrCmd ∨ e = .blockLenCmd
  · rw [if_pos hinit, if_pos hinit]
    obtain ⟨-, -, -, htime, hticks⟩ := leaveConfigure_kept s.par e (answered r s)
    have hseq : s.seq = .s5Ocr ∨ s.seq = .s6BlockLen := by
      rcases hinit with rfl | rfl
      · exact .inl (by simpa [ReadyError] using h)
      · exact .inr (by simpa [ReadyError] using h)
    have hreport : errorReport e s = .status (some e) ∧ phaseAfterError s = .failed := by
      unfold errorReport phaseAfterError
      rcases hseq with hq | hq <;> simp [hq]
    rw [hreport.1, hreport.2]
    exact ⟨hheard.leaveConfigure s.par e, htime, hticks⟩
  · rw [if_neg hinit, if_neg hinit]
    obtain ⟨-, -, -, htime, hticks⟩ := releaseAndRaise_kept s.par e (answered r s)
    have hseq : s.seq ≠ .idle := fun hq => by simp [ReadyError, hq] at h
    exact ⟨hheard.releaseAndRaise s.par e hseq, htime, hticks⟩

/-- Only S4 and S6 end with a zero response (R264, R266). -/
theorem afterReady_of_ne {q : Seq} (h4 : q ≠ .s4OpCond) (h6 : q ≠ .s6BlockLen) : afterReady q = q := by
  cases q with
  | s4OpCond => exact absurd rfl h4
  | s6BlockLen => exact absurd rfl h6
  | _ => rfl

/-- Settles O13: the two rows move the sequencer and nothing else; any other byte retries, times out or is the error of
its state. -/
theorem responseTestRows : Obligations.ResponseTestRows := by
  unfold Obligations.ResponseTestRows
  intro s hlegal
  refine ⟨?_, fun r _ => ?_, ?_, fun r _ => ?_⟩
  · exact ⟨_, rfl, rfl, rfl, rfl, rfl, rowFrame_of_writes s _ _ _ _ _, rfl, rfl, rfl, rfl, rfl, rfl⟩
  · obtain ⟨hr1, hresp, htrail, htime, hticks⟩ := retryTest_kept s.par .noCard r s
    exact ⟨_, otherByte_idleTest r s, hr1, hresp, htime, hticks, htrail, retryTest_clockRead _ _ r,
      retryTest_errorExit _ _ r⟩
  · exact ⟨_, rfl, fun h4 => congrArg afterReady h4, fun h6 => congrArg afterReady h6, afterReady_of_ne, rfl, rfl, rfl,
      rowFrame_of_writes s _ _ _ _ _, rfl, rfl, rfl, rfl, rfl, rfl⟩
  · obtain ⟨hr1, hresp, htrail⟩ := otherReady_kept s.par r s
    refine ⟨otherReady s.par r s, rfl, hr1, hresp, htrail, fun h4 => ?_, fun e h => otherReady_errorExit hlegal r h,
      otherReady_of_untested s.par r⟩
    rw [otherReady_of_opCond s.par r h4]
    obtain ⟨-, -, -, htime, hticks⟩ := retryTest_kept s.par .opCondTimeout r s
    exact ⟨htime, hticks, retryTest_clockRead _ _ r, retryTest_errorExit _ _ r⟩

/-! ### The illegal-command test (R263) -/

/-- By default the illegal-command bit stands between bits 7:3 and 1:0 (R194). -/
theorem r1IllegalByte_bits {par : Params} (h : par.r1Illegal = 0x04) (high : BitVec 5) (low : BitVec 2) :
    (r1IllegalByte par high low).extractLsb 7 3 = high ∧ (r1IllegalByte par high low).extractLsb 1 0 = low := by
  have hdefault : r1IllegalByte par high low = r1IllegalByte Params.spec high low := by
    unfold r1IllegalByte
    rw [h]
    rfl
  rw [hdefault, r1IllegalByte_spec]
  clear hdefault
  revert high low
  decide +kernel

/-- The row R1.illegal is the error exit of `Configure` on a card classified SD1. -/
theorem exec_r1Illegal (high : BitVec 5) (low : BitVec 2) (s : State) :
    exec (.r1Illegal high low) s = .next (leaveConfigure s.par (some .legacyNotImplemented)
      (setCardType .sd1 (answered (r1IllegalByte s.par high low) s))) := rfl

/-- Settles O14: the error exit from the state in which the response is kept and the card classified; a legal response is
kept alone. -/
theorem illegalCommandRow : Obligations.IllegalCommandRow := by
  unfold Obligations.IllegalCommandRow
  refine ⟨fun high low s hlegal => ?_, fun r s _ => rfl⟩
  have hexit := (Heard.refl (setCardType .sd1 (answered (r1IllegalByte s.par high low) s))).leaveConfigure s.par
    .legacyNotImplemented
  obtain ⟨hr1, hresp, htrail, htime, hticks⟩ := leaveConfigure_kept s.par .legacyNotImplemented
    (setCardType .sd1 (answered (r1IllegalByte s.par high low) s))
  refine ⟨_, exec_r1Illegal high low s, ?_, ?_, fun hdefault => ?_, hexit.cardType, hexit.err, hexit.presented, hexit.seq,
    hexit.lockHeld, hexit.phase, hexit.rateSel, hexit.cid, hexit.csd, hexit.cs, ?_,
    ⟨hexit.loopDeadline, htrail, hexit.regImg, hexit.cidNew, hexit.csdNew⟩, { hexit.transfer with }, { hexit.buffer with },
    hexit.frame, hresp, hexit.pollCnt, hexit.deadline, hexit.inbox, hexit.miso, htime, hticks, hexit.grants, hexit.par⟩
  · rw [hr1]
    exact hlegal.illegal_set high low
  · rw [hr1]
    exact hlegal.illegal_read high low
  · rw [hr1]
    exact r1IllegalByte_bits hdefault high low
  · rw [hexit.trace, List.append_nil]
    rfl

/-! ### The bytes behind a response (R263, R265) -/

theorem ocr0HcByte_bits (rest : BitVec 6) : (ocr0HcByte rest).getLsbD 7 = true ∧ (ocr0HcByte rest).getLsbD 6 = true ∧
    (ocr0HcByte rest).extractLsb 5 0 = rest ∧ (ocr0HcByte rest).extractLsb 7 6 = 3#2 := by
  revert rest
  decide

/-- The first OCR byte writes the class and nothing else. -/
theorem classifyOcr_eq (b : Byte) (s : State) :
    classifyOcr b s = setCardType (if b.extractLsb 7 6 = 3#2 then .sdhc else s.cardType) s := by
  unfold classifyOcr
  rw [isHighCapacity_bits]
  by_cases h : b.extractLsb 7 6 = 3#2
  · rw [if_pos h, if_pos (decide_eq_true h)]
  · rw [if_neg h, if_neg (ne_true_of_eq_false (decide_eq_false h))]
    rfl

/-- The row R3.ocr0.hc keeps the byte and classifies the card. -/
theorem exec_r3Ocr0Hc (rest : BitVec 6) (s : State) : exec (.r3Ocr0Hc rest) s = .next (setCardType .sdhc
    (trailByte s.par 0 (ocr0HcByte rest) s)) := by
  obtain ⟨-, -, -, hhigh⟩ := ocr0HcByte_bits rest
  rw [exec, execR3Ocr0Hc, classifyOcr_eq, if_pos hhigh]
  rfl

/-- Settles O15: each byte is one exchange and stands in `trail`; the echo and the high-capacity byte classify the card,
another echo byte is the error. -/
theorem trailingByteRows : Obligations.TrailingByteRows := by
  unfold Obligations.TrailingByteRows
  refine fun rest s => ⟨?_, fun b _ => ?_, ?_, fun b _ => rfl⟩
  · exact ⟨_, rfl, rfl, rfl, rfl, rfl, rfl, rowFrame_of_writes s _ _ _ _ _, rfl, rfl, rfl, rfl, rfl⟩
  · obtain ⟨hr1, hresp, htrail, htime, hticks⟩ := leaveConfigure_kept s.par .ifCondMismatch (trailByte s.par 3 b s)
    exact ⟨_, rfl, htrail, hresp, hr1, htime, hticks, (trailByte_heard s.par 3 b s).leaveConfigure s.par .ifCondMismatch⟩
  · obtain ⟨h7, h6, hrest, -⟩ := ocr0HcByte_bits rest
    exact ⟨_, _, exec_r3Ocr0Hc rest s, h7, h6, hrest, rfl, rfl, rfl, rfl, rfl, rowFrame_of_writes s _ _ _ _ _, rfl, rfl,
      rfl, rfl, rfl⟩

end Sys2Proof.Machine

namespace Sys2Proof.Machine

variable {par : Params} {s : State} {attempt : State → Byte × State} {good : Byte → Bool} {err : ErrCode}
  {frame ignored rest : List Byte} {r : Byte} {code : BitVec 6} {k T : Nat}

/-! ### In every run -/

/-- An attempt of a retry loop talks on the bus, leaves `frame` in the frame register and its response in `r1`. -/
structure Attempt (attempt : State → Byte × State) (frame : List Byte) : Prop where
  only : ∀ s, BusOnly s (attempt s).2
  frame : ∀ s, (attempt s).2.frame = frame
  r1 : ∀ s, (attempt s).2.r1 = (attempt s).1

theorem command_attempt (par : Params) (code : BitVec 6) (arg : U32) (crc : Byte) :
    Attempt (command par code arg crc) (frameBytes code arg crc) where
  only s := (command_spec par code arg crc s).1
  frame s := (command_spec par code arg crc s).2.1
  r1 s := (command_spec par code arg crc s).2.2.r1_eq

theorem appCommand_attempt (par : Params) (code : BitVec 6) (arg : U32) :
    Attempt (appCommand par code arg) (frameBytes code arg par.crcDummy) where
  only s := (appCommand_spec par code arg s).1
  frame s := (appCommand_spec par code arg s).2.1
  r1 s := (appCommand_spec par code arg s).2.2.r1_eq

/-- A retry loop that may count further than readings can be made before its deadline ends with a suitable response, or
with an unsuitable one at or after the deadline (R262, R264; log 14). -/
theorem retryLoop_outcome (ha : Attempt attempt frame) {n : Nat} (hn : patience s.loopDeadline s < n) :
    Ends (retryLoop attempt good err n) s (fun _ t => BusOnly s t ∧ t.frame = frame ∧ good t.r1 = true)
      (fun e t => BusOnly s t ∧ t.frame = frame ∧ ¬good t.r1 = true ∧ e = err ∧ s.loopDeadline ≤ t.time) := by
  induction n generalizing s with
  | zero => exact absurd hn (Nat.not_lt_zero _)
  | succ n ih =>
    have hbus := ha.only s
    have hdl : (attempt s).2.loopDeadline = s.loopDeadline := hbus.init.loopDeadline
    have hread := hbus.trans (expired_busOnly (attempt s).2.loopDeadline (attempt s).2)
    have hr1 := ha.r1 s
    refine .bind (.bus (.ite (fun hgood => .pure ⟨hbus, ha.frame s, by rw [hr1]; exact hgood⟩) fun hbad =>
      .getBind (.bind (.bus (.ite (fun hlate => .throw ⟨hread, ha.frame s, ?_, rfl, ?_⟩) fun hearly => ?_)))))
    · rw [show (expired (attempt s).2.loopDeadline (attempt s).2).2.r1 = _ from hr1]
      exact hbad
    · rw [← hdl]
      exact of_decide_eq_true hlate
    · have hnearer := expired_patience (Bool.eq_false_of_not_eq_true hearly)
      have hbefore := hbus.onward.patience s.loopDeadline
      rw [hdl] at hread hnearer ⊢
      have hnext : (expired s.loopDeadline (attempt s).2).2.loopDeadline = s.loopDeadline := hread.init.loopDeadline
      refine (ih (by rw [hnext]; omega)).mono (fun _ t ⟨hb, hf, hg⟩ => ⟨hread.trans hb, hf, hg⟩)
        fun _ t ⟨hb, hf, hg, he, hl⟩ => ⟨hread.trans hb, hf, hg, he, hnext ▸ hl⟩

/-- What the loop deadline is made of: one reading and the budget (R262, R264). -/
theorem startLoopDeadline_loopDeadline (T : Nat) (s : State) :
    (startLoopDeadline T s).loopDeadline = nextTime s + T := Nat.add_comm _ _

theorem retryUntil_outcome (ha : Attempt attempt frame) (T : Nat) (s : State) :
    Ends (retryUntil T attempt good err) s
      (fun _ t => BusOnly (startLoopDeadline T s) t ∧ t.frame = frame ∧ good t.r1 = true)
      (fun e t => BusOnly (startLoopDeadline T s) t ∧ t.frame = frame ∧ ¬good t.r1 = true ∧ e = err ∧
        nextTime s + T ≤ t.time) := by
  refine .bind (.update (.getBind ?_))
  rw [← startLoopDeadline_loopDeadline]
  exact retryLoop_outcome ha (Nat.lt_succ_self _)

/-- Every run of S2 (R262). -/
theorem s2Idle_outcome (par : Params) (s : State) :
    Ends (s2Idle par) s
      (fun _ t => t.r1 = par.r1Idle ∧ t.seq = .s3Probe ∧ t.frame = encode par .cmd0 ∧ t.cardType = s.cardType)
      (fun e t => e = .noCard ∧ t.r1 ≠ par.r1Idle ∧ t.loopDeadline = nextTime s + par.units 2000000 ∧
        t.loopDeadline ≤ t.time ∧ t.seq = s.seq ∧ t.frame = encode par .cmd0 ∧ t.cardType = s.cardType) := by
  refine .bind ((retryUntil_outcome (command_attempt par par.cmdGoIdle 0 par.crcGoIdle) _ s).mono ?_ ?_)
  · rintro _ t ⟨hb, hf, hg⟩
    exact .update ⟨eq_of_beq hg, rfl, hf, hb.device.cardType⟩
  · rintro e t ⟨hb, hf, hg, rfl, hl⟩
    have hdl := hb.init.loopDeadline.trans (startLoopDeadline_loopDeadline _ s)
    exact ⟨rfl, fun h => hg (beq_iff_eq.2 h), hdl, hdl ▸ hl, hb.seq, hf, hb.device.cardType⟩

/-- Every run of S4 (R264). -/
theorem s4OpCond_outcome (par : Params) (s : State) :
    Ends (s4OpCond par) s
      (fun _ t => t.r1 = 0x00 ∧ t.seq = .s5Ocr ∧ t.frame = encode par (.acmd41 (decide (s.cardType = .sd2))) ∧
        t.cardType = s.cardType)
      (fun e t => e = .opCondTimeout ∧ t.r1 ≠ 0x00 ∧ t.loopDeadline = nextTime s + par.units 2000000 ∧
        t.loopDeadline ≤ t.time ∧ t.seq = s.seq ∧ t.frame = encode par (.acmd41 (decide (s.cardType = .sd2))) ∧
        t.cardType = s.cardType) := by
  refine .getBind (.bind ((retryUntil_outcome (appCommand_attempt par P.acmdOpCond (opCondArgOf par s.cardType)) _ s).mono
    ?_ ?_))
  · rintro _ t ⟨hb, hf, hg⟩
    exact .update ⟨eq_of_beq hg, rfl, hf, hb.device.cardType⟩
  · rintro e t ⟨hb, hf, hg, rfl, hl⟩
    have hdl := hb.init.loopDeadline.trans (startLoopDeadline_loopDeadline _ s)
    exact ⟨rfl, fun h => hg (beq_iff_eq.2 h), hdl, hdl ▸ hl, hb.seq, hf, hb.device.cardType⟩

/-! ### On a card that answers unsuitably until the deadline -/

/-- With `script` given and `k` readings, an attempt uses them up, makes the events `evs` under chip-select low and gets no
suitable response. -/
def Unsuitable (attempt : State → Byte × State) (good : Byte → Bool) (k : Nat) (script : List Byte) (evs : List Event) :
    Prop :=
  ∀ (u : State) (rest : List Byte) (ds more : List Nat), u.miso = script ++ rest → ds.length = k → u.ticks = ds ++ more →
    ¬good (attempt u).1 = true ∧ Ran u (attempt u).2 (selectEvent u ++ evs) rest ∧ (attempt u).2.cs = false ∧
      (attempt u).2.ticks = more ∧ (attempt u).2.time = u.time + ds.sum

theorem answer_append (ignored : List Byte) (r : Byte) (tail rest : List Byte) :
    answer ignored r tail ++ rest = answer ignored r (tail ++ rest) := by
  simp [answer]

theorem selectEvent_selected (h : s.cs = false) : selectEvent s = [] := by
  unfold selectEvent
  rw [h]
  rfl

/-- A command that is answered makes one reading, that of its pre-wait (R241, R290). -/
theorem command_unsuitable (arg : U32) (crc : Byte) (hcode : code ≠ par.cmdStop) (hi : ignored.length = 6)
    (hr : r.getLsbD 7 = false) (hbad : ¬good r = true) :
    Unsuitable (command par code arg crc) good 1 (answer ignored r []) (commandEvents par (frameBytes code arg crc) ignored r) := by
  intro u rest ds more hm hd ht
  obtain ⟨d, rfl⟩ := List.length_eq_one_iff.1 hd
  rw [answer_append, List.nil_append] at hm
  obtain ⟨hresult, hran, hcs, -⟩ := command_ran par arg crc hcode hi (isResponse_of_clear hr) hm
  obtain ⟨hticks, htime⟩ := command_clock par arg crc hcode hm ht
  exact ⟨by rw [hresult]; exact hbad, hran, hcs, hticks, by rw [htime, List.sum_singleton]⟩

/-- An application command is two commands, each answered (R247). -/
theorem appCommand_ran {first : Byte} (hlegal : par.Legal) (arg : U32) (hi : ignored.length = 6)
    (hfirst : first.getLsbD 7 = false) (hr : r.getLsbD 7 = false) (hm : s.miso = answer ignored first (answer ignored r rest)) :
    (appCommand par P.acmdOpCond arg s).1 = r ∧
      Ran s (appCommand par P.acmdOpCond arg s).2
        (selectEvent s ++ (commandEvents par (frameBytes par.cmdApp 0 par.crcDummy) ignored first ++
          commandEvents par (frameBytes P.acmdOpCond arg par.crcDummy) ignored r)) rest ∧
      (appCommand par P.acmdOpCond arg s).2.cs = false := by
  obtain ⟨-, -, -, -, -, -, -, -, happ, -, hopCond⟩ := hlegal.ne_stop
  obtain ⟨-, hran, hcs, -⟩ := command_ran par 0 par.crcDummy happ hi (isResponse_of_clear hfirst) hm
  obtain ⟨hresult, hran', hcs', -⟩ := command_ran par arg par.crcDummy hopCond hi (isResponse_of_clear hr) hran.miso
  refine ⟨hresult, (hran.trans hran').cast ?_ rfl, hcs'⟩
  rw [selectEvent_selected hcs, List.nil_append, List.append_assoc]

/-- It makes two readings, one for each pre-wait. -/
theorem appCommand_unsuitable {first : Byte} (hlegal : par.Legal) (arg : U32) (hi : ignored.length = 6)
    (hfirst : first.getLsbD 7 = false) (hr : r.getLsbD 7 = false) (hbad : ¬good r = true) :
    Unsuitable (appCommand par P.acmdOpCond arg) good 2 (answer ignored first (answer ignored r []))
      (commandEvents par (frameBytes par.cmdApp 0 par.crcDummy) ignored first ++
        commandEvents par (frameBytes P.acmdOpCond arg par.crcDummy) ignored r) := by
  obtain ⟨-, -, -, -, -, -, -, -, happ, -, hopCond⟩ := hlegal.ne_stop
  intro u rest ds more hm hd ht
  obtain ⟨d, d', rfl⟩ := List.length_eq_two.1 hd
  rw [answer_append, answer_append, List.nil_append] at hm
  obtain ⟨hresult, hran, hcs⟩ := appCommand_ran hlegal arg hi hfirst hr hm
  obtain ⟨-, happRan, -, -⟩ := command_ran par 0 par.crcDummy happ hi (isResponse_of_clear hfirst) hm
  obtain ⟨hticks, htime⟩ := command_clock par 0 par.crcDummy happ hm ht
  obtain ⟨hticks', htime'⟩ := command_clock par arg par.crcDummy hopCond happRan.miso hticks
  refine ⟨by rw [hresult]; exact hbad, hran, hcs, hticks', htime'.trans ?_⟩
  rw [htime, Nat.add_assoc]
  rfl

/-- A retry loop on a card that answers unsuitably until the deadline makes every attempt given, and fails (R262, R264). -/
theorem retryUntil_late {tries : List Byte} {script : Byte → List Byte} {evs : Byte → List Event} {ticks more : List Nat}
    (ha : ∀ r ∈ tries, Unsuitable attempt good k (script r) (evs r)) (hx : Expires (k + 1) T tries.length ticks)
    (hm : s.miso = tries.flatMap script ++ rest) (ht : s.ticks = ticks ++ more) :
    ∃ t, retryUntil T attempt good err s = .error err t ∧ t.miso = rest ∧ t.ticks = more ∧ t.cs = false ∧
      eventsBetween s t = selectEvent s ++ tries.flatMap evs := by
  obtain ⟨first, early, last, rfl, hlast, hearly, hbefore, hafter⟩ := hx
  have htime : (startLoopDeadline T s).time = s.time + first := nextTime_given ht
  have hdl : (startLoopDeadline T s).loopDeadline = T + (startLoopDeadline T s).time := rfl
  have hticks : (startLoopDeadline T s).ticks = early ++ last ++ more := by
    show s.ticks.tail = _
    rw [ht, List.cons_append, List.tail_cons]
  have hcount : tries.length ≤ patience (startLoopDeadline T s).loopDeadline (startLoopDeadline T s) + 1 := by
    have hmul : tries.length ≤ (k + 1) * tries.length := Nat.le_mul_of_pos_left _ (Nat.succ_pos k)
    unfold patience
    rw [hticks, List.length_append, List.length_append]
    omega
  obtain ⟨t, hrun, hran, hmore, hcs⟩ := retryLoop_late (err := err) ha hlast hearly (by omega) (by omega)
    (s := startLoopDeadline T s) hm hticks hcount
  exact ⟨t, bind_ok (update_ok (startLoopDeadline T) s) (bind_ok (get_ok _) hrun), hran.miso, hmore, hcs,
    eventsBetween_of hran.trace⟩

/-- Settles O22: the outcome of every run by induction on the count, and the late run attempt by attempt. -/
theorem retryLoopOutcomes : Obligations.RetryLoopOutcomes := by
  unfold Obligations.RetryLoopOutcomes
  refine ⟨fun par s => ⟨s2Idle_outcome par s, s4OpCond_outcome par s⟩, ?_, ?_⟩
  · intro par s responses ignored rest ticks more hlegal hi hr hx ht hm
    obtain ⟨hgoIdle, -⟩ := hlegal.ne_stop
    obtain ⟨t, hrun, hend⟩ := retryUntil_late (err := .noCard) (good := isInIdle par) (fun r hmem => command_unsuitable 0
      par.crcGoIdle hgoIdle hi (hr r hmem).1 fun h => (hr r hmem).2 (eq_of_beq h)) hx hm ht
    exact ⟨t, bind_error hrun, hend⟩
  · intro par s responses ignored rest first ticks more hlegal hi hfirst hr hx ht hm
    obtain ⟨t, hrun, hend⟩ := retryUntil_late (err := .opCondTimeout) (good := isReady) (fun r hmem =>
      appCommand_unsuitable hlegal (opCondArgOf par s.cardType) hi hfirst (hr r hmem).1
        fun h => (hr r hmem).2 (eq_of_beq h)) hx hm ht
    exact ⟨t, bind_ok (get_ok s) (bind_error hrun), hend⟩

end Sys2Proof.Machine

namespace Sys2Proof.Machine

variable {par : Params} {s t u : State} {es es' : List Event} {rest rest' ignored : List Byte} {r a b c d : Byte}

/-! ### Runs that write the registers of initialization -/

/-- What an operation inside one that can fail answers, and where it leads. -/
theorem bus_given {ε α : Type} {f : State → α × State} {x : α} (h : f s = (x, t)) :
    (bus f : EStateM ε State α) s = .ok x t := by
  unfold bus
  rw [h]

/-- A run that also writes the registers of initialization: the events `es`, in order, and `rest` left of the card's
bytes. -/
structure Went (s t : State) (es : List Event) (rest : List Byte) : Prop where
  trace : t.trace = es.reverse ++ s.trace
  miso : t.miso = rest

theorem Ran.went (h : Ran s t es rest) : Went s t es rest := ⟨h.trace, h.miso⟩

theorem Went.events (h : Went s t es rest) : eventsBetween s t = es := eventsBetween_of h.trace

theorem Went.trans (h : Went s t es rest) (k : Went t u es' rest') : Went s u (es ++ es') rest' :=
  ⟨by rw [k.trace, h.trace, List.reverse_append, List.append_assoc], k.miso⟩

theorem Went.cast (h : Went s t es rest) (he : es = es') : Went s t es' rest := he ▸ h

/-- Bytes received behind a run are events behind its events. -/
theorem Ran.reads {bytes : List Byte} (h : Ran s t es (bytes ++ rest)) (par : Params) :
    xferRead par bytes.length t = (bytes, { t with miso := rest, trace := (reads par bytes).reverse ++ t.trace }) ∧
      Went s { t with miso := rest, trace := (reads par bytes).reverse ++ t.trace } (es ++ Machine.reads par bytes) rest :=
  ⟨xferRead_given par h.miso, h.went.trans ⟨rfl, rfl⟩⟩

/-! ### The version probe on a script (R263) -/

theorem s3Probe_of_illegal (h : command par par.cmdIfCond par.ifCondArg par.crcIfCond s = (r, t))
    (hr : r &&& par.r1Illegal ≠ 0) : s3Probe par s = .error .legacyNotImplemented (setCardType .sd1 t) :=
  bind_ok (bus_given h) (ite_then (by rw [isIllegal_and]; exact decide_eq_true hr) (bind_ok (update_ok _ _) rfl))

/-- Without the illegal-command bit four bytes are read, and the 4th decides. -/
theorem s3Probe_of_legal (h : command par par.cmdIfCond par.ifCondArg par.crcIfCond s = (r, t))
    (hr : r &&& par.r1Illegal = 0) (hread : xferRead par 4 t = ([a, b, c, d], u)) :
    s3Probe par s =
      if d = par.checkPattern then .ok () (setSeq .s4OpCond (setCardType .sd2 { u with trail := [a, b, c, d] }))
      else .error .ifCondMismatch { u with trail := [a, b, c, d] } := by
  refine bind_ok (bus_given h) (ite_else (by rw [isIllegal_and, hr]; decide) (bind_ok (bus_given hread)
    (bind_ok (update_ok _ _) ?_)))
  by_cases hecho : d = par.checkPattern
  · rw [if_pos hecho]
    exact ite_then (beq_iff_eq.2 hecho) rfl
  · rw [if_neg hecho]
    exact ite_else (fun h => hecho (eq_of_beq h)) rfl

/-- A version probe that is answered without the illegal-command bit. -/
theorem s3Probe_answered (hlegal : par.Legal) (hi : ignored.length = 6) (hr : r.getLsbD 7 = false)
    (hlow : r &&& par.r1Illegal = 0) (hm : s.miso = answer ignored r ([a, b, c, d] ++ rest)) :
    ∃ u, s3Probe par s =
        (if d = par.checkPattern then .ok () (setSeq .s4OpCond (setCardType .sd2 { u with trail := [a, b, c, d] }))
          else .error .ifCondMismatch { u with trail := [a, b, c, d] }) ∧
      Went s u (selectEvent s ++ commandEvents par (encode par .cmd8) ignored r ++ reads par [a, b, c, d]) rest ∧
      u.cs = false ∧ u.cardType = s.cardType ∧ u.seq = s.seq := by
  obtain ⟨-, hifCond, -⟩ := hlegal.ne_stop
  obtain ⟨hresult, hran, hcs, -⟩ := command_ran par par.ifCondArg par.crcIfCond hifCond hi (isResponse_of_clear hr) hm
  obtain ⟨hread, hwent⟩ := hran.reads par
  exact ⟨_, s3Probe_of_legal (Prod.ext hresult rfl) hlow hread, hwent, hcs, hran.only.device.cardType, hran.only.seq⟩

/-- Settles O23: one run of CMD8, and behind a response without the illegal-command bit the four trailing bytes. -/
theorem versionProbe : Obligations.VersionProbe := by
  unfold Obligations.VersionProbe
  intro par s ignored rest hlegal hi
  obtain ⟨-, hifCond, -⟩ := hlegal.ne_stop
  refine ⟨fun r hr hillegal hm => ?_, fun r a b c d hr hlow hm => ?_, fun polls hpolls hm => ?_⟩
  · obtain ⟨hresult, hran, hcs, -⟩ := command_ran par par.ifCondArg par.crcIfCond hifCond hi (isResponse_of_clear hr) hm
    exact ⟨_, s3Probe_of_illegal (Prod.ext hresult rfl) hillegal, rfl, hran.miso, hcs, hran.events⟩
  · obtain ⟨u, hrun, hwent, -, hclass, hseq⟩ := s3Probe_answered hlegal hi hr hlow hm
    by_cases hecho : d = par.checkPattern
    · rw [if_pos hecho] at hrun
      exact ⟨_, hrun.trans (if_pos hecho).symm, rfl, hwent.miso, fun _ => ⟨rfl, rfl⟩, absurd hecho, hwent.events⟩
    · rw [if_neg hecho] at hrun
      exact ⟨_, hrun.trans (if_neg hecho).symm, rfl, hwent.miso, fun h => absurd h hecho, fun _ => ⟨hclass, hseq⟩,
        hwent.events⟩
  · obtain ⟨hresult, hran, hcs, hr1⟩ := command_silent par par.ifCondArg par.crcIfCond hifCond hi hpolls hm
    exact ⟨_, s3Probe_of_illegal (Prod.ext hresult rfl) hlegal.illegal_sentinel, rfl, hran.miso, hcs, hr1, hran.events⟩

/-! ### The capacity class and the block length on a script (R265, R266) -/

theorem isReady_of_ne (h : r ≠ 0) : ¬isReady r = true := fun hready => h (eq_of_beq hready)

theorem s5Ocr_of_rejected (hs : s.cardType = .sd2) (h : command par par.cmdReadOcr 0 par.crcDummy s = (r, t)) (hr : r ≠ 0) :
    s5Ocr par s = .error .ocrCmd t :=
  bind_error (bind_ok (get_ok s) (ite_then hs (bind_ok (bus_given h) (ite_else (isReady_of_ne hr) rfl))))

/-- Behind a zero response four OCR bytes are read; the first decides the class. -/
theorem s5Ocr_of_ready (hs : s.cardType = .sd2) (h : command par par.cmdReadOcr 0 par.crcDummy s = (0x00, t))
    (hm : t.miso = [a, b, c, d] ++ rest) :
    s5Ocr par s = .ok () (setSeq .s6BlockLen (setCardType (if a.extractLsb 7 6 = 3#2 then .sdhc else t.cardType)
      { t with miso := rest, trace := (reads par [a, b, c, d]).reverse ++ t.trace, trail := [a, b, c, d] })) := by
  have hfirst := xfer_given (b := a) (bs := [b, c, d] ++ rest) hm par.fill
  have hread := xferRead_given par (bs := [b, c, d]) (rest := rest)
    (s := classifyOcr a { t with miso := [b, c, d] ++ rest, trace := .x par.fill a :: t.trace })
    (by rw [classifyOcr_eq]; rfl)
  refine bind_ok (bind_ok (get_ok s) (ite_then hs (bind_ok (bus_given h) (ite_then rfl (bind_ok (bus_given hfirst)
    (bind_ok (update_ok _ _) (bind_ok (bus_given hread) (update_ok _ _)))))))) ?_
  rw [classifyOcr_eq]
  rfl

/-- A capacity class that is asked for and answered. -/
theorem s5Ocr_answered (hlegal : par.Legal) (hi : ignored.length = 6) (hs : s.cardType = .sd2)
    (hm : s.miso = answer ignored 0x00 ([a, b, c, d] ++ rest)) :
    ∃ t, s5Ocr par s = .ok () t ∧
      Went s t (selectEvent s ++ commandEvents par (encode par .cmd58) ignored 0x00 ++ reads par [a, b, c, d]) rest ∧
      t.trail = [a, b, c, d] ∧ t.seq = .s6BlockLen ∧ t.cardType = (if a.extractLsb 7 6 = 3#2 then .sdhc else .sd2) ∧
      t.cs = false := by
  obtain ⟨-, -, -, -, -, -, -, -, -, hreadOcr, -⟩ := hlegal.ne_stop
  obtain ⟨hresult, hran, hcs, -⟩ := command_ran par 0 par.crcDummy hreadOcr hi (r := 0x00) rfl hm
  obtain ⟨-, hwent⟩ := hran.reads par
  refine ⟨_, s5Ocr_of_ready hs (Prod.ext hresult rfl) hran.miso, ⟨hwent.trace, hwent.miso⟩, rfl, rfl, ?_, hcs⟩
  rw [hran.only.device.cardType, hs]
  rfl

theorem s6BlockLen_of_ready (h : command par par.cmdSetBlockLen P.blockLenArg par.crcDummy s = (0x00, t)) :
    s6BlockLen par s = .ok () (setSeq .s7Regs t) :=
  bind_ok (bus_given h) (ite_then rfl rfl)

theorem s6BlockLen_of_rejected (h : command par par.cmdSetBlockLen P.blockLenArg par.crcDummy s = (r, t)) (hr : r ≠ 0) :
    s6BlockLen par s = .error .blockLenCmd t :=
  bind_ok (bus_given h) (ite_else (isReady_of_ne hr) rfl)

/-- A block length that is accepted. -/
theorem s6BlockLen_answered (hlegal : par.Legal) (hi : ignored.length = 6) (hm : s.miso = answer ignored 0x00 rest) :
    ∃ t, s6BlockLen par s = .ok () t ∧
      Went s t (selectEvent s ++ commandEvents par (encode par .cmd16) ignored 0x00) rest ∧
      t.seq = .s7Regs ∧ t.cardType = s.cardType ∧ t.cs = false := by
  obtain ⟨-, -, -, -, hblockLen, -⟩ := hlegal.ne_stop
  obtain ⟨hresult, hran, hcs, -⟩ := command_ran par P.blockLenArg par.crcDummy hblockLen hi (r := 0x00) rfl hm
  exact ⟨_, s6BlockLen_of_ready (Prod.ext hresult rfl), ⟨hran.trace, hran.miso⟩, rfl, hran.only.device.cardType, hcs⟩

/-- Settles O24: one run of CMD58 with the four OCR bytes behind a zero response, and one run of CMD16. -/
theorem capacityClassAndBlockLength : Obligations.CapacityClassAndBlockLength := by
  unfold Obligations.CapacityClassAndBlockLength
  intro par s ignored rest hlegal hi
  obtain ⟨-, -, -, -, hblockLen, -, -, -, -, hreadOcr, -⟩ := hlegal.ne_stop
  refine ⟨fun hs => ⟨fun r hr hbad hm => ?_, fun a b c d hm => ?_, fun polls hpolls hm => ?_⟩, fun hm => ?_,
    fun r hr hbad hm => ?_, fun polls hpolls hm => ?_⟩
  · obtain ⟨hresult, hran, -, -⟩ := command_ran par 0 par.crcDummy hreadOcr hi (isResponse_of_clear hr) hm
    exact ⟨_, s5Ocr_of_rejected hs (Prod.ext hresult rfl) hbad, hran.only.device.cardType.trans hs, hran.miso, hran.events⟩
  · obtain ⟨t, hrun, hwent, htrail, hseq, hclass, -⟩ := s5Ocr_answered hlegal hi hs hm
    exact ⟨t, hrun, htrail, hwent.miso, hseq, hclass, hwent.events⟩
  · obtain ⟨hresult, hran, hcs, -⟩ := command_silent par 0 par.crcDummy hreadOcr hi hpolls hm
    exact ⟨_, s5Ocr_of_rejected hs (Prod.ext hresult rfl) (by decide), hran.only.device.cardType.trans hs, hran.miso, hcs,
      hran.events⟩
  · obtain ⟨t, hrun, hwent, hseq, hclass, hcs⟩ := s6BlockLen_answered hlegal hi hm
    exact ⟨t, hrun, hseq, hclass, hwent.miso, hcs, hwent.events⟩
  · obtain ⟨hresult, hran, -, -⟩ := command_ran par P.blockLenArg par.crcDummy hblockLen hi (isResponse_of_clear hr) hm
    exact ⟨_, s6BlockLen_of_rejected (Prod.ext hresult rfl) hbad, hran.only.seq, hran.only.device.cardType, hran.miso,
      hran.events⟩
  · obtain ⟨hresult, hran, hcs, -⟩ := command_silent par P.blockLenArg par.crcDummy hblockLen hi hpolls hm
    exact ⟨_, s6BlockLen_of_rejected (Prod.ext hresult rfl) (by decide), hran.only.seq, hran.only.device.cardType,
      hran.miso, hcs, hran.events⟩

end Sys2Proof.Machine

namespace Sys2Proof.Machine

variable {s u : State} {e : ErrCode}

/-- How every run of `Configure` ends, success and failure alike (R260, R404, R447). -/
structure ConfigureEnd (s t : State) : Prop where
  lockHeld : t.lockHeld = false
  seq : t.seq = .idle
  presented : t.presented = some (.status t.err)
  transfer : SameTransfer s t
  buffer : SameBuffer s t
  inbox : t.inbox = s.inbox
  onward : Onward s t

/-- From where the sequence has ended, `Configure` leaves nothing but the result to be told. -/
theorem leaveConfigure_end (e : Option ErrCode) (h : InitOnly (enter .slow .s1Prime s) u) :
    ConfigureEnd s (leaveConfigure s.par e u) := by
  obtain ⟨⟨-, hlock, hseq⟩, herr, hpresented, -, -, -, -, -, -, htransfer, hbuf, hbufLen, hinbox, honward, -, -⟩ :=
    leaveConfigure_spec s.par e u
  exact {
    lockHeld := hlock
    seq := hseq
    presented := by rw [hpresented, herr]
    transfer := (enter_transfer .slow .s1Prime s).trans (h.transfer.trans htransfer)
    buffer := ⟨hbufLen.trans h.bufLen, fun a => by rw [hbuf, h.buf]; rfl⟩
    inbox := hinbox.trans h.inbox
    onward := (enter_onward .slow .s1Prime s).trans (h.onward.trans honward) }

/-- The error of a failed initialization is one of the eight (R402). -/
theorem classAfter_errorsOf {before after : CardType} (h : classAfter e before after) : e ∈ errorsOf .configure := by
  cases e with
  | param | readCmd | writeCmd | writeMultiCmd | writeDataResp | writeBusyTimeout => exact h.elim
  | _ => decide

/-- Settles O25: the exit taken from the state in which the sequence ends well, and from the one in which it fails. -/
theorem configureCompletes : Obligations.ConfigureCompletes := by
  unfold Obligations.ConfigureCompletes
  intro s hs hp hg
  refine configure_next hs hp hg ((initSequence_spec s.par (enter .slow .s1Prime s)).mono ?_ ?_)
  · rintro _ u ⟨hinit, hcs, hrate, hclass, hcid, hcsd, hfetched⟩
    have hend := leaveConfigure_end none hinit
    have hexit : Onward u (leaveConfigure s.par none u) := { complete_onward none (.status none) u with }
    obtain ⟨⟨cidImg, crc, hlen, hcrc, hcidImg, htook⟩, hdecoded, himage, crc', hcrc', htook'⟩ :=
      ((enter_onward .slow .s1Prime s).fetched hfetched).onward hexit rfl rfl rfl
    exact ⟨hend.lockHeld, hend.seq, fun _ => hcs, hend.presented, hend.transfer, hend.buffer, hend.inbox, hend.onward,
      fun _ => ⟨rfl, hrate, hclass, hcid, hcsd, hdecoded, himage, cidImg, crc, crc', hlen, hcrc, hcrc', hcidImg, htook.infix,
        htook'.infix⟩, nofun⟩
  · rintro e u ⟨hinit, hregs, hclass⟩
    have hend := leaveConfigure_end (some e) hinit
    obtain ⟨⟨hcs, -, -⟩, herr, -, hphase, hcardType, hcid, hcsd, hrate, -⟩ := leaveConfigure_spec s.par (some e) u
    refine ⟨hend.lockHeld, hend.seq, ?_, hend.presented, hend.transfer, hend.buffer, hend.inbox, hend.onward, ?_, ?_⟩
    · rintro (hnone | hrelease)
      · exact absurd (herr.symm.trans hnone) nofun
      · rw [hcs, hrelease]
        rfl
    · exact fun hnone => absurd (herr.symm.trans hnone) nofun
    · rintro e' he'
      obtain rfl : e = e' := Option.some.inj (herr.symm.trans he')
      exact ⟨classAfter_errorsOf hclass, hphase, hrate.trans hregs.rateSel, hcid.trans hregs.cid, hcsd.trans hregs.csd,
        by rw [hcardType]; exact hclass⟩

end Sys2Proof.Machine

namespace Sys2Proof.Machine

variable {par : Params} {s t : State} {rest ignored primed cidImg csdImg : List Byte} {r first ocr c1 c2 c3 c4 : Byte}
  {code : BitVec 6} {T : Nat}

/-! ### The states of `Configure` on a card that answers at once (R261 to R268) -/

/-- The event of chip-select going high, if it was low (R112, D33). -/
def releaseEvent (s : State) : List Event := if s.cs = true then [] else [.cs true]

theorem s1Prime_served (hl : primed.length = par.nPrime) (hm : s.miso = primed ++ rest) :
    ∃ t, s1Prime par s = .ok () t ∧
      Went s t (releaseEvent s ++ exchanges (List.replicate par.nPrime P.allOnes) primed) rest ∧
      t.cs = true := by
  have hselect := setCs_ran true s
  obtain ⟨hran, hcs, -⟩ := xferWrite_ran (s := setCs true s) (out := List.replicate par.nPrime P.allOnes) hm
    (by rw [List.length_replicate, hl])
  have hwent := (hselect.trans hran).went
  exact ⟨setSeq .s2Idle _, rfl, ⟨hwent.trace, hwent.miso⟩, hcs⟩

/-- A retry loop whose first attempt is suitable (R262, R264, D5). -/
theorem retryUntil_first {attempt : State → Byte × State} {good : Byte → Bool} {err : ErrCode}
    (h : attempt (startLoopDeadline T s) = (r, t)) (hgood : good r = true) : retryUntil T attempt good err s = .ok () t :=
  bind_ok (update_ok _ s) (bind_ok (get_ok _) (bind_ok (bus_given h) (ite_then hgood rfl)))

theorem s2Idle_served (hlegal : par.Legal) (hi : ignored.length = 6) (hidle : par.r1Idle.getLsbD 7 = false)
    (hm : s.miso = answer ignored par.r1Idle rest) :
    ∃ t, s2Idle par s = .ok () t ∧
      Went s t (selectEvent s ++ commandEvents par (encode par .cmd0) ignored par.r1Idle) rest ∧ t.cs = false := by
  obtain ⟨hgoIdle, -⟩ := hlegal.ne_stop
  obtain ⟨hresult, hran, hcs, -⟩ := command_ran par (s := startLoopDeadline (par.units P.tIdle) s) 0 par.crcGoIdle hgoIdle hi
    (isResponse_of_clear hidle) hm
  exact ⟨_, bind_ok (retryUntil_first (Prod.ext hresult rfl) (beq_self_eq_true _)) (update_ok _ _),
    ⟨hran.trace, hran.miso⟩, hcs⟩

theorem s3Probe_served {a b c : Byte} (hlegal : par.Legal) (hi : ignored.length = 6) (hr : r.getLsbD 7 = false)
    (hlow : r &&& par.r1Illegal = 0) (hm : s.miso = answer ignored r ([a, b, c, par.checkPattern] ++ rest)) :
    ∃ t, s3Probe par s = .ok () t ∧
      Went s t (selectEvent s ++ commandEvents par (encode par .cmd8) ignored r ++ reads par [a, b, c, par.checkPattern])
        rest ∧
      t.cs = false ∧ t.cardType = .sd2 := by
  obtain ⟨u, hrun, hwent, hcs, -, -⟩ := s3Probe_answered hlegal hi hr hlow hm
  exact ⟨_, hrun.trans (if_pos rfl), ⟨hwent.trace, hwent.miso⟩, hcs, rfl⟩

theorem s4OpCond_served (hlegal : par.Legal) (hi : ignored.length = 6) (hs : s.cardType = .sd2)
    (hfirst : first.getLsbD 7 = false) (hm : s.miso = answer ignored first (answer ignored 0x00 rest)) :
    ∃ t, s4OpCond par s = .ok () t ∧
      Went s t (selectEvent s ++ (commandEvents par (encode par .cmd55) ignored first ++
        commandEvents par (encode par (.acmd41 true)) ignored 0x00)) rest ∧
      t.cs = false ∧ t.cardType = .sd2 := by
  obtain ⟨hresult, hran, hcs⟩ := appCommand_ran (s := startLoopDeadline (par.units P.tOpCond) s) hlegal
    (opCondArgOf par .sd2) hi hfirst (r := 0x00) rfl hm
  refine ⟨_, bind_ok (get_ok s) (bind_ok (retryUntil_first (r := 0x00) ?_ rfl) (update_ok _ _)),
    ⟨hran.trace, hran.miso⟩, hcs, hran.only.device.cardType.trans hs⟩
  rw [hs]
  exact Prod.ext hresult rfl

theorem readRegister_served (hcode : code ≠ par.cmdStop) (hi : ignored.length = 6) {img : List Byte} (hl : img.length = 16)
    (hm : s.miso = answer ignored 0x00 (packet img [c1, c2] ++ rest)) :
    ∃ t, readRegister par code s = .ok img t ∧
      Ran s t (selectEvent s ++ commandEvents par (frameBytes code 0 par.crcDummy) ignored 0x00 ++
        reads par (packet img [c1, c2]) ++ [.cs true]) rest ∧ t.cs = true := by
  obtain ⟨w, hresult, hwait, hread, hran, -⟩ := readPacket_ran par (arg := 0) hcode hi hm
  rw [hl] at hread hran
  exact ⟨_, bind_ok (bus_ok hresult) (ite_then rfl (bind_ok hwait (bind_ok (bus_ok hread) (bind_ok (bus_ok rfl)
    (bind_ok (update_ok _ _) rfl))))), hran, rfl⟩

theorem selectEvent_released (h : s.cs = true) : selectEvent s = [.cs false] := if_pos h

theorem s7Regs_served (hlegal : par.Legal) (hi : ignored.length = 6) (hcid : cidImg.length = 16) (hcsd : csdImg.length = 16)
    (hm : s.miso = answer ignored 0x00 (packet cidImg [c1, c2] ++ answer ignored 0x00 (packet csdImg [c3, c4] ++ rest))) :
    ∃ t, s7Regs par s = .ok () t ∧
      Went s t (selectEvent s ++ commandEvents par (encode par .cmd10) ignored 0x00 ++ reads par (packet cidImg [c1, c2]) ++
        [.cs true, .cs false] ++ commandEvents par (encode par .cmd9) ignored 0x00 ++ reads par (packet csdImg [c3, c4]) ++
        [.cs true]) rest ∧
      t.cs = true ∧ t.cardType = s.cardType ∧ t.cid = decodeCid cidImg ∧ t.csd = decodeCsd csdImg := by
  obtain ⟨-, -, hsendCsd, hsendCid, -⟩ := hlegal.ne_stop
  obtain ⟨t, hrun, hran, hcs⟩ := readRegister_served hsendCid hi hcid hm
  obtain ⟨u, hrun', hran', hcs'⟩ := readRegister_served (s := takeCid cidImg t) hsendCsd hi hcsd hran.miso
  refine ⟨_, bind_ok hrun (bind_ok (update_ok _ _) (bind_ok hrun' (bind_ok (update_ok _ _) (bind_ok (update_ok _ _)
    (update_ok _ _))))), ⟨?_, hran'.miso⟩, hcs', ?_, ?_, rfl⟩
  · show u.trace = _
    rw [hran'.trace, selectEvent_released (s := takeCid cidImg t) hcs]
    show _ ++ t.trace = _
    rw [hran.trace]
    simp [encode]
  · exact hran'.only.device.cardType.trans hran.only.device.cardType
  · exact hran'.only.init.cidNew

theorem s8Finish_released (h : s.cs = true) : s8Finish s = .ok () (setRate .fast s) :=
  (bind_ok (update_ok _ _) (update_ok _ _)).trans (congrArg _ (setCs_same (s := setRate .fast s) h))

/-! ### The whole sequence, on the defaults (R260, R460) -/

/-- What a card returns from S2 on that answers every command on the first poll (R106, R142). -/
def initScript (ignored cidImg csdImg rest : List Byte) (ocr : Byte) : List Byte :=
  answer ignored 0x01 (answer ignored 0x01 ([0x00, 0x00, 0x01, 0xAA] ++
    answer ignored 0x01 (answer ignored 0x00 (answer ignored 0x00 ([ocr, 0xFF, 0x80, 0x00] ++
    answer ignored 0x00 (answer ignored 0x00 (packet cidImg [0x12, 0x34] ++
    answer ignored 0x00 (packet csdImg [0x56, 0x78] ++ rest))))))))

/-- The events of the sequence on such a card, from chip-select high before S2 to the release behind the CSD. -/
def initEvents (par : Params) (ignored cidImg csdImg : List Byte) (ocr : Byte) : List Event :=
  [Event.cs false] ++
    commandEvents par [0x40, 0x00, 0x00, 0x00, 0x00, 0x95] ignored 0x01 ++
    commandEvents par [0x48, 0x00, 0x00, 0x01, 0xAA, 0x87] ignored 0x01 ++ reads par [0x00, 0x00, 0x01, 0xAA] ++
    commandEvents par [0x77, 0x00, 0x00, 0x00, 0x00, 0xFF] ignored 0x01 ++
    commandEvents par [0x69, 0x40, 0x00, 0x00, 0x00, 0xFF] ignored 0x00 ++
    commandEvents par [0x7A, 0x00, 0x00, 0x00, 0x00, 0xFF] ignored 0x00 ++ reads par [ocr, 0xFF, 0x80, 0x00] ++
    commandEvents par [0x50, 0x00, 0x00, 0x02, 0x00, 0xFF] ignored 0x00 ++
    commandEvents par [0x4A, 0x00, 0x00, 0x00, 0x00, 0xFF] ignored 0x00 ++
    reads par (packet cidImg [0x12, 0x34]) ++ [Event.cs true, .cs false] ++
    commandEvents par [0x49, 0x00, 0x00, 0x00, 0x00, 0xFF] ignored 0x00 ++
    reads par (packet csdImg [0x56, 0x78]) ++ [Event.cs true]

/-- The frames of `Configure` in the configuration of the defaults, written out (R200). -/
theorem initFrames_spec : encode Params.spec .cmd0 = [0x40, 0x00, 0x00, 0x00, 0x00, 0x95] ∧
    encode Params.spec .cmd8 = [0x48, 0x00, 0x00, 0x01, 0xAA, 0x87] ∧
    encode Params.spec .cmd55 = [0x77, 0x00, 0x00, 0x00, 0x00, 0xFF] ∧
    encode Params.spec (.acmd41 true) = [0x69, 0x40, 0x00, 0x00, 0x00, 0xFF] ∧
    encode Params.spec .cmd58 = [0x7A, 0x00, 0x00, 0x00, 0x00, 0xFF] ∧
    encode Params.spec .cmd16 = [0x50, 0x00, 0x00, 0x02, 0x00, 0xFF] ∧
    encode Params.spec .cmd10 = [0x4A, 0x00, 0x00, 0x00, 0x00, 0xFF] ∧
    encode Params.spec .cmd9 = [0x49, 0x00, 0x00, 0x00, 0x00, 0xFF] := by decide

/-- The eight states one after the other (R260 to R268). -/
theorem initSequence_served (hi : ignored.length = 6) (hl : primed.length = 13) (hcid : cidImg.length = 16)
    (hcsd : csdImg.length = 16) (hm : s.miso = primed ++ initScript ignored cidImg csdImg rest ocr) :
    ∃ t, initSequence Params.spec s = .ok () (setRate .fast t) ∧
      Went s t (releaseEvent s ++ exchanges (List.replicate 13 0xFF) primed ++
        initEvents Params.spec ignored cidImg csdImg ocr) rest ∧
      t.cs = true ∧ t.cardType = (if ocr.extractLsb 7 6 = 3#2 then .sdhc else .sd2) ∧ t.cid = decodeCid cidImg ∧
      t.csd = decodeCsd csdImg := by
  have hlegal := Params.spec_legal
  obtain ⟨s1, run1, went1, cs1⟩ := s1Prime_served (par := Params.spec) hl hm
  obtain ⟨s2, run2, went2, cs2⟩ := s2Idle_served hlegal hi (by decide) went1.miso
  obtain ⟨s3, run3, went3, cs3, class3⟩ := s3Probe_served hlegal hi (r := 0x01) (by decide) (by decide) went2.miso
  obtain ⟨s4, run4, went4, cs4, class4⟩ := s4OpCond_served hlegal hi class3 (first := 0x01) (by decide) went3.miso
  obtain ⟨s5, run5, went5, -, -, class5, cs5⟩ := s5Ocr_answered hlegal hi class4 went4.miso
  obtain ⟨s6, run6, went6, -, class6, cs6⟩ := s6BlockLen_answered hlegal hi went5.miso
  obtain ⟨s7, run7, went7, cs7, class7, cid7, csd7⟩ := s7Regs_served hlegal hi hcid hcsd went6.miso
  refine ⟨s7, bind_ok run1 (bind_ok run2 (bind_ok run3 (bind_ok run4 (bind_ok run5 (bind_ok run6 (bind_ok run7
    (s8Finish_released cs7))))))), ?_, cs7, ?_, cid7, csd7⟩
  · refine ((((((went1.trans went2).trans went3).trans went4).trans went5).trans went6).trans went7).cast ?_
    obtain ⟨f0, f8, f55, f41, f58, f16, f10, f9⟩ := initFrames_spec
    rw [selectEvent_released cs1, selectEvent_selected cs2, selectEvent_selected cs3, selectEvent_selected cs4,
      selectEvent_selected cs5, selectEvent_selected cs6, f0, f8, f55, f41, f58, f16, f10, f9]
    simp only [initEvents, List.append_assoc, List.nil_append]
    rfl
  · rw [class7, class6, class5]

/-! ### Counting exchanges (R460) -/

theorem exchangeCount_append (es es' : List Event) : exchangeCount (es ++ es') = exchangeCount es + exchangeCount es' :=
  List.countP_append

theorem exchangeCount_reads (par : Params) (bytes : List Byte) : exchangeCount (reads par bytes) = bytes.length := by
  simp [exchangeCount, reads, List.countP_map, Function.comp_def]

theorem exchangeCount_exchanges (mosi miso : List Byte) :
    exchangeCount (exchanges mosi miso) = min mosi.length miso.length := by
  rw [exchangeCount, List.countP_eq_length.2, exchanges, List.length_zipWith]
  intro e he
  obtain ⟨i, hi, rfl⟩ := List.getElem_of_mem he
  simp [exchanges]

/-- A command that is answered at once is one poll, six bytes and the response (V3.2). -/
theorem exchangeCount_commandEvents (par : Params) {frame : List Byte} (hf : frame.length = 6) (hi : ignored.length = 6)
    (r : Byte) : exchangeCount (commandEvents par frame ignored r) = 8 := by
  have hsplit : commandEvents par frame ignored r = reads par [0xFF] ++ exchanges frame ignored ++ reads par [r] := rfl
  rw [hsplit, exchangeCount_append, exchangeCount_append, exchangeCount_exchanges, exchangeCount_reads,
    exchangeCount_reads, hf, hi]
  rfl

theorem length_packet (payload : List Byte) (a b : Byte) : (packet payload [a, b]).length = payload.length + 3 := by
  simp [packet]

/-- Releasing chip-select is no exchange. -/
theorem exchangeCount_releaseEvent (s : State) : exchangeCount (releaseEvent s) = 0 := by
  unfold releaseEvent
  split <;> rfl

/-- Behind the 13 bytes of S1 the sequence makes 110 exchanges. -/
theorem exchangeCount_initEvents (par : Params) (hi : ignored.length = 6) (hcid : cidImg.length = 16)
    (hcsd : csdImg.length = 16) (ocr : Byte) : exchangeCount (initEvents par ignored cidImg csdImg ocr) = 110 := by
  have hcommand := fun a b c d e f r => exchangeCount_commandEvents par (frame := [a, b, c, d, e, f]) rfl hi r
  unfold initEvents
  simp only [exchangeCount_append, hcommand, exchangeCount_reads, length_packet, hcid, hcsd]
  rfl

/-- The events of a `Configure` that ends well are those of its sequence up to the fast rate, between LOCK with the slow
rate and the fast rate with UNLOCK (R260, R268). -/
theorem leaveConfigure_events {q : Seq} {es : List Event} (h : Went (enter .slow q s) t es rest) :
    eventsBetween s (leaveConfigure par none (setRate .fast t)) =
      [Event.lock, .rate .slow] ++ es ++ [.rate .fast, .unlock] := by
  apply eventsBetween_of
  show Event.unlock :: .rate .fast :: t.trace = _
  rw [h.trace]
  simp

/-- Settles O26: the eight states on the script, between LOCK with the slow rate and the fast rate with UNLOCK. -/
theorem configureOnScript : Obligations.ConfigureOnScript := by
  unfold Obligations.ConfigureOnScript
  intro s primed ignored cidImg csdImg rest ocr hpar hs hp hg hl hi hcidLen hcsdLen hm
  obtain ⟨t, hrun, hwent, hcs, hclass, hcid, hcsd⟩ := initSequence_served (s := enter .slow .s1Prime s) (ocr := ocr) hi hl
    hcidLen hcsdLen hm
  have hexec := exec_configure hs hp hg
  rw [hpar, hrun] at hexec
  have hevents : eventsBetween s (leaveConfigure Params.spec none (setRate .fast t)) =
      [Event.lock, .rate .slow] ++ (releaseEvent s ++ exchanges (List.replicate 13 0xFF) primed ++
        initEvents Params.spec ignored cidImg csdImg ocr) ++ [.rate .fast, .unlock] := leaveConfigure_events hwent
  refine ⟨_, hexec, rfl, rfl, hcid, hcsd, hclass, rfl, hcs, rfl, rfl, hwent.miso, ?_, ?_⟩
  · rw [configureEnds, hevents]
    simp only [exchangeCount_append, exchangeCount_releaseEvent, exchangeCount_exchanges, List.length_replicate, hl,
      exchangeCount_initEvents _ hi hcidLen hcsdLen]
    rfl
  · rw [configureEnds, hevents, hpar]
    simp only [releaseEvent, initEvents, List.append_assoc, List.cons_append, List.nil_append]

end Sys2Proof.Machine

/-! PROOFS. The family of the waits (42_waits.md): the not-busy wait and the start-token wait, poll by poll. -/

namespace Sys2Proof.Machine

variable {par : Params} {s s' t : State} {busy rest : List Byte} {b last : Byte} {readings ticks more : List Nat}
  {first d n budget : Nat}

/-! ### One poll and one reading -/

/-- One poll, and one reading of the clock behind it: what a wait does each time it goes on (D5). -/
def pollAndRead (par : Params) (s : State) : State := (now (poll par s).2).2

theorem pollAndRead_trace (par : Params) (s : State) :
    (pollAndRead par s).trace = .x par.fill (poll par s).1 :: s.trace := rfl

theorem pollAndRead_ticks (par : Params) (s : State) : (pollAndRead par s).ticks = s.ticks.tail := rfl

theorem pollAndRead_deadline (par : Params) (s : State) : (pollAndRead par s).deadline = s.deadline := rfl

theorem poll_draws (par : Params) (s : State) : (poll par s).2.draws = drawsAfter s.miso s.draws := rfl

theorem pollAndRead_draws (par : Params) (s : State) :
    (pollAndRead par s).draws = drawsAfter s.ticks (drawsAfter s.miso s.draws) := rfl

/-- The reading behind a poll shows the deadline passed, or the wait has come nearer to its end (log 14). -/
theorem pollAndRead_patience (par : Params) (s : State) :
    s.deadline ≤ (pollAndRead par s).time ∨ patience s.deadline (pollAndRead par s) < patience s.deadline s :=
  now_patience s.deadline (poll par s).2

/-- With a byte and a reading given, one poll and one reading use up both. -/
theorem pollAndRead_given (par : Params) (hm : s.miso = b :: rest) (ht : s.ticks = d :: more) :
    (poll par s).1 = b ∧ Ran s (pollAndRead par s) [.x par.fill b] rest ∧ (pollAndRead par s).ticks = more ∧
      (pollAndRead par s).time = s.time + d := by
  obtain ⟨hb, hran⟩ := poll_ran par hm
  have hticks : (poll par s).2.ticks = d :: more := ht
  refine ⟨hb, ⟨hran.only.trans (now_busOnly _), hran.trace, hran.miso⟩, ?_, nextTime_given hticks⟩
  rw [pollAndRead_ticks, ht, List.tail_cons]

/-! ### The deadline (R290) -/

theorem startDeadline_deadline (T : Nat) (s : State) : (startDeadline T s).deadline = T + (startDeadline T s).time := rfl

theorem startDeadline_given (T : Nat) (ht : s.ticks = first :: more) :
    (startDeadline T s).time = s.time + first ∧ (startDeadline T s).ticks = more :=
  ⟨nextTime_given ht, congrArg List.tail ht⟩

/-- A wait just begun may count as far as its budget and the readings given. -/
theorem startDeadline_patience (T : Nat) (s : State) :
    patience (startDeadline T s).deadline (startDeadline T s) = s.ticks.tail.length + T :=
  congrArg (s.ticks.tail.length + ·) (Nat.add_sub_cancel ..)

/-! ### The not-busy wait (R291) -/

theorem notBusyLoop_of_ready (n : Nat) (h : (poll par s).1 = 0xFF) : notBusyLoop par (n + 1) s = (poll par s).2 :=
  if_pos (beq_iff_eq.2 h)

theorem notBusyLoop_of_late (n : Nat) (h : (poll par s).1 ≠ 0xFF) (hd : s.deadline ≤ (pollAndRead par s).time) :
    notBusyLoop par (n + 1) s = pollAndRead par s :=
  (if_neg fun hb => h (eq_of_beq hb)).trans (if_pos (decide_eq_true hd))

theorem notBusyLoop_of_early (n : Nat) (h : (poll par s).1 ≠ 0xFF) (hd : (pollAndRead par s).time < s.deadline) :
    notBusyLoop par (n + 1) s = notBusyLoop par n (pollAndRead par s) :=
  (if_neg fun hb => h (eq_of_beq hb)).trans (if_neg fun he => Nat.not_le.2 hd (of_decide_eq_true he))

/-- From `s` to `t` the not-busy wait has polled the bytes `busy` and then `last`, and had a reason to end there. -/
structure WaitedNotBusy (par : Params) (busy : List Byte) (last : Byte) (s t : State) : Prop where
  trace : t.trace = (reads par (busy ++ [last])).reverse ++ s.trace
  busy : ∀ b ∈ busy, b ≠ 0xFF
  resp : t.resp = last
  done : last = 0xFF ∨ t.deadline ≤ t.time
  deadline : t.deadline = s.deadline

/-- A wait that goes on has polled one byte more. -/
theorem WaitedNotBusy.cons (hb : (poll par s).1 ≠ 0xFF) (h : WaitedNotBusy par busy last (pollAndRead par s) t) :
    WaitedNotBusy par ((poll par s).1 :: busy) last s t where
  trace := by rw [h.trace, pollAndRead_trace]; simp [reads]
  busy := List.forall_mem_cons.2 ⟨hb, h.busy⟩
  resp := h.resp
  done := h.done
  deadline := h.deadline

/-- The loop that may count further than readings can be made before its deadline never ends by its count (log 14). -/
theorem notBusyLoop_outcome (hn : patience s.deadline s < n) :
    ∃ busy last, WaitedNotBusy par busy last s (notBusyLoop par n s) := by
  induction n generalizing s with
  | zero => exact absurd hn (Nat.not_lt_zero _)
  | succ n ih =>
    by_cases hb : (poll par s).1 = 0xFF
    · rw [notBusyLoop_of_ready n hb]
      exact ⟨[], _, rfl, nofun, rfl, .inl hb, rfl⟩
    · by_cases hd : s.deadline ≤ (pollAndRead par s).time
      · rw [notBusyLoop_of_late n hb hd]
        exact ⟨[], _, rfl, nofun, rfl, .inr hd, rfl⟩
      · rw [notBusyLoop_of_early n hb (Nat.not_le.1 hd)]
        have hnear := (pollAndRead_patience par s).resolve_left hd
        obtain ⟨busy, last, h⟩ := ih (s := pollAndRead par s) (Nat.lt_of_lt_of_le hnear (Nat.le_of_lt_succ hn))
        exact ⟨_, last, h.cons hb⟩

theorem waitNotBusy_outcome (par : Params) (budget : Nat) (s : State) :
    ∃ busy last, WaitedNotBusy par busy last (startDeadline budget s) (waitNotBusy par budget s) :=
  notBusyLoop_outcome (Nat.lt_succ_self _)

/-! ### Each use of the not-busy wait on a card that is busy until the budget has run out -/

/-- A command waits, sends its frame and is answered, all the same (R241). -/
theorem command_busy {code : BitVec 6} {arg : U32} {crc r : Byte} {ignored : List Byte} (hcode : code ≠ par.cmdStop)
    (hbusy : BusyUntil (par.units par.tCmdBusy) busy ticks) (hi : ignored.length = 6) (hr : r.getLsbD 7 = false)
    (hm : s.miso = busy ++ (ignored ++ r :: rest)) (ht : s.ticks = ticks ++ more) :
    Ran s (command par code arg crc s).2
        (selectEvent s ++ reads par busy ++ exchanges (frameBytes code arg crc) ignored ++ reads par [r]) rest ∧
      (command par code arg crc s).2.r1 = r ∧ (command par code arg crc s).2.ticks = more := by
  obtain ⟨hwait, hmore⟩ := waitNotBusy_busy par (s := setCs false s) hbusy hm ht
  obtain ⟨hsent, -, hticks⟩ := sendCommand_after par arg crc hcode hi hwait
  obtain ⟨hran, -, -, hr1, -⟩ := command_answered (skipped := []) hsent nofun (Nat.zero_lt_succ _) hr
  exact ⟨hran, hr1, (respPoll_ticks ..).trans (hticks.trans hmore)⟩

/-- A data packet that is accepted ends well, all the same (R333). -/
theorem sendDataPacket_busy {token response : Byte} {src during : List Byte} (hl : 512 ≤ src.length)
    (hd : during.length = 515) (hr : response.extractLsb 4 0 = 5#5) (hbusy : BusyUntil (par.units P.tWriteBusy) busy ticks)
    (hm : s.miso = during ++ response :: (busy ++ rest)) (ht : s.ticks = ticks ++ more) :
    ∃ t, sendDataPacket par token src s = .ok () t ∧
      Ran s t (exchanges (token :: src.take 512 ++ [par.crcDummy, par.crcDummy]) during ++ reads par (response :: busy))
        rest ∧
      t.ticks = more ∧ t.cs = s.cs := by
  have hlen : (packetBytes par token src).length = during.length := by
    simp [packetBytes, P.blockSize, hd]
    omega
  obtain ⟨hsent, hcs, -⟩ := xferWrite_ran hm hlen
  obtain ⟨hresponse, hpoll⟩ := poll_ran par hsent.miso
  obtain ⟨hwait, hmore⟩ := waitNotBusy_busy par hbusy hpoll.miso ((xferWrite_ticks _ s).trans ht)
  obtain ⟨-, hkept, -⟩ := waitNotBusy_spec par (par.units P.tWriteBusy) (poll par (xferWrite (packetBytes par token src) s)).2
  have haccepted : isAccepted response = true := by rw [isAccepted_bits]; exact decide_eq_true hr
  exact ⟨_, bind_ok (update_ok _ s) (bind_ok (bus_ok hresponse) (ite_then haccepted rfl)),
    ((hsent.trans hpoll).trans hwait).cast (List.append_assoc ..) rfl, hmore, hkept.trans hcs⟩

/-- The end of a multi-block write releases chip-select, all the same (R336). -/
theorem writeMultiStop_busy {y z : Byte} (hbusy : BusyUntil (par.units par.tStopBusy) busy ticks)
    (hm : s.miso = y :: z :: (busy ++ rest)) (ht : s.ticks = ticks ++ more) (hcs : s.cs = false) :
    Ran s (writeMultiStop par s) ([.x 0xFD y, .x par.fill z] ++ reads par busy ++ [.cs true]) rest ∧
      (writeMultiStop par s).ticks = more := by
  obtain ⟨hsent, hlow, -⟩ := xferWrite_ran (bs := [y, z]) (out := [P.tokenStop, par.fill]) hm rfl
  obtain ⟨hwait, hmore⟩ := waitNotBusy_busy par hbusy hsent.miso ((xferWrite_ticks _ s).trans ht)
  obtain ⟨-, hkept, -⟩ := waitNotBusy_spec par (par.units par.tStopBusy) (xferWrite [P.tokenStop, par.fill] s)
  have hrelease := setCs_ran true (waitNotBusy par (par.units par.tStopBusy) (xferWrite [P.tokenStop, par.fill] s))
  rw [hkept, hlow, hcs] at hrelease
  exact ⟨((hsent.trans hwait).trans hrelease).cast rfl hwait.miso, hmore⟩

/-- Settles O18: the outcome of every run, and the late run of the wait and of each of its three uses. -/
theorem waitNotBusyOutcome : Obligations.WaitNotBusyOutcome := by
  unfold Obligations.WaitNotBusyOutcome
  refine ⟨?_, ?_, ?_, ?_, ?_⟩
  · intro par budget s
    obtain ⟨busy, last, h⟩ := waitNotBusy_outcome par budget s
    obtain ⟨hbus, hcs, -⟩ := waitNotBusy_spec par budget s
    exact ⟨busy, last, eventsBetween_of h.trace, h.busy, h.resp, h.done, h.deadline.trans (Nat.add_comm ..), hcs, hbus⟩
  · intro par budget s busy rest ticks more hbusy hm ht
    obtain ⟨hran, hticks⟩ := waitNotBusy_busy par hbusy hm ht
    exact ⟨hran.events, hran.miso, hticks⟩
  · intro i s busy ignored rest r ticks more hlegal hi hne hbusy hignored hr hm ht
    obtain ⟨code, arg, crc, hexec, hencode, hcode⟩ := exec_frame_command hi s
    obtain ⟨hran, hr1, hticks⟩ := command_busy (hcode hlegal hne) hbusy hignored hr hm ht
    exact ⟨_, hexec, hr1, hran.miso, hticks, hencode ▸ hran.events⟩
  · intro par token src during busy rest response s ticks more hl hd hr hbusy hm ht
    obtain ⟨t, hrun, hran, hticks, hcs⟩ := sendDataPacket_busy hl hd hr hbusy hm ht
    exact ⟨t, hrun, hran.miso, hticks, hcs, hran.events⟩
  · intro par busy rest y z s ticks more hbusy hm ht hcs
    obtain ⟨hran, hticks⟩ := writeMultiStop_busy hbusy hm ht hcs
    exact ⟨hran.miso, hticks, rfl, hran.events⟩

/-! ### The number of polls (R292) -/

/-- A deadline that has come is passed at the next reading. -/
theorem notBusyLoop_expired (n : Nat) (h : s.deadline ≤ s.time) :
    eventsBetween s (notBusyLoop par (n + 1) s) = reads par [(poll par s).1] := by
  by_cases hb : (poll par s).1 = 0xFF
  · rw [notBusyLoop_of_ready n hb]
    exact eventsBetween_of rfl
  · rw [notBusyLoop_of_late n hb (Nat.le_trans h (nextTime_le (poll par s).2))]
    exact eventsBetween_of rfl

/-- What a wait looks at is the same in both states: the returned bytes, the readings, and how far the deadline is. -/
structure SameWait (s s' : State) : Prop where
  miso : s'.miso = s.miso
  ticks : s'.ticks = s.ticks
  draws : s'.draws = s.draws
  distance : s'.deadline + s.time = s.deadline + s'.time

theorem nextByte_congr (hm : s'.miso = s.miso) (hd : s'.draws = s.draws) : nextByte s' = nextByte s := by
  unfold nextByte
  rw [hm, hd]

/-- Where the readings are the same, the clock goes on by the same amount. -/
theorem nextTime_congr (ht : s'.ticks = s.ticks) (hd : s'.draws = s.draws) :
    nextTime s' + s.time = nextTime s + s'.time := by
  unfold nextTime
  rw [ht, hd]
  split <;> omega

theorem SameWait.poll_fst (h : SameWait s s') (par : Params) : (poll par s').1 = (poll par s).1 := nextByte_congr h.miso h.draws

theorem SameWait.time_add (h : SameWait s s') (par : Params) :
    (pollAndRead par s').time + s.time = (pollAndRead par s).time + s'.time :=
  nextTime_congr (s := (poll par s).2) (s' := (poll par s').2) h.ticks
    (by rw [poll_draws, poll_draws, h.miso, h.draws])

theorem SameWait.goOn (h : SameWait s s') (par : Params) :
    SameWait (pollAndRead par s) (pollAndRead par s') where
  miso := congrArg List.tail h.miso
  ticks := congrArg List.tail h.ticks
  draws := by rw [pollAndRead_draws, pollAndRead_draws, h.miso, h.ticks, h.draws]
  distance := by
    have htime := h.time_add par
    have hdistance := h.distance
    rw [pollAndRead_deadline, pollAndRead_deadline]
    omega

/-- The polls of the loop are set by what it looks at. -/
theorem notBusyLoop_sameWait (h : SameWait s s') (n : Nat) :
    ∃ polls, (notBusyLoop par n s).trace = (reads par polls).reverse ++ s.trace ∧
      (notBusyLoop par n s').trace = (reads par polls).reverse ++ s'.trace := by
  induction n generalizing s s' with
  | zero => exact ⟨[], rfl, rfl⟩
  | succ n ih =>
    have hpoll := h.poll_fst par
    have htime := h.time_add par
    have hdistance := h.distance
    by_cases hb : (poll par s).1 = 0xFF
    · rw [notBusyLoop_of_ready n hb, notBusyLoop_of_ready n (hpoll.trans hb)]
      exact ⟨[(poll par s).1], rfl, congrArg (fun b => Event.x par.fill b :: s'.trace) hpoll⟩
    · have hb' : (poll par s').1 ≠ 0xFF := hpoll ▸ hb
      by_cases hd : s.deadline ≤ (pollAndRead par s).time
      · rw [notBusyLoop_of_late n hb hd, notBusyLoop_of_late n hb' (by omega)]
        exact ⟨[(poll par s).1], rfl, congrArg (fun b => Event.x par.fill b :: s'.trace) hpoll⟩
      · obtain ⟨polls, hs, hs'⟩ := ih (h.goOn par)
        rw [notBusyLoop_of_early n hb (by omega), notBusyLoop_of_early n hb' (by omega), hs, hs', pollAndRead_trace,
          pollAndRead_trace, hpoll]
        exact ⟨(poll par s).1 :: polls, by simp [reads], by simp [reads]⟩

theorem startDeadline_sameWait (T : Nat) (hm : s'.miso = s.miso) (ht : s'.ticks = s.ticks) (hd : s'.draws = s.draws) :
    SameWait (startDeadline T s) (startDeadline T s') where
  miso := hm
  ticks := congrArg List.tail ht
  draws := congrArg₂ drawsAfter ht hd
  distance := by
    rw [startDeadline_deadline, startDeadline_deadline]
    omega

theorem waitNotBusy_events_congr (hm : s'.miso = s.miso) (ht : s'.ticks = s.ticks) (hd : s'.draws = s.draws) :
    eventsBetween s' (waitNotBusy par budget s') = eventsBetween s (waitNotBusy par budget s) := by
  unfold waitNotBusy
  rw [startDeadline_patience, startDeadline_patience, ht]
  obtain ⟨polls, hs, hs'⟩ := notBusyLoop_sameWait (par := par) (startDeadline_sameWait budget hm ht hd)
    (s.ticks.tail.length + budget + 1)
  exact (eventsBetween_of hs').trans (eventsBetween_of hs).symm

/-- A card that is done before the deadline: the loop polls until the first 0xFF. -/
theorem notBusyLoop_done (hb : ∀ b ∈ busy, b ≠ 0xFF) (hl : readings.length = busy.length)
    (hm : s.miso = busy ++ 0xFF :: rest) (ht : s.ticks = readings ++ more) (hd : s.time + readings.sum < s.deadline)
    (hn : busy.length < n) :
    Ran s (notBusyLoop par n s) (reads par (busy ++ [0xFF])) rest := by
  obtain ⟨n, rfl⟩ : ∃ k, n = k + 1 := Nat.exists_eq_add_one_of_ne_zero (Nat.ne_zero_of_lt hn)
  induction busy generalizing s readings n with
  | nil =>
    obtain ⟨hpoll, hran⟩ := poll_ran par hm
    rw [notBusyLoop_of_ready n hpoll]
    exact hran
  | cons b busy ih =>
    obtain ⟨d, readings, rfl⟩ := List.exists_cons_of_length_eq_add_one hl
    rw [List.sum_cons] at hd
    obtain ⟨hpoll, hran, hticks, htime⟩ := pollAndRead_given par hm ht
    have hdl := pollAndRead_deadline par s
    rw [List.length_cons] at hl hn
    obtain ⟨n, rfl⟩ : ∃ k, n = k + 1 := ⟨n - 1, by omega⟩
    rw [notBusyLoop_of_early _ (hpoll ▸ hb b (List.mem_cons_self ..)) (by omega)]
    exact hran.trans (ih (fun x hx => hb x (List.mem_cons_of_mem _ hx)) (by simpa using hl) hran.miso hticks
      (by omega) n (by omega))

theorem waitNotBusy_done (hb : ∀ b ∈ busy, b ≠ 0xFF) (hl : readings.length = busy.length)
    (hm : s.miso = busy ++ 0xFF :: rest) (ht : s.ticks = first :: (readings ++ more)) (hd : readings.sum < budget) :
    eventsBetween s (waitNotBusy par budget s) = reads par (busy ++ [0xFF]) := by
  obtain ⟨htime, hticks⟩ := startDeadline_given budget ht
  have hdl := startDeadline_deadline budget s
  refine eventsBetween_of (notBusyLoop_done (s := startDeadline budget s) hb hl hm hticks (by omega) ?_).trace
  rw [startDeadline_patience, ht, List.tail_cons, List.length_append]
  omega

/-- Settles O19: the first poll ends a wait of no duration; the polls of any other are found step by step. -/
theorem waitNotBusyBound : Obligations.WaitNotBusyBound := by
  unfold Obligations.WaitNotBusyBound
  refine ⟨?_, ?_, fun par budget s s' => waitNotBusy_events_congr, ?_⟩
  · intro par s
    have hd : (startDeadline 0 s).deadline ≤ (startDeadline 0 s).time := (Nat.zero_add _).le
    exact (congrArg exchangeCount (notBusyLoop_expired _ hd)).trans (exchangeCount_reads ..)
  · intro par budget s
    obtain ⟨busy, last, h⟩ := waitNotBusy_outcome par budget s
    exact ⟨busy ++ [last], by simp, eventsBetween_of h.trace⟩
  · intro par budget first second third s rest more hm ht hd
    exact waitNotBusy_done (busy := [0x00, 0x00]) (readings := [second, third]) (by decide) rfl hm ht (by simpa using hd)

/-! ### The start-token wait (R293) -/

theorem startBlockLoop_of_token (n : Nat) (h : (poll par s).1 = 0xFE) :
    startBlockLoop par (n + 1) s = .ok () (poll par s).2 :=
  bind_ok (bus_ok h) rfl

theorem startBlockLoop_of_wrong (n : Nat) (h1 : (poll par s).1 ≠ 0xFF) (h2 : (poll par s).1 ≠ 0xFE) :
    startBlockLoop par (n + 1) s = .error .startBlock (setCs true (poll par s).2) :=
  bind_ok (bus_ok rfl) (ite_else h1 (ite_else h2 rfl))

theorem startBlockLoop_of_late (n : Nat) (h : (poll par s).1 = 0xFF) (hd : s.deadline ≤ (pollAndRead par s).time) :
    startBlockLoop par (n + 1) s = .error .startBlock (setCs true (pollAndRead par s)) :=
  bind_ok (bus_ok h) (bind_ok (get_ok _) (bind_ok (bus_ok rfl) (ite_then (decide_eq_true hd) rfl)))

theorem startBlockLoop_of_early (n : Nat) (h : (poll par s).1 = 0xFF) (hd : (pollAndRead par s).time < s.deadline) :
    startBlockLoop par (n + 1) s = startBlockLoop par n (pollAndRead par s) :=
  bind_ok (bus_ok h) (bind_ok (get_ok _) (bind_ok (bus_ok rfl)
    (ite_else (fun he => Nat.not_le.2 hd (of_decide_eq_true he)) rfl)))

theorem waitStartBlock_eq_loop (par : Params) (s : State) :
    waitStartBlock par s = startBlockLoop par (s.ticks.tail.length + par.units P.tStart + 1)
      (startDeadline (par.units P.tStart) s) := by
  rw [← startDeadline_patience]
  rfl

/-- From `s` to `t` the start-token wait has polled bytes 0xFF and then the start token. -/
def TookToken (par : Params) (s t : State) : Prop :=
  ∃ n, t.trace = (reads par (List.replicate n 0xFF ++ [0xFE])).reverse ++ s.trace

/-- From `s` to `t` the start-token wait has polled bytes 0xFF and then a byte that ends it without a token, and has
released chip-select. -/
def MissedToken (par : Params) (s t : State) : Prop :=
  ∃ (n : Nat) (b : Byte), t.trace = (reads par (List.replicate n 0xFF ++ [b]) ++ releaseEvent s).reverse ++ s.trace ∧
    b ≠ 0xFE ∧ (b = 0xFF → t.deadline ≤ t.time)

theorem TookToken.cons (hb : (poll par s).1 = 0xFF) (h : TookToken par (pollAndRead par s) t) : TookToken par s t := by
  obtain ⟨n, ht⟩ := h
  refine ⟨n + 1, ?_⟩
  rw [ht, pollAndRead_trace, hb]
  simp [reads, List.replicate_succ]

theorem MissedToken.cons (hb : (poll par s).1 = 0xFF) (h : MissedToken par (pollAndRead par s) t) :
    MissedToken par s t := by
  obtain ⟨n, b, ht, hend⟩ := h
  refine ⟨n + 1, b, ?_, hend⟩
  rw [ht, pollAndRead_trace, hb, show releaseEvent (pollAndRead par s) = releaseEvent s from rfl]
  simp [reads, List.replicate_succ]

/-- Releasing chip-select behind a wait puts its event, if there is one, behind those of the wait. -/
theorem setCs_trace_release {es : List Event} {u : State} (ht : u.trace = es.reverse ++ s.trace) (hcs : u.cs = s.cs) :
    (setCs true u).trace = (es ++ releaseEvent s).reverse ++ s.trace := by
  rw [setCs_trace, hcs, ht]
  unfold releaseEvent
  split <;> simp

/-- The loop that may count further than readings can be made before its deadline never ends by its count (log 14). -/
theorem startBlockLoop_outcome (hn : patience s.deadline s < n) :
    Ends (startBlockLoop par n) s (fun _ t => TookToken par s t)
      (fun _ t => MissedToken par s t ∧ t.deadline = s.deadline) := by
  induction n generalizing s with
  | zero => exact absurd hn (Nat.not_lt_zero _)
  | succ n ih =>
    unfold Ends
    by_cases hidle : (poll par s).1 = 0xFF
    · by_cases hd : s.deadline ≤ (pollAndRead par s).time
      · rw [startBlockLoop_of_late n hidle hd]
        exact ⟨⟨0, 0xFF, setCs_trace_release (hidle ▸ rfl) rfl, by decide, fun _ => hd⟩, rfl⟩
      · rw [startBlockLoop_of_early n hidle (Nat.not_le.1 hd)]
        have hnear := (pollAndRead_patience par s).resolve_left hd
        exact (ih (s := pollAndRead par s) (Nat.lt_of_lt_of_le hnear (Nat.le_of_lt_succ hn))).mono
          (fun _ _ h => h.cons hidle) fun _ _ h => ⟨h.1.cons hidle, h.2⟩
    · by_cases htoken : (poll par s).1 = 0xFE
      · rw [startBlockLoop_of_token n htoken]
        exact ⟨0, htoken ▸ rfl⟩
      · rw [startBlockLoop_of_wrong n hidle htoken]
        exact ⟨⟨0, _, setCs_trace_release rfl rfl, htoken, fun h => absurd h hidle⟩, rfl⟩

theorem waitStartBlock_outcome (par : Params) (s : State) :
    Ends (waitStartBlock par) s (fun _ t => TookToken par s t)
      (fun _ t => MissedToken par s t ∧ t.deadline = nextTime s + par.units P.tStart) :=
  .bind (.update (.getBind ((startBlockLoop_outcome (Nat.lt_succ_self _)).mono (fun _ _ h => h)
    fun _ _ ⟨hmissed, hd⟩ => ⟨hmissed, hd.trans (Nat.add_comm ..)⟩)))

/-- A card that returns 0xFF until the deadline (R293). -/
theorem waitStartBlock_late (hx : Expires 1 (par.units P.tStart) n ticks) (hm : s.miso = List.replicate n 0xFF ++ rest)
    (ht : s.ticks = ticks ++ more) :
    ∃ t, waitStartBlock par s = .error .startBlock t ∧ t.cs = true ∧ t.ticks = more ∧ t.miso = rest ∧
      eventsBetween s t = reads par (List.replicate n 0xFF) ++ releaseEvent s := by
  obtain ⟨first, early, lasts, rfl, hlast, hearly, hbefore, hafter⟩ := hx
  obtain ⟨last, rfl⟩ := List.length_eq_one_iff.1 hlast
  obtain rfl : early.length + 1 = n := by omega
  rw [List.cons_append, List.append_assoc] at ht
  rw [List.sum_singleton] at hafter
  obtain ⟨htime, hticks⟩ := startDeadline_given (par.units P.tStart) ht
  have hdl := startDeadline_deadline (par.units P.tStart) s
  obtain ⟨t, hrun, hcs, hmore, hran⟩ := startBlockLoop_late par (s := startDeadline (par.units P.tStart) s)
    (n := s.ticks.tail.length + par.units P.tStart + 1) hm hticks (by omega) (by omega) (by
      rw [ht, List.tail_cons, List.length_append]
      omega)
  exact ⟨t, (waitStartBlock_eq_loop par s).trans hrun, hcs, hmore, hran.miso, eventsBetween_of hran.trace⟩

/-- Settles O20: the outcome of every run by induction on the count, and the late run reading by reading. -/
theorem waitStartBlockOutcome : Obligations.WaitStartBlockOutcome := by
  unfold Obligations.WaitStartBlockOutcome
  constructor
  · intro par s
    refine ((waitStartBlock_spec par s).and (waitStartBlock_outcome par s)).mono ?_ ?_
    · rintro _ t ⟨⟨hbus, hcs, -⟩, n, htrace⟩
      exact ⟨hbus, hcs, n, eventsBetween_of htrace⟩
    · rintro e t ⟨⟨hbus, hcs, -, he⟩, ⟨n, b, htrace, hend⟩, hd⟩
      exact ⟨hbus, he, hcs, hd, n, b, eventsBetween_of htrace, hend⟩
  · intro par s n rest ticks more hx hm ht
    obtain ⟨t, hrun, hcs, hmore, hmiso, hevents⟩ := waitStartBlock_late hx hm ht
    exact ⟨t, hrun, hcs, hmiso, hmore, hevents⟩

/-- A token that comes before the deadline is taken (R293, D5). -/
theorem startBlockLoop_takes (hm : s.miso = List.replicate readings.length 0xFF ++ 0xFE :: rest)
    (ht : s.ticks = readings ++ more) (hd : s.time + readings.sum < s.deadline) (hn : readings.length < n) :
    ∃ t, startBlockLoop par n s = .ok () t ∧
      Ran s t (reads par (List.replicate readings.length 0xFF ++ [0xFE])) rest ∧ t.cs = s.cs ∧ t.ticks = more := by
  obtain ⟨n, rfl⟩ : ∃ k, n = k + 1 := Nat.exists_eq_add_one_of_ne_zero (Nat.ne_zero_of_lt hn)
  induction readings generalizing s n with
  | nil =>
    obtain ⟨hpoll, hran⟩ := poll_ran par hm
    exact ⟨_, startBlockLoop_of_token n hpoll, hran, rfl, ht⟩
  | cons d readings ih =>
    rw [List.sum_cons] at hd
    obtain ⟨hpoll, hran, hticks, htime⟩ := pollAndRead_given par (hm.trans rfl) ht
    have hdl := pollAndRead_deadline par s
    rw [List.length_cons] at hn
    obtain ⟨n, rfl⟩ : ∃ k, n = k + 1 := ⟨n - 1, by omega⟩
    obtain ⟨t, hrun, hran', hcs, hmore⟩ := ih hran.miso hticks (by omega) n (by omega)
    exact ⟨t, (startBlockLoop_of_early _ hpoll (by omega)).trans hrun, hran.trans hran', hcs, hmore⟩

/-- Settles O21: the readings made before the token stay below the deadline, and none is made after it. -/
theorem tokenBeatsClock : Obligations.TokenBeatsClock := by
  unfold Obligations.TokenBeatsClock
  rintro par s _ rest first readings more hm ht rfl hd
  obtain ⟨htime, hticks⟩ := startDeadline_given (par.units P.tStart) ht
  have hdl := startDeadline_deadline (par.units P.tStart) s
  have hbudget : readings.sum < par.units P.tStart := hd
  obtain ⟨t, hrun, hran, hcs, hmore⟩ := startBlockLoop_takes (par := par) (s := startDeadline (par.units P.tStart) s)
    (n := s.ticks.tail.length + par.units P.tStart + 1) hm hticks (by omega) (by
      rw [ht, List.tail_cons, List.length_append]
      omega)
  exact ⟨t, (waitStartBlock_eq_loop par s).trans hrun, hran.miso, hcs, hmore, eventsBetween_of hran.trace⟩

end Sys2Proof.Machine

/-! PROOFS. The family of the registers (43_registers.md): the fields of a register image, the layout that its structure
field selects, the capacity, and a register read on a script. -/

namespace Sys2Proof.Machine

variable {par : Params} {i : Instr} {s t : State} {img others rest : List Byte} {r : Byte} {code : BitVec 6}
  {start len m v n : Nat} {ticks more : List Nat}

/-! ### Bits of a word whose last byte is named -/

/-- Bits above the last byte are bits of what stands in front of it. -/
@[simp] theorem extractLsb'_append_byte_above (x : BitVec v) (b : Byte) :
    (x ++ b).extractLsb' (start + 8) len = x.extractLsb' start len := by
  rw [BitVec.extractLsb'_append_eq_of_le (Nat.le_add_left 8 start), Nat.add_sub_cancel]

/-- Bits within the last byte are bits of it. -/
@[simp] theorem extractLsb'_append_byte_within (x : BitVec v) (b : Byte) (h : start + len ≤ 8) :
    (x ++ b).extractLsb' start len = b.extractLsb' start len :=
  BitVec.extractLsb'_append_eq_of_add_le h

/-- Bits that begin in the last byte and go on above it: its upper `k` bits, and `m` bits in front of them. With
`m` zero the bits are within the byte, which is the case above. -/
theorem extractLsb'_append_byte_across (k : Nat) (x : BitVec v) (b : Byte) (h : start + k = 8) (_ : 0 < m) :
    (x ++ b).extractLsb' start (m + k) = x.extractLsb' 0 m ++ b.extractLsb' start k := by
  have habove : (x ++ b).extractLsb' (start + k) m = x.extractLsb' 0 m := by
    rw [h]
    exact extractLsb'_append_byte_above (start := 0) x b
  rw [← BitVec.extractLsb'_append_extractLsb'_eq_extractLsb' rfl, habove, extractLsb'_append_byte_within x b h.le]

/-! ### The fields of an image, byte by byte (R303, R306, R307) -/

/-- Settles O28: each field is some whole bytes of the image, and the month-year field begins with the lower half of one. -/
theorem decodeCidFields : Obligations.DecodeCidFields := by
  unfold Obligations.DecodeCidFields
  intro b0 b1 b2 b3 b4 b5 b6 b7 b8 b9 b10 b11 b12 b13 b14 b15
  simp [decodeCid, regValue_bytes, BitVec.extractLsb, extractLsb'_append_byte_across 8]

/-- The structure field is the top of the first byte (R305). -/
theorem csdStructure_cons (b : Byte) (h : others.length = 15) : csdStructure (b :: others) = b.extractLsb 7 6 := by
  obtain ⟨b0, b1, b2, b3, b4, b5, b6, b7, b8, b9, b10, b11, b12, b13, b14, b15, himg⟩ :=
    image_bytes (img := b :: others) (congrArg (· + 1) h)
  obtain ⟨rfl, rfl⟩ := List.cons.inj himg
  simp [csdStructure, regValue_bytes, BitVec.extractLsb]

theorem decodeCsd_of_zero (h : csdStructure img = 0#2) : decodeCsd img = .v1 (decodeCsdV1 img) := if_pos h

theorem decodeCsd_of_one (h : csdStructure img = 1#2) : decodeCsd img = .v2 (decodeCsdV2 img) :=
  (if_neg (by rw [h]; decide)).trans (if_pos h)

/-- With structure 2 or 3 the record is bit 0 of the structure field (R310). -/
theorem decodeCsd_of_two_three (h0 : csdStructure img ≠ 0#2) (h1 : csdStructure img ≠ 1#2) :
    decodeCsd img = .noLayout ((csdStructure img).extractLsb 0 0) := by
  have hlow : (csdStructure img).extractLsb 0 0 = (regValue img).extractLsb 126 126 := by
    ext j hj
    obtain rfl : j = 0 := Nat.lt_one_iff.1 hj
    simp [csdStructure]
  rw [decodeCsd, if_neg h0, if_neg h1, ← hlow]

/-- Settles O29: a field lies within one byte of the image or goes on from one byte to those in front of it. -/
theorem decodeCsdV1Fields : Obligations.DecodeCsdV1Fields := by
  unfold Obligations.DecodeCsdV1Fields
  intro b0 b1 b2 b3 b4 b5 b6 b7 b8 b9 b10 b11 b12 b13 b14 b15 h
  rw [decodeCsd_of_zero ((csdStructure_cons b0 rfl).trans h)]
  simp [decodeCsdV1, decodeCsdCommon, regValue_bytes, BitVec.extractLsb, extractLsb'_append_byte_across 8,
    extractLsb'_append_byte_across 4, extractLsb'_append_byte_across 2, extractLsb'_append_byte_across 1]

/-- Settles O30: only C_SIZE is read at other places than the version 1 layout has. -/
theorem decodeCsdV2Fields : Obligations.DecodeCsdV2Fields := by
  unfold Obligations.DecodeCsdV2Fields
  intro b0 b1 b2 b3 b4 b5 b6 b7 b8 b9 b10 b11 b12 b13 b14 b15 h
  refine ⟨_, decodeCsd_of_one ((csdStructure_cons b0 rfl).trans h), ?_, rfl⟩
  simp [decodeCsdV2, regValue_bytes, BitVec.extractLsb, extractLsb'_append_byte_across 8]

/-! ### The layout that the structure field selects (R305, R310) -/

/-- A structure field that is neither 0 nor 1 has its upper bit set, and bit 0 tells the rest. -/
theorem structure_two_three : ∀ x : BitVec 2, x ≠ 0#2 → x ≠ 1#2 → 1#1 ++ x.extractLsb 0 0 = x ∧ x.getLsbD 1 = true := by
  decide

/-- The record holds the structure field of its image, and has no capacity exactly if the upper bit of that is set. -/
theorem decodeCsd_structure (img : List Byte) : (decodeCsd img).structureField = csdStructure img ∧
    (capacity (decodeCsd img) = none ↔ (csdStructure img).getLsbD 1 = true) := by
  by_cases h0 : csdStructure img = 0#2
  · rw [decodeCsd_of_zero h0, h0]
    exact ⟨rfl, nofun, nofun⟩
  by_cases h1 : csdStructure img = 1#2
  · rw [decodeCsd_of_one h1, h1]
    exact ⟨rfl, nofun, nofun⟩
  · rw [decodeCsd_of_two_three h0 h1]
    obtain ⟨hfield, hupper⟩ := structure_two_three _ h0 h1
    exact ⟨hfield, fun _ => hupper, fun _ => rfl⟩

/-- Settles O31: the structure field of the record is that of the image, the top of its first byte. -/
theorem csdStructureSelects : Obligations.CsdStructureSelects := by
  unfold Obligations.CsdStructureSelects
  intro b0 others h
  obtain ⟨hfield, hcapacity⟩ := decodeCsd_structure (b0 :: others)
  rw [csdStructure_cons b0 h] at hfield hcapacity
  have hupper : (b0.extractLsb 7 6).getLsbD 1 = b0.getLsbD 7 := by rw [BitVec.getLsbD_extractLsb]; rfl
  exact ⟨hfield, hupper ▸ hcapacity⟩

/-! ### The rows of the first byte of a CSD image (R305) -/

theorem csdStructure_set (b : Byte) (h : img.length = 16) : csdStructure (img.set 0 b) = b.extractLsb 7 6 := by
  obtain ⟨b0, others, rfl⟩ := List.exists_cons_of_length_eq_add_one h
  exact csdStructure_cons b (Nat.succ.inj h)

/-- Bit 0 of the structure field is the top of the free bits of CSD0.none. -/
theorem csdNoneByte_low (bits : BitVec 7) : ((csdNoneByte bits).extractLsb 7 6).extractLsb 0 0 = bits.extractLsb 6 6 := by
  revert bits; decide

/-- Every row of the first byte puts its byte in place and decodes the image as `decodeCsd` does. -/
theorem exec_csd0 (hi : i.place = .csd0) (hl : s.regImg.length = 16) : ∃ b, encode s.par i = [b] ∧
    exec i s = .next { s with regImg := s.regImg.set 0 b, csdNew := decodeCsd (s.regImg.set 0 b) } := by
  cases i with
  | csd0V1 bits =>
    refine ⟨_, rfl, ?_⟩
    rw [decodeCsd_of_zero ((csdStructure_set _ hl).trans (csdV1Byte_rest bits).1)]
    rfl
  | csd0V2 bits =>
    refine ⟨_, rfl, ?_⟩
    rw [decodeCsd_of_one ((csdStructure_set _ hl).trans (csdV2Byte_rest bits).1)]
    rfl
  | csd0None bits =>
    obtain ⟨h0, h1, -⟩ := csdNoneByte_rest bits
    have hfield := csdStructure_set (csdNoneByte bits) hl
    refine ⟨_, rfl, ?_⟩
    rw [decodeCsd_of_two_three (hfield ▸ h0) (hfield ▸ h1), hfield, csdNoneByte_low]
    rfl
  | _ => cases hi

/-- The register image and the new record are outside the frame of a received row. -/
theorem RowFrame.image (s : State) (img : List Byte) (csd : Csd) : RowFrame s { s with regImg := img, csdNew := csd } :=
  ⟨rfl, rfl, rfl, ⟨rfl, rfl, rfl, rfl, rfl⟩, ⟨rfl, rfl⟩, rfl, rfl, rfl, rfl, rfl, rfl, ⟨rfl, fun _ => rfl⟩, rfl, rfl, rfl,
    rfl, rfl, rfl⟩

/-- Settles O17: a row stores its byte and decodes the image, and the structure field is the top of that byte. -/
theorem csdFirstByteRows : Obligations.CsdFirstByteRows := by
  unfold Obligations.CsdFirstByteRows
  intro i s hi hl
  obtain ⟨b, hencode, hexec⟩ := exec_csd0 hi hl
  obtain ⟨hfield, -⟩ := decodeCsd_structure (s.regImg.set 0 b)
  exact ⟨_, b, hexec, hencode, rfl, rfl, hfield.trans (csdStructure_set b hl), rfl, rfl, .image s _ _, rfl, rfl, rfl, rfl,
    rfl, rfl⟩

/-! ### The capacity (R308, R309) -/

/-- C_SIZE has 12 bits, C_SIZE_MULT 3 and READ_BL_LEN 4. -/
theorem capacityV1_bounds (f : CsdV1) : 4 ≤ capacityV1 f ∧ capacityV1 f ≤ 2 ^ 36 := by
  have hsize : f.cSize.toNat + 1 ≤ 2 ^ 12 := f.cSize.isLt
  have hmult : f.cSizeMult.toNat + 2 ≤ 9 := Nat.add_le_add_right (Nat.le_of_lt_succ f.cSizeMult.isLt) 2
  have hlen : f.common.readBlLen.toNat ≤ 15 := Nat.le_of_lt_succ f.common.readBlLen.isLt
  constructor
  · calc
      4 = 1 * 2 ^ (0 + 2) * 2 ^ 0 := rfl
      _ ≤ capacityV1 f := Nat.mul_le_mul
        (Nat.mul_le_mul (Nat.le_add_left ..) (Nat.pow_le_pow_right Nat.two_pos (Nat.le_add_left ..)))
        (Nat.pow_le_pow_right Nat.two_pos (Nat.zero_le _))
  · calc
      capacityV1 f ≤ 2 ^ 12 * 2 ^ 9 * 2 ^ 15 := Nat.mul_le_mul
        (Nat.mul_le_mul hsize (Nat.pow_le_pow_right Nat.two_pos hmult)) (Nat.pow_le_pow_right Nat.two_pos hlen)
      _ = 2 ^ 36 := rfl

/-- C_SIZE has 22 bits. -/
theorem capacityV2_bounds (f : CsdV2) : 524288 ≤ capacityV2 f ∧ capacityV2 f ≤ 2 ^ 41 := by
  have hsize := f.cSize.isLt
  rw [capacityV2, P.v2Unit]
  omega

/-- Settles O32: the formulas are those of the model, with their largest factors below. -/
theorem capacityExact : Obligations.CapacityExact := by
  unfold Obligations.CapacityExact
  refine ⟨fun f => ⟨rfl, fun n hn => ?_⟩, fun f => ⟨rfl, fun n hn => ?_⟩⟩
  · obtain rfl : capacityV1 f = n := Option.some.inj hn
    exact capacityV1_bounds f
  · obtain rfl : capacityV2 f = n := Option.some.inj hn
    exact capacityV2_bounds f

/-! ### A register read that fails (R300) -/

/-- A response other than zero, the sentinel included, ends the read (R300, R244). -/
theorem readRegister_of_rejected (h : command par code 0 par.crcDummy s = (r, t)) (hr : r ≠ 0) :
    readRegister par code s = .error .regCmd (setCs true t) :=
  bind_ok (bus_given h) (ite_else (isReady_of_ne hr) rfl)

/-- Behind a zero response the read ends with its start-token wait. -/
theorem readRegister_of_noToken {u : State} {e : ErrCode} (h : command par code 0 par.crcDummy s = (0x00, t))
    (hwait : waitStartBlock par t = .error e u) : readRegister par code s = .error e u :=
  bind_ok (bus_given h) (ite_then rfl (bind_error hwait))

theorem releaseEvent_selected (h : s.cs = false) : releaseEvent s = [.cs true] := if_neg (ne_true_of_eq_false h)

/-- What the late start-token wait does is bus traffic. -/
theorem waitStartBlock_late_ran (hx : Expires 1 (par.units P.tStart) n ticks) (hm : s.miso = List.replicate n 0xFF ++ rest)
    (ht : s.ticks = ticks ++ more) : ∃ t, waitStartBlock par s = .error .startBlock t ∧
      Ran s t (reads par (List.replicate n 0xFF) ++ releaseEvent s) rest ∧ t.cs = true ∧ t.ticks = more := by
  obtain ⟨t, hrun, hcs, hmore, hmiso, hevents⟩ := waitStartBlock_late hx hm ht
  obtain ⟨hbus, -⟩ := (waitStartBlock_spec par s).error hrun
  exact ⟨t, hrun, ⟨hbus, trace_of_events hbus.onward.trace hevents, hmiso⟩, hcs, hmore⟩

/-- Settles O27: one run of the command, and behind a zero response the packet or a wait without token. -/
theorem readRegisterOnScript : Obligations.ReadRegisterOnScript := by
  unfold Obligations.ReadRegisterOnScript
  intro par s code ignored rest hcode hi
  refine ⟨fun img c1 c2 hl hm => ?_, fun r hr hbad hm => ?_, fun polls hpolls hm => ?_, fun r hff hfe hm => ?_,
    fun n first ticks more hx hm ht => ?_⟩
  · obtain ⟨t, hrun, hran, hcs⟩ := readRegister_served hcode hi hl hm
    exact ⟨t, hrun, hcs, hran.miso, hran.events⟩
  · obtain ⟨hresult, hran, hcs, -⟩ := command_ran par 0 par.crcDummy hcode hi (isResponse_of_clear hr) hm
    have hrelease := hran.trans (setCs_ran true _)
    rw [hcs] at hrelease
    exact ⟨_, readRegister_of_rejected (Prod.ext hresult rfl) hbad, rfl, hran.miso, hrelease.events⟩
  · obtain ⟨hresult, hran, hcs, -⟩ := command_silent par 0 par.crcDummy hcode hi hpolls hm
    have hrun := readRegister_of_rejected (Prod.ext hresult rfl) (by decide)
    rw [setCs_same hcs] at hrun
    exact ⟨_, hrun, hcs, hran.miso, hran.events⟩
  · obtain ⟨hresult, hran, hcs, -⟩ := command_ran par 0 par.crcDummy hcode hi (r := 0x00) rfl hm
    obtain ⟨u, hwait, hwaited, hreleased⟩ := waitStartBlock_wrong par hran.miso hff hfe
    rw [hcs] at hwaited
    exact ⟨u, readRegister_of_noToken (Prod.ext hresult rfl) hwait, hreleased, hwaited.miso, (hran.trans hwaited).events⟩
  · obtain ⟨hresult, hran, hcs, -⟩ := command_ran par 0 par.crcDummy hcode hi (r := 0x00) rfl hm
    obtain ⟨hticks, -⟩ := command_clock par 0 par.crcDummy hcode (s := s) hm ht
    obtain ⟨u, hwait, hwaited, hreleased, hmore⟩ := waitStartBlock_late_ran hx hran.miso hticks
    rw [releaseEvent_selected hcs] at hwaited
    refine ⟨u, readRegister_of_noToken (Prod.ext hresult rfl) hwait, hreleased, hwaited.miso, hmore, ?_⟩
    rw [(hran.trans hwaited).events, List.append_assoc _ (reads par _)]

end Sys2Proof.Machine

/-! PROOFS. The family of the block I/O (44_block_io.md): the address scaling, a block read, a block write, and an erase
as one multi-block write session, each on a card that serves it and on one that fails it. -/

namespace Sys2Proof.Machine

variable {par : Params} {s t u : State} {code : BitVec 6} {card : CardType} {b arg start : U32} {count : U64}
  {len k n : Nat} {ignored polls payload during src rest : List Byte} {r x y z c1 c2 response bad : Byte}
  {es : List Event} {e : ErrCode}

/-! ### Address scaling (R330) -/

theorem scale_byteAddressed (hcard : card = .sd1 ∨ card = .sd2) :
    scale card b = if b.toNat < 2 ^ 23 then .ok (BitVec.ofNat 32 (b.toNat * 512)) else .error .blockIndexTooLarge := by
  rcases hcard with rfl | rfl <;> rfl

/-- Settles O35: below 2^23 the product with 512 fits the 32 bits of an argument. -/
theorem scaleRule : Obligations.ScaleRule := by
  unfold Obligations.ScaleRule
  refine fun b => ⟨rfl, fun card hcard => ?_, rfl⟩
  rw [scale_byteAddressed hcard]
  refine ⟨fun hlow => ⟨_, if_pos hlow, ?_⟩, fun hhigh => if_neg (Nat.not_lt.2 hhigh)⟩
  rw [BitVec.toNat_ofNat]
  exact Nat.mod_eq_of_lt (by omega)

/-! ### A command that is not accepted (R244, R331, R332, R334) -/

/-- The result of the command is not zero, and with chip-select released behind it the events are `es`. -/
def NotAccepted (par : Params) (code : BitVec 6) (arg : U32) (s : State) (es : List Event) (rest : List Byte) : Prop :=
  ∃ r t, command par code arg par.crcDummy s = (r, t) ∧ r ≠ 0 ∧ Ran s (setCs true t) es rest

/-- A response leaves chip-select low, so that it is released behind the command. -/
theorem notAccepted_of_response (arg : U32) (hcode : code ≠ par.cmdStop) (hi : ignored.length = 6)
    (hr : r.getLsbD 7 = false) (hbad : r ≠ 0) (hm : s.miso = answer ignored r rest) :
    NotAccepted par code arg s
      (selectEvent s ++ commandEvents par (frameBytes code arg par.crcDummy) ignored r ++ [.cs true]) rest := by
  obtain ⟨hresult, hran, hcs, -⟩ := command_ran par arg par.crcDummy hcode hi (isResponse_of_clear hr) hm
  have hrelease := setCs_ran true (command par code arg par.crcDummy s).2
  rw [hcs] at hrelease
  exact ⟨r, _, Prod.ext hresult rfl, hbad, (hran.trans hrelease).cast rfl hran.miso⟩

/-- The exhausted poll has released chip-select already, so that it is released once. -/
theorem notAccepted_of_silence (arg : U32) (hcode : code ≠ par.cmdStop) (hi : ignored.length = 6)
    (hp : NoResponse polls) (hm : s.miso = silence ignored polls rest) :
    NotAccepted par code arg s
      (selectEvent s ++ silentEvents par (frameBytes code arg par.crcDummy) ignored polls) rest := by
  obtain ⟨hresult, hran, hcs, -⟩ := command_silent par arg par.crcDummy hcode hi hp hm
  refine ⟨0xFF, _, Prod.ext hresult rfl, by decide, ?_⟩
  rwa [setCs_same hcs]

/-! ### A block read (R331) -/

theorem readBlock_notAccepted (hlen : 512 ≤ len) (hscale : scale s.cardType b = .ok arg)
    (h : NotAccepted par par.cmdReadSingle arg s es rest) :
    ∃ t, readBlock par b len s = .error (.err .readCmd) t ∧ t.cs = true ∧ Ran s t es rest := by
  obtain ⟨r, t, hcommand, hbad, hran⟩ := h
  exact ⟨_, ite_else (Nat.not_lt.2 hlen) (bind_ok (scaled_ok hscale) (bind_ok (bus_given hcommand)
    (ite_else (isReady_of_ne hbad) rfl))), rfl, hran⟩

/-- Behind a zero response the read fails as its start-token wait fails. -/
theorem readBlock_of_noToken (hlen : 512 ≤ len) (hscale : scale s.cardType b = .ok arg)
    (hcommand : command par par.cmdReadSingle arg par.crcDummy s = (0x00, t))
    (hwait : waitStartBlock par t = .error e u) :
    readBlock par b len s = .error (.err e) u :=
  ite_else (Nat.not_lt.2 hlen) (bind_ok (scaled_ok hscale) (bind_ok (bus_given hcommand)
    (ite_then rfl (bind_error (orFail_error hwait)))))

theorem readBlock_accepted (hlegal : par.Legal) (hlen : 512 ≤ len) (hscale : scale s.cardType b = .ok arg)
    (hi : ignored.length = 6) (hp : payload.length = 512)
    (hm : s.miso = answer ignored 0x00 (packet payload [c1, c2] ++ rest)) :
    ∃ t, readBlock par b len s = .ok payload t ∧ t.cs = true ∧ t.frame = encode par (.cmd17 arg) ∧
      Ran s t (selectEvent s ++ commandEvents par (encode par (.cmd17 arg)) ignored 0x00 ++
        reads par (packet payload [c1, c2]) ++ [.cs true]) rest := by
  obtain ⟨-, -, -, -, -, hread, -⟩ := hlegal.ne_stop
  obtain ⟨w, hresult, hwait, hpayload, hran, hframe⟩ := readPacket_ran par (arg := arg) hread hi hm
  rw [hp] at hpayload hran hframe
  exact ⟨_, ite_else (Nat.not_lt.2 hlen) (bind_ok (scaled_ok hscale) (bind_ok (bus_ok hresult) (ite_then rfl
    (bind_ok (orFail_ok hwait) (bind_ok (bus_ok hpayload) rfl))))), rfl, hframe, hran⟩

/-- Settles O36: the command and its packet, with the destination's length tested first. -/
theorem readBlockOnScript : Obligations.ReadBlockOnScript := by
  unfold Obligations.ReadBlockOnScript
  intro par s b arg len ignored payload rest c1 c2 hlegal hlen hscale hi hp hm
  obtain ⟨t, hrun, hcs, hframe, hran⟩ := readBlock_accepted hlegal hlen hscale hi hp hm
  exact ⟨t, hrun, hcs, hran.miso, hframe, hran.events⟩

/-- Settles O37: the command that is not accepted, in its two ways, and the start-token wait that fails behind it. -/
theorem readBlockFailures : Obligations.ReadBlockFailures := by
  unfold Obligations.ReadBlockFailures
  intro par s b arg len ignored rest hlegal hlen hscale hi
  obtain ⟨-, -, -, -, -, hread, -⟩ := hlegal.ne_stop
  refine ⟨fun r hr hbad hm => ?_, fun polls hpolls hm => ?_, fun r hff hfe hm => ?_⟩
  · obtain ⟨t, hrun, hcs, hran⟩ := readBlock_notAccepted hlen hscale (notAccepted_of_response arg hread hi hr hbad hm)
    exact ⟨t, hrun, hcs, hran.miso, hran.events⟩
  · obtain ⟨t, hrun, hcs, hran⟩ := readBlock_notAccepted hlen hscale (notAccepted_of_silence arg hread hi hpolls hm)
    exact ⟨t, hrun, hcs, hran.miso, hran.events⟩
  · obtain ⟨hresult, hran, hlow, -⟩ := command_ran par arg par.crcDummy hread hi (r := 0x00) rfl hm
    obtain ⟨u, hwait, hwaited, hcs⟩ := waitStartBlock_wrong par hran.miso hff hfe
    rw [hlow] at hwaited
    exact ⟨u, readBlock_of_noToken hlen hscale (Prod.ext hresult rfl) hwait, hcs, hwaited.miso,
      (hran.trans hwaited).events⟩

/-! ### A block write (R332, R333) -/

theorem writeBlock_notAccepted (hlen : 512 ≤ src.length) (hscale : scale s.cardType b = .ok arg)
    (h : NotAccepted par par.cmdWriteSingle arg s es rest) :
    ∃ t, writeBlock par b src s = .error (.err .writeCmd) t ∧ t.cs = true ∧ Ran s t es rest := by
  obtain ⟨r, t, hcommand, hbad, hran⟩ := h
  exact ⟨_, ite_else (Nat.not_lt.2 hlen) (bind_ok (scaled_ok hscale) (bind_ok (bus_given hcommand)
    (ite_else (isReady_of_ne hbad) rfl))), rfl, hran⟩

/-- Behind a zero response the write sends its packet, and releases chip-select if that is accepted. -/
theorem writeBlock_of_ready (hlen : 512 ≤ src.length) (hscale : scale s.cardType b = .ok arg)
    (hcommand : command par par.cmdWriteSingle arg par.crcDummy s = (0x00, t)) :
    writeBlock par b src s = (do orFail (sendDataPacket par P.tokenStart src); update (setCs true)) t :=
  ite_else (Nat.not_lt.2 hlen) (bind_ok (scaled_ok hscale) (bind_ok (bus_given hcommand) (ite_then rfl rfl)))

theorem writeBlock_accepted (hlegal : par.Legal) (hlen : 512 ≤ src.length) (hscale : scale s.cardType b = .ok arg)
    (hi : ignored.length = 6) (hd : during.length = 515) (hr : response.extractLsb 4 0 = 5#5)
    (hm : s.miso = answer ignored 0x00 (during ++ response :: 0xFF :: rest)) :
    ∃ t, writeBlock par b src s = .ok () t ∧ t.cs = true ∧ t.frame = encode par (.cmd24 arg) ∧
      Ran s t (selectEvent s ++ commandEvents par (encode par (.cmd24 arg)) ignored 0x00 ++
        exchanges (0xFE :: src.take 512 ++ [par.crcDummy, par.crcDummy]) during ++ reads par [response, 0xFF] ++
        [.cs true]) rest := by
  obtain ⟨-, -, -, -, -, -, hwrite, -⟩ := hlegal.ne_stop
  obtain ⟨hresult, hran, hlow, -⟩ := command_ran par arg par.crcDummy hwrite hi (r := 0x00) rfl hm
  obtain ⟨-, hframe, -⟩ := command_spec par par.cmdWriteSingle arg par.crcDummy s
  obtain ⟨u, hsent, hpacket, hkept, hloaded⟩ := sendDataPacket_ran par (token := P.tokenStart) hlen hd hr hran.miso
  have hrelease := setCs_ran true u
  rw [hkept, hlow] at hrelease
  refine ⟨setCs true u, ?_, rfl, hloaded.trans hframe, ((hran.trans hpacket).trans hrelease).cast ?_ hpacket.miso⟩
  · rw [writeBlock_of_ready hlen hscale (Prod.ext hresult rfl)]
    exact bind_ok (orFail_ok hsent) (update_ok _ _)
  · exact congrArg (· ++ [Event.cs true]) (List.append_assoc ..).symm

/-- A packet that is not accepted, sent with chip-select low. -/
theorem sendDataPacket_rejected_selected {token : Byte} (hlen : 512 ≤ src.length) (hd : during.length = 515)
    (hbad : bad.extractLsb 4 0 ≠ 5#5) (hcs : s.cs = false) (hm : s.miso = during ++ bad :: rest) :
    ∃ t, sendDataPacket par token src s = .error .writeDataResp t ∧ t.cs = true ∧
      Ran s t (exchanges (token :: src.take 512 ++ [par.crcDummy, par.crcDummy]) during ++ [.x par.fill bad, .cs true])
        rest := by
  obtain ⟨t, hsent, hran, hreleased⟩ := sendDataPacket_rejected par (token := token) hlen hd hbad hm
  rw [hcs] at hran
  exact ⟨t, hsent, hreleased, hran.cast (List.append_assoc ..) rfl⟩

/-- Settles O38: the command, and the packet that is accepted behind it. -/
theorem writeBlockOnScript : Obligations.WriteBlockOnScript := by
  unfold Obligations.WriteBlockOnScript
  intro par s b arg src ignored during rest response hlegal hlen hscale hi hd hr hm
  obtain ⟨t, hrun, hcs, hframe, hran⟩ := writeBlock_accepted hlegal hlen hscale hi hd hr hm
  exact ⟨t, hrun, hcs, hran.miso, hframe, hran.events⟩

/-- Settles O39: the command that is not accepted, in its two ways, and the packet that is not. -/
theorem writeBlockFailures : Obligations.WriteBlockFailures := by
  unfold Obligations.WriteBlockFailures
  intro par s b arg src ignored rest hlegal hlen hscale hi
  obtain ⟨-, -, -, -, -, -, hwrite, -⟩ := hlegal.ne_stop
  refine ⟨fun r hr hbad hm => ?_, fun polls hpolls hm => ?_, fun during r hd hbad hm => ?_⟩
  · obtain ⟨t, hrun, hcs, hran⟩ := writeBlock_notAccepted hlen hscale (notAccepted_of_response arg hwrite hi hr hbad hm)
    exact ⟨t, hrun, hcs, hran.miso, hran.events⟩
  · obtain ⟨t, hrun, hcs, hran⟩ := writeBlock_notAccepted hlen hscale (notAccepted_of_silence arg hwrite hi hpolls hm)
    exact ⟨t, hrun, hcs, hran.miso, hran.events⟩
  · obtain ⟨hresult, hran, hlow, -⟩ := command_ran par arg par.crcDummy hwrite hi (r := 0x00) rfl hm
    obtain ⟨u, hsent, hcs, hpacket⟩ :=
      sendDataPacket_rejected_selected (token := P.tokenStart) hlen hd hbad hlow hran.miso
    refine ⟨u, ?_, hcs, hpacket.miso, (hran.trans hpacket).events.trans (List.append_assoc ..).symm⟩
    rw [writeBlock_of_ready hlen hscale (Prod.ext hresult rfl)]
    exact bind_error (orFail_error hsent)

/-! ### Chunks of zeros (R335, R337) -/

/-- The events of sending one chunk of zeros, its data response not among them. -/
def zeroPacketEvents (par : Params) (during : List Byte) : List Event :=
  exchanges (0xFC :: zeroBlock ++ [par.crcDummy, par.crcDummy]) during

theorem writeMulti_zeroBlock (par : Params) : writeMulti par zeroBlock = sendDataPacket par P.tokenMulti zeroBlock :=
  if_neg (Nat.not_lt.2 zeroBlock_length.ge)

theorem zeroPacket_taken (par : Params) (during : List Byte) :
    exchanges (P.tokenMulti :: zeroBlock.take 512 ++ [par.crcDummy, par.crcDummy]) during =
      zeroPacketEvents par during := by
  rw [List.take_of_length_le zeroBlock_length.le]
  rfl

theorem zeroChunk_accepted (hd : during.length = 515) (hr : response.extractLsb 4 0 = 5#5)
    (hm : s.miso = during ++ response :: 0xFF :: rest) :
    ∃ t, writeMulti par zeroBlock s = .ok () t ∧ t.cs = s.cs ∧
      Ran s t (zeroPacketEvents par during ++ reads par [response, 0xFF]) rest := by
  rw [writeMulti_zeroBlock, ← zeroPacket_taken]
  obtain ⟨t, hsent, hran, hcs, -⟩ := sendDataPacket_ran par (token := P.tokenMulti) zeroBlock_length.ge hd hr hm
  exact ⟨t, hsent, hcs, hran⟩

theorem zeroChunk_rejected (hd : during.length = 515) (hbad : bad.extractLsb 4 0 ≠ 5#5) (hcs : s.cs = false)
    (hm : s.miso = during ++ bad :: rest) :
    ∃ t, writeMulti par zeroBlock s = .error .writeDataResp t ∧ t.cs = true ∧
      Ran s t (zeroPacketEvents par during ++ [.x par.fill bad, .cs true]) rest := by
  rw [writeMulti_zeroBlock, ← zeroPacket_taken]
  exact sendDataPacket_rejected_selected zeroBlock_length.ge hd hbad hcs hm

theorem zeroChunks_succ_of_ok (n : Nat) (h : writeMulti par zeroBlock s = .ok () t) :
    zeroChunks par (n + 1) s = zeroChunks par n t := bind_ok h rfl

theorem zeroChunks_succ_of_error (n : Nat) (h : writeMulti par zeroBlock s = .error e t) :
    zeroChunks par (n + 1) s = .error e t := bind_error h

/-- As many chunks as the card accepts leave what is still to do to the state behind them. -/
theorem zeroChunks_accepted (n : Nat) (hd : during.length = 515) (hr : response.extractLsb 4 0 = 5#5)
    (hm : s.miso = (List.replicate k (during ++ [response, 0xFF])).flatten ++ rest) :
    ∃ t, zeroChunks par (k + n) s = zeroChunks par n t ∧
      Ran s t (List.replicate k (zeroPacketEvents par during ++ reads par [response, 0xFF])).flatten rest ∧
      t.cs = s.cs := by
  induction k generalizing s with
  | zero => exact ⟨s, by rw [Nat.zero_add], (Ran.refl s).cast rfl hm, rfl⟩
  | succ k ih =>
    simp only [List.replicate_succ, List.flatten_cons, List.append_assoc] at hm
    obtain ⟨u, hsent, hkept, hchunk⟩ := zeroChunk_accepted (par := par) hd hr hm
    obtain ⟨t, hrun, hran, hcs⟩ := ih hchunk.miso
    refine ⟨t, ?_, hchunk.trans hran, hcs.trans hkept⟩
    rw [Nat.succ_add, zeroChunks_succ_of_ok _ hsent, hrun]

/-! ### The session (R334, R336, R337) -/

theorem writeMultiStart_accepted (hlegal : par.Legal) (hscale : scale s.cardType b = .ok arg) (hi : ignored.length = 6)
    (hm : s.miso = answer ignored 0x00 (x :: rest)) :
    ∃ t, writeMultiStart par b s = .ok () t ∧ t.cs = false ∧
      Ran s t (selectEvent s ++ commandEvents par (encode par (.cmd25 arg)) ignored 0x00 ++ [.x par.fill x]) rest := by
  obtain ⟨-, -, -, -, -, -, -, hmulti, -⟩ := hlegal.ne_stop
  obtain ⟨hresult, hran, hlow, -⟩ := command_ran par arg par.crcDummy hmulti hi (r := 0x00) rfl hm
  obtain ⟨-, hdiscard, hkept⟩ := xfer_ran par.fill hran.miso
  exact ⟨_, bind_ok (scaled_ok hscale) (bind_ok (bus_ok hresult) (ite_then rfl rfl)), hkept.trans hlow,
    hran.trans hdiscard⟩

theorem eraseSession_notAccepted (n : Nat) (hscale : scale s.cardType b = .ok arg)
    (h : NotAccepted par par.cmdWriteMulti arg s es rest) :
    ∃ t, eraseSession par b n s = .error (.err .writeMultiCmd) t ∧ t.cs = true ∧ Ran s t es rest := by
  obtain ⟨r, t, hcommand, hbad, hran⟩ := h
  exact ⟨_, bind_error (bind_ok (scaled_ok hscale) (bind_ok (bus_given hcommand) (ite_else (isReady_of_ne hbad) rfl))),
    rfl, hran⟩

/-- Every chunk is accepted, and the stop token ends the session. -/
theorem eraseSession_accepted (hlegal : par.Legal) (hscale : scale s.cardType b = .ok arg) (hi : ignored.length = 6)
    (hd : during.length = 515) (hr : response.extractLsb 4 0 = 5#5)
    (hm : s.miso = answer ignored 0x00 (x :: ((List.replicate n (during ++ [response, 0xFF])).flatten ++
      y :: z :: 0xFF :: rest))) :
    ∃ t, eraseSession par b n s = .ok () t ∧ t.cs = true ∧
      Ran s t (selectEvent s ++ commandEvents par (encode par (.cmd25 arg)) ignored 0x00 ++ [.x par.fill x] ++
        (List.replicate n (zeroPacketEvents par during ++ reads par [response, 0xFF])).flatten ++
        [.x 0xFD y, .x par.fill z, .x par.fill 0xFF, .cs true]) rest := by
  obtain ⟨u, hstart, hlow, hopened⟩ := writeMultiStart_accepted hlegal hscale hi hm
  obtain ⟨v, hchunks, hsent, hkept⟩ := zeroChunks_accepted 0 hd hr hopened.miso
  have hstop := writeMultiStop_ran par hsent.miso (hkept.trans hlow)
  obtain ⟨-, hreleased⟩ := writeMultiStop_spec par v
  exact ⟨_, bind_ok hstart (bind_ok (orFail_ok hchunks) (update_ok _ _)), hreleased, (hopened.trans hsent).trans hstop⟩

/-- The first chunk that is not accepted ends the session, the rest of the chunks and the stop token left out (D20). -/
theorem eraseSession_rejected (hlegal : par.Legal) (hscale : scale s.cardType b = .ok arg) (hi : ignored.length = 6)
    (hd : during.length = 515) (hr : response.extractLsb 4 0 = 5#5) (hbad : bad.extractLsb 4 0 ≠ 5#5) (hk : k < n)
    (hm : s.miso = answer ignored 0x00 (x :: ((List.replicate k (during ++ [response, 0xFF])).flatten ++
      (during ++ bad :: rest)))) :
    ∃ t, eraseSession par b n s = .error (.err .writeDataResp) t ∧ t.cs = true ∧
      Ran s t (selectEvent s ++ commandEvents par (encode par (.cmd25 arg)) ignored 0x00 ++ [.x par.fill x] ++
        (List.replicate k (zeroPacketEvents par during ++ reads par [response, 0xFF])).flatten ++
        (zeroPacketEvents par during ++ [.x par.fill bad, .cs true])) rest := by
  obtain ⟨left, rfl⟩ : ∃ left, n = k + (left + 1) := Nat.exists_eq_add_of_lt hk
  obtain ⟨u, hstart, hlow, hopened⟩ := writeMultiStart_accepted hlegal hscale hi hm
  obtain ⟨v, hchunks, hsent, hkept⟩ := zeroChunks_accepted (left + 1) hd hr hopened.miso
  obtain ⟨t, hfail, hcs, hlast⟩ := zeroChunk_rejected hd hbad (hkept.trans hlow) hsent.miso
  rw [zeroChunks_succ_of_error left hfail] at hchunks
  exact ⟨t, bind_ok hstart (bind_error (orFail_error hchunks)), hcs, (hopened.trans hsent).trans hlast⟩

/-! ### The erase as a host operation (R380, R384) -/

/-- An erase has completed with the result `e`, chip-select high, the events `es` of its session in the wrapper, and
`rest` left of the card's bytes. -/
structure ErasedAs (e : Option ErrCode) (es : List Event) (rest : List Byte) (s t : State) : Prop where
  err : t.err = e
  cs : t.cs = true
  miso : t.miso = rest
  events : eventsBetween s t = [.lock, .rate .fast] ++ es ++ [.unlock]

theorem complete_erasedAs {e : Option ErrCode} (c : Completion) (hcs : u.cs = true)
    (h : Ran (enter .fast .runErase s) u es rest) : ErasedAs e es rest s (complete e c u) :=
  ⟨rfl, hcs, h.miso, complete_events h.trace⟩

section erase
variable (hidle : s.seq = .idle) (hready : s.phase = .ready) (hgrant : nextGrant s = true)
  (hcount : start.toNat + count.toNat ≤ 2 ^ 32)
include hidle hready hgrant hcount

theorem eraseBlocks_of_ok (hrun : eraseSession s.par start count.toNat (enter .fast .runErase s) = .ok () u)
    (hcs : u.cs = true) (hran : Ran (enter .fast .runErase s) u es rest) :
    ∃ t, exec (.eraseBlocks start count) s = .next t ∧ ErasedAs none es rest s t := by
  rw [exec_eraseBlocks start count hidle hready (refuseErase_none hcount)]
  exact ⟨_, ioOp_ok hgrant hrun, complete_erasedAs _ hcs hran⟩

theorem eraseBlocks_of_error (hrun : eraseSession s.par start count.toNat (enter .fast .runErase s) = .error (.err e) u)
    (hcs : u.cs = true) (hran : Ran (enter .fast .runErase s) u es rest) :
    ∃ t, exec (.eraseBlocks start count) s = .next t ∧ ErasedAs (some e) es rest s t := by
  rw [exec_eraseBlocks start count hidle hready (refuseErase_none hcount)]
  exact ⟨_, ioOp_error hgrant hrun, complete_erasedAs _ hcs hran⟩

theorem eraseBlocks_notAccepted (hscale : scale s.cardType start = .ok arg)
    (h : NotAccepted s.par s.par.cmdWriteMulti arg (enter .fast .runErase s) es rest) :
    ∃ t, exec (.eraseBlocks start count) s = .next t ∧ ErasedAs (some .writeMultiCmd) es rest s t := by
  obtain ⟨u, hrun, hreleased, hran⟩ := eraseSession_notAccepted (s := enter .fast .runErase s) count.toNat hscale h
  exact eraseBlocks_of_error hidle hready hgrant hcount hrun hreleased hran

end erase

theorem selectEvent_enter (rate : Rate) (q : Seq) (hcs : s.cs = true) : selectEvent (enter rate q s) = [.cs false] :=
  selectEvent_released hcs

/-- Settles O42: the session on a card that accepts every chunk, in the wrapper. -/
theorem eraseOnScript : Obligations.EraseOnScript := by
  unfold Obligations.EraseOnScript
  intro start arg count s ignored during rest x y z response hlegal hidle hready hgrant hcount hcs hscale hi hd hr hm
  obtain ⟨u, hrun, hreleased, hran⟩ := eraseSession_accepted (s := enter .fast .runErase s) hlegal hscale hi hd hr hm
  obtain ⟨t, hexec, hend⟩ := eraseBlocks_of_ok hidle hready hgrant hcount hrun hreleased hran
  refine ⟨t, hexec, hend.err, hend.miso, hend.events.trans ?_⟩
  rw [selectEvent_enter _ _ hcs]
  simp only [zeroPacketEvents, List.append_assoc, List.cons_append, List.nil_append]

/-- Settles O43: the session whose command is not accepted, in its two ways, and the session whose chunk is not, each in
the wrapper. -/
theorem eraseFailures : Obligations.EraseFailures := by
  unfold Obligations.EraseFailures
  intro start arg count s ignored rest hlegal hidle hready hgrant hcount hcs hscale hi
  obtain ⟨-, -, -, -, -, -, -, hmulti, -⟩ := hlegal.ne_stop
  have hselect := selectEvent_enter .fast .runErase hcs
  refine ⟨fun r hr hbad hm => ?_, fun polls hpolls hm => ?_, fun k during x response bad hd hr hbad hk hm => ?_⟩
  · obtain ⟨t, hexec, hend⟩ := eraseBlocks_notAccepted hidle hready hgrant hcount hscale
      (notAccepted_of_response arg hmulti hi hr hbad hm)
    refine ⟨t, hexec, hend.err, hend.cs, hend.miso, hend.events.trans ?_⟩
    rw [hselect]
    simp only [encode, List.append_assoc, List.cons_append, List.nil_append]
  · obtain ⟨t, hexec, hend⟩ := eraseBlocks_notAccepted hidle hready hgrant hcount hscale
      (notAccepted_of_silence arg hmulti hi hpolls hm)
    refine ⟨t, hexec, hend.err, hend.cs, hend.miso, hend.events.trans ?_⟩
    rw [hselect]
    simp only [encode, List.cons_append, List.nil_append]
  · obtain ⟨u, hrun, hreleased, hran⟩ :=
      eraseSession_rejected (s := enter .fast .runErase s) hlegal hscale hi hd hr hbad hk hm
    obtain ⟨t, hexec, hend⟩ := eraseBlocks_of_error hidle hready hgrant hcount hrun hreleased hran
    refine ⟨t, hexec, hend.err, hend.cs, hend.miso, hend.events.trans ?_⟩
    rw [hselect]
    simp only [zeroPacketEvents, List.append_assoc, List.cons_append, List.nil_append]

end Sys2Proof.Machine

/-! PROOFS. The family of the unaligned access adapter (45_unaligned_adapter.md): the split of a transfer, and `ReadAt`
and `WriteAt` block by block, on every card and on one that serves the blocks of the range up to one that it fails. -/

namespace Sys2Proof.Machine

variable {off n b i m k : Nat} {s t u v : State} {par : Params} {ignored crc during rest : List Byte} {e : ErrCode}
  {es : List Event} {card : CardType} {store old : Nat → List Byte} {buf : Memory} {response : Byte}

/-! ### The split (R362) -/

theorem split_head (off n : Nat) : (split off n).head = headOf off n := rfl

theorem split_tail_lt (off n : Nat) : (split off n).tail < 512 := Nat.mod_lt _ (by decide)

/-- Bytes are left behind the head only where the head ends at a block boundary. -/
theorem head_ends_block (h : headOf off n < n) : 512 ∣ off + headOf off n := by
  rcases headOf_cases off n with ⟨ho, hh⟩ | ⟨ho, hh⟩ <;> omega

/-- A byte of the head lies in the first block. -/
theorem head_byte_place {k : Nat} (h : k < headOf off n) :
    (off + k) / 512 = off / 512 ∧ (off + k) % 512 = off % 512 + k := by
  have hfit := head_fits (off := off) (n := n)
  omega

/-- A byte behind the head lies where 512-byte blocks counted from the end of the head put it. -/
theorem later_byte_place {k : Nat} (hk : headOf off n ≤ k) (hn : k < n) :
    (off + k) / 512 = off / 512 + (if off % 512 = 0 then 0 else 1) + (k - headOf off n) / 512 ∧
      (off + k) % 512 = (k - headOf off n) % 512 := by
  rcases headOf_cases off n with ⟨ho, hh⟩ | ⟨ho, hh⟩
  · rw [if_pos ho]; omega
  · rw [if_neg ho]; omega

/-- A byte behind the head lies in a whole block or in the tail. -/
theorem later_byte_part {k : Nat} (hk : headOf off n ≤ k) (hn : k < n) :
    (k - headOf off n) / 512 < (split off n).full + (if (split off n).tail = 0 then 0 else 1) ∧
      ((k - headOf off n) / 512 = (split off n).full → (k - headOf off n) % 512 < (split off n).tail) := by
  have hsum := split_total off n
  have htail := split_tail_lt off n
  rw [split_head] at hsum
  generalize (split off n).full = full at *
  generalize (split off n).tail = tail at *
  split <;> omega

/-- Settles O44: the parts add up, and each byte's place is that of a byte of the head or of one behind it. -/
theorem splitArithmetic : Obligations.SplitArithmetic := by
  unfold Obligations.SplitArithmetic
  refine fun off n => ⟨rfl, rfl, (split_total off n).symm, split_tail_lt off n, fun h => headOf_aligned h n,
    fun h => if_neg h, head_ends_block, fun k => head_byte_place, fun k hk hn => ?_⟩
  obtain ⟨hblock, hplace⟩ := later_byte_place hk hn
  obtain ⟨hpart, htail⟩ := later_byte_part hk hn
  exact ⟨hblock, hplace, hpart, htail⟩

/-! ### The part of a transfer that lies in one block (R169, R362) -/

/-- The last block a transfer touches. -/
def lastBlock (off n : Nat) : Nat := (off + n - 1) / 512

/-- How many bytes of a transfer lie below block `b`. -/
def bytesBefore (off n b : Nat) : Nat := min (512 * b - off) n

theorem bytesBefore_first (off n : Nat) : bytesBefore off n (off / 512) = 0 := by
  unfold bytesBefore; omega

theorem bytesBefore_end (h : 0 < n) : bytesBefore off n (lastBlock off n + 1) = n := by
  unfold bytesBefore lastBlock; omega

theorem bytesBefore_of_le (h : 0 < n) (hb : b ≤ lastBlock off n) : bytesBefore off n b = 512 * b - off := by
  unfold lastBlock at hb; unfold bytesBefore; omega

/-- Of the bytes of a transfer, `m` lie in block `b`, from its place `i` on. -/
structure Part (off n b i m : Nat) : Prop where
  pos : 0 < m
  place : off + bytesBefore off n b = 512 * b + i
  fits : i + m ≤ 512
  next : bytesBefore off n (b + 1) = bytesBefore off n b + m

theorem Part.within (h : Part off n b i m) : bytesBefore off n b + m ≤ n := by
  rw [← h.next]; exact Nat.min_le_right _ _

theorem Part.le_last (h : Part off n b i m) : b ≤ lastBlock off n := by
  obtain ⟨hpos, hplace, hfits, hnext⟩ := h
  unfold lastBlock; unfold bytesBefore at hplace hnext; omega

/-- The places of the block that the transfer covers are those of the part. -/
theorem Part.covers_place (h : Part off n b i m) (k : Nat) (hk : k < 512) :
    (off ≤ 512 * b + k ∧ 512 * b + k < off + n) ↔ (i ≤ k ∧ k < i + m) := by
  obtain ⟨hpos, hplace, hfits, hnext⟩ := h
  unfold bytesBefore at hplace hnext; omega

/-- A block is covered whole where the part is 512 bytes. -/
theorem Part.coversBlock_iff (h : Part off n b i m) : coversBlock off n b ↔ m = 512 := by
  obtain ⟨hpos, hplace, hfits, hnext⟩ := h
  unfold coversBlock; unfold bytesBefore at hplace hnext; omega

/-- The first block behind the head. -/
def blockAfterHead (off : Nat) : Nat := off / 512 + if off % 512 = 0 then 0 else 1

/-- The head ends in the block before that one, and at its end where bytes are left behind it. -/
theorem blockAfterHead_place (off n : Nat) (h : 0 < n) :
    off + headOf off n ≤ 512 * blockAfterHead off ∧ 512 * blockAfterHead off < off + headOf off n + 512 ∧
      (headOf off n < n → off + headOf off n = 512 * blockAfterHead off) := by
  unfold blockAfterHead
  rcases headOf_cases off n with ⟨ho, hh⟩ | ⟨ho, hh⟩
  · rw [if_pos ho]; omega
  · rw [if_neg ho]; omega

theorem part_head (h : 0 < n) (ho : off % 512 ≠ 0) : Part off n (off / 512) (off % 512) (headOf off n) := by
  rcases headOf_cases off n with ⟨hz, -⟩ | ⟨-, hh⟩
  · exact absurd hz ho
  · exact ⟨by omega, by rw [bytesBefore_first]; omega, by omega, by unfold bytesBefore; omega⟩

/-- A block behind the head is in the transfer as a whole, or with the bytes that are left. -/
theorem part_behind_head {j : Nat} (hm : 0 < m) (hfits : m ≤ 512) (hn : headOf off n + 512 * j + m ≤ n)
    (hend : m = 512 ∨ headOf off n + 512 * j + m = n) : Part off n (blockAfterHead off + j) 0 m := by
  obtain ⟨-, -, hplace⟩ := blockAfterHead_place off n (by omega)
  have := hplace (by omega)
  exact ⟨hm, by unfold bytesBefore; omega, by omega, by unfold bytesBefore; omega⟩

/-- Behind the head and the whole blocks, without a tail, stands the block behind the last. -/
theorem lastBlock_of_whole {j : Nat} (h : 0 < n) (hj : headOf off n + 512 * j = n) :
    blockAfterHead off + j = lastBlock off n + 1 := by
  have hplace := blockAfterHead_place off n h
  unfold lastBlock; omega

theorem lastBlock_of_tail {j : Nat} (hm : 0 < m) (hl : m < 512) (hj : headOf off n + 512 * j + m = n) :
    blockAfterHead off + j = lastBlock off n := by
  obtain ⟨-, -, hplace⟩ := blockAfterHead_place off n (by omega)
  have := hplace (by omega)
  unfold lastBlock; omega

/-! ### How a micro-operation ends, from its result -/

section ends
variable {ε α : Type} {p q : EStateM ε State α} {Q : α → State → Prop} {E : ε → State → Prop}

theorem Ends.of_ok {a : α} (h : p s = .ok a t) (hq : Q a t) : Ends p s Q E := by
  unfold Ends; rw [h]; exact hq

theorem Ends.of_error {x : ε} (h : p s = .error x t) (hx : E x t) : Ends p s Q E := by
  unfold Ends; rw [h]; exact hx

theorem Ends.of_eq (h : Ends q t Q E) (heq : p s = q t) : Ends p s Q E := by
  unfold Ends; rw [heq]; exact h

theorem Ends.cases (h : Ends p s Q E) : (∃ a t, p s = .ok a t ∧ Q a t) ∨ ∃ x t, p s = .error x t ∧ E x t := by
  unfold Ends at h
  cases hp : p s with
  | ok a t => rw [hp] at h; exact .inl ⟨a, t, rfl, h⟩
  | error x t => rw [hp] at h; exact .inr ⟨x, t, rfl, h⟩

end ends

/-! ### A transfer block by block -/

/-- The body of a transfer, over its step for a partial block and its loop over whole ones (R360, R361). -/
def transferBody (part : Nat → Nat → BlockProc Unit) (whole : Nat → BlockProc Unit) (off n : Nat) : BlockProc Unit := do
  update (startTransfer off n)
  (if (split off n).boff = 0 then pure () else do
    part (split off n).boff (split off n).head
    update nextBlock)
  whole (split off n).full
  if (split off n).tail = 0 then pure () else part 0 (split off n).tail

theorem readBody_eq (par : Params) (off n : Nat) :
    readBody par off n = transferBody (readPart par) (readWhole par) off n := rfl

theorem writeBody_eq (par : Params) (off n : Nat) :
    writeBody par off n = transferBody (writePart par) (writeWhole par) off n := rfl

section transfer
variable {part : Nat → Nat → BlockProc Unit} {whole : Nat → BlockProc Unit} {At : Nat → State → Prop}
  {Q : State → Prop} {E : Stop → State → Prop}
  (hzero : whole 0 = pure ())
  (hsucc : ∀ (m : Nat) {b : Nat} {t : State}, Part off n b 0 512 → At b t →
    (∃ u, whole (m + 1) t = whole m u ∧ At (b + 1) u) ∨ ∃ x u, whole (m + 1) t = .error x u ∧ E x u)
include hzero hsucc

/-- The whole blocks, one after the other. -/
theorem whole_ends (m : Nat) {b : Nat} {t : State} (hparts : ∀ j, j < m → Part off n (b + j) 0 512) (h : At b t) :
    Ends (whole m) t (fun _ u => At (b + m) u) E := by
  induction m generalizing b t with
  | zero => rw [hzero]; exact .pure h
  | succ m ih =>
    rcases hsucc m (hparts 0 (Nat.succ_pos m)) h with ⟨u, hrun, hu⟩ | ⟨x, u, hrun, hx⟩
    · have hrest := ih (b := b + 1) (fun j hj => Nat.succ_add_eq_add_succ b j ▸ hparts (j + 1) (Nat.succ_lt_succ hj)) hu
      rw [Nat.succ_add_eq_add_succ] at hrest
      exact hrest.of_eq hrun
    · exact .of_error hrun hx

/-- What holds before the first block and is handed from each block of the range to the next holds behind the last. -/
theorem transferBody_ends (hn : 0 < n) (hstart : At (off / 512) (startTransfer off n s))
    (hpart : ∀ {b i m : Nat} {t : State}, Part off n b i m → m < 512 → At b t →
      Ends (part i m) t (fun _ u => At (b + 1) (nextBlock u)) E)
    (hend : ∀ u, At (lastBlock off n + 1) u ∨ At (lastBlock off n + 1) (nextBlock u) → Q u) :
    Ends (transferBody part whole off n) s (fun _ u => Q u) E := by
  have hsum := split_total off n
  have htail := split_tail_lt off n
  rw [split_head] at hsum
  have hparts : ∀ j, j < (split off n).full → Part off n (blockAfterHead off + j) 0 512 := fun j hj =>
    part_behind_head (by omega) (by omega) (by omega) (.inl rfl)
  refine .bind (.update (.seq (R := fun _ t => At (blockAfterHead off) t) ?_ fun _ t hhead => .seq
    (whole_ends hzero hsucc (split off n).full hparts hhead) fun _ u hwhole => ?_))
  · refine .ite (fun ho => .pure ?_) fun ho => .seq (hpart (part_head hn ho) ?_ hstart) fun _ u hu => .update ?_
    · rwa [blockAfterHead, if_pos (show off % 512 = 0 from ho)]
    · have hfit := head_fits (off := off) (n := n)
      have : off % 512 ≠ 0 := ho
      rw [split_head]; omega
    · rwa [blockAfterHead, if_neg (show off % 512 ≠ 0 from ho)]
  · refine .ite (fun hz => .pure (hend u (.inl ?_))) fun hz => ?_
    · rwa [lastBlock_of_whole hn (by omega)] at hwhole
    · have hpos := Nat.pos_of_ne_zero hz
      refine (hpart (part_behind_head hpos htail.le hsum.le (.inr hsum)) htail hwhole).mono
        (fun _ v hv => hend v (.inr ?_)) fun _ _ he => he
      rwa [lastBlock_of_tail hpos htail hsum] at hv

end transfer

/-! ### The arguments of the blocks (R170, R330) -/

/-- Every block of the range has the argument `argOf` gives (R330). -/
def RangeArgs (card : CardType) (last : Nat) : Prop :=
  ∀ b, b ≤ last → scale card (BitVec.ofNat 32 b) = .ok (argOf card b)

theorem rangeArgs_of_addressable (hend : off + n ≤ 2 ^ 41) (ha : addressable card (lastBlock off n)) :
    RangeArgs card (lastBlock off n) :=
  fun _ hb => scale_argOf ha hb (by unfold lastBlock; omega)

theorem Reached.scale (h : Reached k b s t) (ha : RangeArgs s.cardType m) (hb : b ≤ m) :
    scale t.cardType t.blk = .ok (argOf s.cardType b) := by
  rw [h.blk, h.only.device.cardType]; exact ha b hb

/-- No block of the range leaves the contract. -/
theorem RangeArgs.not_refused {r : Refusal} (h : RangeArgs card (lastBlock off n)) (hk : k < n) :
    scale card (BitVec.ofNat 32 ((off + k) / 512)) ≠ .error r := by
  rw [h _ (by unfold lastBlock; omega)]; nofun

/-! ### The wrapper of a transfer (R380, R404) -/

/-- The body of a transfer has run so far: `k` bytes are done, with the events `es`, and `rest` is left. -/
structure Body (k : Nat) (es : List Event) (rest : List Byte) (s t : State) : Prop where
  done : t.done = k
  miso : t.miso = rest
  trace : t.trace = es.reverse ++ s.trace

/-- A transfer has completed with the result `e` and the count `k`, with the events `es` of its body in the wrapper, and
`rest` left of the card's bytes. -/
structure TransferredAs (e : Option ErrCode) (k : Nat) (es : List Event) (rest : List Byte) (s t : State) : Prop where
  err : t.err = e
  done : t.done = k
  presented : t.presented = some (.count k e)
  miso : t.miso = rest
  events : eventsBetween s t = [.lock, .rate .fast] ++ es ++ [.unlock]

theorem Body.transferredAs {q : Seq} (e : Option ErrCode) (h : Body k es rest (enter .fast q s) u) :
    TransferredAs e k es rest s (complete e (reportCount e u) u) :=
  ⟨rfl, h.done, by rw [← h.done]; rfl, h.miso, complete_events h.trace⟩

/-- A transfer of at least one byte in the contract. -/
theorem refuseTransfer_none_of_pos (hheld : Held par off n) (hn : 0 < n) (hend : off + n ≤ 2 ^ 41) :
    refuseTransfer par off n = none :=
  refuseTransfer_none hheld (fun h => absurd h (Nat.pos_iff_ne_zero.1 hn)) (by omega) hend

/-- A transfer has completed with the result `e` and the count `k`: quiet, at the fast rate, with what only `Configure`
writes as it was. -/
structure CompletedAs (e : Option ErrCode) (k : Nat) (s t : State) : Prop where
  quiet : Quiet t
  rateSel : t.rateSel = .fast
  presented : t.presented = some (.count t.done t.err)
  err : t.err = e
  done : t.done = k
  bufLen : t.bufLen = s.bufLen
  device : SameDevice s t
  init : SameInit s t
  inbox : t.inbox = s.inbox
  onward : Onward s t

theorem complete_completedAs {q : Seq} (e : Option ErrCode) (hcs : s.cs = true) (hu : Reached k b (enter .fast q s) u) :
    CompletedAs e k s (complete e (reportCount e u) u) where
  quiet := ⟨hu.cs hcs, rfl, rfl⟩
  rateSel := hu.only.rateSel
  presented := rfl
  err := rfl
  done := hu.done
  bufLen := hu.only.bufLen
  device := (enter_device _ _ s).trans (hu.only.device.trans (complete_device _ _ u))
  init := (enter_init _ _ s).trans (hu.only.init.trans (complete_init _ _ u))
  inbox := hu.only.inbox
  onward := (enter_onward _ _ s).trans (hu.only.onward.trans (complete_onward _ _ u))

/-- The count of a transfer that ends with the error `e` is short, and one that the split allows (R363, D35). -/
def ShortCount (errors : List ErrCode) (off n : Nat) (t : State) : Prop :=
  ∀ e, t.err = some e → e ∈ errors ∧ t.done < n ∧ (t.done = 0 ∨ ∃ k, t.done = (split off n).head + 512 * k)

theorem CompletedAs.full {errors : List ErrCode} (h : CompletedAs none k s t) : ShortCount errors off n t :=
  fun e he => by rw [h.err] at he; exact absurd he nofun

theorem CompletedAs.short {errors : List ErrCode} (h : CompletedAs (some e) k s t) (he : e ∈ errors) (hk : k < n)
    (hstep : k = 0 ∨ ∃ j, k = headOf off n + 512 * j) : ShortCount errors off n t := by
  intro x hx
  obtain rfl : e = x := Option.some.inj (h.err.symm.trans hx)
  rw [h.done]
  exact ⟨he, hk, hstep⟩

section wrapper
variable {Q : State → Prop} (hidle : s.seq = .idle) (hready : s.phase = .ready) (hgrant : nextGrant s = true)
  (hin : refuseTransfer s.par off s.bufLen = none)
include hidle hready hgrant hin

theorem readAt_next (h : Ends (readBody s.par off s.bufLen) (enter .fast .runReadAt s)
      (fun _ u => Q (complete none (reportCount none u) u))
      (fun x u => ∃ e, x = .err e ∧ Q (complete (some e) (reportCount (some e) u) u))) :
    ∃ t, exec (.readAt off) s = .next t ∧ Q t := by
  rw [exec_readAt off hidle hready hin]
  exact ioOp_next hgrant h

theorem writeAt_next (h : Ends (writeBody s.par off s.bufLen) (enter .fast .runWriteAt s)
      (fun _ u => Q (complete none (reportCount none u) u))
      (fun x u => ∃ e, x = .err e ∧ Q (complete (some e) (reportCount (some e) u) u))) :
    ∃ t, exec (.writeAt off) s = .next t ∧ Q t := by
  rw [exec_writeAt off hidle hready hin]
  exact ioOp_next hgrant h

end wrapper

/-! ### No bytes (R364) -/

/-- With no bytes at an aligned offset no step of the body runs. -/
theorem transferBody_zero {part : Nat → Nat → BlockProc Unit} {whole : Nat → BlockProc Unit} (hzero : whole 0 = pure ())
    (h : off % 512 = 0) (s : State) : transferBody part whole off 0 s = .ok () (startTransfer off 0 s) := by
  have hfull : (split off 0).full = 0 := by simp [split]
  have htail : (split off 0).tail = 0 := by simp [split]
  refine bind_ok (update_ok _ s) (bind_ok (ite_then h rfl) (bind_ok (b := ()) ?_ (ite_then htail rfl)))
  rw [hfull, hzero]; rfl

/-- Starting a transfer is not seen on the bus. -/
theorem startTransfer_zero (q : Seq) (off : Nat) (s : State) :
    (startTransfer off 0 (enter .fast q s)).done = 0 ∧ (startTransfer off 0 (enter .fast q s)).miso = s.miso ∧
      (startTransfer off 0 (enter .fast q s)).trace = (enter .fast q s).trace ∧
      (startTransfer off 0 (enter .fast q s)).cs = s.cs ∧ SameBuffer s (startTransfer off 0 (enter .fast q s)) :=
  ⟨rfl, rfl, rfl, rfl, rfl, fun _ => rfl⟩

/-- A transfer whose body only starts leaves no other trace than the wrapper's. -/
theorem ioOp_zero {q : Seq} {body : BlockProc Unit} (hg : nextGrant s = true)
    (hrun : body (enter .fast q s) = .ok () (startTransfer off 0 (enter .fast q s))) :
    ∃ t, ioOp q body reportCount s = .next t ∧ TransferredAs none 0 [] s.miso s t ∧ t.cs = s.cs ∧ SameBuffer s t := by
  obtain ⟨hdone, hmiso, htrace, hcs, hlen, hbytes⟩ := startTransfer_zero q off s
  generalize startTransfer off 0 (enter .fast q s) = u at *
  exact ⟨_, ioOp_ok hg hrun, Body.transferredAs (q := q) none ⟨hdone, hmiso, htrace⟩, hcs, hlen, hbytes⟩

theorem refuseIo_none (hs : s.seq = .idle) (hp : s.phase = .ready) : refuseIo s = none := by
  unfold refuseIo
  rw [if_neg (not_not.2 hs), if_neg (not_not.2 hp)]

theorem refuseTransfer_zero {par : Params} (hw : Held par off 0) (h : off % 512 ≠ 0) :
    refuseTransfer par off 0 = some .zeroLengthUnaligned := by
  unfold refuseTransfer
  rw [if_neg (by simp [Params.holdsOffset, Params.holdsLen, hw.offset, hw.len]), if_pos ⟨rfl, h⟩]

/-- Settles O50: at an aligned offset the wrapper alone runs; at an unaligned one the request is refused. -/
theorem zeroLength : Obligations.ZeroLength := by
  unfold Obligations.ZeroLength
  intro i offset s hi hidle hready hgrant hheld hlen hblock
  rw [hlen] at hheld
  refine ⟨fun haligned => ?_, fun hunaligned => ?_⟩
  · have hin : refuseTransfer s.par offset s.bufLen = none := by
      rw [hlen]; exact refuseTransfer_none hheld (fun _ => haligned) hblock (by omega)
    obtain ⟨t, hexec, hend, hcs, hbuf⟩ : ∃ t, exec i s = .next t ∧ TransferredAs none 0 [] s.miso s t ∧ t.cs = s.cs ∧
        SameBuffer s t := by
      rcases hi with rfl | rfl
      · rw [exec_readAt offset hidle hready hin, hlen]
        exact ioOp_zero hgrant (transferBody_zero rfl haligned _)
      · rw [exec_writeAt offset hidle hready hin, hlen]
        exact ioOp_zero hgrant (transferBody_zero rfl haligned _)
    exact ⟨t, hexec, hend.presented, hend.err, hend.events, hcs, hend.miso, hbuf⟩
  · have hout := refuseTransfer_zero hheld hunaligned
    rw [← hlen] at hout
    rcases hi with rfl | rfl
    · simp only [exec, execReadAt, refuseIo_none hidle hready, hout]
    · simp only [exec, execWriteAt, refuseIo_none hidle hready, hout]

/-! ### A card that serves the blocks of a range up to one -/

/-- A card that serves the blocks from `first` on and below `stop`, each with the bytes `answer` and the events
`events`, and behind them returns `behind`. -/
structure Served where
  answer : Nat → List Byte
  events : Nat → List Event
  first : Nat
  stop : Nat
  behind : List Byte

/-- What the card has still to return at block `b`. -/
def Served.ahead (c : Served) (b : Nat) : List Byte := (List.range' b (c.stop - b)).flatMap c.answer ++ c.behind

/-- The events of the blocks below `b`. -/
def Served.sofar (c : Served) (b : Nat) : List Event := (List.range' c.first (b - c.first)).flatMap c.events

theorem Served.ahead_of_lt {c : Served} (h : b < c.stop) : c.ahead b = c.answer b ++ c.ahead (b + 1) := by
  unfold Served.ahead
  rw [show c.stop - b = (c.stop - (b + 1)) + 1 by omega, List.range'_succ, List.flatMap_cons, List.append_assoc]

theorem Served.ahead_stop (c : Served) : c.ahead c.stop = c.behind := by simp [Served.ahead]

theorem Served.sofar_first (c : Served) : c.sofar c.first = [] := by simp [Served.sofar]

theorem Served.sofar_succ {c : Served} (h : c.first ≤ b) : c.sofar (b + 1) = c.sofar b ++ c.events b := by
  unfold Served.sofar
  rw [show b + 1 - c.first = (b - c.first) + 1 by omega, List.range'_concat, List.flatMap_append, Nat.one_mul,
    Nat.add_sub_cancel' h, List.flatMap_singleton]

/-- From the start `s` of the body to `t` the blocks below `b` have been served, and `b` is the next. -/
structure UpTo (c : Served) (off n b : Nat) (s t : State) : Prop where
  reached : Reached (bytesBefore off n b) b s t
  first : c.first ≤ b
  stop : b ≤ c.stop
  body : Body (bytesBefore off n b) (c.sofar b) (c.ahead b) s t

variable {c : Served}

theorem upTo_start (hfirst : c.first = off / 512) (hstop : c.first ≤ c.stop) (hn : n ≤ s.bufLen)
    (hm : s.miso = c.ahead c.first) : UpTo c off n (off / 512) s (startTransfer off n s) := by
  refine ⟨?_, hfirst.le, hfirst ▸ hstop, ?_, ?_, ?_⟩
  · rw [bytesBefore_first]; exact startTransfer_reached off hn
  · rw [bytesBefore_first]; rfl
  · rw [← hfirst]; exact hm
  · rw [← hfirst, c.sofar_first]; rfl

/-- Behind a block that was served. -/
theorem UpTo.step (h : UpTo c off n b s t) (hb : b < c.stop) (hv : Reached (bytesBefore off n (b + 1)) (b + 1) s v)
    (hm : v.miso = c.ahead (b + 1)) (ht : v.trace = (c.events b).reverse ++ t.trace) : UpTo c off n (b + 1) s v :=
  ⟨hv, Nat.le_succ_of_le h.first, hb, hv.done, hm, by
    rw [ht, h.body.trace, Served.sofar_succ h.first, List.reverse_append, List.append_assoc]⟩

/-- At the block that is not served. -/
theorem UpTo.fail (h : UpTo c off n c.stop s t) (hdone : u.done = bytesBefore off n c.stop) (hm : u.miso = rest)
    (ht : u.trace = es.reverse ++ t.trace) : Body (bytesBefore off n c.stop) (c.sofar c.stop ++ es) rest s u :=
  ⟨hdone, hm, by rw [ht, h.body.trace, List.reverse_append, List.append_assoc]⟩

/-- Behind the last block all bytes are done. -/
theorem UpTo.all (h : UpTo c off n (lastBlock off n + 1) s t) (hn : 0 < n) :
    Body n (c.sofar (lastBlock off n + 1)) (c.ahead (lastBlock off n + 1)) s t := by
  have hbody := h.body
  rwa [bytesBefore_end hn] at hbody

/-- Where the tail is the last step, the block register is not moved on. -/
theorem Body.nextBlock {k : Nat} (h : Body k es rest s (nextBlock t)) : Body k es rest s t := ⟨h.done, h.miso, h.trace⟩

/-! ### ReadAt on such a card (R360) -/

/-- On a transfer whose last block is `last`, the card serves each block read below `stop`, `store b` being the content
of block `b`, and fails that of `stop` with the error `e` and the events `es`, with `rest` left of its bytes (R331). -/
structure ReadCard (c : Served) (par : Params) (card : CardType) (store : Nat → List Byte) (ignored crc : List Byte)
    (last : Nat) (e : ErrCode) (es : List Event) (rest : List Byte) : Prop where
  legal : par.Legal
  ignored_length : ignored.length = 6
  crc_length : crc.length = 2
  store_length : ∀ b, (store b).length = 512
  args : RangeArgs card last
  answer : ∀ b, c.answer b = answer ignored 0x00 (packet (store b) crc)
  events : ∀ b, c.events b = readEvents par card b (store b) ignored crc
  fails : c.stop ≤ last → ∃ script, ReadFails par card c.stop ignored e script es ∧ c.behind = script ++ rest

/-- The bytes of the transfer below block `b` are in the caller's buffer, each the card's byte at its place, and no
others (R360, R169). -/
structure Stored (store : Nat → List Byte) (off n b : Nat) (s t : State) : Prop where
  filled : Filled (bytesBefore off n b) n s t
  bytes : ∀ a, a < bytesBefore off n b → t.buf.read a = (store ((off + a) / 512)).getD ((off + a) % 512) 0

theorem stored_start : Stored store off n (off / 512) s (startTransfer off n s) := by
  refine ⟨?_, fun a ha => ?_⟩
  · rw [bytesBefore_first]; exact startTransfer_filled off n
  · rw [bytesBefore_first] at ha; exact absurd ha (Nat.not_lt_zero a)

theorem Stored.same (h : Stored store off n b s t) (hu : u.buf = t.buf) : Stored store off n b s u :=
  ⟨h.filled.same hu, fun a ha => by rw [hu]; exact h.bytes a ha⟩

theorem getD_slice {d : List Byte} {j : Nat} (hj : j < m) : (slice i m d).getD j 0 = d.getD (i + j) 0 := by
  simp [slice, List.getD, List.getElem?_take_of_lt hj]

/-- The part of a block that the transfer asks for goes to its place in the buffer. -/
theorem Stored.toBuffer (h : Stored store off n b s t) (hwf : s.buf.wf = true) (hp : Part off n b i m)
    (hdone : t.done = bytesBefore off n b) (hlen : (store b).length = 512) :
    Stored store off n (b + 1) s (toBuffer (slice i m (store b)) t) := by
  have hl : (slice i m (store b)).length = m := slice_length (hlen ▸ hp.fits)
  have hfill := h.filled.toBuffer hdone (d := slice i m (store b)) (hl.symm ▸ hp.within)
  rw [hl, ← hp.next] at hfill
  refine ⟨hfill, fun a ha => ?_⟩
  have hplace := hp.place
  have hfits := hp.fits
  rw [hp.next] at ha
  show (t.buf.writeBytes t.done _).read a = _
  rw [hdone, Memory.read_writeBytes (h.filled.wf hwf), hl]
  by_cases hnew : bytesBefore off n b ≤ a
  · rw [if_pos ⟨hnew, ha⟩, getD_slice (by omega)]
    rw [show (off + a) / 512 = b by omega, show (off + a) % 512 = i + (a - bytesBefore off n b) by omega]
  · rw [if_neg fun hc => hnew hc.1]
    exact h.bytes a (Nat.lt_of_not_le hnew)

section read
variable (hcard : ReadCard c par s.cardType store ignored crc (lastBlock off n) e es rest) (hcs : s.cs = true)
include hcard hcs

/-- One block read inside a transfer: the card's block, or the failure at block `stop`. -/
theorem readBlock_upTo (hb : b ≤ lastBlock off n) (h : UpTo c off n b s t) :
    Ends (readBlock par t.blk P.blockSize) t
      (fun d u => d = store b ∧ b < c.stop ∧ Block (c.events b) (c.ahead (b + 1)) t u)
      (fun x u => x = .err e ∧ b = c.stop ∧ u.buf = t.buf ∧
        Body (bytesBefore off n c.stop) (c.sofar c.stop ++ es) rest s u) := by
  have harg := h.reached.scale hcard.args hb
  have hm := h.body.miso
  rcases h.stop.lt_or_eq with hlt | rfl
  · rw [Served.ahead_of_lt hlt, hcard.answer] at hm
    obtain ⟨u, hrun, hblock⟩ := readBlock_served hcard.legal harg (h.reached.cs hcs) hcard.ignored_length
      (hcard.store_length b) hcard.crc_length (hm.trans (answer_append ..))
    rw [← hcard.events] at hblock
    exact .of_ok hrun ⟨rfl, hlt, hblock⟩
  · obtain ⟨script, hfails, hbehind⟩ := hcard.fails hb
    rw [Served.ahead_stop, hbehind] at hm
    obtain ⟨u, hrun, hblock⟩ := readBlock_failed hcard.legal harg (h.reached.cs hcs) hcard.ignored_length hfails hm
    exact .of_error hrun ⟨rfl, rfl, hblock.only.buf, h.fail (hblock.only.transfer.done.trans h.body.done)
      hblock.miso hblock.trace⟩

/-- How the body of `ReadAt` ends at the block the card fails. -/
def ReadStopped (c : Served) (store : Nat → List Byte) (off n : Nat) (e : ErrCode) (es : List Event) (rest : List Byte)
    (s : State) (x : Stop) (u : State) : Prop :=
  x = .err e ∧ c.stop ≤ lastBlock off n ∧ Body (bytesBefore off n c.stop) (c.sofar c.stop ++ es) rest s u ∧
    Stored store off n c.stop s u

variable (hwf : s.buf.wf = true)
include hwf

theorem readPart_upTo (hp : Part off n b i m) (h : UpTo c off n b s t) (hst : Stored store off n b s t) :
    Ends (readPart par i m) t
      (fun _ u => UpTo c off n (b + 1) s (nextBlock u) ∧ Stored store off n (b + 1) s (nextBlock u))
      (ReadStopped c store off n e es rest s) := by
  refine .bind (.bind (.get (.bind ((readBlock_upTo hcard hcs hp.le_last h).mono ?_ ?_))))
  · rintro _ u ⟨rfl, hlt, hblock⟩
    refine .update (.bind (.update (.update ⟨?_, ?_⟩)))
    · have hr := (((h.reached.bus hblock.only hblock.cs).setScratch (hcard.store_length b)).toBuffer
        (slice i m (store b))).advance m
      rw [← hp.next] at hr
      exact h.step hlt hr.nextBlock hblock.miso hblock.trace
    · exact ((hst.same (u := setScratch (store b) u) hblock.only.buf).toBuffer hwf hp
        (hblock.only.transfer.done.trans h.body.done) (hcard.store_length b)).same rfl
  · rintro x u ⟨hx, rfl, hbuf, hbody⟩
    exact ⟨hx, hp.le_last, hbody, hst.same hbuf⟩

/-- A whole block leaves the blocks behind it, or the body stops there. -/
theorem readWhole_upTo (hp : Part off n b 0 512) (h : UpTo c off n b s t) (hst : Stored store off n b s t) (m : Nat) :
    (∃ u, readWhole par (m + 1) t = readWhole par m u ∧ UpTo c off n (b + 1) s u ∧ Stored store off n (b + 1) s u) ∨
      ∃ x u, readWhole par (m + 1) t = .error x u ∧ ReadStopped c store off n e es rest s x u := by
  rcases (readBlock_upTo hcard hcs hp.le_last h).cases with
    ⟨_, u, hrun, rfl, hlt, hblock⟩ | ⟨x, u, hrun, hx, rfl, hbuf, hbody⟩
  · refine .inl ⟨_, bind_ok (get_ok t) (bind_ok hrun (bind_ok (update_ok _ u) (bind_ok (update_ok _ _)
      (bind_ok (update_ok _ _) rfl)))), ?_, ?_⟩
    · have hr := ((h.reached.bus hblock.only hblock.cs).toBuffer (store b)).advance 512
      rw [← hp.next] at hr
      exact h.step hlt hr.nextBlock hblock.miso hblock.trace
    · have hall : slice 0 512 (store b) = store b := List.take_of_length_le (hcard.store_length b).le
      have hnew := (hst.same hblock.only.buf).toBuffer hwf hp (hblock.only.transfer.done.trans h.body.done)
        (hcard.store_length b)
      rw [hall] at hnew
      exact hnew.same rfl
  · exact .inr ⟨x, u, bind_ok (get_ok t) (bind_error hrun), hx, hp.le_last, hbody, hst.same hbuf⟩

/-- The body of `ReadAt`: every block, or those below the one that fails (R360, R363). -/
theorem readBody_upTo (hn : 0 < n) (hlen : n ≤ s.bufLen) (hfirst : c.first = off / 512) (hstop : c.first ≤ c.stop)
    (hm : s.miso = c.ahead c.first) :
    Ends (readBody par off n) s
      (fun _ u => lastBlock off n < c.stop ∧
        Body n (c.sofar (lastBlock off n + 1)) (c.ahead (lastBlock off n + 1)) s u ∧
        Stored store off n (lastBlock off n + 1) s u)
      (ReadStopped c store off n e es rest s) := by
  rw [readBody_eq]
  refine transferBody_ends (At := fun b t => UpTo c off n b s t ∧ Stored store off n b s t) rfl
    (fun m _ _ hp ⟨h, hst⟩ => readWhole_upTo hcard hcs hwf hp h hst m) hn
    ⟨upTo_start hfirst hstop hlen hm, stored_start⟩ (fun hp _ ⟨h, hst⟩ => readPart_upTo hcard hcs hwf hp h hst) ?_
  rintro u (⟨h, hst⟩ | ⟨h, hst⟩)
  · exact ⟨h.stop, h.all hn, hst⟩
  · exact ⟨h.stop, (h.all hn).nextBlock, hst.same rfl⟩

end read

/-! ### ReadAt as a host operation -/

/-- `ReadAt` in the contract completes on every card (R360, R363, R404). -/
theorem readAt_completes (hq : Quiet s) (hready : s.phase = .ready) (hgrant : nextGrant s = true)
    (hin : refuseTransfer s.par off s.bufLen = none) (hargs : RangeArgs s.cardType (lastBlock off s.bufLen))
    (hwf : s.buf.wf = true) :
    ∃ t, exec (.readAt off) s = .next t ∧ ∃ e k, CompletedAs e k s t ∧ (e = none → k = s.bufLen) ∧
      ShortCount [.readCmd, .startBlock] off s.bufLen t ∧ ∀ a, k ≤ a → t.buf.read a = s.buf.read a := by
  obtain ⟨-, hzero, -⟩ := refuseTransfer_inv hin
  refine readAt_next hq.seq hready hgrant hin
    ((readBody_spec s.par off s.bufLen (enter .fast .runReadAt s) le_rfl hzero).mono ?_ ?_)
  · rintro _ u ⟨⟨b, hu⟩, hfill, -⟩
    have hdone := complete_completedAs none hq.cs hu
    exact ⟨none, _, hdone, fun _ => rfl, hdone.full, hfill.rest hwf⟩
  · rintro x u ⟨k, hk, hstep, ⟨e, he, rfl, -, hu, hfill⟩ | ⟨r, -, hr⟩⟩
    · have hdone := complete_completedAs (some e) hq.cs hu
      exact ⟨e, rfl, some e, k, hdone, nofun, hdone.short (by simpa using he) hk hstep, hfill.rest hwf⟩
    · exact absurd hr (hargs.not_refused hk)

/-- The first `k` bytes of the transfer are in the buffer, each the card's byte at its place, and no others (R360,
R169). -/
structure Delivered (store : Nat → List Byte) (off k : Nat) (s t : State) : Prop where
  bytes : ∀ a, a < k → t.buf.read a = (store ((off + a) / 512)).getD ((off + a) % 512) 0
  rest : ∀ a, k ≤ a → t.buf.read a = s.buf.read a

/-- What the body has stored is delivered by its completion. -/
theorem Stored.delivered {q : Seq} {x : Option ErrCode} {p : Completion} (h : Stored store off n b (enter .fast q s) u)
    (hwf : s.buf.wf = true) (hk : bytesBefore off n b = k) : Delivered store off k s (complete x p u) := by
  subst hk
  exact ⟨h.bytes, h.filled.rest hwf⟩

section served
variable (hq : Quiet s) (hready : s.phase = .ready) (hgrant : nextGrant s = true) (hheld : Held s.par off s.bufLen)
  (hn : 0 < s.bufLen) (hend : off + s.bufLen ≤ 2 ^ 41) (hwf : s.buf.wf = true)
  (hcard : ReadCard c s.par s.cardType store ignored crc (lastBlock off s.bufLen) e es rest)
  (hfirst : c.first = off / 512) (hm : s.miso = c.ahead c.first)
include hq hready hgrant hheld hn hend hwf hcard hfirst hm

/-- On a card that serves every block of the range. -/
theorem readAt_served (hstop : c.stop = lastBlock off s.bufLen + 1) :
    ∃ t, exec (.readAt off) s = .next t ∧ TransferredAs none s.bufLen (c.sofar c.stop) c.behind s t ∧
      Delivered store off s.bufLen s t := by
  have hle : c.first ≤ c.stop := by rw [hfirst, hstop, lastBlock]; omega
  refine readAt_next hq.seq hready hgrant (refuseTransfer_none_of_pos hheld hn hend)
    ((readBody_upTo (s := enter .fast .runReadAt s) hcard hq.cs hwf hn le_rfl hfirst hle hm).mono ?_ ?_)
  · rintro _ u ⟨-, hbody, hst⟩
    rw [← hstop, c.ahead_stop] at hbody
    exact ⟨hbody.transferredAs none, hst.delivered hwf (bytesBefore_end hn)⟩
  · rintro x u ⟨-, hlast, -⟩
    omega

/-- On a card that serves the blocks of the range below one of them, and fails that. -/
theorem readAt_failed (hle : c.first ≤ c.stop) (hstop : c.stop ≤ lastBlock off s.bufLen) :
    ∃ t, exec (.readAt off) s = .next t ∧
      TransferredAs (some e) (512 * c.stop - off) (c.sofar c.stop ++ es) rest s t ∧
      Delivered store off (512 * c.stop - off) s t := by
  refine readAt_next hq.seq hready hgrant (refuseTransfer_none_of_pos hheld hn hend)
    ((readBody_upTo (s := enter .fast .runReadAt s) hcard hq.cs hwf hn le_rfl hfirst hle hm).mono ?_ ?_)
  · rintro _ u ⟨hlast, -⟩
    omega
  · rintro x u ⟨rfl, -, hbody, hst⟩
    have hk := bytesBefore_of_le hn hstop
    rw [hk] at hbody
    exact ⟨e, rfl, hbody.transferredAs (some e), hst.delivered hwf hk⟩

end served

theorem Served.ahead_first (c : Served) :
    c.ahead c.first = (List.range (c.stop - c.first)).flatMap (fun i => c.answer (c.first + i)) ++ c.behind := by
  rw [Served.ahead, List.range'_eq_map_range, List.flatMap_map]

theorem Served.sofar_range (c : Served) (b : Nat) :
    c.sofar b = (List.range (b - c.first)).flatMap (fun i => c.events (c.first + i)) := by
  rw [Served.sofar, List.range'_eq_map_range, List.flatMap_map]

/-- The card of the reads of `j` blocks from `first` on. -/
def servedReads (par : Params) (card : CardType) (store : Nat → List Byte) (ignored crc : List Byte) (first j : Nat)
    (behind : List Byte) : Served where
  answer b := answer ignored 0x00 (packet (store b) crc)
  events b := readEvents par card b (store b) ignored crc
  first := first
  stop := first + j
  behind := behind

theorem servedReads_ahead (first j : Nat) (behind : List Byte) :
    (servedReads par card store ignored crc first j behind).ahead first =
      (List.range j).flatMap (fun i => answer ignored 0x00 (packet (store (first + i)) crc)) ++ behind := by
  refine (Served.ahead_first _).trans ?_
  simp [servedReads]

theorem servedReads_sofar (first j : Nat) (behind : List Byte) :
    (servedReads par card store ignored crc first j behind).sofar (first + j) =
      (List.range j).flatMap (fun i => readEvents par card (first + i) (store (first + i)) ignored crc) := by
  refine (Served.sofar_range _ _).trans ?_
  simp [servedReads]

/-- Settles O46: all blocks of the range are served. -/
theorem readAtOnScript : Obligations.ReadAtOnScript := by
  unfold Obligations.ReadAtOnScript
  intro offset s store ignored crc rest blocks hlegal hq hready hgrant hheld hn hend haddr hwf hi hc hstore hblocks hm
  have hstop : offset / 512 + blocks = lastBlock offset s.bufLen + 1 := by rw [hblocks, lastBlock]; omega
  have hcard : ReadCard
      (servedReads s.par s.cardType store ignored crc (offset / 512) blocks rest) s.par s.cardType store ignored crc
      (lastBlock offset s.bufLen) .readCmd [] [] :=
    ⟨hlegal, hi, hc, hstore, rangeArgs_of_addressable hend haddr, fun _ => rfl, fun _ => rfl,
      fun h => absurd (hstop.symm.trans_le h) (Nat.not_succ_le_self _)⟩
  obtain ⟨t, hexec, hdone, hbytes⟩ := readAt_served hq hready hgrant hheld hn hend hwf hcard rfl
    (hm.trans (servedReads_ahead ..).symm) hstop
  refine ⟨t, hexec, hdone.err, hdone.done, hdone.miso, hbytes.bytes, hbytes.rest, ?_⟩
  rw [← servedReads_sofar]
  exact hdone.events

/-- Settles O45: on every card by what the body can do, and on a failing one by the blocks it has served. -/
theorem readAtCompletes : Obligations.ReadAtCompletes := by
  unfold Obligations.ReadAtCompletes
  intro offset s hq hready hgrant hheld hzero hblock hend haddr hwf
  have hargs := rangeArgs_of_addressable hend haddr
  refine ⟨?_, ?_⟩
  · obtain ⟨t, hexec, e, k, hdone, hfull, hshort, hrest⟩ := readAt_completes hq hready hgrant
      (refuseTransfer_none hheld hzero hblock hend) hargs hwf
    refine ⟨t, hexec, hdone.quiet, hdone.rateSel, hdone.presented, fun h => ?_, fun e he => ?_, hdone.bufLen, ?_,
      hdone.device, hdone.init, hdone.inbox, hdone.onward⟩
    · rw [hdone.done]; exact hfull (hdone.err.symm.trans h)
    · simpa using hshort e he
    · rw [hdone.done]; exact hrest
  · intro store ignored crc script rest events e j hlegal hi hc hstore hn hj hfails hm
    have hcard : ReadCard
        (servedReads s.par s.cardType store ignored crc (offset / 512) j (script ++ rest)) s.par s.cardType store
        ignored crc (lastBlock offset s.bufLen) e events rest :=
      ⟨hlegal, hi, hc, hstore, hargs, fun _ => rfl, fun _ => rfl, fun _ => ⟨script, hfails, rfl⟩⟩
    obtain ⟨t, hexec, hdone, hbytes⟩ := readAt_failed hq hready hgrant hheld hn hend hwf hcard rfl
      (hm.trans (servedReads_ahead ..).symm) (Nat.le_add_right _ _) hj
    refine ⟨t, hexec, hdone.err, hdone.done, hdone.miso, fun a ha => hbytes.bytes a (hdone.done ▸ ha),
      fun a ha => hbytes.rest a (hdone.done ▸ ha), ?_⟩
    rw [← servedReads_sofar, List.append_assoc _ _ events]
    exact hdone.events

/-! ### Block updates (R361, R332) -/

/-- The events of writing one block: CMD24 with the argument that names the block, and its packet (R332). -/
def writeEvents (par : Params) (card : CardType) (b : Nat) (new ignored during : List Byte) (response : Byte) :
    List Event :=
  [Event.cs false] ++ commandEvents par (encode par (.cmd24 (argOf card b))) ignored 0x00 ++
    exchanges (0xFE :: new ++ [par.crcDummy, par.crcDummy]) during ++ reads par [response, 0xFF] ++ [Event.cs true]

theorem updateEvents_covered {prev new : List Byte} (h : coversBlock off n b) :
    updateEvents par card off n b prev new ignored crc during response =
      writeEvents par card b new ignored during response := by
  rw [updateEvents, if_pos h, List.nil_append, writeEvents]

theorem updateEvents_uncovered {prev new : List Byte} (h : ¬coversBlock off n b) :
    updateEvents par card off n b prev new ignored crc during response =
      readEvents par card b prev ignored crc ++ writeEvents par card b new ignored during response := by
  simp only [updateEvents, if_neg h, writeEvents, List.append_assoc]

/-- On a transfer of `n` bytes at `off` from `buf`, the card serves each block update below `stop`, `old b` being the
content of block `b`, and fails that of `stop` with the error `e` and the events `es`, with `rest` left of its bytes
(R361). -/
structure WriteCard (c : Served) (par : Params) (card : CardType) (buf : Memory) (off n : Nat) (old : Nat → List Byte)
    (ignored crc during : List Byte) (response : Byte) (e : ErrCode) (es : List Event) (rest : List Byte) : Prop where
  legal : par.Legal
  ignored_length : ignored.length = 6
  crc_length : crc.length = 2
  during_length : during.length = 515
  accepted : response.extractLsb 4 0 = 5#5
  old_length : ∀ b, (old b).length = 512
  args : RangeArgs card (lastBlock off n)
  answer : ∀ b, c.answer b = updateAnswer off n b (old b) ignored crc during response
  events : ∀ b, c.events b =
    updateEvents par card off n b (old b) (blockAfter buf off n b (old b)) ignored crc during response
  fails : c.stop ≤ lastBlock off n → ∃ script,
    UpdateFails par card buf off n c.stop (old c.stop) ignored crc e script es ∧ c.behind = script ++ rest

/-- A partial block whose read is served has its patched bytes written back. -/
theorem writePart_of_read {d : List Byte} (h : readBlock par t.blk P.blockSize t = .ok d u) :
    writePart par i m t = (do writeBlock par u.blk (patch i (u.buf.readBytes u.done m) d); update (advance m))
      (setScratch (patch i (u.buf.readBytes u.done m) d) u) :=
  bind_ok (bind_ok (get_ok t) (bind_ok h (update_ok _ u))) (bind_ok (update_ok _ _) (bind_ok (get_ok _) rfl))

theorem writePart_of_readError {x : Stop} (h : readBlock par t.blk P.blockSize t = .error x u) :
    writePart par i m t = .error x u :=
  bind_error (bind_ok (get_ok t) (bind_error h))

/-- The next whole block of a transfer is the updated block, taken from the buffer without a read. -/
theorem writeWhole_succ (hp : Part off n b 0 512) (hdone : t.done = bytesBefore off n b) (hbuf : t.buf = buf)
    (prev : List Byte) (m : Nat) :
    writeWhole par (m + 1) t = (do
      writeBlock par t.blk (blockAfter buf off n b prev)
      update (advance P.blockSize)
      update nextBlock
      writeWhole par m) t := by
  have hnew : fromBuffer P.blockSize t = blockAfter buf off n b prev := by
    rw [fromBuffer, hbuf, hdone]
    exact readBytes_blockAfter hp.place hp.within prev
  rw [writeWhole]
  refine bind_ok (get_ok t) ?_
  rw [hnew]

/-- How the body of `WriteAt` ends at the block the card fails. -/
def WriteStopped (c : Served) (off n : Nat) (e : ErrCode) (es : List Event) (rest : List Byte) (s : State) (x : Stop)
    (u : State) : Prop :=
  x = .err e ∧ c.stop ≤ lastBlock off n ∧ Body (bytesBefore off n c.stop) (c.sofar c.stop ++ es) rest s u

section write
variable (hcard : WriteCard c par s.cardType s.buf off n old ignored crc during response e es rest) (hcs : s.cs = true)
include hcard hcs

/-- The read of a partial block that is served leaves the write-back of the updated block (R361, R176). -/
theorem writePart_afterRead {tail : List Byte} (hp : Part off n b i m) (h : Reached (bytesBefore off n b) b s t)
    (hbuf : t.buf = s.buf) (hm : t.miso = answer ignored 0x00 (packet (old b) crc) ++ tail) :
    ∃ u, writePart par i m t =
        (do writeBlock par u.blk (blockAfter s.buf off n b (old b)); update (advance m)) u ∧
      Reached (bytesBefore off n b) b s u ∧ u.buf = s.buf ∧ u.miso = tail ∧
      u.trace = (readEvents par s.cardType b (old b) ignored crc).reverse ++ t.trace := by
  obtain ⟨u, hrun, hblock⟩ := readBlock_served hcard.legal (h.scale hcard.args hp.le_last) (h.cs hcs)
    hcard.ignored_length (hcard.old_length b) hcard.crc_length (hm.trans (answer_append ..))
  have hu := h.bus hblock.only hblock.cs
  have hub : u.buf = s.buf := hblock.only.buf.trans hbuf
  have hpatch : patch i (u.buf.readBytes u.done m) (old b) = blockAfter s.buf off n b (old b) := by
    rw [hub, hu.done]
    exact patch_blockAfter (hcard.old_length b) hp.fits hp.place hp.covers_place
  have hrest := writePart_of_read (i := i) (m := m) hrun
  have hlen := blockAfter_length s.buf off n b (old b)
  rw [hpatch] at hrest
  generalize blockAfter s.buf off n b (old b) = new at hrest hlen
  exact ⟨setScratch new u, hrest, hu.setScratch hlen, hub, hblock.miso, hblock.trace⟩

/-- One block written inside a transfer, on a card that accepts it. -/
theorem writeBlock_upTo {new tail : List Byte} (hb : b ≤ lastBlock off n) (hnew : new.length = 512)
    (h : Reached k b s t) (hm : t.miso = answer ignored 0x00 (during ++ [response, 0xFF]) ++ tail) :
    ∃ u, writeBlock par t.blk new t = .ok () u ∧
      Block (writeEvents par s.cardType b new ignored during response) tail t u :=
  writeBlock_served hcard.legal (h.scale hcard.args hb) (h.cs hcs) hcard.ignored_length hnew hcard.during_length
    hcard.accepted hm

theorem writeBlock_stopped {new script : List Byte} {es' : List Event} (hb : b ≤ lastBlock off n)
    (hnew : new.length = 512) (h : Reached k b s t) (hfails : WriteFails par s.cardType b new ignored e script es')
    (hm : t.miso = script ++ rest) :
    ∃ u, writeBlock par t.blk new t = .error (.err e) u ∧ Block es' rest t u :=
  writeBlock_failed hcard.legal (h.scale hcard.args hb) (h.cs hcs) hcard.ignored_length hnew hfails hm

/-- A partial block that is served: read, patched and written back. -/
theorem writePart_served (hp : Part off n b i m) (hlt : m < 512) (h : UpTo c off n b s t) (hbuf : t.buf = s.buf)
    (hserved : b < c.stop) :
    ∃ u, writePart par i m t = .ok () u ∧ UpTo c off n (b + 1) s (nextBlock u) ∧ (nextBlock u).buf = s.buf := by
  have hcovers : ¬coversBlock off n b := fun hc => absurd (hp.coversBlock_iff.1 hc) hlt.ne
  have hm := h.body.miso
  rw [Served.ahead_of_lt hserved, hcard.answer, updateAnswer_uncovered hcovers] at hm
  obtain ⟨u, hread, hu, hub, hum, hut⟩ :=
    writePart_afterRead hcard hcs hp h.reached hbuf (hm.trans (answer_append ..).symm)
  obtain ⟨v, hwrite, hblock⟩ := writeBlock_upTo hcard hcs hp.le_last (blockAfter_length ..) hu
    (tail := c.ahead (b + 1)) (hum.trans (by simp [answer]))
  have hv := (hu.bus hblock.only hblock.cs).advance m
  rw [← hp.next] at hv
  refine ⟨_, hread.trans (bind_ok hwrite (update_ok _ v)), h.step hserved hv.nextBlock hblock.miso ?_,
    hblock.only.buf.trans hub⟩
  rw [hcard.events, updateEvents_uncovered hcovers, List.reverse_append, List.append_assoc, ← hut]
  exact hblock.trace

/-- A partial block that is not: its read fails, or its write behind the read. -/
theorem writePart_stopped (hp : Part off n c.stop i m) (hlt : m < 512) (h : UpTo c off n c.stop s t)
    (hbuf : t.buf = s.buf) :
    ∃ u, writePart par i m t = .error (.err e) u ∧ WriteStopped c off n e es rest s (.err e) u := by
  have hcovers : ¬coversBlock off n c.stop := fun hc => absurd (hp.coversBlock_iff.1 hc) hlt.ne
  have hm := h.body.miso
  obtain ⟨script, hfails, hbehind⟩ := hcard.fails hp.le_last
  rw [Served.ahead_stop, hbehind] at hm
  cases hfails with
  | read _ hfails =>
    obtain ⟨u, hrun, hblock⟩ := readBlock_failed hcard.legal (h.reached.scale hcard.args hp.le_last)
      (h.reached.cs hcs) hcard.ignored_length hfails hm
    exact ⟨u, writePart_of_readError hrun, rfl, hp.le_last,
      h.fail (hblock.only.transfer.done.trans h.body.done) hblock.miso hblock.trace⟩
  | write hfails =>
    rw [if_neg hcovers, List.append_assoc] at hm
    obtain ⟨u, hread, hu, -, hum, hut⟩ := writePart_afterRead hcard hcs hp h.reached hbuf hm
    obtain ⟨v, hwrite, hblock⟩ := writeBlock_stopped hcard hcs hp.le_last (blockAfter_length ..) hu hfails hum
    refine ⟨v, hread.trans (bind_error hwrite), rfl, hp.le_last,
      h.fail (hblock.only.transfer.done.trans hu.done) hblock.miso ?_⟩
    rw [if_neg hcovers, List.reverse_append, List.append_assoc, ← hut]
    exact hblock.trace

/-- A whole block that is served leaves the blocks behind it. -/
theorem writeWhole_served (hp : Part off n b 0 512) (h : UpTo c off n b s t) (hbuf : t.buf = s.buf)
    (hserved : b < c.stop) (m : Nat) :
    ∃ u, writeWhole par (m + 1) t = writeWhole par m u ∧ UpTo c off n (b + 1) s u ∧ u.buf = s.buf := by
  have hcovers : coversBlock off n b := hp.coversBlock_iff.2 rfl
  have hm := h.body.miso
  rw [Served.ahead_of_lt hserved, hcard.answer, updateAnswer_covered hcovers] at hm
  obtain ⟨u, hwrite, hblock⟩ :=
    writeBlock_upTo hcard hcs hp.le_last (blockAfter_length s.buf off n b (old b)) h.reached hm
  rw [← updateEvents_covered hcovers, ← hcard.events] at hblock
  have hu := (h.reached.bus hblock.only hblock.cs).advance 512
  rw [← hp.next] at hu
  rw [writeWhole_succ hp h.body.done hbuf (old b)]
  exact ⟨_, bind_ok hwrite (bind_ok (update_ok _ u) (bind_ok (update_ok _ _) rfl)),
    h.step hserved hu.nextBlock hblock.miso hblock.trace, hblock.only.buf.trans hbuf⟩

theorem writeWhole_stopped (hp : Part off n c.stop 0 512) (h : UpTo c off n c.stop s t) (hbuf : t.buf = s.buf)
    (m : Nat) : ∃ u, writeWhole par (m + 1) t = .error (.err e) u ∧ WriteStopped c off n e es rest s (.err e) u := by
  have hcovers : coversBlock off n c.stop := hp.coversBlock_iff.2 rfl
  have hm := h.body.miso
  obtain ⟨script, hfails, hbehind⟩ := hcard.fails hp.le_last
  rw [Served.ahead_stop, hbehind] at hm
  cases hfails with
  | read hpartial => exact absurd hcovers hpartial
  | write hfails =>
    rw [if_pos hcovers, List.nil_append] at hm
    obtain ⟨u, hwrite, hblock⟩ := writeBlock_stopped hcard hcs hp.le_last (blockAfter_length ..) h.reached hfails hm
    rw [writeWhole_succ hp h.body.done hbuf (old c.stop), if_pos hcovers, List.nil_append]
    exact ⟨u, bind_error hwrite, rfl, hp.le_last,
      h.fail (hblock.only.transfer.done.trans h.body.done) hblock.miso hblock.trace⟩

/-- The body of `WriteAt`: every block, or those below the one that fails (R361, R363). -/
theorem writeBody_upTo (hn : 0 < n) (hlen : n ≤ s.bufLen) (hfirst : c.first = off / 512) (hstop : c.first ≤ c.stop)
    (hm : s.miso = c.ahead c.first) :
    Ends (writeBody par off n) s
      (fun _ u => lastBlock off n < c.stop ∧ Body n (c.sofar (lastBlock off n + 1)) (c.ahead (lastBlock off n + 1)) s u)
      (WriteStopped c off n e es rest s) := by
  rw [writeBody_eq]
  refine transferBody_ends (At := fun b t => UpTo c off n b s t ∧ t.buf = s.buf) rfl
    ?_ hn ⟨upTo_start hfirst hstop hlen hm, rfl⟩ ?_ ?_
  · rintro m b t hp ⟨h, hbuf⟩
    rcases h.stop.lt_or_eq with hserved | rfl
    · exact .inl (writeWhole_served hcard hcs hp h hbuf hserved m)
    · exact .inr ⟨_, writeWhole_stopped hcard hcs hp h hbuf m⟩
  · rintro b i m t hp hlt ⟨h, hbuf⟩
    rcases h.stop.lt_or_eq with hserved | rfl
    · obtain ⟨u, hrun, hu⟩ := writePart_served hcard hcs hp hlt h hbuf hserved
      exact .of_ok hrun hu
    · obtain ⟨u, hrun, hu⟩ := writePart_stopped hcard hcs hp hlt h hbuf
      exact .of_error hrun hu
  · rintro u (⟨h, -⟩ | ⟨h, -⟩)
    · exact ⟨h.stop, h.all hn⟩
    · exact ⟨h.stop, (h.all hn).nextBlock⟩

end write

/-! ### WriteAt as a host operation -/

/-- `WriteAt` only reads the buffer, in every run that completes (R361). -/
theorem writeAt_buffer (h : exec (.writeAt off) s = .next t) : SameBuffer s t := by
  obtain ⟨-, -, hin, hrun⟩ := writeAt_inv h
  obtain ⟨-, hzero, -⟩ := refuseTransfer_inv hin
  rcases ioOp_cases (writeBody_spec s.par off s.bufLen (enter .fast .runWriteAt s) le_rfl hzero) hrun with
    ⟨u, ⟨⟨b, hu⟩, hbuf, -⟩, rfl⟩ | ⟨e, u, ⟨k, hk, hstep, ⟨e', he, -, -, hu, hbuf⟩ | ⟨r, hr, -⟩⟩, rfl⟩
  · exact ⟨hu.only.bufLen, fun a => congrArg (Memory.read · a) hbuf⟩
  · exact ⟨hu.only.bufLen, fun a => congrArg (Memory.read · a) hbuf⟩
  · exact absurd hr nofun

/-- `WriteAt` in the contract completes on every card (R361, R363, R404). -/
theorem writeAt_completes (hq : Quiet s) (hready : s.phase = .ready) (hgrant : nextGrant s = true)
    (hin : refuseTransfer s.par off s.bufLen = none) (hargs : RangeArgs s.cardType (lastBlock off s.bufLen)) :
    ∃ t, exec (.writeAt off) s = .next t ∧ ∃ e k, CompletedAs e k s t ∧ (e = none → k = s.bufLen) ∧
      ShortCount (errorsOf (.writeAt off)) off s.bufLen t := by
  obtain ⟨-, hzero, -⟩ := refuseTransfer_inv hin
  refine writeAt_next hq.seq hready hgrant hin
    ((writeBody_spec s.par off s.bufLen (enter .fast .runWriteAt s) le_rfl hzero).mono ?_ ?_)
  · rintro _ u ⟨⟨b, hu⟩, -⟩
    have hdone := complete_completedAs none hq.cs hu
    exact ⟨none, _, hdone, fun _ => rfl, hdone.full⟩
  · rintro x u ⟨k, hk, hstep, ⟨e, he, rfl, -, hu, -⟩ | ⟨r, -, hr⟩⟩
    · have hdone := complete_completedAs (some e) hq.cs hu
      exact ⟨e, rfl, some e, k, hdone, nofun, hdone.short (by simpa [errorsOf] using he) hk hstep⟩
    · exact absurd hr (hargs.not_refused hk)

section served
variable (hq : Quiet s) (hready : s.phase = .ready) (hgrant : nextGrant s = true) (hheld : Held s.par off s.bufLen)
  (hn : 0 < s.bufLen) (hend : off + s.bufLen ≤ 2 ^ 41)
  (hcard : WriteCard c s.par s.cardType s.buf off s.bufLen old ignored crc during response e es rest)
  (hfirst : c.first = off / 512) (hm : s.miso = c.ahead c.first)
include hq hready hgrant hheld hn hend hcard hfirst hm

/-- On a card that serves every block of the range. -/
theorem writeAt_served (hstop : c.stop = lastBlock off s.bufLen + 1) :
    ∃ t, exec (.writeAt off) s = .next t ∧ TransferredAs none s.bufLen (c.sofar c.stop) c.behind s t := by
  have hle : c.first ≤ c.stop := by rw [hfirst, hstop, lastBlock]; omega
  refine writeAt_next hq.seq hready hgrant (refuseTransfer_none_of_pos hheld hn hend)
    ((writeBody_upTo (s := enter .fast .runWriteAt s) hcard hq.cs hn le_rfl hfirst hle hm).mono ?_ ?_)
  · rintro _ u ⟨-, hbody⟩
    rw [← hstop, c.ahead_stop] at hbody
    exact hbody.transferredAs none
  · rintro x u ⟨-, hlast, -⟩
    omega

/-- On a card that serves the blocks of the range below one of them, and fails that. -/
theorem writeAt_failed (hle : c.first ≤ c.stop) (hstop : c.stop ≤ lastBlock off s.bufLen) :
    ∃ t, exec (.writeAt off) s = .next t ∧
      TransferredAs (some e) (512 * c.stop - off) (c.sofar c.stop ++ es) rest s t := by
  refine writeAt_next hq.seq hready hgrant (refuseTransfer_none_of_pos hheld hn hend)
    ((writeBody_upTo (s := enter .fast .runWriteAt s) hcard hq.cs hn le_rfl hfirst hle hm).mono ?_ ?_)
  · rintro _ u ⟨hlast, -⟩
    omega
  · rintro x u ⟨rfl, -, hbody⟩
    rw [bytesBefore_of_le hn hstop] at hbody
    exact ⟨e, rfl, hbody.transferredAs (some e)⟩

end served

/-- The card of the updates of the first `j` blocks of a transfer of `n` bytes at `off` from `buf`. -/
def servedUpdates (par : Params) (card : CardType) (buf : Memory) (off n : Nat) (old : Nat → List Byte)
    (ignored crc during : List Byte) (response : Byte) (j : Nat) (behind : List Byte) : Served where
  answer b := updateAnswer off n b (old b) ignored crc during response
  events b := updateEvents par card off n b (old b) (blockAfter buf off n b (old b)) ignored crc during response
  first := off / 512
  stop := off / 512 + j
  behind := behind

theorem servedUpdates_ahead (j : Nat) (behind : List Byte) :
    (servedUpdates par card buf off n old ignored crc during response j behind).ahead (off / 512) =
      (List.range j).flatMap (fun i =>
        updateAnswer off n (off / 512 + i) (old (off / 512 + i)) ignored crc during response) ++ behind := by
  refine (Served.ahead_first _).trans ?_
  simp [servedUpdates]

theorem servedUpdates_sofar (j : Nat) (behind : List Byte) :
    (servedUpdates par card buf off n old ignored crc during response j behind).sofar (off / 512 + j) =
      (List.range j).flatMap (fun i => updateEvents par card off n (off / 512 + i) (old (off / 512 + i))
        (blockAfter buf off n (off / 512 + i) (old (off / 512 + i))) ignored crc during response) := by
  refine (Served.sofar_range _ _).trans ?_
  simp [servedUpdates]

/-- Settles O49: all blocks of the range are served. -/
theorem writeAtOnScript : Obligations.WriteAtOnScript := by
  unfold Obligations.WriteAtOnScript
  intro offset s old ignored crc during rest response blocks hlegal hq hready hgrant hheld hn hend haddr hi hc hd hr
    hold hblocks hm
  have hstop : offset / 512 + blocks = lastBlock offset s.bufLen + 1 := by rw [hblocks, lastBlock]; omega
  have hcard : WriteCard
      (servedUpdates s.par s.cardType s.buf offset s.bufLen old ignored crc during response blocks rest)
      s.par s.cardType s.buf offset s.bufLen old ignored crc during response .writeCmd [] [] :=
    ⟨hlegal, hi, hc, hd, hr, hold, rangeArgs_of_addressable hend haddr, fun _ => rfl, fun _ => rfl,
      fun h => absurd (hstop.symm.trans_le h) (Nat.not_succ_le_self _)⟩
  obtain ⟨t, hexec, hdone⟩ := writeAt_served hq hready hgrant hheld hn hend hcard rfl
    (hm.trans (servedUpdates_ahead ..).symm) hstop
  refine ⟨t, hexec, hdone.err, hdone.done, hdone.miso, writeAt_buffer hexec, ?_⟩
  rw [← servedUpdates_sofar]
  exact hdone.events

/-- Settles O47: on every card by what the body can do, and on a failing one by the blocks it has served. -/
theorem writeAtCompletes : Obligations.WriteAtCompletes := by
  unfold Obligations.WriteAtCompletes
  intro offset s hq hready hgrant hheld hzero hblock hend haddr
  have hargs := rangeArgs_of_addressable hend haddr
  refine ⟨?_, ?_⟩
  · obtain ⟨t, hexec, e, k, hdone, hfull, hshort⟩ := writeAt_completes hq hready hgrant
      (refuseTransfer_none hheld hzero hblock hend) hargs
    refine ⟨t, hexec, hdone.quiet, hdone.rateSel, hdone.presented, fun h => ?_, hshort, writeAt_buffer hexec,
      hdone.device, hdone.init, hdone.inbox, hdone.onward⟩
    rw [hdone.done]; exact hfull (hdone.err.symm.trans h)
  · intro old ignored crc during script rest response events e j hlegal hi hc hd hr hold hn hj hfails hm
    have hcard : WriteCard
        (servedUpdates s.par s.cardType s.buf offset s.bufLen old ignored crc during response j (script ++ rest))
        s.par s.cardType s.buf offset s.bufLen old ignored crc during response e events rest :=
      ⟨hlegal, hi, hc, hd, hr, hold, hargs, fun _ => rfl, fun _ => rfl, fun _ => ⟨script, hfails, rfl⟩⟩
    obtain ⟨t, hexec, hdone⟩ := writeAt_failed hq hready hgrant hheld hn hend hcard rfl
      (hm.trans (servedUpdates_ahead ..).symm) (Nat.le_add_right _ _) hj
    refine ⟨t, hexec, hdone.err, hdone.done, hdone.miso, writeAt_buffer hexec, ?_⟩
    rw [← servedUpdates_sofar, List.append_assoc _ _ events]
    exact hdone.events

/-! ### A range inside one block (R361, R176) -/

/-- A block that `scale` gives an argument is addressable, and the argument is `argOf` (R330). -/
theorem addressable_of_scale {arg : U32} (hb : b < 2 ^ 32) (h : scale card (BitVec.ofNat 32 b) = .ok arg) :
    addressable card b ∧ arg = argOf card b := by
  have hval : (BitVec.ofNat 32 b).toNat = b := by rw [BitVec.toNat_ofNat]; omega
  cases card with
  | unknown => exact absurd h nofun
  | sdhc => exact ⟨.inl rfl, (Except.ok.inj h).symm⟩
  | sd1 | sd2 =>
    rw [scale_byteAddressed (by simp), hval] at h
    by_cases hlow : b < 2 ^ 23
    · rw [if_pos hlow] at h
      refine ⟨.inr ⟨by simp, hlow⟩, (Except.ok.inj h).symm.trans ?_⟩
      rw [Nat.mul_comm]; rfl
    · rw [if_neg hlow] at h
      exact absurd h nofun

theorem blockAfter_getD {prev : List Byte} {j : Nat} (hj : j < 512) :
    (blockAfter buf off n b prev).getD j 0 =
      if off ≤ 512 * b + j ∧ 512 * b + j < off + n then buf.read (512 * b + j - off) else prev.getD j 0 := by
  rw [List.getD_eq_getElem _ _ (by rw [blockAfter_length]; exact hj)]
  simp only [blockAfter, List.getElem_map, List.getElem_range]

/-- Settles O48: the range of `WriteAtOnScript` that has one block, not covered whole. -/
theorem writeAtPartialBlock : Obligations.WriteAtPartialBlock := by
  unfold Obligations.WriteAtPartialBlock
  intro offset s arg ignored old crc during rest response hlegal hq hready hgrant hheld hn hshort hfits hblock hscale hi
    hold hc hd hr hm
  have hlast : (offset + s.bufLen - 1) / 512 = offset / 512 := by omega
  have hcovers : ¬coversBlock offset s.bufLen (offset / 512) := by unfold coversBlock; omega
  obtain ⟨haddr, rfl⟩ := addressable_of_scale hblock hscale
  obtain ⟨t, hexec, herr, hdone, hmiso, -, hevents⟩ := writeAtOnScript offset s (fun _ => old) ignored crc during rest
    response 1 hlegal hq hready hgrant hheld hn (by omega) (hlast.symm ▸ haddr) hi hc hd hr (fun _ => hold) (by omega)
    (by rw [hm, List.range_one, List.flatMap_singleton, Nat.add_zero, updateAnswer_uncovered hcovers])
  refine ⟨t, blockAfter s.buf offset s.bufLen (offset / 512) old, hexec, herr, hdone, hmiso, blockAfter_length ..,
    fun a ha => ?_, fun j hj => ?_, hevents.trans ?_⟩
  · rw [blockAfter_getD (by omega), if_pos (by omega)]
    congr 1
    omega
  · by_cases hin : j < 512
    · rw [blockAfter_getD hin, if_neg (by omega)]
    · rw [List.getD_eq_default _ _ (by rw [blockAfter_length]; omega), List.getD_eq_default _ _ (by omega)]
  · rw [List.range_one, List.flatMap_singleton]
    simp only [Nat.add_zero, updateEvents, if_neg hcovers, readEvents, List.append_assoc, List.cons_append,
      List.nil_append]

end Sys2Proof.Machine

/-! PROOFS. The family of the public surface (46_public_surface.md): the queries, the wrapper of the bus-using operations,
and how an erase completes on every card. -/

namespace Sys2Proof.Machine

variable {s t u : State} {bytes : Nat}

/-! ### Queries (R381 to R383) -/

theorem refuseBusy_idle (hidle : s.seq = .idle) : refuseBusy s = none := if_pos hidle

theorem exec_writeBlockSize (hidle : s.seq = .idle) : exec .writeBlockSize s = present P.blockSize s := by
  simp only [exec, execWriteBlockSize, refuseBusy_idle hidle]

theorem exec_eraseBlockSize (hidle : s.seq = .idle) : exec .eraseBlockSize s = present 512 s := by
  simp only [exec, execEraseBlockSize, refuseBusy_idle hidle]

/-- Settles O34: the two op codes are read by their rows, and both queries present one block. -/
theorem blockSizeQueries : Obligations.BlockSizeQueries := by
  unfold Obligations.BlockSizeQueries
  exact ⟨fun _ => ⟨rfl, rfl⟩, fun _ hidle => ⟨exec_writeBlockSize hidle, exec_eraseBlockSize hidle⟩⟩

theorem sizeValue_of_lt {par : Params} (h : bytes < 2 ^ par.sizeW) : sizeValue par bytes = bytes := if_pos h

/-- Whether or not the capacity fits, what is presented has P_SIZE_W bits (R109, log 36). -/
theorem sizeValue_lt (par : Params) (bytes : Nat) : sizeValue par bytes < 2 ^ par.sizeW := by
  unfold sizeValue
  split
  · assumption
  · exact Nat.mod_lt _ (Nat.two_pow_pos _)

/-- A capacity takes 42 bits at most (R308, R309). -/
theorem capacity_lt {csd : Csd} (h : capacity csd = some bytes) : bytes < 2 ^ 42 := by
  cases csd with
  | v1 f =>
    cases h
    exact (capacityV1_bounds f).2.trans_lt (by decide)
  | v2 f =>
    cases h
    exact (capacityV2_bounds f).2.trans_lt (by decide)
  | noLayout low => cases h

theorem exec_size_of_capacity (hidle : s.seq = .idle) (hready : s.phase = .ready) (hcap : capacity s.csd = some bytes) :
    exec .size s = present (sizeValue s.par bytes) s := by
  simp only [exec, execSize, refuseBusy_idle hidle, hready, hcap, if_true]

theorem exec_size_undefined (hidle : s.seq = .idle) (hready : s.phase = .ready) (hcap : capacity s.csd = none) :
    exec .size s = .refused .capacityUndefined := by
  simp only [exec, execSize, refuseBusy_idle hidle, hready, hcap, if_true]

theorem exec_size_unready (hidle : s.seq = .idle) (hphase : s.phase ≠ .ready) :
    exec .size s = .refused .sizeWithoutConfigure := by
  simp only [exec, execSize, refuseBusy_idle hidle, hphase, if_false]

/-- Settles O33: the capacity where there is one, bounded by its 42 bits, and one refusal for each premise that fails. -/
theorem sizeCompletes : Obligations.SizeCompletes := by
  unfold Obligations.SizeCompletes
  refine ⟨fun _ => rfl, fun s hidle => ⟨fun hready n hcap => ⟨fun hwide => ?_, ?_⟩, exec_size_undefined hidle,
    exec_size_unready hidle⟩⟩
  · exact (capacity_lt hcap).trans_le (Nat.pow_le_pow_right Nat.two_pos hwide)
  · exact ⟨sizeValue s.par n, exec_size_of_capacity hidle hready hcap, sizeValue_lt s.par n, sizeValue_of_lt⟩

/-! ### The events of the wrapper (R380, R175) -/

theorem notMem_of_filter_isLock {es : List Event} {event : Event} (hes : es.filter Event.isLock = [])
    (hlock : event.isLock = true) : event ∉ es :=
  fun hmem => List.filter_eq_nil_iff.1 hes event hmem hlock

/-- Settles O57: `HostEffect` names what stands in the trace at the two ends of the wrapper, newest first. -/
theorem wrapperEvents : Obligations.WrapperEvents := by
  unfold Obligations.WrapperEvents
  intro i s t hhost hexec
  have hevents := (host_effect hhost hexec).events
  by_cases hquery : i = .size ∨ i = .writeBlockSize ∨ i = .eraseBlockSize
  · rwa [if_pos hquery] at hevents ⊢
  · rw [if_neg hquery] at hevents ⊢
    obtain ⟨hreleased, es, hnone, htrace⟩ := hevents
    have hbetween : Event.lock ∉ es.reverse ∧ Event.unlock ∉ es.reverse := by
      simp only [List.mem_reverse]
      exact ⟨notMem_of_filter_isLock hnone rfl, notMem_of_filter_isLock hnone rfl⟩
    refine ⟨hreleased, es.reverse, hbetween.1, hbetween.2, eventsBetween_of (htrace.trans ?_)⟩
    simp

/-! ### EraseBlocks on every card (R337, R384, R404) -/

/-- An erase has completed with the result `e`: quiet, at the fast rate, with the device, the transfer registers and the
buffer as they were. -/
structure EraseCompletedAs (e : Option ErrCode) (s t : State) : Prop where
  quiet : Quiet t
  rateSel : t.rateSel = .fast
  presented : t.presented = some (.status t.err)
  err : t.err = e
  device : SameDevice s t
  init : SameInit s t
  transfer : SameTransfer s t
  buffer : SameBuffer s t
  inbox : t.inbox = s.inbox
  onward : Onward s t

theorem complete_eraseCompletedAs (e : Option ErrCode) (hu : BusOnly (enter .fast .runErase s) u) (hcs : u.cs = true) :
    EraseCompletedAs e s (complete e (reportStatus e u) u) where
  quiet := ⟨hcs, rfl, rfl⟩
  rateSel := hu.rateSel
  presented := rfl
  err := rfl
  device := (enter_device _ _ s).trans (hu.device.trans (complete_device _ _ u))
  init := (enter_init _ _ s).trans (hu.init.trans (complete_init _ _ u))
  transfer := (enter_transfer _ _ s).trans (hu.transfer.trans (complete_transfer _ _ u))
  buffer := ⟨hu.buffer.bufLen, hu.buffer.bytes⟩
  inbox := hu.inbox
  onward := (enter_onward _ _ s).trans (hu.onward.trans (complete_onward _ _ u))

/-- A start block with a command argument is never refused by its card (R330). -/
theorem scale_of_addressable {card : CardType} {start : U32} (h : addressable card start.toNat) :
    scale card start = .ok (argOf card start.toNat) := by
  have hscale := scale_argOf h le_rfl start.isLt
  rwa [BitVec.ofNat_toNat, BitVec.setWidth_eq] at hscale

/-- The session succeeds or fails with one of its two errors, and chip-select is released on every way out. -/
theorem eraseSession_ends {start : U32} (par : Params) (n : Nat) (h : addressable s.cardType start.toNat) :
    Ends (eraseSession par start n) s (fun _ u => BusOnly s u ∧ u.cs = true)
      (fun x u => ∃ c, x = .err c ∧ (c = .writeMultiCmd ∨ c = .writeDataResp) ∧ BusOnly s u ∧ u.cs = true) := by
  refine (eraseSession_spec par start n s).mono (fun _ _ hok => hok) ?_
  rintro x u (⟨hbus, hcs, rfl | rfl⟩ | ⟨-, r, -, hrefused⟩)
  · exact ⟨_, rfl, .inl rfl, hbus, hcs⟩
  · exact ⟨_, rfl, .inr rfl, hbus, hcs⟩
  · exact absurd ((scale_of_addressable h).symm.trans hrefused) nofun

theorem eraseBlocks_completes {start : U32} {count : U64} (hidle : s.seq = .idle) (hready : s.phase = .ready)
    (hgrant : nextGrant s = true) (hcount : start.toNat + count.toNat ≤ 2 ^ 32)
    (haddr : addressable s.cardType start.toNat) :
    ∃ t, exec (.eraseBlocks start count) s = .next t ∧
      ∃ e, (∀ c, e = some c → c = .writeMultiCmd ∨ c = .writeDataResp) ∧ EraseCompletedAs e s t := by
  rw [exec_eraseBlocks start count hidle hready (refuseErase_none hcount)]
  refine ioOp_next hgrant ((eraseSession_ends (s := enter .fast .runErase s) s.par count.toNat haddr).mono ?_ ?_)
  · rintro _ u ⟨hbus, hcs⟩
    exact ⟨none, nofun, complete_eraseCompletedAs none hbus hcs⟩
  · rintro _ u ⟨c, rfl, hc, hbus, hcs⟩
    exact ⟨c, rfl, some c, fun _ h => Option.some.inj h ▸ hc, complete_eraseCompletedAs (some c) hbus hcs⟩

/-- Settles O41: the session in the wrapper, on every card by what it can do. -/
theorem eraseBlocksCompletes : Obligations.EraseBlocksCompletes := by
  unfold Obligations.EraseBlocksCompletes
  intro start count s hidle hready hgrant hcount haddr
  obtain ⟨t, hexec, e, herrors, hdone⟩ := eraseBlocks_completes hidle hready hgrant hcount haddr
  exact ⟨t, hexec, hdone.quiet.cs, hdone.quiet.lockHeld, hdone.quiet.seq, hdone.rateSel, hdone.presented,
    fun c hc => herrors c (hdone.err.symm.trans hc), hdone.device, hdone.init, hdone.transfer, hdone.buffer, hdone.inbox,
    hdone.onward⟩

end Sys2Proof.Machine

/-! PROOFS. The family of the exceptions (60_exceptions.md): the errors a host operation can return, the invariant that
every step keeps, and the requests that are refused. -/

namespace Sys2Proof.Machine

variable {i : Instr} {s t : State} {par : Params} {card : CardType} {e : ErrCode} {b n off : Nat} {start : U32}
  {count : U64}

/-! ### The error table (R401, R402) -/

/-- Settles O56: a query leaves the error as it was, and each operation on the bus has its own row of `errorsOf`. -/
theorem errorTable : Obligations.ErrorTable := by
  unfold Obligations.ErrorTable
  intro i s t hhost _ hexec e he
  rcases (host_effect hhost hexec).errors with ⟨hquery, hkept⟩ | herrors
  · exact .inr (.inr (.inr (.inr ⟨hquery, hkept⟩)))
  have hmem := herrors e he
  rcases host_cases hhost with hquery | rfl | ⟨o, rfl⟩ | ⟨o, rfl⟩ | ⟨a, m, rfl⟩
  · rcases hquery with rfl | rfl | rfl <;> cases hmem
  · exact .inl ⟨rfl, hmem⟩
  · exact .inr (.inl ⟨o, rfl, hmem⟩)
  · exact .inr (.inr (.inl ⟨o, rfl, hmem⟩))
  · exact .inr (.inr (.inr (.inl ⟨a, m, rfl, hmem⟩)))

/-- The two codes of R401 that stand in no row of R402. -/
theorem errorsOf_producible (h : e ∈ errorsOf i) : e ≠ .param ∧ e ≠ .writeBusyTimeout := by
  cases i with
  | configure | readAt | writeAt | eraseBlocks => constructor <;> rintro rfl <;> simp [errorsOf] at h
  | _ => cases h

theorem HostEffect.err_producible (h : HostEffect i s t)
    (hs : s.err ≠ some .param ∧ s.err ≠ some .writeBusyTimeout) :
    t.err ≠ some .param ∧ t.err ≠ some .writeBusyTimeout := by
  rcases h.errors with ⟨-, hkept⟩ | herrors
  · rwa [hkept]
  · exact ⟨fun he => (errorsOf_producible (herrors _ he)).1 rfl, fun he => (errorsOf_producible (herrors _ he)).2 rfl⟩

/-! ### The invariant between requests (R404, R447) -/

theorem HostEffect.inv (h : HostEffect i s t) (hs : Inv s) : Inv t where
  settled := h.settled hs.settled
  sized := h.sized hs.sized
  buffer := h.buf hs.buffer
  widths := h.widths hs.widths
  inbox := by rw [h.inbox, h.onward.par]; exact hs.inbox
  ready := h.ready hs.ready
  fresh := h.fresh hs.fresh
  err := h.err_producible hs.err

/-- The host's buffer comes to the block in the form that the invariant asks of the one it replaces (R144, log 20). -/
theorem Inv.accept {r : Request} (h : Inv s) (hr : r ∈ s.inbox) : Inv (accept r s) := by
  obtain ⟨hplace, hbuffer, hlen⟩ := h.inbox r hr
  have hbuf : (Machine.accept r s).buf = r.buf := if_pos hplace
  have hbufLen : (Machine.accept r s).bufLen = r.bufLen := if_pos hplace
  exact {
    settled := ⟨h.settled.cs, h.settled.lockHeld, h.settled.seq⟩
    sized := ⟨h.sized.scratch, h.sized.frame, h.sized.trail, h.sized.regImg⟩
    buffer := by rw [hbuf, hbufLen]; exact hbuffer
    widths := ⟨h.widths.done, h.widths.rem, hbufLen.trans_lt hlen⟩
    inbox := fun q hq => h.inbox q (List.mem_of_mem_tail hq)
    ready := h.ready
    fresh := h.fresh
    err := h.err }

theorem place_of_decode_host {w rest : List Byte} (h : decode par .host w = .ok (i, rest)) : i.place = .host := by
  cases w with
  | nil => cases h
  | cons op bytes => exact (decodeHost_ok h).1

/-- Settles O54: what is presented comes from the host, so a step is one whole request, and its effect keeps each
part. -/
theorem stepKeepsInv : Obligations.StepKeepsInv := by
  unfold Obligations.StepKeepsInv
  intro s t hs hstep
  cases hbox : s.inbox with
  | nil =>
    simp only [step, hbox, Host.Outcome.next.injEq] at hstep
    exact hstep ▸ hs
  | cons r rs =>
    have hmem : r ∈ s.inbox := hbox ▸ List.mem_cons_self
    have hplace : r.place = .host := (hs.inbox r hmem).1
    cases hd : decode s.par r.place r.word with
    | ok decoded =>
      obtain ⟨i, rest⟩ := decoded
      rw [step_decoded hbox hd] at hstep
      rw [hplace] at hd
      exact (host_effect (place_of_decode_host hd) hstep).inv (hs.accept hmem)
    | error why =>
      have hinside : why ≠ .outsideClass := by
        rintro rfl
        have htested := (decode_outside s.par hd).2
        simp [hplace] at htested
      rw [step_refused hbox hd hinside] at hstep
      cases hstep

/-! ### Requests in the wrong state (R144, R408, R442) -/

theorem refuseIo_running (h : s.seq ≠ .idle) : refuseIo s = some .requestWhileRunning := if_pos h

theorem refuseIo_unready (hidle : s.seq = .idle) (h : s.phase ≠ .ready) : refuseIo s = some .ioWithoutConfigure := by
  unfold refuseIo
  rw [if_neg (not_not.2 hidle), if_pos h]

theorem refuseBusy_running (h : s.seq ≠ .idle) : refuseBusy s = some .requestWhileRunning := if_neg h

theorem refuseConfigure_running (h : s.seq ≠ .idle) : refuseConfigure s = some .requestWhileRunning := if_pos h

theorem refuseConfigure_twice (hidle : s.seq = .idle) (h : s.phase ≠ .fresh) :
    refuseConfigure s = some .configureTwice := by
  unfold refuseConfigure
  rw [if_neg (not_not.2 hidle), if_pos h]

theorem exec_configure_refused {r : Refusal} (h : refuseConfigure s = some r) : exec .configure s = .refused r := by
  simp only [exec, execConfigure, h]

theorem exec_transfer_refused_io {r : Refusal} (hi : i = .readAt off ∨ i = .writeAt off) (h : refuseIo s = some r) :
    exec i s = .refused r := by
  rcases hi with rfl | rfl
  · simp only [exec, execReadAt, h]
  · simp only [exec, execWriteAt, h]

theorem exec_eraseBlocks_refused_io {r : Refusal} (h : refuseIo s = some r) :
    exec (.eraseBlocks start count) s = .refused r := by
  simp only [exec, execEraseBlocks, h]

/-- A request is accepted only in IDLE (U9). -/
theorem exec_host_running (hhost : i.place = .host) (h : s.seq ≠ .idle) : exec i s = .refused .requestWhileRunning := by
  have hbusy := refuseBusy_running h
  rcases host_cases hhost with (rfl | rfl | rfl) | rfl | ⟨o, rfl⟩ | ⟨o, rfl⟩ | ⟨a, m, rfl⟩
  · simp only [exec, execSize, hbusy]
  · simp only [exec, execWriteBlockSize, hbusy]
  · simp only [exec, execEraseBlockSize, hbusy]
  · exact exec_configure_refused (refuseConfigure_running h)
  · exact exec_transfer_refused_io (.inl rfl) (refuseIo_running h)
  · exact exec_transfer_refused_io (.inr rfl) (refuseIo_running h)
  · exact exec_eraseBlocks_refused_io (refuseIo_running h)

/-! ### Operands outside the contract (R170, R213, R310, R337, R364) -/

/-- Only the record without a layout has structure field 2 or 3. -/
theorem capacity_undefined {csd : Csd} (h : csd.structureField = 2 ∨ csd.structureField = 3) : capacity csd = none := by
  cases csd with
  | v1 f | v2 f => rcases h with h | h <;> cases h
  | noLayout low => rfl

theorem exec_eraseBlocks_past (hidle : s.seq = .idle) (hready : s.phase = .ready)
    (h : 2 ^ 32 < start.toNat + count.toNat) : exec (.eraseBlocks start count) s = .refused .erasePastLastBlock := by
  have hout : refuseErase start count = some .erasePastLastBlock := if_neg (Nat.not_le.2 h)
  simp only [exec, execEraseBlocks, refuseIo_none hidle hready, hout]

theorem refuseTransfer_wide (h : ¬Held par off n) : refuseTransfer par off n = some .operandTooWide := by
  have hwide : par.holdsOffset off = false ∨ par.holdsLen n = false := by
    simp only [Params.holdsOffset, Params.holdsLen, decide_eq_false_iff_not]
    by_contra hnarrow
    rw [not_or, not_not, not_not] at hnarrow
    exact h ⟨hnarrow.1, hnarrow.2⟩
  exact if_pos hwide

theorem refuseTransfer_past (hheld : Held par off n) (hzero : n = 0 → off % 512 = 0)
    (h : 2 ^ 41 ≤ off ∨ 2 ^ 41 < off + n) : refuseTransfer par off n = some .pastLastBlock := by
  unfold refuseTransfer
  rw [if_neg (by simp [Params.holdsOffset, Params.holdsLen, hheld.offset, hheld.len]),
    if_neg fun hn => hn.2 (hzero hn.1), if_pos]
  simp only [P.blockIndexBound, P.blockSize]
  omega

theorem exec_transfer_refused {r : Refusal} (hi : i = .readAt off ∨ i = .writeAt off) (hidle : s.seq = .idle)
    (hready : s.phase = .ready) (h : refuseTransfer s.par off s.bufLen = some r) : exec i s = .refused r := by
  rcases hi with rfl | rfl
  · simp only [exec, execReadAt, refuseIo_none hidle hready, h]
  · simp only [exec, execWriteAt, refuseIo_none hidle hready, h]

/-! ### Blocks without an argument (R170, R330) -/

theorem scale_high (hcard : card = .sd1 ∨ card = .sd2) {block : U32} (h : 2 ^ 23 ≤ block.toNat) :
    scale card block = .error .blockIndexTooLarge := by
  rw [scale_byteAddressed hcard, if_neg (Nat.not_lt.2 h)]

/-- A byte-addressed card has one reason to refuse a block. -/
theorem scale_error_byteAddressed (hcard : card = .sd1 ∨ card = .sd2) {block : U32} {r : Refusal}
    (h : scale card block = .error r) : r = .blockIndexTooLarge := by
  rw [scale_byteAddressed hcard] at h
  split at h
  · cases h
  · cases h; rfl

theorem toNat_blockIndex (h : b < 2 ^ 32) : (BitVec.ofNat 32 b).toNat = b := by
  rw [BitVec.toNat_ofNat, Nat.mod_eq_of_lt h]

theorem HasArg.lt_of_byteAddressed (hcard : card = .sd1 ∨ card = .sd2) (h32 : b < 2 ^ 32) (h : HasArg card b) :
    b < 2 ^ 23 := by
  obtain ⟨arg, harg⟩ := h
  by_contra hhigh
  rw [scale_high hcard ((toNat_blockIndex h32).symm ▸ Nat.not_lt.1 hhigh)] at harg
  cases harg

theorem scaled_refused {block : U32} {r : Refusal} (h : scale s.cardType block = .error r) :
    scaled block s = .error (.refuse r) s := by
  unfold scaled
  rw [h]

/-- An erase whose start block has no argument stops before its first command. -/
theorem exec_eraseBlocks_no_arg {r : Refusal} (hidle : s.seq = .idle) (hready : s.phase = .ready)
    (hgrant : nextGrant s = true) (hcount : start.toNat + count.toNat ≤ 2 ^ 32)
    (h : scale s.cardType start = .error r) : exec (.eraseBlocks start count) s = .refused r := by
  rw [exec_eraseBlocks start count hidle hready (refuseErase_none hcount)]
  exact ioOp_refused hgrant (bind_error (bind_error (scaled_refused (s := enter .fast .runErase s) h)))

/-- What a transfer of `n` bytes at `off` in the contract can come to, by the arguments of its blocks: it is refused at
a block without one, it fails at a block that has one, or every block has one. -/
inductive TransferOutcome (card : CardType) (errors : List ErrCode) (off n : Nat) :
    Host.Outcome State Fault Refusal → Prop
  | refused {k : Nat} {r : Refusal} : k < n → scale card (BitVec.ofNat 32 ((off + k) / 512)) = .error r →
    TransferOutcome card errors off n (.refused r)
  | failed {e : ErrCode} {t : State} : t.done < n → HasArg card ((off + t.done) / 512) → t.err = some e → e ∈ errors →
    TransferOutcome card errors off n (.next t)
  | served {t : State} : (∀ k, k < n → HasArg card ((off + k) / 512)) → TransferOutcome card errors off n (.next t)

/-- How the body of a transfer stops early, for reading and writing alike. -/
def TransferStops (errors : List ErrCode) (off n : Nat) (s : State) (x : Stop) (u : State) : Prop :=
  ∃ k, k < n ∧
    ((∃ e ∈ errors, x = .err e ∧ HasArg s.cardType ((off + k) / 512) ∧ u.done = k) ∨
      ∃ r, x = .refuse r ∧ scale s.cardType (BitVec.ofNat 32 ((off + k) / 512)) = .error r)

theorem readBody_stops (par : Params) (hn : n ≤ s.bufLen) (hzero : n = 0 → off % 512 = 0) :
    Ends (readBody par off n) s (fun _ _ => ∀ a, a < n → HasArg s.cardType ((off + a) / 512))
      (TransferStops (errorsOf (.readAt off)) off n s) := by
  refine (readBody_spec par off n s hn hzero).mono (fun _ _ h => h.2.2) ?_
  rintro x u ⟨k, hk, -, ⟨c, hc, hx, harg, hu, -⟩ | hrefused⟩
  · exact ⟨k, hk, .inl ⟨c, by simpa [errorsOf] using hc, hx, harg, hu.done⟩⟩
  · exact ⟨k, hk, .inr hrefused⟩

theorem writeBody_stops (par : Params) (hn : n ≤ s.bufLen) (hzero : n = 0 → off % 512 = 0) :
    Ends (writeBody par off n) s (fun _ _ => ∀ a, a < n → HasArg s.cardType ((off + a) / 512))
      (TransferStops (errorsOf (.writeAt off)) off n s) := by
  refine (writeBody_spec par off n s hn hzero).mono (fun _ _ h => h.2.2) ?_
  rintro x u ⟨k, hk, -, ⟨c, hc, hx, harg, hu, -⟩ | hrefused⟩
  · exact ⟨k, hk, .inl ⟨c, by simpa [errorsOf] using hc, hx, harg, hu.done⟩⟩
  · exact ⟨k, hk, .inr hrefused⟩

theorem ioOp_transferOutcome {q : Seq} {body : BlockProc Unit} {errors : List ErrCode} (hgrant : nextGrant s = true)
    (h : Ends body (enter .fast q s) (fun _ _ => ∀ a, a < n → HasArg s.cardType ((off + a) / 512))
      (TransferStops errors off n (enter .fast q s))) :
    TransferOutcome s.cardType errors off n (ioOp q body reportCount s) := by
  obtain ⟨_, u, hrun, hargs⟩ | ⟨x, u, hrun, k, hk, ⟨e, he, rfl, harg, rfl⟩ | ⟨r, rfl, hscale⟩⟩ := h.cases
  · rw [ioOp_ok hgrant hrun]
    exact .served hargs
  · rw [ioOp_error hgrant hrun]
    exact .failed hk harg rfl he
  · rw [ioOp_refused hgrant hrun]
    exact .refused hk hscale

section transfer
variable (hi : i = .readAt off ∨ i = .writeAt off) (hidle : s.seq = .idle) (hready : s.phase = .ready)
  (hgrant : nextGrant s = true) (hheld : Held s.par off s.bufLen) (hpos : 0 < s.bufLen)
  (hend : off + s.bufLen ≤ 2 ^ 41)
include hi hidle hready hgrant hheld hpos hend

theorem exec_transferOutcome : TransferOutcome s.cardType (errorsOf i) off s.bufLen (exec i s) := by
  have hin := refuseTransfer_none_of_pos hheld hpos hend
  have hzero : s.bufLen = 0 → off % 512 = 0 := fun h => absurd h hpos.ne'
  rcases hi with rfl | rfl
  · rw [exec_readAt off hidle hready hin]
    exact ioOp_transferOutcome hgrant (readBody_stops (s := enter .fast .runReadAt s) s.par le_rfl hzero)
  · rw [exec_writeAt off hidle hready hin]
    exact ioOp_transferOutcome hgrant (writeBody_stops (s := enter .fast .runWriteAt s) s.par le_rfl hzero)

/-- A transfer none of whose blocks has an argument does not get past the first of them. -/
theorem exec_transfer_no_arg {r : Refusal}
    (hnone : ∀ k, k < s.bufLen → scale s.cardType (BitVec.ofNat 32 ((off + k) / 512)) = .error r) :
    exec i s = .refused r := by
  have hout := exec_transferOutcome hi hidle hready hgrant hheld hpos hend
  generalize exec i s = outcome at hout ⊢
  cases hout with
  | refused hk hscale =>
    cases hscale.symm.trans (hnone _ hk)
    rfl
  | failed hk harg =>
    obtain ⟨arg, harg⟩ := harg
    cases harg.symm.trans (hnone _ hk)
  | served hargs =>
    obtain ⟨arg, harg⟩ := hargs 0 hpos
    cases harg.symm.trans (hnone 0 hpos)

/-- A transfer that crosses block 2^23 of a byte-addressed card is refused there, unless the card fails an earlier
block (U6, log 13). -/
theorem exec_transfer_crossing (hcard : s.cardType = .sd1 ∨ s.cardType = .sd2)
    (hlast : 2 ^ 23 ≤ (off + s.bufLen - 1) / 512) :
    exec i s = .refused .blockIndexTooLarge ∨
      ∃ t e, exec i s = .next t ∧ t.err = some e ∧ e ∈ errorsOf i ∧ off + t.done < 2 ^ 32 := by
  have hout := exec_transferOutcome hi hidle hready hgrant hheld hpos hend
  generalize exec i s = outcome at hout ⊢
  cases hout with
  | refused hk hscale => exact .inl (scale_error_byteAddressed hcard hscale ▸ rfl)
  | failed hk harg he hmem =>
    have hlow := harg.lt_of_byteAddressed hcard (by omega)
    exact .inr ⟨_, _, rfl, he, hmem, by omega⟩
  | served hargs =>
    have hlow := (hargs (s.bufLen - 1) (by omega)).lt_of_byteAddressed hcard (by omega)
    omega

end transfer

/-- Settles O59: the checks of the request clause by clause, then the arguments of its blocks. -/
theorem outsideContract : Obligations.OutsideContract := by
  unfold Obligations.OutsideContract
  intro s off start count
  have both : ∀ {r : Refusal}, (∀ i, i = .readAt off ∨ i = .writeAt off → exec i s = .refused r) →
      exec (.readAt off) s = .refused r ∧ exec (.writeAt off) s = .refused r :=
    fun h => ⟨h _ (.inl rfl), h _ (.inr rfl)⟩
  refine ⟨fun hrunning i hhost => exec_host_running hhost hrunning,
    fun hidle hphase => exec_configure_refused (refuseConfigure_twice hidle hphase),
    fun hidle hphase => ?unready,
    fun hidle hready => ⟨fun hfield => ?capacity, exec_eraseBlocks_past hidle hready, fun hwide => ?wide,
      fun hheld hlen hunaligned => ?zero, fun hheld hzero hpast => ?past,
      fun hgrant hcard => ⟨fun hhigh hcount => ?eraseHigh, fun hheld hhigh hpos hend => ?high,
        fun hheld _ hlast hpos hend i hi => ?crossing⟩,
      fun hgrant hcard => ⟨fun hcount => ?eraseUnknown, fun hheld hpos hend => ?unknown⟩⟩⟩
  case unready =>
    have hout := refuseIo_unready hidle hphase
    obtain ⟨hread, hwrite⟩ := both fun i hi => exec_transfer_refused_io hi hout
    exact ⟨hread, hwrite, exec_eraseBlocks_refused_io hout, exec_size_unready hidle hphase⟩
  case capacity => exact exec_size_undefined hidle hready (capacity_undefined hfield)
  case wide => exact both fun i hi => exec_transfer_refused hi hidle hready (refuseTransfer_wide hwide)
  case zero =>
    have hout : refuseTransfer s.par off s.bufLen = some .zeroLengthUnaligned := by
      rw [hlen] at hheld ⊢
      exact refuseTransfer_zero hheld hunaligned
    exact both fun i hi => exec_transfer_refused hi hidle hready hout
  case past => exact both fun i hi => exec_transfer_refused hi hidle hready (refuseTransfer_past hheld hzero hpast)
  case eraseHigh => exact exec_eraseBlocks_no_arg hidle hready hgrant hcount (scale_high hcard hhigh)
  case high =>
    refine both fun i hi => exec_transfer_no_arg hi hidle hready hgrant hheld hpos hend fun k hk => scale_high hcard ?_
    rw [toNat_blockIndex (by omega)]
    omega
  case crossing => exact exec_transfer_crossing hi hidle hready hgrant hheld hpos hend hcard hlast
  case eraseUnknown => exact exec_eraseBlocks_no_arg hidle hready hgrant hcount (hcard ▸ rfl)
  case unknown =>
    exact both fun i hi => exec_transfer_no_arg hi hidle hready hgrant hheld hpos hend fun k _ => hcard ▸ rfl

end Sys2Proof.Machine
